-- ==== Sys2Proof/Word.lean ====
section
/-! DEFINITION. The word types of the part and the index types of its tables (00_scope.md, section 5). -/

namespace Sys2Proof

/-- One byte of the shared window. -/
abbrev Byte := BitVec 8
/-- A 32-bit register, ticket or count modulo 2^32. -/
abbrev Word := BitVec 32
/-- ZM 0, Z2 1, Z3 2, Z4 3 (00 section 5.5). -/
abbrev ZoneId := Fin 4
/-- S0 to S15 (00 section 5.7). -/
abbrev SourceId := Fin 16
/-- Index n names outlet O(n+1) (07, R109). -/
abbrev OutletId := Fin 24
/-- Relays, over-current lines and speaker-level outlets O1 to O16. -/
abbrev SpeakerId := Fin 16
/-- Power-stage groups G1 to G4. -/
abbrev GroupId := Fin 4
/-- DE0 and DE1. -/
abbrev EngineId := Fin 2
/-- M0 to M3. -/
abbrev MeterId := Fin 4
/-- The stream buffers M1 and M2. -/
abbrev StreamId := Fin 2
/-- P0 to P13. -/
abbrev PageId := Fin 14

end Sys2Proof
end

