-- ==== Sys2Proof/Syntax.lean ====
section
/-! DEFINITION. The commands of the part: one constructor of `Instr` for each row of spec/opcode_table.json,
with the operands of the order, register write or event. An order's parameters are the signed numbers, flag bits
and byte lists that its slot holds (12 section 12.6), so that an order the part refuses can be written too. -/

namespace Sys2Proof

/-- What every order's slot carries beside its kind and parameters (12 section 12.6): the slot it stands in, its
ticket and its target index byte. -/
structure OrderHead where
  slot   : Fin 32
  ticket : Word
  target : Byte
  deriving DecidableEq, Repr

/-- The 20 position codes, in code order (00 section 5.8, 12 section 12.6). -/
inductive Position where
  | fl | fr | c | lfe1 | lfe2 | sl | sr | bl | br | bc
  | wl | wr | fhl | fhr | tfl | tfr | tml | tmr | trl | trr
  deriving DecidableEq, Repr

/-- The kind of a path of a route table (R68). -/
inductive PathKind where
  | channel | object | bass | announce
  deriving DecidableEq, Repr

/-- The origin of a path: a channel position or an object number (R68). -/
inductive Origin where
  | pos (p : Position)
  | obj (n : Fin 16)
  deriving DecidableEq, Repr

/-- The identity of a path (R68, R77): kind, origin, outlet, and for a BASS path the outlet it was split from. -/
structure PathId where
  kind   : PathKind
  origin : Origin
  outlet : OutletId
  split  : Option OutletId
  deriving DecidableEq, Repr

/-- The edge sources a meter can select (R128). -/
inductive EdgeSource where
  | outBurst (o : OutletId)
  | micCross
  | portFrame (p : SourceId)
  | portWclk (p : SourceId)
  | edgeIn1
  | edgeIn2
  | order
  deriving DecidableEq, Repr

/-- An edge: its source and its polarity (R128). -/
structure Edge where
  source : EdgeSource
  rising : Bool
  deriving DecidableEq, Repr

/-- One object description of a frame (R47), as the stream carries it; its level lies between 0 and −160 hdB. -/
structure ObjDesc where
  number    : Fin 16
  azimuth   : Nat
  elevation : Nat
  level     : Int
  deriving DecidableEq, Repr

/-- One byte of a control-line frame (R179): whether its stop bit was there, and the idle time in microseconds between its stop
bit and the next start bit; behind the frame's last byte that time is not read. -/
structure ControlByte where
  value : Byte
  stop  : Bool
  gap   : Nat
  deriving DecidableEq, Repr

/-- One reception measurement (R143): the front end's level reading, the multipath index and the pilot. -/
structure Reception where
  level     : Nat
  multipath : Nat
  pilot     : Bool
  deriving DecidableEq, Repr

/-- What begins intake (R189): a write of POST with this ticket, or a write of RUN = 1. -/
inductive IntakeStart where
  | post (ticket : Word)
  | run
  deriving DecidableEq, Repr

/-- A write that WIN makes into the window at the end of an event (R34, R35, R188, R189, R191, R192). -/
inductive EventWrite where
  /-- the result or the final state of the order of this ticket; the refusal of a further candidate is not meant -/
  | result (ticket : Word)
  /-- ACCEPTED in the slot of the order of this ticket -/
  | accepted (ticket : Word)
  /-- the drain mark of a stream -/
  | mark (m : StreamId)
  /-- the header -/
  | header
  /-- a page, behind its odd revision -/
  | page (p : PageId)
  deriving DecidableEq, Repr

/-- Which window access ended in a bus error (R63, R187, R189, R192, R195). The accesses of an intake come with the write that begins
it and with the number of its turns that went well before. -/
inductive BusAccess where
  /-- the header read of a start -/
  | headerRead
  /-- a slot read of the turn behind those, before its order is handed to its owner -/
  | intakeRead (start : IntakeStart) (turns : Nat)
  /-- in the turn behind those, the refusal of this slot, a further candidate for ticket NT -/
  | duplicateWrite (start : IntakeStart) (turns : Nat) (slot : Fin 32)
  /-- in the turn behind those, the data block read of its LAYOUT_LOAD or WAKE_TABLE order -/
  | blockRead (start : IntakeStart) (turns : Nat)
  /-- a write of the turn behind those, after its order was handed to its owner, or after its gap -/
  | intakeWrite (start : IntakeStart) (turns : Nat) (write : EventWrite)
  /-- a write of the event that begins the intake, before its first turn -/
  | openingWrite (start : IntakeStart) (write : EventWrite)
  /-- a write of the event just past -/
  | written (write : EventWrite)
  /-- a mark or data access of a stream -/
  | stream (m : StreamId)
  deriving DecidableEq, Repr

/-- The commands, in the order of spec/opcode_table.json. -/
inductive Instr where
  -- orders (12 section 12.7)
  | zonePower (h : OrderHead) (power : Int)
  | zoneSource (h : OrderHead) (source : Int)
  | announce (h : OrderHead) (enable : Bool) (source duck level route : Int)
  | sourceProfile (h : OrderHead) (formatsValid : Bool) (supported : BitVec 5) (active : Int)
      (carriageValid : Bool) (carriageClass : Int)
  | sourcePolicy (h : OrderHead) (preferPcm enable : Bool)
  | streamSetup (h : OrderHead) (offset size format rate : Int)
  | streamStop (h : OrderHead)
  | layoutLoad (h : OrderHead) (offset length : Int)
  | positionMute (h : OrderHead) (position state : Int)
  | volume (h : OrderHead) (mode value : Int)
  | mute (h : OrderHead) (state : Int)
  | dialogueLift (h : OrderHead) (value : Int)
  | lipsync (h : OrderHead) (latency offset : Int)
  | outletAssign (h : OrderHead) (primaryZone primaryPos alternateZone alternatePos : Int)
  | outletSet (h : OrderHead) (trimValid distanceValid : Bool) (trim distance : Int)
  | outletClear (h : OrderHead)
  | triggerSet (h : OrderHead) (kind index polarity drive : Int)
  | measure (h : OrderHead) (aSource aIndex aPolarity bSource bIndex bPolarity bCount : Int) (ordered : Bool)
      (limit threshold : Int)
  | measureCancel (h : OrderHead) (ticket : Int)
  | tunerSetup (h : OrderHead) (region sFm sAm : Int)
  | tune (h : OrderHead) (band frequency mode : Int)
  | seek (h : OrderHead) (direction : Int)
  | scan (h : OrderHead) (band : Int)
  | presetStore (h : OrderHead) (kind band frequency mode : Int) (name : Vector Byte 8)
  | presetRecall (h : OrderHead)
  | presetClear (h : OrderHead)
  | testSignal (h : OrderHead) (mode outlet zone level : Int)
  | calibrate (h : OrderHead) (outlets : List Byte) (bursts threshold target : Int) (apply : Bool)
  | calAbort (h : OrderHead)
  | wakeTable (h : OrderHead) (offset length : Int)
  | wakeLock (h : OrderHead)
  | resumeSet (h : OrderHead) (k : Int)
  | idleSet (h : OrderHead) (count unit : Int)
  | idleExpire (h : OrderHead)
  | standbyNow (h : OrderHead)
  | indicatorSet (h : OrderHead) (function mode : Int)
  -- window registers, reset and window faults
  | controlRunSet
  | controlRunClear
  | controlSoftReset
  | controlIrqEn (enable : Bool)
  | post (ticket : Word)
  | news (mask : Word)
  | registerWrite (offset : Nat) (value : Word)
  | softResetTakesEffect
  | busError (access : BusAccess)
  -- supplies and the Standby Block
  | backupStart
  | coldStart
  | mainGoodRise
  | mainGoodFall
  | supplyTimeout
  | sleepCountdownExpiry
  | historySample
  /-- the lengths of marks and spaces in microseconds, the leader mark first, the end space last -/
  | irFrame (lengths : List Nat)
  /-- the bytes of the frame, the first one first -/
  | controlLineFrame (bytes : List ControlByte)
  | wakeArmedExpiry (entry : Fin 8)
  | wakeInAssertion
  | idleTimerExpiry (z : ZoneId)
  | indicatorBlinkToggle (line : Fin 4)
  -- zones
  | zoneSettleExpiry (z : ZoneId)
  | zoneStopRampEnd (z : ZoneId)
  | sourceSwitchHoldSilent (z : ZoneId)
  | announceHoldExpiry (z : ZoneId)
  | zoneSignalDetect (z : ZoneId)
  | zoneSignalWindowExpiry (z : ZoneId)
  -- sources, streams and engines
  | sourceSignalDetect (s : SourceId)
  | sourceSignalWindowExpiry (s : SourceId)
  | portWclkFirstEdge (port : SourceId)
  | claimRetryExpiry (port : SourceId)
  | clockLoss (port : SourceId)
  | periodicCheckDue (port : SourceId)
  | preamble (s : SourceId) (code : Nat)
  | noPreambleCountExpiry (s : SourceId)
  | portFrameStatusChange (port : SourceId) (lanes layout : Nat)
  | formatChangeHoldSilent (z : ZoneId)
  | decodeRetryExpiry (s : SourceId)
  | streamFillMarkRead (m : StreamId)
  | streamUnderrun (m : StreamId)
  | bitstreamFrame (e : EngineId) (checkPasses : Bool) (objects : List ObjDesc)
  | phaseTimerExpiry (e : EngineId)
  -- levels, delays and outlets
  | pathRampEnd (z : ZoneId) (path : PathId)
  | regrantHoldSilent (z : ZoneId)
  | withdrawalEnd (o : OutletId)
  | overcurrentAsserted (o : SpeakerId)
  | overcurrentCleared (o : SpeakerId)
  | tripRetryExpiry (o : OutletId)
  | tripHistoryExpiry (o : OutletId)
  | temperatureWarningChange (g : GroupId) (w : Fin 4)
  | tsdAsserted (g : GroupId)
  | tsdCleared (g : GroupId)
  | dcfAsserted (g : GroupId)
  | dcfCleared (g : GroupId)
  -- meters
  /-- `after` meter ticks pass, then the edge is detected -/
  | meterEdge (after : Nat) (edge : Edge)
  | meterLimitExpiry (m : MeterId)
  -- tuner
  | tunerSettleExpiry (r : Reception)
  | tunerMeasurementDue (r : Reception)
  | seekDwellEnd (r : Reception)
  | scanDwellEnd (r : Reception)
  /-- the content of this and the next two, `none` for a group with an error that the subcarrier decoder cannot correct (R157) -/
  | idGroup (identity : Option (BitVec 16))
  | nameGroup (segment : Fin 4) (chars : Option (Vector Byte 2))
  | textGroup (segment : Fin 16) (flip : Bool) (chars : Option (Vector Byte 4))
  -- test generator and calibration
  | testHoldSilent
  | walkSoundingEnd
  | walkGapEnd
  | calibrationHoldSilent
  | calBurstEnd
  | calTimingStepExpiry
  /-- the microphone's RMS level over the last 200 ms, in tenths of a dBFS -/
  | calLevelStepExpiry (level : Int)
  deriving DecidableEq, Repr

end Sys2Proof
end

