-- ==== Sys2Proof/Decode.lean ====
section
/-! DEFINITION. The commands that a word spells by the bits of spec/opcode_table.json: no row of the table gives bits
(98_reader.md counts 107 rows unread), so no word spells a command. An order's slot is read by Machine/Slot.lean. -/

namespace Sys2Proof

/-- No row of the table has fixed bits or fields, so no word is a command. -/
def decodeTableWord (_nbits _w : Nat) : Option Instr := none

end Sys2Proof
end

