-- ==== Sys2Proof/Config.lean ====
section
/-! DEFINITION. The fixed figures of the part that several blocks use, and the free values: constants with no body,
for results the spec does not state (logs 16, 48, 57, 77). -/

namespace Sys2Proof.Config

/-- Render samples in a millisecond (00 section 5.3). -/
abbrev samplesPerMs : Nat := 48
/-- Meter ticks in a render sample (00 section 5.3). -/
abbrev ticksPerSample : Nat := 512
/-- Meter ticks in a millisecond (R131). -/
abbrev ticksPerMs : Nat := 24576
/-- Delay blocks in the pool (R94). -/
abbrev poolBlocks : Nat := 2048
/-- Applied gain of silence, −200 hdB, in 1/48 hdB (R81, R85). -/
abbrev silence : Int := -9600
/-- Offset of the free area of the window (R34, R63, R180). -/
abbrev freeArea : Nat := 32768

/-- A duration given in milliseconds, in render samples. -/
abbrev ms (n : Nat) : Nat := n * samplesPerMs

/-- The length of a concealment fade, in render samples (R56). -/
abbrev fadeLength : Nat := ms 2

/-- FREE VALUE (log 16): the idle count that IDLE_SET stores for a count below 0, of which R182 says nothing. -/
opaque idleCountBelowZero : Int → Fin 256
/-- FREE VALUE (log 16): the carriage class, less one, that SOURCE_PROFILE stores for a class outside 1 to 4 while
carriage-valid is clear, of which R39 says nothing. -/
opaque invalidCarriageClass : Int → Fin 4
/-- FREE VALUE (log 16): what a flag byte of a data block that is neither 0 nor 1 stands for, of which R61, R180 and
section 12.6 say nothing. -/
opaque flagByte : Byte → Bool

/-- FREE VALUE (log 48): the level, negated, of an object whose description carries a level outside 0 to −160, of which R47 says
nothing. -/
opaque objectLevel : Int → Fin 161
/-- FREE VALUE (log 57): the factor of an engine's output `n` samples from silence within a 2 ms fade, of whose course R56 says
nothing. -/
opaque fadeFactor : Nat → ℚ

/-- FREE VALUE (log 77): the level, the multipath index and the pilot that the front end reads at a clock time, for the last dwell of a
scan that a TUNE or PRESET_RECALL meets at its end, of which R154 gives the entry and not the reading. -/
opaque sweepReading : Nat → Fin 101 × Fin 16 × Bool

end Sys2Proof.Config
end

