-- ==== Sys2Proof/Machine/State.lean ====
section
/-! DEFINITION. Everything the spec gives the part to remember, block by block, as plain data, and its value right after
reset. Each record's docstring names the rule whose table it is. -/

namespace Sys2Proof.Machine

/-! ### Names of values -/

/-- The five stream formats, in code order (R19, 00 section 5.9). -/
inductive Format where
  | obj | hrs | sur | pcm8 | pcm2
  deriving DecidableEq, Repr

/-- The nominal rates (R20). -/
inductive Rate where
  | r32 | r44 | r48 | r88 | r96 | r176 | r192
  deriving DecidableEq, Repr

/-- Zone power states (R1). -/
inductive Power where
  | off | starting | on | stopping
  deriving DecidableEq, Repr

/-- Programme states (R1, R13). -/
inductive Programme where
  | none | acquiring | waitEngine | startingDecode | playing | noProgramme | tunerSettling | stalled
  deriving DecidableEq, Repr

/-- Stop causes (R1, R8). -/
inductive StopCause where
  | order | idle | standby | fault
  deriving DecidableEq, Repr

/-- Announcement states (R16). -/
inductive AnnState where
  | off | ready | active | hold | unusable
  deriving DecidableEq, Repr

/-- Announcement routes (R15, R17). -/
inductive AnnRoute where
  | frontPair | centre | all
  deriving DecidableEq, Repr

/-- Source states (R19). -/
inductive SrcState where
  | noSignal | acquiring | locked | unsupported | stalled
  deriving DecidableEq, Repr

/-- Acquisition phases, and the reasons of UNSUPPORTED: both are RATE or FORMAT (R19). -/
inductive Phase where
  | rate | format
  deriving DecidableEq, Repr

/-- Decode states of a source (R19). -/
inductive Decode where
  | none | engaged | failed
  deriving DecidableEq, Repr

/-- Offer reasons (R19, R41). -/
inductive OfferReason where
  | none | limitCarriage | limitEngine | policyPcm | profileInvalid
  deriving DecidableEq, Repr

/-- Engine states (R44). -/
inductive EngineState where
  | free | starting | decoding | resync
  deriving DecidableEq, Repr

/-- Loudspeaker sizes (R61). -/
inductive SpeakerSize where
  | large | small
  deriving DecidableEq, Repr

/-- Filters of a path, with the frequency in Hz they stand at (R68, R77, R78). -/
inductive Filter where
  | none
  | high (hz : Nat)
  | low (hz : Nat)
  | lfe (hz : Nat)
  deriving DecidableEq, Repr

/-- A route coefficient: OFF or whole hdB (R68). -/
inductive Coeff where
  | off
  | hdb (k : Int)
  deriving DecidableEq, Repr

/-- A target gain: SILENT or whole hdB (R81). -/
inductive Target where
  | silent
  | gain (g : Int)
  deriving DecidableEq, Repr

/-- The kinds of hold (R87). -/
inductive Hold where
  | sourceSwitch | formatChange | regrant | test | calibration
  deriving DecidableEq, Repr

/-- Placements of an outlet (R109). -/
inductive Placement where
  | home | lending | lent | reassigning
  deriving DecidableEq, Repr

/-- Protection states (R109). -/
inductive Protection where
  | normal | derated | tripped | latched
  deriving DecidableEq, Repr

/-- Trip causes (R109). -/
inductive TripCause where
  | overcurrent | thermal | dc
  deriving DecidableEq, Repr

/-- Trigger bindings (R125). -/
inductive TriggerBinding where
  | none
  | zone (z : ZoneId)
  | source (s : SourceId)
  deriving DecidableEq, Repr

/-- Meter states (R127). -/
inductive MeterState where
  | free | armed | opened | done | over
  deriving DecidableEq, Repr

/-- Holders of a meter with their purposes (R127). -/
inductive Holder where
  | sfeRate (p : SourceId)
  | sfeCheck (p : SourceId)
  | cal
  | win (ticket : Word)
  deriving DecidableEq, Repr

/-- Tuner states (R138, R139). -/
inductive TunerState where
  | idle | tuning | listening | seeking | scanning
  deriving DecidableEq, Repr

/-- Regions (R141). -/
inductive Region where
  | a | b
  deriving DecidableEq, Repr

/-- Bands (R138). -/
inductive Band where
  | fm | am
  deriving DecidableEq, Repr

/-- Modes (R138). -/
inductive Mode where
  | auto | mono
  deriving DecidableEq, Repr

/-- Kinds of tuner order that can be in flight (R138). -/
inductive TunerOrder where
  | tune | recall | seek | scan
  deriving DecidableEq, Repr

/-- Test modes (R160). -/
inductive TestMode where
  | off | fixed | walk
  deriving DecidableEq, Repr

/-- Walk phases (R160). -/
inductive WalkPhase where
  | sounding | gap
  deriving DecidableEq, Repr

/-- Run states of a calibration (R165). -/
inductive RunState where
  | idle | claiming | muting | measuring
  deriving DecidableEq, Repr

/-- The two steps of an outlet's measurement (R165). -/
inductive CalStep where
  | timing | level
  deriving DecidableEq, Repr

/-- Statuses of a result entry (R165). -/
inductive CalStatus where
  | pending | ok | timingFail | noResponse | fault | absent | notMeasured
  deriving DecidableEq, Repr

/-- Power states of the Standby Block (11 section 11.2). -/
inductive PowerState where
  | standby | active | sleepPending
  deriving DecidableEq, Repr

/-- Actions of a wake pattern (R180). -/
inductive WakeAction where
  | wake
  | wakeWithSource (s : SourceId)
  | report
  deriving DecidableEq, Repr

/-- The lines whose frames a wake pattern is compared with (R180). -/
inductive WakeLine where
  | ir | control
  deriving DecidableEq, Repr

/-- Wake causes (R175). -/
inductive WakeCause where
  | pattern (entry : Fin 8)
  | line
  | resume
  deriving DecidableEq, Repr

/-- Last matches (R179, R181). -/
inductive LastMatch where
  | entry (n : Fin 8)
  | line
  deriving DecidableEq, Repr

/-- Indicator functions (R184). -/
inductive IndFunction where
  | standby | protect | object | stereo | manual
  deriving DecidableEq, Repr

/-- Indicator modes (R184). -/
inductive IndMode where
  | off | on | blinkFast | blinkSlow
  deriving DecidableEq, Repr

/-- Part states (R186). -/
inductive PartState where
  | ready | running | halted | windowFault
  deriving DecidableEq, Repr

/-- Order kinds, in code order from 1 (12 section 12.7). -/
inductive OrderKind where
  | zonePower | zoneSource | announce | sourceProfile | sourcePolicy | streamSetup | streamStop | layoutLoad
  | positionMute | volume | mute | dialogueLift | lipsync | outletAssign | outletSet | outletClear | triggerSet
  | measure | measureCancel | tunerSetup | tune | seek | scan | presetStore | presetRecall | presetClear
  | testSignal | calibrate | calAbort | wakeTable | wakeLock | resumeSet | idleSet | idleExpire | standbyNow
  | indicatorSet
  deriving DecidableEq, Repr

/-- Result codes, in code order from 0 (12 section 12.7). -/
inductive ResultCode where
  | ok | busy | badKind | badTarget | badParam | badReference | notNow | locked | superseded | aborted | empty
  | duplicateTicket | faultPresent | notFound | timingFail
  deriving DecidableEq, Repr

/-! ### Window Interface -/

/-- An entry of the list of orders in flight (R189). `accepted` says that WIN has written ACCEPTED into the slot, so that
a completion expects ACCEPTED there and not POSTED (R191). -/
structure InFlight where
  ticket   : Word
  slot     : Fin 32
  kind     : OrderKind
  accepted : Bool
  /-- in flight at the entry to WINDOW_FAULT: its end is counted as ORPHANED without a write (R195) -/
  lost     : Bool := false
  deriving DecidableEq, Repr

/-- The registers and counters of the Window Interface (R186 to R189). -/
structure Win where
  partState      : PartState
  softReset      : Bool
  irqEn          : Bool
  windowBase     : Word
  post           : Word
  news           : BitVec 14
  nextTicket     : Word
  lastPost       : Word
  orderGap       : Word
  orphaned       : Word
  duplicate      : Word
  softResetCount : Word
  inFlight       : List InFlight
  revisions      : Vector Word 14
  /-- the window size in KiB read at the last start (R187) -/
  windowKiB      : Nat
  deriving DecidableEq, Repr

/-! ### Zones -/

/-- Announcement settings (R1, R15). -/
structure AnnSettings where
  enable : Bool
  source : StreamId
  duck   : Int
  level  : Int
  route  : AnnRoute
  deriving DecidableEq, Repr

/-- The zone record (R1). NO_LFE_FOR_SMALL stands in the zone's `Ctx`, the alignment flags in its `Align`. -/
structure Zone where
  power         : Power
  selected      : SourceId
  binding       : Option SourceId
  programme     : Programme
  restart       : Bool
  onOrders      : List Word
  offOrders     : List Word
  volume        : Int
  muted         : Bool
  lift          : Int
  ann           : AnnSettings
  annState      : AnnState
  videoLatency  : Int
  userOffset    : Int
  dropped       : Bool
  limited       : Bool
  signalPresent : Bool
  stopCause     : Option StopCause
  settleTimer   : Option Nat
  annHoldTimer  : Option Nat
  signalWindow  : Option Nat
  /-- the ZONE_SOURCE order whose ramp is under way (R12) -/
  switchOrder   : Option Word
  deriving DecidableEq, Repr

/-! ### Rendering and levels -/

/-- A parameter set of a layout (R61). -/
structure ParamSet where
  crossover : Nat
  lfe       : Nat
  toFronts  : Bool
  deriving DecidableEq, Repr

/-- A path of a zone's route table (R68) with its gain record (R81). `applied` is in 1/48 hdB. -/
structure Path where
  id       : PathId
  coeff    : Coeff
  filter   : Filter
  target   : Target
  applied  : Int
  fast     : Bool
  fastHold : Bool
  leaving  : Bool
  clamped  : Bool
  deriving DecidableEq, Repr

/-- A zone's rendering context (R61, R62, R65, R67, R68) and its hold set (R87). -/
structure Ctx where
  layout   : List (Position × SpeakerSize)
  full     : ParamSet
  reduced  : ParamSet
  noLfe    : Bool
  muteMap  : BitVec 20
  /-- the active parameter set is REDUCED -/
  useReduced : Bool
  /-- the resolution set of the last resolution, bit n for position code n, as the zone's page shows it (R66, R79) -/
  resolution : BitVec 20
  paths    : List Path
  holds    : List Hold
  deriving DecidableEq, Repr

/-! ### Delay alignment -/

/-- One outlet of a computed grant (R96). -/
structure GrantEntry where
  outlet   : OutletId
  distance : Nat
  delay    : Nat
  deriving DecidableEq, Repr

/-- The alignment record of a zone (R96). Held blocks and the claim follow from it and the delay lines (R94). -/
structure Align where
  dMax         : Nat
  lDec         : Nat
  requested    : Int
  lip          : Nat
  granted      : Nat
  grant        : List GrantEntry
  demand       : Nat
  lipsyncShort : Bool
  alignDropped : Bool
  lateAudio    : Bool
  pending      : Bool
  deriving DecidableEq, Repr

/-- A delay line: its applied delay and the samples that have passed since it was built (R95). -/
structure Line where
  delay : Nat
  age   : Nat
  deriving DecidableEq, Repr

/-! ### Sources -/

/-- An upstream profile (R19, R39). Bit rank − 1 of `supported` is the format of that rank. -/
structure Profile where
  formatsValid  : Bool
  supported     : BitVec 5
  active        : Option Format
  carriageValid : Bool
  carriageClass : Nat
  deriving DecidableEq, Repr

/-- A source entry (R19), with its timers (R23, R27, R31, R33). -/
structure Source where
  state         : SrcState
  phase         : Option Phase
  reason        : Option Phase
  rate          : Option Rate
  format        : Option Format
  detail        : Nat
  lanes         : Nat
  signalPresent : Bool
  decode        : Decode
  failCount     : Nat
  retryTimer    : Option Nat
  preferPcm     : Bool
  enable        : Bool
  profile       : Profile
  offer         : Format
  offerReason   : OfferReason
  claimRetry    : Option Nat
  checkTimer    : Option Nat
  signalWindow  : Option Nat
  /-- the layout code of the last frame status (R25) -/
  frameLayout   : Nat
  deriving DecidableEq, Repr

/-- Stream formats of STREAM_SETUP (R34). -/
inductive StreamFormat where
  | pcm16 | pcm24 | bitstream
  deriving DecidableEq, Repr

/-- A stream context (R34 to R38). -/
structure Stream where
  stopped  : Bool
  offset   : Nat
  size     : Nat
  format   : StreamFormat
  rate     : Rate
  readPos  : Nat
  fifo     : List Byte
  fillMark : Word
  drain    : Word
  overrun  : Bool
  /-- a window fault has ended SFE's accesses for the stream (R38) -/
  frozen   : Bool
  /-- 160ths of a stream frame played since the last whole one (log 15) -/
  frac     : Nat
  /-- samples to the next read of the fill mark, while it is read every 1 ms (R35, R36) -/
  readTimer : Option Nat
  deriving DecidableEq, Repr

/-! ### Decode engines -/

/-- An engine record (R44) with its object list (R47). -/
structure Engine where
  state      : EngineState
  source     : Option SourceId
  format     : Option Format
  latency    : Nat
  consumers  : List ZoneId
  goodRun    : Nat
  badRun     : Nat
  phaseTimer : Option Nat
  objects    : List ObjDesc
  /-- how far the output has come from silence, in samples of a 2 ms fade: 96 is full (R56) -/
  sound      : Nat
  deriving DecidableEq, Repr

/-! ### Outlets -/

/-- An assignment: a zone and a position (R109). -/
structure Assignment where
  zone     : ZoneId
  position : Position
  deriving DecidableEq, Repr

/-- An outlet record (R109) with its delay line (R95). Class and group follow from the outlet's number. -/
structure Outlet where
  primary       : Option Assignment
  alternate     : Option Assignment
  zone          : Option ZoneId
  placement     : Placement
  engaged       : Bool
  unused        : Bool
  trim          : Int
  distance      : Nat
  protection    : Protection
  cause         : Option TripCause
  history       : List Nat
  retryTimer    : Option Nat
  ceiling       : Int
  /-- the relay is CLOSED; always false for a line-level outlet -/
  relay         : Bool
  pendingAssign : Option Word
  line          : Option Line
  deriving DecidableEq, Repr

/-- A power-stage group record (R109). -/
structure Group where
  w   : Fin 4
  tsd : Bool
  dcf : Bool
  deriving DecidableEq, Repr

/-- A trigger record (R125). -/
structure Trigger where
  binding   : TriggerBinding
  activeLow : Bool
  openDrain : Bool
  asserted  : Bool
  deriving DecidableEq, Repr

/-- The levels of the lines that later checks read (R109, R121, R175). -/
structure Pins where
  oc       : Vector Bool 16
  w        : Vector (Fin 4) 4
  tsd      : Vector Bool 4
  dcf      : Vector Bool 4
  mainGood : Bool
  deriving DecidableEq, Repr

/-! ### Interval meters -/

/-- What an arming carries (R129). -/
structure Arming where
  edgeA     : Edge
  edgeB     : Edge
  bCount    : Nat
  ordered   : Bool
  limit     : Nat
  threshold : Int
  deriving DecidableEq, Repr

/-- A meter record (R127). `elapsed` is in meter ticks. `clamped` is the CLAMPED flag a MEASURE carries (R135). -/
structure Meter where
  state     : MeterState
  holder    : Option Holder
  edgeA     : Edge
  edgeB     : Edge
  bCount    : Nat
  ordered   : Bool
  limit     : Nat
  aSeen     : Bool
  bSeen     : Bool
  bEdges    : Nat
  firstA    : Option Bool
  ticks     : Nat
  elapsed   : Nat
  clamped   : Bool
  deriving DecidableEq, Repr

/-- A queued claim (R133). -/
structure Claim where
  holder  : Holder
  arming  : Arming
  clamped : Bool
  deriving DecidableEq, Repr

/-- The Interval Meter Unit (R127, R128, R133). -/
structure Imu where
  meters    : Vector Meter 4
  queue     : List Claim
  threshold : Int
  deriving DecidableEq, Repr

/-! ### Tuner -/

/-- A band, a frequency in kHz and a mode (R138). -/
structure Station where
  band : Band
  freq : Nat
  mode : Mode
  deriving DecidableEq, Repr

/-- A station list entry (R151). -/
structure ListEntry where
  band      : Band
  freq      : Nat
  level     : Nat
  multipath : Nat
  pilot     : Bool
  name      : Option (Vector Byte 8)
  deriving DecidableEq, Repr

/-- A filled preset slot (R155). -/
structure Preset where
  station : Station
  name    : Vector Byte 8
  deriving DecidableEq, Repr

/-- The data-service state (R157). -/
structure DataService where
  identity     : Option (BitVec 16)
  nameSegs     : Vector (Option (Vector Byte 2)) 4
  lastReading  : Option (Vector Byte 8)
  accepted     : Option (Vector Byte 8)
  textSegs     : Vector (Option (Vector Byte 4)) 16
  flip         : Option Bool
  textComplete : Bool
  textLength   : Nat
  deriving DecidableEq, Repr

/-- The order in flight of the tuner (R138), with the CLAMPED flag it carries. -/
structure TunerFlight where
  kind    : TunerOrder
  ticket  : Word
  clamped : Bool
  deriving DecidableEq, Repr

/-- The tuner record (R138). `softApplied` is the attenuation now applied to T, in 1/48 hdB (R145). -/
structure Tuner where
  state       : TunerState
  region      : Region
  sFm         : Nat
  sAm         : Nat
  station     : Station
  step        : Option Nat
  /-- direction UP and start frequency (R148) -/
  seek        : Option (Bool × Nat)
  ret         : Option Station
  scanBand    : Option Band
  prevEntry   : Option Nat
  order       : Option TunerFlight
  timer       : Option Nat
  measTimer   : Option Nat
  level       : Nat
  multipath   : Nat
  pilot       : Bool
  blend       : Nat
  softMute    : Nat
  softApplied : Nat
  stations    : List ListEntry
  presets     : Vector (Option Preset) 40
  ds          : DataService
  deriving DecidableEq, Repr

/-! ### Test generator and calibration -/

/-- The test record (R160). `gain` is the signal gain in 1/48 hdB. `started` is set once the TEST hold has reported
silent (R161), `fast` while the gain moves at 4 hdB per millisecond, `last` is the position last sounded (R163). -/
structure TestRec where
  mode    : TestMode
  zone    : Option ZoneId
  outlet  : Option OutletId
  level   : Int
  phase   : Option WalkPhase
  timer   : Option Nat
  gain    : Int
  started : Bool
  fast    : Bool
  last    : Option Position
  deriving DecidableEq, Repr

/-- An entry of the result list (R165); the level in tenths of a dBFS. -/
structure CalEntry where
  outlet   : OutletId
  status   : CalStatus
  valid    : Nat
  level    : Option Int
  distance : Option Nat
  trim     : Option Int
  deriving DecidableEq, Repr

/-- The place of a run: list position, step, burst number (R165). -/
structure CalPlace where
  index : Nat
  step  : CalStep
  burst : Nat
  deriving DecidableEq, Repr

/-- The run record and result list (R165). -/
structure CalRec where
  run       : RunState
  ticket    : Option Word
  zone      : Option ZoneId
  outlets   : List OutletId
  bursts    : Nat
  threshold : Int
  target    : Int
  apply     : Bool
  clamped   : Bool
  meter     : Option MeterId
  place     : Option CalPlace
  tickSum   : Nat
  valid     : Nat
  stepTimer : Option Nat
  /-- the outlet on which a tone burst sounds, and its 5 ms timer (R168) -/
  burst      : Option OutletId
  burstTimer : Option Nat
  results   : List CalEntry
  deriving DecidableEq, Repr

/-! ### Standby Block -/

/-- A wake pattern (R180). `armed` is the start time of a first frame in meter ticks. -/
structure WakeEntry where
  line   : WakeLine
  bytes  : List Byte
  double : Bool
  action : WakeAction
  armed  : Option Int
  deriving DecidableEq, Repr

/-- The idle setting and timer of a zone (R182). -/
structure Idle where
  count   : Nat
  seconds : Bool
  timer   : Option Nat
  deriving DecidableEq, Repr

/-- An indicator line (R184): its settings, the mode shown, the line level and the blink timer. -/
structure Indicator where
  function : IndFunction
  manual   : IndMode
  shown    : IndMode
  level    : Bool
  timer    : Option Nat
  deriving DecidableEq, Repr

/-- The Standby Block (R174 to R184): the always-on state, and the backup domain's history, HISTORY_VALID and resume
selection (`none` is DISABLED). -/
structure Standby where
  power        : PowerState
  supplyTimer  : Option Nat
  sleepTimer   : Option Nat
  table        : Vector (Option WakeEntry) 8
  window       : Nat
  wakeInEnable : Bool
  wakeInHigh   : Bool
  wakeLock     : Bool
  wakeCause    : Option WakeCause
  wakeSource   : Option SourceId
  lastMatch    : Option LastMatch
  idle         : Vector Idle 4
  indicators   : Vector Indicator 4
  historyTimer : Option Nat
  history      : Vector Bool 8
  historyValid : Bool
  resume       : Option (Fin 8)
  deriving DecidableEq, Repr

/-! ### The event scratch -/

/-- A result value of an order: a signed 32-bit field, or a name of eight characters (12 section 12.6). -/
inductive ResultValue where
  | num (v : Int)
  | name (n : Vector Byte 8)
  deriving DecidableEq, Repr

/-- An order that has ended in this event and whose result WIN has still to write (R191). -/
structure OrderEnd where
  ticket   : Word
  slot     : Fin 32
  accepted : Bool
  /-- the order was in flight at the entry to WINDOW_FAULT (R195) -/
  lost     : Bool := false
  refused  : Bool
  code     : ResultCode
  clamped  : Bool
  listFull : Bool
  values   : List ResultValue
  deriving DecidableEq, Repr

/-- What the running event has still to do; the model's own, emptied at the start of every event (log 6, log 12). -/
structure Ev where
  /-- zones named as causes of the event's round (R107) -/
  named     : List ZoneId
  /-- the event has released delay blocks (R106) -/
  released  : Bool
  /-- holds placed in this event, whose silent report may fall within it (R87) -/
  placed    : List (ZoneId × Hold)
  /-- withdrawals begun in this event, which end within it if the outlet is silent (R113) -/
  withdrawn : List OutletId
  /-- zones that entered STOPPING in this event (R8) -/
  stopping  : List ZoneId
  /-- zones that entered OFF in this event with restart-pending set (R9) -/
  restarts  : List ZoneId
  /-- orders ended in this event (R191) -/
  ends      : List OrderEnd
  /-- words to write into the window, by offset (R34, R35) -/
  marks     : List (Nat × Word)
  /-- pages to publish whether or not a published field has changed (R21, R97, R137, R191) -/
  dirty     : List PageId
  deriving DecidableEq, Repr

/-! ### The machine -/

/-- The part. -/
structure Chip where
  win       : Win
  zones     : Vector Zone 4
  ctxs      : Vector Ctx 4
  aligns    : Vector Align 4
  sources   : Vector Source 16
  streams   : Vector Stream 2
  engines   : Vector Engine 2
  waitQueue : List ZoneId
  outlets   : Vector Outlet 24
  groups    : Vector Group 4
  triggers  : Vector Trigger 4
  imu       : Imu
  tuner     : Tuner
  test      : TestRec
  cal       : CalRec
  sbb       : Standby
  pins      : Pins
  /-- time in meter ticks (log 15) -/
  clock     : Nat
  /-- the clock at the last main power-up, from which trip times count (R109) -/
  powerUpAt : Nat
  ev        : Ev
  deriving DecidableEq, Repr

/-- The host's DRAM: bytes at absolute addresses, addresses strictly rising, no listed byte 0 (log 5). -/
abbrev Mem := List Host.Cell

/-- What the last event wrote out, by which a write of that event that ends in a bus error is found (R195, log 14): the DRAM and the
window's bookkeeping before the writes, and then the orders ended, the stream marks, the orders accepted, whether the header was written,
and the pages, in the order in which `commit` writes them. The model's own. -/
structure Written where
  dram      : Mem
  orphaned  : Word
  news      : BitVec 14
  revisions : Vector Word 14
  ends      : List OrderEnd
  fresh     : List InFlight
  marks     : List (Nat × Word)
  header    : Bool
  pages     : List PageId
  deriving DecidableEq, Repr

/-- The state of the machine: the part, the host's DRAM that holds the shared window, what the last event wrote out, and the
waiting commands. -/
structure State where
  chip    : Chip
  dram    : Mem
  last    : Option Written
  pending : List Instr
  deriving DecidableEq, Repr

/-- No command of this block stops with a fault: bus errors and amplifier faults are next states (R195, R120), so the
type has no constructor (safe: nothing raises one). -/
inductive Fault where
  deriving DecidableEq, Repr

/-- Why a command has no meaning. -/
inductive Refusal where
  /-- Raised by an arm of `exec` whose command has no meaning yet; no arm raises it now. Safe: nothing is claimed of
  such a command. -/
  | notModelled (mnemonic : String)
  deriving DecidableEq, Repr

/-! ### Reset values of the main domain -/

/-- Main power-up values of the registers; `keep` gives what the reset kind keeps (R186, R188). -/
def Win.initial : Win where
  partState := .ready
  softReset := false
  irqEn := false
  windowBase := 0
  post := 0
  news := 0
  nextTicket := 1
  lastPost := 0
  orderGap := 0
  orphaned := 0
  duplicate := 0
  softResetCount := 0
  inFlight := []
  revisions := Vector.replicate 14 0
  windowKiB := 0

/-- R2. -/
def Zone.initial : Zone where
  power := .off
  selected := 8
  binding := none
  programme := .none
  restart := false
  onOrders := []
  offOrders := []
  volume := -80
  muted := false
  lift := 0
  ann := { enable := false, source := 0, duck := -20, level := 0, route := .frontPair }
  annState := .off
  videoLatency := 0
  userOffset := 0
  dropped := false
  limited := false
  signalPresent := false
  stopCause := none
  settleTimer := none
  annHoldTimer := none
  signalWindow := none
  switchOrder := none

/-- R62, R81. -/
def Ctx.initial : Ctx where
  layout := [(.fl, .large), (.fr, .large)]
  full := { crossover := 80, lfe := 120, toFronts := true }
  reduced := { crossover := 80, lfe := 120, toFronts := true }
  noLfe := false
  muteMap := 0
  useReduced := false
  resolution := 0
  paths := []
  holds := []

/-- R98. -/
def Align.initial : Align where
  dMax := 0
  lDec := 0
  requested := 0
  lip := 0
  granted := 0
  grant := []
  demand := 0
  lipsyncShort := false
  alignDropped := false
  lateAudio := false
  pending := false

/-- R22, and R32 for A1 to A4 and T, which are LOCKED as PCM2 at 48 kHz once the reset has been applied. -/
def Source.initial (s : SourceId) : Source :=
  let fixed := decide (8 ≤ s.val) && decide (s.val ≤ 12)
  { state := if fixed then .locked else .noSignal
    phase := none
    reason := none
    rate := if fixed then some .r48 else none
    format := if fixed then some .pcm2 else none
    detail := 0
    lanes := 0
    signalPresent := false
    decode := .none
    failCount := 0
    retryTimer := none
    preferPcm := false
    enable := true
    profile := { formatsValid := false, supported := 0, active := none, carriageValid := false, carriageClass := 1 }
    offer := .pcm2
    offerReason := .profileInvalid
    claimRetry := none
    checkTimer := none
    signalWindow := none
    frameLayout := 0 }

/-- R22: both stream contexts stopped (R38). -/
def Stream.initial : Stream where
  stopped := true
  offset := 0
  size := 0
  format := .pcm16
  rate := .r48
  readPos := 0
  fifo := []
  fillMark := 0
  drain := 0
  overrun := false
  frozen := false
  frac := 0
  readTimer := none

/-- A FREE engine (R44, R48). -/
def Engine.initial : Engine where
  state := .free
  source := none
  format := none
  latency := 0
  consumers := []
  goodRun := 0
  badRun := 0
  phaseTimer := none
  objects := []
  sound := 0

/-- R111. -/
def Outlet.initial : Outlet where
  primary := none
  alternate := none
  zone := none
  placement := .home
  engaged := false
  unused := false
  trim := 0
  distance := 0
  protection := .normal
  cause := none
  history := []
  retryTimer := none
  ceiling := 30
  relay := false
  pendingAssign := none
  line := none

/-- R125. -/
def Trigger.initial : Trigger where
  binding := .none
  activeLow := false
  openDrain := false
  asserted := false

/-- R137. -/
def Meter.initial : Meter where
  state := .free
  holder := none
  edgeA := { source := .edgeIn1, rising := true }
  edgeB := { source := .edgeIn1, rising := true }
  bCount := 1
  ordered := false
  limit := 1
  aSeen := false
  bSeen := false
  bEdges := 0
  firstA := none
  ticks := 0
  elapsed := 0
  clamped := false

/-- R137. -/
def Imu.initial : Imu where
  meters := Vector.replicate 4 Meter.initial
  queue := []
  threshold := -40

/-- A cleared data service (R157). -/
def DataService.initial : DataService where
  identity := none
  nameSegs := Vector.replicate 4 none
  lastReading := none
  accepted := none
  textSegs := Vector.replicate 16 none
  flip := none
  textComplete := false
  textLength := 0

/-- R140. -/
def Tuner.initial : Tuner where
  state := .idle
  region := .a
  sFm := 28
  sAm := 36
  station := { band := .fm, freq := 87500, mode := .auto }
  step := none
  seek := none
  ret := none
  scanBand := none
  prevEntry := none
  order := none
  timer := none
  measTimer := none
  level := 0
  multipath := 0
  pilot := false
  blend := 0
  softMute := 0
  softApplied := 0
  stations := []
  presets := Vector.replicate 40 none
  ds := DataService.initial

/-- R160. -/
def TestRec.initial : TestRec where
  mode := .off
  zone := none
  outlet := none
  level := -20
  phase := none
  timer := none
  gain := Config.silence
  started := false
  fast := false
  last := none

/-- R165. -/
def CalRec.initial : CalRec where
  run := .idle
  ticket := none
  zone := none
  outlets := []
  bursts := 1
  threshold := -40
  target := -30
  apply := false
  clamped := false
  meter := none
  place := none
  tickSum := 0
  valid := 0
  stepTimer := none
  burst := none
  burstTimer := none
  results := []

/-- Cold-start values of the always-on state, and the backup domain after a backup start (R174). -/
def Standby.initial : Standby where
  power := .standby
  supplyTimer := none
  sleepTimer := none
  table := Vector.replicate 8 none
  window := 25
  wakeInEnable := true
  wakeInHigh := false
  wakeLock := false
  wakeCause := none
  wakeSource := none
  lastMatch := none
  idle := Vector.replicate 4 { count := 0, seconds := false, timer := none }
  indicators := Vector.replicate 4 { function := .manual, manual := .off, shown := .off, level := false, timer := none }
  historyTimer := none
  history := Vector.replicate 8 false
  historyValid := false
  resume := none

/-- Quiet lines, MAIN_GOOD low (log 13). -/
def Pins.initial : Pins where
  oc := Vector.replicate 16 false
  w := Vector.replicate 4 0
  tsd := Vector.replicate 4 false
  dcf := Vector.replicate 4 false
  mainGood := false

/-- An event with nothing left to do. -/
def Ev.initial : Ev where
  named := []
  released := false
  placed := []
  withdrawn := []
  stopping := []
  restarts := []
  ends := []
  marks := []
  dirty := []

/-- The part after a backup start and a cold start: STANDBY, the main domain held in its main power-up state (R174). -/
def Chip.reset : Chip where
  win := Win.initial
  zones := Vector.replicate 4 Zone.initial
  ctxs := Vector.replicate 4 Ctx.initial
  aligns := Vector.replicate 4 Align.initial
  sources := Vector.ofFn Source.initial
  streams := Vector.replicate 2 Stream.initial
  engines := Vector.replicate 2 Engine.initial
  waitQueue := []
  outlets := Vector.replicate 24 Outlet.initial
  groups := Vector.replicate 4 { w := 0, tsd := false, dcf := false }
  triggers := Vector.replicate 4 Trigger.initial
  imu := Imu.initial
  tuner := Tuner.initial
  test := TestRec.initial
  cal := CalRec.initial
  sbb := Standby.initial
  pins := Pins.initial
  clock := 0
  powerUpAt := 0
  ev := Ev.initial

/-- The machine right after reset (log 13): no command waits, nothing is listed in DRAM. -/
def State.reset : State where
  chip := Chip.reset
  dram := []
  last := none
  pending := []

end Sys2Proof.Machine
end

