-- ==== Sys2Proof/Machine/Ops.lean ====
section
/-! DEFINITION. The named operations over the window's memory and over the part's records: byte reads and writes and
byte order (section 12.6), the canonical form of memory, one update operation for each table of the part, timers. -/

namespace Sys2Proof.Machine

/-! ### Memory -/

/-- The byte at an address; an unlisted address reads 0 (log 5). -/
def Mem.read : Mem → Nat → Byte
  | [], _ => 0
  | (b, v) :: t, a => if b = a then v else Mem.read t a

/-- The listed cells of bytes that stand from address `a` on: a byte 0 is not listed (log 5). -/
def Mem.cells (a : Nat) : List Byte → Mem
  | [] => []
  | b :: bs => if b = 0 then Mem.cells (a + 1) bs else (a, b) :: Mem.cells (a + 1) bs

/-- Memory with the bytes `bs` written from address `a` on. -/
def Mem.write (m : Mem) (a : Nat) (bs : List Byte) : Mem :=
  m.filter (fun c => decide (c.1 < a)) ++ Mem.cells a bs ++ m.filter (fun c => decide (a + bs.length ≤ c.1))

/-- The canonical form: addresses strictly rising, no listed byte 0 (log 5). -/
abbrev Mem.wf (m : Mem) : Prop := m.Pairwise (fun c d => c.1 < d.1) ∧ ∀ c ∈ m, c.2 ≠ 0

/-- `n` bytes from address `a` on. -/
def Mem.bytes (m : Mem) (a : Nat) : Nat → List Byte
  | 0 => []
  | n + 1 => Mem.read m a :: Mem.bytes m (a + 1) n

/-- The number that bytes stand for, least significant first (section 12.6: little-endian). -/
def leNat : List Byte → Nat
  | [] => 0
  | b :: bs => b.toNat + 256 * leNat bs

/-- The 32-bit field at an address. -/
def Mem.word (m : Mem) (a : Nat) : Word := BitVec.ofNat 32 (leNat (Mem.bytes m a 4))

/-- One byte of a number; a negative number as in two's complement. -/
def byteOf (v : Int) : Byte := BitVec.ofInt 8 v

/-- A 16-bit field (section 12.6). -/
def le16 (v : Int) : List Byte := [byteOf v, byteOf (v / 256)]

/-- A 32-bit field (section 12.6). -/
def le32 (v : Int) : List Byte := [byteOf v, byteOf (v / 256), byteOf (v / 65536), byteOf (v / 16777216)]

/-- A flag byte of a data block; for a byte other than 0 and 1 a free value (log 16). -/
def flagOf (b : Byte) : Bool := if b = 0 then false else if b = 1 then true else Config.flagByte b

/-- The address of the window in the host's DRAM (R186). -/
def Chip.base (c : Chip) : Nat := c.win.windowBase.toNat

/-! ### Timers -/

/-- A timer after `n` samples: it stops counting at 0, where it waits for its expiry to be taken (log 2). -/
def countDown (n : Nat) (t : Option Nat) : Option Nat := t.map (fun r => r - n)

/-- `v` held between `lo` and `hi`. -/
def clampInt (lo hi v : Int) : Int := if v < lo then lo else if hi < v then hi else v

/-- Whether clamping changes the value, which gives the CLAMPED detail flag. -/
def isOutside (lo hi v : Int) : Bool := decide (v < lo) || decide (hi < v)

/-! ### Updates of the part's tables -/

def Chip.updZone (c : Chip) (z : ZoneId) (f : Zone → Zone) : Chip := { c with zones := c.zones.set z (f c.zones[z]) }
def Chip.updCtx (c : Chip) (z : ZoneId) (f : Ctx → Ctx) : Chip := { c with ctxs := c.ctxs.set z (f c.ctxs[z]) }
def Chip.updAlign (c : Chip) (z : ZoneId) (f : Align → Align) : Chip := { c with aligns := c.aligns.set z (f c.aligns[z]) }
def Chip.updSource (c : Chip) (s : SourceId) (f : Source → Source) : Chip :=
  { c with sources := c.sources.set s (f c.sources[s]) }
def Chip.updStream (c : Chip) (m : StreamId) (f : Stream → Stream) : Chip :=
  { c with streams := c.streams.set m (f c.streams[m]) }
def Chip.updEngine (c : Chip) (e : EngineId) (f : Engine → Engine) : Chip :=
  { c with engines := c.engines.set e (f c.engines[e]) }
def Chip.updOutlet (c : Chip) (o : OutletId) (f : Outlet → Outlet) : Chip :=
  { c with outlets := c.outlets.set o (f c.outlets[o]) }
def Chip.updGroup (c : Chip) (g : GroupId) (f : Group → Group) : Chip := { c with groups := c.groups.set g (f c.groups[g]) }
def Chip.updTrigger (c : Chip) (t : Fin 4) (f : Trigger → Trigger) : Chip :=
  { c with triggers := c.triggers.set t (f c.triggers[t]) }
def Chip.updMeter (c : Chip) (m : MeterId) (f : Meter → Meter) : Chip :=
  { c with imu := { c.imu with meters := c.imu.meters.set m (f c.imu.meters[m]) } }
def Chip.updWin (c : Chip) (f : Win → Win) : Chip := { c with win := f c.win }
def Chip.updTuner (c : Chip) (f : Tuner → Tuner) : Chip := { c with tuner := f c.tuner }
def Chip.updTest (c : Chip) (f : TestRec → TestRec) : Chip := { c with test := f c.test }
def Chip.updCal (c : Chip) (f : CalRec → CalRec) : Chip := { c with cal := f c.cal }
def Chip.updSbb (c : Chip) (f : Standby → Standby) : Chip := { c with sbb := f c.sbb }
def Chip.updIdle (c : Chip) (z : ZoneId) (f : Idle → Idle) : Chip :=
  c.updSbb fun b => { b with idle := b.idle.set z (f b.idle[z]) }
def Chip.updEv (c : Chip) (f : Ev → Ev) : Chip := { c with ev := f c.ev }

/-- The zones in ascending zone order (00 section 5.5). -/
def allZones : List ZoneId := [0, 1, 2, 3]
/-- The outlets in ascending order. -/
def allOutlets : List OutletId := List.finRange 24
/-- The sources in ascending order. -/
def allSources : List SourceId := List.finRange 16
/-- The meters in ascending order (R133: the lowest-numbered FREE meter). -/
def allMeters : List MeterId := [0, 1, 2, 3]

/-! ### The event scratch -/

/-- The part with an empty event scratch: every event starts so (log 6). -/
def Chip.fresh (c : Chip) : Chip := { c with ev := Ev.initial }

/-- Name a zone as a cause of the event's round (R107). -/
def Chip.nameZone (c : Chip) (z : ZoneId) : Chip := c.updEv fun e => { e with named := z :: e.named }

/-- Publish a page at the end of the event whether or not a published field has changed. -/
def Chip.markPage (c : Chip) (p : PageId) : Chip := c.updEv fun e => { e with dirty := p :: e.dirty }

/-- The page of a zone (R3). -/
def zonePageOf (z : ZoneId) : PageId := Fin.ofNat 14 (z.val + 1)

/-- Publish a zone's page and P7, as a computation, a switch and a release of the zone's blocks ask (R97). -/
def Chip.markAlign (c : Chip) (z : ZoneId) : Chip := (c.markPage (zonePageOf z)).markPage 7

/-- The event has released delay blocks of a zone (R106). -/
def Chip.release (c : Chip) (z : ZoneId) : Chip := (c.updEv fun e => { e with released := true }).markAlign z

/-! ### Ending an order -/

/-- The owner of the order with this ticket reports its end (R191): the order leaves the list of orders in flight and WIN
writes its result at the end of the event. An order that is not in flight has no end to report; of two orders in flight with one ticket,
which a wrap of NT can bring, the first of the list ends (log 71). -/
def Chip.endOrder (c : Chip) (ticket : Word) (code : ResultCode) (refused clamped listFull : Bool)
    (values : List ResultValue) : Chip :=
  match c.win.inFlight.find? (fun e => e.ticket == ticket) with
  | none => c
  | some e =>
    { c with
      win := { c.win with inFlight := c.win.inFlight.erase e }
      ev := { c.ev with
        ends := c.ev.ends ++ [{ ticket := ticket, slot := e.slot, accepted := e.accepted, lost := e.lost,
                                refused := refused, code := code, clamped := clamped, listFull := listFull, values := values }]
        dirty := 0 :: c.ev.dirty } }

/-- The order completes DONE with result code OK. -/
def Chip.done (c : Chip) (ticket : Word) (clamped : Bool) (values : List ResultValue) : Chip :=
  c.endOrder ticket .ok false clamped false values

/-- The order completes DONE with another result code (SUPERSEDED, ABORTED, NOT_FOUND, TIMING_FAIL). -/
def Chip.doneWith (c : Chip) (ticket : Word) (code : ResultCode) (values : List ResultValue) : Chip :=
  c.endOrder ticket code false false false values

/-- The order is refused with a result code and no result values. -/
def Chip.refuse (c : Chip) (ticket : Word) (code : ResultCode) : Chip :=
  c.endOrder ticket code true false false []

end Sys2Proof.Machine
end

