-- ==== Sys2Proof/Machine/Operands.lean ====
section
/-! DEFINITION. The codes of every value that an order's parameter, a result value, a data block or a page byte carries
(section 12.6: codes count from 0 in the order in which their values are listed; log 9), and the fixed tables of the
sources (R20), the formats (R45, R46) and the zones (00 section 5.5). -/

namespace Sys2Proof.Machine

/-- The value that a code names in a list of values. -/
def ofCode {α : Type} (values : List α) (code : Int) : Option α :=
  if code < 0 then none else values[code.toNat]?

/-- The code of a value in a list of values. -/
def codeOf {α : Type} [BEq α] (values : List α) (v : α) : Int := (values.idxOf v : Nat)

/-- The byte of an absent optional field (section 12.6). -/
def absent : Int := 255

/-- The code of an optional value. -/
def optCode {α : Type} (f : α → Int) : Option α → Int
  | none => absent
  | some v => f v

def boolCode (b : Bool) : Int := if b then 1 else 0

/-! ### Lists of values, in code order -/

def Position.all : List Position :=
  [.fl, .fr, .c, .lfe1, .lfe2, .sl, .sr, .bl, .br, .bc, .wl, .wr, .fhl, .fhr, .tfl, .tfr, .tml, .tmr, .trl, .trr]
def Format.all : List Format := [.obj, .hrs, .sur, .pcm8, .pcm2]
def Power.all : List Power := [.off, .starting, .on, .stopping]
def Programme.all : List Programme :=
  [.none, .acquiring, .waitEngine, .startingDecode, .playing, .noProgramme, .tunerSettling, .stalled]
def StopCause.all : List StopCause := [.order, .idle, .standby, .fault]
def AnnState.all : List AnnState := [.off, .ready, .active, .hold, .unusable]
def AnnRoute.routes : List AnnRoute := [.frontPair, .centre, .all]
def SrcState.all : List SrcState := [.noSignal, .acquiring, .locked, .unsupported, .stalled]
def Phase.all : List Phase := [.rate, .format]
def Decode.all : List Decode := [.none, .engaged, .failed]
def OfferReason.all : List OfferReason := [.none, .limitCarriage, .limitEngine, .policyPcm, .profileInvalid]
def EngineState.all : List EngineState := [.free, .starting, .decoding, .resync]
def StreamFormat.all : List StreamFormat := [.pcm16, .pcm24, .bitstream]
def Placement.all : List Placement := [.home, .lending, .lent, .reassigning]
def Protection.all : List Protection := [.normal, .derated, .tripped, .latched]
def TripCause.all : List TripCause := [.overcurrent, .thermal, .dc]
def MeterState.all : List MeterState := [.free, .armed, .opened, .done, .over]
def TunerState.all : List TunerState := [.idle, .tuning, .listening, .seeking, .scanning]
def Region.all : List Region := [.a, .b]
def Band.all : List Band := [.fm, .am]
def Mode.all : List Mode := [.auto, .mono]
def TestMode.all : List TestMode := [.off, .fixed, .walk]
def WalkPhase.all : List WalkPhase := [.sounding, .gap]
def RunState.all : List RunState := [.idle, .claiming, .muting, .measuring]
def CalStep.all : List CalStep := [.timing, .level]
def CalStatus.all : List CalStatus := [.pending, .ok, .timingFail, .noResponse, .fault, .absent, .notMeasured]
def PowerState.all : List PowerState := [.standby, .active, .sleepPending]
def IndFunction.all : List IndFunction := [.standby, .protect, .object, .stereo, .manual]
def IndMode.all : List IndMode := [.off, .on, .blinkFast, .blinkSlow]
def PartState.all : List PartState := [.ready, .running, .halted, .windowFault]
def OrderKind.all : List OrderKind :=
  [.zonePower, .zoneSource, .announce, .sourceProfile, .sourcePolicy, .streamSetup, .streamStop, .layoutLoad,
   .positionMute, .volume, .mute, .dialogueLift, .lipsync, .outletAssign, .outletSet, .outletClear, .triggerSet,
   .measure, .measureCancel, .tunerSetup, .tune, .seek, .scan, .presetStore, .presetRecall, .presetClear,
   .testSignal, .calibrate, .calAbort, .wakeTable, .wakeLock, .resumeSet, .idleSet, .idleExpire, .standbyNow,
   .indicatorSet]
def ResultCode.all : List ResultCode :=
  [.ok, .busy, .badKind, .badTarget, .badParam, .badReference, .notNow, .locked, .superseded, .aborted, .empty,
   .duplicateTicket, .faultPresent, .notFound, .timingFail]

/-- The order kinds count from 1 (section 12.7). -/
def OrderKind.ofKindByte (b : Byte) : Option OrderKind := ofCode OrderKind.all ((b.toNat : Int) - 1)

/-- The number of targets of an order kind, counted from 0, or the two stream targets (section 12.7). -/
def OrderKind.targetOk (k : OrderKind) (target : Nat) : Bool :=
  match k with
  | .zonePower | .zoneSource | .announce | .layoutLoad | .positionMute | .volume | .mute | .dialogueLift | .lipsync
  | .calibrate | .idleSet | .idleExpire => decide (target ≤ 3)
  | .sourceProfile => decide (target ≤ 5)
  | .sourcePolicy => decide (target ≤ 15)
  | .streamSetup | .streamStop => target == 13 || target == 14
  | .outletAssign | .outletSet | .outletClear => decide (target ≤ 23)
  | .triggerSet | .indicatorSet => decide (target ≤ 3)
  | .presetStore | .presetRecall | .presetClear => decide (target ≤ 39)
  | .measure | .measureCancel | .tunerSetup | .tune | .seek | .scan | .testSignal | .calAbort | .wakeTable | .wakeLock
  | .resumeSet | .standbyNow => target == 0

/-- The kinds whose target index names a zone (section 12.7), which restart the zone's idle timer (R182). -/
def OrderKind.zoneTargeted (k : OrderKind) : Bool :=
  match k with
  | .zonePower | .zoneSource | .announce | .layoutLoad | .positionMute | .volume | .mute | .dialogueLift | .lipsync
  | .calibrate | .idleSet | .idleExpire => true
  | _ => false

/-! ### Formats, rates and sources -/

/-- Rank of a format (00 section 5.9). -/
def Format.rank : Format → Nat
  | .obj => 5 | .hrs => 4 | .sur => 3 | .pcm8 => 2 | .pcm2 => 1

/-- OBJ, HRS and SUR are the compressed formats (00 section 5.9). -/
def Format.compressed : Format → Bool
  | .obj | .hrs | .sur => true
  | .pcm8 | .pcm2 => false

/-- Decode latency in samples (R45). -/
def Format.latency : Format → Nat
  | .sur => 768 | .hrs => 1024 | .obj => 1536 | .pcm8 => 0 | .pcm2 => 0

/-- Carriage class a format needs (R41). -/
def Format.classNeed : Format → Nat
  | .pcm2 => 1 | .sur => 1 | .pcm8 => 2 | .hrs => 3 | .obj => 4

/-- Engines that decode a format (R45). -/
def Format.eligible (f : Format) (e : EngineId) : Bool :=
  match f with
  | .sur | .hrs => true
  | .obj => e == 0
  | .pcm8 | .pcm2 => false

/-- The format that a preamble's code names (R25). -/
def Format.ofPreamble : Nat → Option Format
  | 1 => some .sur
  | 2 => some .hrs
  | 3 => some .obj
  | _ => none

/-- A rate in Hz. -/
def Rate.hz : Rate → Nat
  | .r32 => 32000 | .r44 => 44100 | .r48 => 48000 | .r88 => 88200 | .r96 => 96000 | .r176 => 176400 | .r192 => 192000

/-- The clocked ports (R20). -/
def clocked (s : SourceId) : Bool := decide (s.val ≤ 7) || s.val == 15
/-- The link ports (R20). -/
def linkPort (s : SourceId) : Bool := decide (s.val ≤ 5)
/-- A1 to A4 (R20). -/
def analog (s : SourceId) : Bool := decide (8 ≤ s.val) && decide (s.val ≤ 11)
/-- T (R20). -/
def tunerSource : SourceId := 12
/-- The source of a stream buffer: M1 is S13, M2 is S14 (R20). -/
def streamSource (m : StreamId) : SourceId := if m = 0 then 13 else 14
/-- The stream buffer of a source. -/
def streamOf (s : SourceId) : Option StreamId := if s = 13 then some 0 else if s = 14 then some 1 else none

/-- Nominal rates of a source's kind (R20). -/
def nominalRates (s : SourceId) : List Rate :=
  if linkPort s then [.r32, .r44, .r48, .r88, .r96, .r176, .r192]
  else if s.val = 6 ∨ s.val = 7 then [.r32, .r44, .r48, .r88, .r96]
  else if s.val = 15 then [.r32, .r44, .r48]
  else if s.val = 13 then [.r44, .r48]
  else [.r48]

/-- Accepted formats of a source's kind (R20). -/
def acceptsFormat (s : SourceId) (f : Format) : Bool :=
  if linkPort s then true
  else if s.val = 6 ∨ s.val = 7 ∨ s.val = 13 ∨ s.val = 15 then f == .sur || f == .pcm2
  else f == .pcm2

/-- The channels a format delivers, in order; for PCM8 by the layout code (R46). -/
def channelsOf (f : Format) (detail : Nat) : List Position :=
  match f with
  | .pcm2 => [.fl, .fr]
  | .sur => [.fl, .fr, .c, .lfe1, .sl, .sr]
  | .hrs => [.fl, .fr, .c, .lfe1, .sl, .sr, .bl, .br]
  | .obj => [.fl, .fr, .c, .lfe1, .sl, .sr, .bl, .br, .tml, .tmr]
  | .pcm8 =>
    match detail with
    | 0 => [.fl, .fr, .c, .lfe1]
    | 1 => [.fl, .fr, .sl, .sr]
    | 2 => [.fl, .fr, .c, .sl, .sr]
    | 3 => [.fl, .fr, .c, .lfe1, .sl, .sr]
    | 4 => [.fl, .fr, .c, .lfe1, .sl, .sr, .bc]
    | 5 => [.fl, .fr, .c, .lfe1, .sl, .sr, .bl, .br]
    | 6 => [.fl, .fr, .c, .lfe1, .sl, .sr, .fhl, .fhr]
    | _ => [.fl, .fr, .c, .lfe1, .sl, .sr, .wl, .wr]

/-! ### Zones and outlets -/

/-- The largest layout of a zone (00 section 5.5, R61). -/
def layoutLimit (z : ZoneId) : Nat := if z = 0 then 16 else if z = 1 then 8 else 2

/-- The zone that a target index names. -/
def zoneOf (target : Byte) : ZoneId := Fin.ofNat 4 target.toNat
/-- The outlet that a target index names. -/
def outletOf (target : Byte) : OutletId := Fin.ofNat 24 target.toNat
/-- The source that a target index names. -/
def sourceOf (target : Byte) : SourceId := Fin.ofNat 16 target.toNat

/-- A speaker-level outlet: O1 to O16 (R109). -/
def isSpeaker (o : OutletId) : Bool := decide (o.val < 16)
/-- The group of a speaker-level outlet (00 section 5.6). -/
def groupOf (o : OutletId) : Option GroupId := if o.val < 16 then some (Fin.ofNat 4 (o.val / 4)) else none
/-- The over-current line of a speaker-level outlet. -/
def speakerOf (o : OutletId) : Option SpeakerId := if h : o.val < 16 then some ⟨o.val, h⟩ else none
/-- The outlets of a group, in ascending order (00 section 5.6). -/
def groupOutlets (g : GroupId) : List OutletId := allOutlets.filter (fun o => groupOf o == some g)
/-- The outlet whose over-current line this is. -/
def speakerOutlet (o : SpeakerId) : OutletId := ⟨o.val, by omega⟩

/-- The zone that a zone parameter names: 0 to 3, or NONE (255, log 9). -/
def zoneParam (v : Int) : Option (Option ZoneId) :=
  if v = absent then some none
  else if 0 ≤ v ∧ v ≤ 3 then some (some (Fin.ofNat 4 v.toNat))
  else none

/-- The outlet of an outlet index parameter 1 to 24 (R128, R161, R166). -/
def outletParam (v : Int) : Option OutletId := if 1 ≤ v ∧ v ≤ 24 then some (Fin.ofNat 24 (v.toNat - 1)) else none

/-- The clocked port of a port index parameter, 0 to 7 or 15 (R128). -/
def portParam (v : Int) : Option SourceId :=
  if (0 ≤ v ∧ v ≤ 7) ∨ v = 15 then some (Fin.ofNat 16 v.toNat) else none

/-- The edge source that a source code and an index name (R128, R135); the index of a source that has none is not read. -/
def edgeSourceParam (code index : Int) : Option EdgeSource :=
  if code = 0 then (outletParam index).map .outBurst
  else if code = 1 then some .micCross
  else if code = 2 then (portParam index).map .portFrame
  else if code = 3 then (portParam index).map .portWclk
  else if code = 4 then some .edgeIn1
  else if code = 5 then some .edgeIn2
  else if code = 6 then some .order
  else none

/-- RISING 0, FALLING 1 (R127, R128). -/
def polarityParam (v : Int) : Option Bool := if v = 0 then some true else if v = 1 then some false else none

/-- An edge from its three parameters (R135). -/
def edgeParam (code index polarity : Int) : Option Edge :=
  match edgeSourceParam code index, polarityParam polarity with
  | some s, some r => some { source := s, rising := r }
  | _, _ => none

/-- Code and index of an edge source (R128), for the meter page. -/
def edgeSourceCode : EdgeSource → Int × Int
  | .outBurst o => (0, o.val + 1)
  | .micCross => (1, absent)
  | .portFrame p => (2, p.val)
  | .portWclk p => (3, p.val)
  | .edgeIn1 => (4, absent)
  | .edgeIn2 => (5, absent)
  | .order => (6, absent)

end Sys2Proof.Machine
end

