-- ==== Sys2Proof/Machine/Flags.lean ====
section
/-! DEFINITION. Every flag and condition that follows from the rest of the part's state: registers read in another view
(R186, R193), ACTIVE_MISMATCH (R19), the programme state of a zone (R13), active positions and the resolution set (R66),
silence of a scope (R87), claims on the delay pool (R94), what an indicator shows (R184). -/

namespace Sys2Proof.Machine

/-! ### Registers and supplies -/

/-- CONTROL as the host reads it (R186, section 12.6). -/
def Chip.readControl (c : Chip) : Word :=
  BitVec.ofInt 32 (boolCode (c.win.partState == .running) + 2 * boolCode c.win.softReset + 4 * boolCode c.win.irqEn
    + 256 * codeOf PartState.all c.win.partState)

/-- NEWS as the host reads it: bits 14 to 31 read 0 (R186). -/
def Chip.readNews (c : Chip) : Word := c.win.news.setWidth 32

/-- The IRQ line is asserted while IRQ_EN is 1 and NEWS is not 0 (R193). -/
def Chip.irq (c : Chip) : Bool := c.win.irqEn && c.win.news != 0

/-- PWR_REQ is asserted in ACTIVE and SLEEP_PENDING (11 section 11.2). -/
def Chip.pwrReq (c : Chip) : Bool := c.sbb.power != .standby

/-- The main domain is out of its held state: MAIN_GOOD is high and the power state is not STANDBY (R174). -/
def Chip.mainUp (c : Chip) : Bool := c.pins.mainGood && c.sbb.power != .standby

/-- The window is served: pages, results and headers are written in RUNNING and HALTED (R188, R191, R192). -/
def Chip.windowUp (c : Chip) : Bool := c.win.partState == .running || c.win.partState == .halted

/-- Intake runs in RUNNING; a soft reset that has begun stops it (R189, R196). -/
def Chip.intakeOpen (c : Chip) : Bool := c.mainUp && c.win.partState == .running && !c.win.softReset

/-! ### Zones and sources -/

/-- STARTING or ON. -/
def Power.started : Power → Bool
  | .starting | .on => true
  | .off | .stopping => false

/-- A zone is STARTING or ON. -/
def Chip.started (c : Chip) (z : ZoneId) : Bool := c.zones[z].power.started

/-- The zones bound to a source, in ascending order (R11). -/
def Chip.boundZones (c : Chip) (s : SourceId) : List ZoneId := allZones.filter fun z => c.zones[z].binding == some s

/-- The source is LOCKED in a format. -/
def Source.lockedIn (x : Source) (p : Format → Bool) : Bool :=
  x.state == .locked && (match x.format with | some f => p f | none => false)

/-- The source carries a compressed format, LOCKED or STALLED (R49, R54). -/
def Source.carries (x : Source) : Option Format :=
  if x.state == .locked || x.state == .stalled then
    match x.format with
    | some f => if f.compressed then some f else none
    | none => none
  else none

/-- ACTIVE_MISMATCH (R19). -/
def Source.activeMismatch (x : Source) : Bool :=
  x.state == .locked && (match x.profile.active with | some f => x.format != some f | none => false)

/-- The engine that decodes a source (R44). -/
def Chip.engineOf (c : Chip) (s : SourceId) : Option EngineId :=
  if c.engines[(0 : EngineId)].source = some s then some 0
  else if c.engines[(1 : EngineId)].source = some s then some 1
  else none

/-- The engine a zone is a consumer of. -/
def Chip.consumerOf (c : Chip) (z : ZoneId) : Option EngineId :=
  if z ∈ c.engines[(0 : EngineId)].consumers then some 0
  else if z ∈ c.engines[(1 : EngineId)].consumers then some 1
  else none

/-- The programme state of a zone: the first row of R13's table whose condition holds. -/
def Chip.programmeOf (c : Chip) (z : ZoneId) : Programme :=
  match c.zones[z].binding with
  | none => .none
  | some s =>
    let x := c.sources[s]
    if s = tunerSource ∧ c.tuner.state ≠ .listening then .tunerSettling
    else if x.decode = .failed then .noProgramme
    else if x.state = .noSignal ∨ x.state = .unsupported then .noProgramme
    else if x.state = .acquiring then .acquiring
    else if x.state = .stalled then .stalled
    else if x.lockedIn (fun f => !f.compressed) then .playing
    else if z ∈ c.waitQueue then .waitEngine
    else match c.consumerOf z with
      | some e => if c.engines[e].state = .decoding then .playing else .startingDecode
      | none => .noProgramme

/-- The latency SFE hands for a source: the decode latency of its format and 64 samples of SRC when its rate is not
48 kHz; 0 when it has no format (R30, R100). -/
def Source.latency (x : Source) : Nat :=
  match x.format with
  | none => 0
  | some f => f.latency + (match x.rate with | some r => if r = .r48 then 0 else 64 | none => 0)

/-- The source's programme can carry sound (R33): LOCKED in PCM, or decoded by an engine in DECODING. -/
def Chip.sourceSounds (c : Chip) (s : SourceId) : Bool :=
  c.sources[s].lockedIn (fun f =>
    !f.compressed || (match c.engineOf s with | some e => c.engines[e].state == .decoding | none => false))

/-- The stream of a source is stalled, which holds the phase timer of its engine (R60). -/
def Chip.sourceStalled (c : Chip) (s : Option SourceId) : Bool :=
  match s with
  | some s => c.sources[s].state == .stalled
  | none => false

/-- A stream drains while it is LOCKED, in phase FORMAT, or UNSUPPORTED(FORMAT) (R35, R36). -/
def Chip.streamDrains (c : Chip) (m : StreamId) : Bool :=
  let x := c.sources[streamSource m]
  !c.streams[m].stopped && !c.streams[m].frozen
    && (x.state == .locked || x.state == .acquiring || x.state == .unsupported)

/-! ### Outlets and positions -/

/-- The position an outlet carries in its current zone (R109). -/
def Outlet.position (x : Outlet) : Option Position :=
  match x.zone with
  | none => none
  | some z =>
    match x.primary, x.alternate with
    | some p, some q => if p.zone = z then some p.position else if q.zone = z then some q.position else none
    | some p, none => if p.zone = z then some p.position else none
    | none, some q => if q.zone = z then some q.position else none
    | none, none => none

/-- NORMAL or DERATED: a serving state (R120). -/
def Protection.serving : Protection → Bool
  | .normal | .derated => true
  | .tripped | .latched => false

/-- The outlets in a zone, in ascending order. -/
def Chip.zoneOutlets (c : Chip) (z : ZoneId) : List OutletId := allOutlets.filter fun o => c.outlets[o].zone == some z

/-- The outlet in the zone, engaged and serving, that holds a position; at most one can (R66). -/
def Chip.activeOutlet (c : Chip) (z : ZoneId) (p : Position) : Option OutletId :=
  allOutlets.find? fun o =>
    let x := c.outlets[o]
    x.zone == some z && x.engaged && x.protection.serving && x.position == some p

/-- A position of the layout list. -/
def Ctx.holds_ (x : Ctx) (p : Position) : Bool := x.layout.any fun e => e.1 == p

/-- The outlet of an active position (R66). -/
def Chip.activeAt (c : Chip) (z : ZoneId) (p : Position) : Option OutletId :=
  if c.ctxs[z].holds_ p then c.activeOutlet z p else none

/-- The position's bit of the mute map (R67). -/
def posBit (p : Position) : Nat := Position.all.idxOf p

/-- The outlet of a position of the resolution set (R66). -/
def Chip.resolves (c : Chip) (z : ZoneId) (p : Position) : Option OutletId :=
  if c.ctxs[z].muteMap.getLsbD (posBit p) then none else c.activeAt z p

/-- The resolution set: bit n for position code n (R66, section 12.6). -/
def Chip.resolutionSet (c : Chip) (z : ZoneId) : Nat :=
  Position.all.foldl (fun acc p => if (c.resolves z p).isSome then acc + 2 ^ posBit p else acc) 0

/-- UNUSED as R113 evaluates it: the outlet is in a zone whose layout does not hold the position it carries there. An
outlet whose stored assignments no longer name its zone keeps the flag it had (log 20). -/
def Chip.unusedOf (c : Chip) (o : OutletId) : Bool :=
  let x := c.outlets[o]
  match x.zone with
  | none => false
  | some z =>
    match x.position with
    | none => x.unused
    | some p => !c.ctxs[z].holds_ p

/-! ### Silence -/

/-- Programme paths: CHANNEL, OBJECT and BASS (R87). -/
def isProgramme : PathKind → Bool
  | .announce => false
  | .channel | .object | .bass => true

/-- The scope of a hold (R87). -/
def Hold.covers (h : Hold) (k : PathKind) : Bool := if h = .regrant then true else isProgramme k

/-- Every path of the zone that `p` selects has an applied gain of −200. -/
def Ctx.silent (x : Ctx) (p : PathKind → Bool) : Bool :=
  x.paths.all fun q => !p q.id.kind || decide (q.applied ≤ Config.silence)

/-- A hold of the zone is silent (R87). -/
def Chip.holdSilent (c : Chip) (z : ZoneId) (h : Hold) : Bool := c.ctxs[z].silent h.covers

/-- Every path of the zone is silent (R8). -/
def Chip.zoneSilent (c : Chip) (z : ZoneId) : Bool := c.ctxs[z].silent fun _ => true

/-- A test signal is set on the outlet (R113). -/
def Chip.testOn (c : Chip) (o : OutletId) : Bool := c.test.mode != .off && c.test.outlet == some o

/-- An outlet is silent: no path reaches it above −200 hdB and no test signal is set on it (R113, R119). -/
def Chip.outletSilent (c : Chip) (o : OutletId) : Bool :=
  !c.testOn o
    && allZones.all fun z => c.ctxs[z].paths.all fun q => q.id.outlet != o || decide (q.applied ≤ Config.silence)

/-! ### The delay pool -/

/-- Blocks of a delay (R95). -/
def blocksOf (delay : Nat) : Nat := (delay + 63) / 64

/-- Held blocks of a zone (R94). -/
def Chip.held (c : Chip) (z : ZoneId) : Nat :=
  allOutlets.foldl (fun acc o =>
    if c.outlets[o].zone = some z then
      match c.outlets[o].line with
      | some l => acc + blocksOf l.delay
      | none => acc
    else acc) 0

/-- The claim of a zone (R94). -/
def Chip.claim (c : Chip) (z : ZoneId) : Nat :=
  if c.aligns[z].pending then max (c.held z) c.aligns[z].demand else c.held z

/-- The free count (R94). -/
def Chip.freeBlocks (c : Chip) : Nat := Config.poolBlocks - (c.claim 0 + c.claim 1 + c.claim 2 + c.claim 3)

/-- A zone is short (R102). -/
def Align.short (a : Align) : Bool := a.lipsyncShort || a.alignDropped

/-! ### Parameter sets, triggers, indicators, idle timers -/

/-- The active parameter set (R65). -/
def Ctx.active (x : Ctx) : ParamSet := if x.useReduced then x.reduced else x.full

/-- An outlet of the primary zone is lent away (R65). -/
def Chip.lendsAway (c : Chip) (z : ZoneId) : Bool :=
  allOutlets.any fun o =>
    c.outlets[o].placement == .lent && (match c.outlets[o].primary with | some a => a.zone == z | none => false)

/-- A zone in service for the triggers: from STARTING until its relays open at the end of its stop, which is the event
that makes it OFF (R125, R8). -/
def Chip.inService (c : Chip) (z : ZoneId) : Bool := c.zones[z].power != .off

/-- Whether a trigger is asserted (R125). -/
def Chip.triggerAsserted (c : Chip) (b : TriggerBinding) : Bool :=
  match b with
  | .none => false
  | .zone z => c.inService z
  | .source s => allZones.any fun z => c.inService z && c.zones[z].selected == s

/-- The level a trigger drives, or none where an open-drain output releases its line (R125). -/
def Trigger.drives (t : Trigger) : Option Bool :=
  if t.openDrain then (if t.asserted = t.activeLow then some false else none)
  else some (t.asserted != t.activeLow)

/-- The zone's idle timer is held at full (R182). -/
def Chip.idleHeld (c : Chip) (z : ZoneId) : Bool :=
  c.zones[z].signalPresent || (c.test.mode != .off && c.test.zone == some z)
    || (c.cal.run != .idle && c.cal.zone == some z)

/-- The full setting of an idle timer in samples; none when the setting is 0 (R182). -/
def Idle.full (i : Idle) : Option Nat :=
  if i.count = 0 then none else some (i.count * (if i.seconds then Config.ms 1000 else Config.ms 60000))

/-- The mode an indicator shows (R184). -/
def Chip.indicatorShows (c : Chip) (i : Indicator) : IndMode :=
  let on := c.sbb.power != .standby
  match i.function with
  | .standby => if on then .off else .on
  | .protect => if on && allOutlets.any (fun o => c.outlets[o].protection == .latched) then .blinkFast else .off
  | .object =>
    if on && c.zones[(0 : ZoneId)].programme == .playing
        && (match c.zones[(0 : ZoneId)].binding with | some s => c.sources[s].format == some .obj | none => false)
    then .on else .off
  | .stereo => if on && c.tuner.state == .listening && c.tuner.blend == 16 then .on else .off
  | .manual => i.manual

/-- An outlet drives silence (R112). -/
def Chip.drivesSilence (c : Chip) (o : OutletId) : Bool :=
  let x := c.outlets[o]
  (match x.zone with
    | none => true
    | some z => c.zones[z].power == .off || c.zones[z].power == .starting)
  || !x.protection.serving
  || (isSpeaker o && !x.relay)

/-- The relay of an outlet after the rule of R119: closed only while its zone is ON or STOPPING and its protection state
is serving; it closes when, besides, the zone is ON and the outlet is engaged and silent. -/
def Chip.relayOf (c : Chip) (o : OutletId) : Bool :=
  let x := c.outlets[o]
  isSpeaker o && x.protection.serving &&
    (match x.zone with
      | none => false
      | some z =>
        if c.zones[z].power = .on then
          if c.win.softReset then x.relay && !c.outletSilent o
          else x.relay || (x.engaged && c.outletSilent o)
        else if c.zones[z].power = .stopping then x.relay && !(c.win.softReset && c.outletSilent o)
        else false)

end Sys2Proof.Machine
end

