-- ==== Sys2Proof/Machine/Levels.lean ====
section
/-! DEFINITION. The Level Unit (05): the gain formula and the target of a path, the ramp rate, one ramp, the cut at a
ceiling, the holds and the LIMITED flag. Applied gains are in 1/48 hdB, which one sample moves by 4 (FAST) or 1 (SLOW). -/

namespace Sys2Proof.Machine

/-! ### Targets -/

/-- The duck term Dz (R16, R82). -/
def Zone.duckTerm (x : Zone) : Int := if x.annState = .active ∨ x.annState = .hold then x.ann.duck else 0

/-- The formula gain g of a path with coefficient K (R82). -/
def Chip.formulaGain (c : Chip) (z : ZoneId) (id : PathId) (k : Int) : Int :=
  let x := c.zones[z]
  let trim := c.outlets[id.outlet].trim
  if isProgramme id.kind then
    x.volume + trim + k + (if id.origin = .pos .c then x.lift else 0) + x.duckTerm
  else x.volume + x.ann.level + trim + k

/-- A hold of the zone's hold set has the path in its scope (R87). -/
def Ctx.held (x : Ctx) (k : PathKind) : Bool := x.holds.any fun h => h.covers k

/-- A path that is not OFF and not kept silent stands at g or at its outlet's ceiling, clamped (R83). -/
def cappedTarget (g ceiling : Int) : Target × Bool :=
  if g ≤ -200 then (.silent, false) else if ceiling < g then (.gain ceiling, true) else (.gain g, false)

/-- A condition on the zone that keeps its paths of a kind SILENT (R83 rows 2 to 5, and a soft reset that has begun,
R81). -/
def Chip.silences (c : Chip) (z : ZoneId) (k : PathKind) : Bool :=
  c.zones[z].power != .on || c.win.softReset || c.zones[z].muted
    || (isProgramme k && c.zones[z].programme != .playing) || c.ctxs[z].held k

/-- The target of a path and its clamped flag: the first row of R83's table that holds. -/
def Chip.targetOf (c : Chip) (z : ZoneId) (q : Path) : Target × Bool :=
  if q.leaving || c.silences z q.id.kind then (.silent, false)
  else match q.coeff with
    | .off => (.silent, false)
    | .hdb k => cappedTarget (c.formulaGain z q.id k) c.outlets[q.id.outlet].ceiling

/-! ### Ramps -/

/-- A record takes a target (R85): a change between gains is SLOW unless fast-hold is set, every other change FAST. -/
def Path.retarget (q : Path) (t : Target) (clamped : Bool) : Path :=
  if q.target = t then { q with clamped := clamped }
  else
    let toGain := t ≠ .silent
    let fast := q.target = .silent ∨ t = .silent ∨ q.fastHold
    { q with target := t, clamped := clamped, fast := fast,
             fastHold := toGain ∧ (q.target = .silent ∨ q.fastHold) }

/-- Where a record's ramp ends, in 1/48 hdB (R85: a SILENT target is reached at −200). -/
def Path.goal (q : Path) : Int :=
  match q.target with
  | .silent => Config.silence
  | .gain g => 48 * g

/-- What a record moves in a sample (R85). -/
def Path.rate (q : Path) : Int := if q.fast then 4 else 1

/-- A record after `n` samples: it takes the target exactly, where fast-hold clears (R85). -/
def Path.ramp (n : Nat) (q : Path) : Path :=
  let d := q.rate * n
  if q.goal - d ≤ q.applied ∧ q.applied ≤ q.goal + d then { q with applied := q.goal, fastHold := false }
  else if q.applied < q.goal then { q with applied := q.applied + d }
  else { q with applied := q.applied - d }

/-- Samples until a record stands at its target. -/
def Path.samplesLeft (q : Path) : Nat :=
  let d := (q.goal - q.applied).natAbs
  if q.fast then (d + 3) / 4 else d

/-- A record that R80 has removed and that has reached silence is deleted (R81). -/
def Path.gone (q : Path) : Bool := q.leaving && decide (q.applied ≤ Config.silence)

/-- Samples until the paths of a zone that `p` selects are silent, as their ramps stand. -/
def Ctx.samplesToSilence (x : Ctx) (p : PathKind → Bool) : Nat :=
  x.paths.foldl (fun n q => if p q.id.kind && decide (Config.silence < q.applied) then max n q.samplesLeft else n) 0

/-- Every path that `p` selects is silent or on its way there. -/
def Ctx.silencing (x : Ctx) (p : PathKind → Bool) : Bool :=
  x.paths.all fun q => !p q.id.kind || q.target == .silent || decide (q.applied ≤ Config.silence)

/-! ### The whole table -/

/-- One record against the part as it stands: an applied gain above the outlet's ceiling is cut (R86), then the target
is recomputed (R83). -/
def Chip.relevelPath (c : Chip) (z : ZoneId) (q : Path) : Path :=
  let t := c.targetOf z q
  ({ q with applied := min q.applied (48 * c.outlets[q.id.outlet].ceiling) } : Path).retarget t.1 t.2

/-- The zone's records recomputed. -/
def Chip.relevelZone (c : Chip) (z : ZoneId) : Chip :=
  c.updCtx z fun x => { x with paths := (x.paths.map (c.relevelPath z)).filter fun q => !q.gone }

/-- LIMITED is set while a record of the zone has clamped set (R84). -/
def Chip.evalLimited (c : Chip) (z : ZoneId) : Chip :=
  c.updZone z fun x => { x with limited := c.ctxs[z].paths.any fun q => q.clamped }

/-- Every target of every zone recomputed within the event that changes it (R83, R84). -/
def Chip.relevel (c : Chip) : Chip :=
  allZones.foldl (fun c z => (c.relevelZone z).evalLimited z) c

/-! ### Holds -/

/-- Place a hold (R87): it joins the zone's hold set, and its silent report is due when its scope is silent. A hold
already in the set leaves the set unchanged. -/
def Chip.placeHold (c : Chip) (z : ZoneId) (h : Hold) : Chip :=
  if h ∈ c.ctxs[z].holds then c
  else (c.updCtx z fun x => { x with holds := x.holds ++ [h] }).updEv fun e => { e with placed := e.placed ++ [(z, h)] }

/-- Lift a hold (R87): it leaves the set, and a silent report not yet made is cancelled. -/
def Chip.liftHold (c : Chip) (z : ZoneId) (h : Hold) : Chip :=
  (c.updCtx z fun x => { x with holds := x.holds.filter (· ≠ h) }).updEv
    fun e => { e with placed := e.placed.filter (· ≠ (z, h)) }

/-- The hold set of a zone that enters OFF is emptied (R87). -/
def Chip.clearHolds (c : Chip) (z : ZoneId) : Chip :=
  (c.updCtx z fun x => { x with holds := [] }).updEv fun e => { e with placed := e.placed.filter (·.1 ≠ z) }

end Sys2Proof.Machine
end

