-- ==== Sys2Proof/Machine/Render.lean ====
section
/-! DEFINITION. The Render Matrix (04): fold chains, the walk, object panning, bass management, announcement routes, the
resolution of a zone and its hand-off to the Level Unit. -/

namespace Sys2Proof.Machine

/-! ### Fold chains -/

/-- An entry of a fold chain: its members and their coefficient. -/
abbrev FoldEntry := List Position × Int

/-- The fold chain of a position; `toFronts` is LFE-to-fronts of the active set (R69). -/
def foldChain (toFronts : Bool) : Position → List FoldEntry
  | .fl | .fr => []
  | .c => [([.fl, .fr], -6)]
  | .lfe1 => if toFronts then [([.lfe2], 0), ([.fl, .fr], 0)] else [([.lfe2], 0)]
  | .lfe2 => if toFronts then [([.lfe1], 0), ([.fl, .fr], 0)] else [([.lfe1], 0)]
  | .sl => [([.bl], 0), ([.fl], 0)]
  | .sr => [([.br], 0), ([.fr], 0)]
  | .bl => [([.sl], 0), ([.fl], 0)]
  | .br => [([.sr], 0), ([.fr], 0)]
  | .bc => [([.bl, .br], -6), ([.sl, .sr], -6)]
  | .wl => [([.fl], 0)]
  | .wr => [([.fr], 0)]
  | .fhl => [([.tfl], 0), ([.fl], 0)]
  | .fhr => [([.tfr], 0), ([.fr], 0)]
  | .tfl => [([.fhl], 0), ([.fl], 0)]
  | .tfr => [([.fhr], 0), ([.fr], 0)]
  | .tml => [([.tfl], 0), ([.sl], 0)]
  | .tmr => [([.tfr], 0), ([.sr], 0)]
  | .trl => [([.tml], 0), ([.bl], 0)]
  | .trr => [([.tmr], 0), ([.br], 0)]

/-- The members of an entry with the coefficient accumulated along the walk. -/
abbrev HopEntry := List (Position × Int)

/-- The entry that a hop after the channel's own entries builds from the previous one: the last entry of each member's
own chain (R70). -/
def builtEntry (toFronts : Bool) (previous : HopEntry) : HopEntry :=
  previous.flatMap fun m =>
    match (foldChain toFronts m.1).getLast? with
    | none => []
    | some e => e.1.map fun p => (p, m.2 + e.2)

/-- The next hop's entry: the channel's own next entry, or the built one (R70). -/
def nextEntry (toFronts : Bool) (own : List FoldEntry) (sum : Int) (previous : HopEntry) : HopEntry :=
  match own with
  | e :: _ => e.1.map fun p => (p, sum + e.2)
  | [] => builtEntry toFronts previous

/-- At most `hops` hops of a walk (R70). `own` holds the own entries not yet offered, `sum` the coefficients of the
entries offered, `tried` the members tried. -/
def foldHops (toFronts : Bool) (present : Position → Bool) :
    (hops : Nat) → (own : List FoldEntry) → (sum : Int) → (tried : List Position) → (previous : HopEntry) → HopEntry
  | 0, _, _, _, _ => []
  | hops + 1, own, sum, tried, previous =>
    let entry := (nextEntry toFronts own sum previous).filter fun m => m.1 ∉ tried
    if entry.isEmpty then []
    else
      let found := entry.filter fun m => present m.1
      if found.isEmpty then
        let sum := match own with
          | e :: _ => sum + e.2
          | [] => sum
        foldHops toFronts present hops own.tail sum (tried ++ entry.map (·.1)) entry
      else found

/-- Where a channel goes, with its coefficients; empty when it is dropped (R69 to R71). -/
def channelTargets (toFronts : Bool) (present : Position → Bool) (p : Position) : HopEntry :=
  if present p then [(p, 0)] else foldHops toFronts present 3 (foldChain toFronts p) 0 [p] []

/-! ### Objects -/

/-- Ring positions and their azimuths (R72). -/
def earRing : List (Position × Nat) :=
  [(.c, 0), (.fr, 30), (.wr, 60), (.sr, 110), (.br, 150), (.bc, 180), (.bl, 210), (.sl, 250), (.wl, 300), (.fl, 330)]
def upperRing : List (Position × Nat) :=
  [(.fhr, 30), (.tfr, 45), (.tmr, 90), (.trr, 135), (.trl, 225), (.tml, 270), (.tfl, 315), (.fhl, 330)]

/-- The pan gain of p1 for k, absent for OFF; p2's is that of 16 − k (R74). -/
def panGain (k : Nat) : Option Int :=
  ([0, 0, 0, -1, -1, -2, -3, -4, -6, -8, -10, -13, -17, -21, -28, -40] : List Int)[k]?

/-- Clockwise distance from one azimuth to another. -/
def clockwise (a b : Nat) : Nat := (b + 360 - a) % 360

/-- The ring position with the smallest value of `f`. -/
def nearest (f : Nat → Nat) : List (Position × Nat) → Option (Position × Nat)
  | [] => none
  | p :: rest =>
    match nearest f rest with
    | none => some p
    | some q => if f q.2 < f p.2 then some q else some p

/-- The present positions of the ring that an object is panned on (R72). -/
def objectRing (present : Position → Bool) (elevation : Nat) : List (Position × Nat) :=
  let upper := upperRing.filter fun p => present p.1
  if elevation = 1 ∧ ¬ upper.isEmpty then upper else earRing.filter fun p => present p.1

/-- 16 times the fraction of the way from p1 to p2, to nearest, halves up (R73). -/
def panStep (a az1 az2 : Nat) : Nat :=
  let span := clockwise az1 az2
  (32 * clockwise az1 a + span) / (2 * span)

/-- Where an object goes, with its pan gains (R73). -/
def panTargets (present : Position → Bool) (a elevation : Nat) : HopEntry :=
  let ring := objectRing present elevation
  match nearest (fun z => clockwise z a) ring with
  | none => []
  | some p1 =>
    match nearest (fun z => clockwise a z) (ring.filter fun p => p ≠ p1) with
    | none => [(p1.1, 0)]
    | some p2 =>
      let k := panStep a p1.2 p2.2
      (match panGain k with | some g => [(p1.1, g)] | none => [])
        ++ (match panGain (16 - k) with | some g => [(p2.1, g)] | none => [])

/-! ### Routes -/

/-- A path as a resolution makes it. -/
structure Route where
  id     : PathId
  coeff  : Coeff
  filter : Filter
  deriving DecidableEq, Repr

/-- A coefficient of −200 hdB or below is OFF (R68). -/
def coeffOf (k : Int) : Coeff := if k ≤ -200 then .off else .hdb k

/-- What a resolution of a zone reads of the positions. -/
structure Room where
  /-- the outlet of each position of the resolution set, by position code (R66) -/
  outlets : List (Option OutletId)
  layout  : List (Position × SpeakerSize)
  noLfe   : Bool
  set     : ParamSet
  deriving DecidableEq, Repr

def Room.outletOf (r : Room) (p : Position) : Option OutletId := (r.outlets[posBit p]?).join

def Room.present (r : Room) (p : Position) : Bool := (r.outletOf p).isSome

/-- The low-frequency positions present (R76). -/
def Room.lfes (r : Room) : List Position := [Position.lfe1, Position.lfe2].filter r.present

/-- The bass split (R76). -/
def Room.bassSplit (r : Room) : Int := if r.lfes.length = 2 then -6 else 0

def isLfe (p : Position) : Bool := p == .lfe1 || p == .lfe2

/-- A position handled as SMALL at this resolution (R76); the low-frequency positions are not split (R77). -/
def Room.small (r : Room) (p : Position) : Bool :=
  !r.noLfe && !r.lfes.isEmpty && !isLfe p && r.layout.any fun e => e.1 == p && e.2 == .small

/-- The routes of one CHANNEL or OBJECT path into the outlet of a position, with its bass paths (R77, R78). -/
def Room.split (r : Room) (kind : PathKind) (origin : Origin) (p : Position) (k : Int) : List Route :=
  match r.outletOf p with
  | none => []
  | some o =>
    if r.small p then
      { id := { kind := kind, origin := origin, outlet := o, split := none }, coeff := coeffOf k,
        filter := .high r.set.crossover } ::
      r.lfes.filterMap fun l => (r.outletOf l).map fun b =>
        { id := { kind := .bass, origin := origin, outlet := b, split := some o }, coeff := coeffOf (k + r.bassSplit),
          filter := .low r.set.crossover }
    else
      [{ id := { kind := kind, origin := origin, outlet := o, split := none }, coeff := coeffOf k,
         filter := match origin with
           | .pos q => if isLfe q && isLfe p then .lfe r.set.lfe else .none
           | .obj _ => .none }]

/-- The routes of a channel (R69, R70, R77). -/
def Room.channelRoutes (r : Room) (p : Position) : List Route :=
  (channelTargets r.set.toFronts r.present p).flatMap fun m => r.split .channel (.pos p) m.1 m.2

/-- The routes of an object (R73, R77). -/
def Room.objectRoutes (r : Room) (d : ObjDesc) : List Route :=
  (panTargets r.present d.azimuth d.elevation).flatMap fun m => r.split .object (.obj d.number) m.1 (m.2 + d.level)

/-- The two channels of an announcement, each to the position at a coefficient. -/
def bothTo (p : Position) (k : Int) : List (Position × Position × Int) := [(.fl, p, k), (.fr, p, k)]

/-- The targets of announcement route ALL (R17). -/
def Room.annAll (r : Room) : List (Position × Position × Int) :=
  (Position.all.filter fun p => !isLfe p && r.present p).flatMap fun p => bothTo p (-6)

/-- Where the two announcement channels go: channel, position, coefficient (R17). -/
def Room.annTargets (r : Room) : AnnRoute → List (Position × Position × Int)
  | .frontPair =>
    if r.present .fl && r.present .fr then [(.fl, .fl, 0), (.fr, .fr, 0)]
    else if r.present .fl then bothTo .fl 0
    else if r.present .fr then bothTo .fr 0
    else if r.present .c then bothTo .c (-6)
    else r.annAll
  | .centre => (channelTargets r.set.toFronts r.present .c).flatMap fun m => bothTo m.1 (-6 + m.2)
  | .all => r.annAll

/-- The ANNOUNCE paths of a route (R17). -/
def Room.annRoutes (r : Room) (route : AnnRoute) : List Route :=
  (r.annTargets route).filterMap fun t => (r.outletOf t.2.1).map fun o =>
    { id := { kind := .announce, origin := .pos t.1, outlet := o, split := none }, coeff := coeffOf t.2.2,
      filter := .none }

/-! ### Resolution -/

/-- The inputs of a zone's resolution that the outlets and the layout give (R66). -/
def Chip.room (c : Chip) (z : ZoneId) : Room where
  outlets := Position.all.map (c.resolves z)
  layout := c.ctxs[z].layout
  noLfe := c.ctxs[z].noLfe
  set := c.ctxs[z].active

/-- The channel set of the bound source's current format; empty when it has none (R68). It stands also before an engine has taken the
source (log 49). -/
def Chip.programmeChannels (c : Chip) (z : ZoneId) : List Position :=
  match c.zones[z].binding with
  | none => []
  | some s => match c.sources[s].format with
    | none => []
    | some f => channelsOf f c.sources[s].detail

/-- The object list that the engine of the bound source delivers: its own while it is DECODING (R47), an empty one in
STARTING and RESYNC (R46). -/
def Chip.programmeObjects (c : Chip) (z : ZoneId) : List ObjDesc :=
  match c.zones[z].binding with
  | none => []
  | some s => match c.engineOf s with
    | none => []
    | some e => if c.engines[e].state = .decoding then c.engines[e].objects else []

/-- The zone's announcement paths are present (R16). -/
def Zone.announces (x : Zone) : Bool := x.annState == .active || x.annState == .hold

/-- The route table that the zone's current inputs give (R79). -/
def Chip.resolve (c : Chip) (z : ZoneId) : List Route :=
  let r := c.room z
  (c.programmeChannels z).flatMap r.channelRoutes ++ (c.programmeObjects z).flatMap r.objectRoutes
    ++ (if c.zones[z].announces then r.annRoutes c.zones[z].ann.route else [])

/-- The resolution drops a channel (R71). An object is dropped only where the ear ring is empty, and then the bed channel
FL, which has no chain, is dropped with it. -/
def Chip.drops (c : Chip) (z : ZoneId) : Bool :=
  let r := c.room z
  (c.programmeChannels z).any fun p => (channelTargets r.set.toFronts r.present p).isEmpty

/-- A record for a path that enters the table (R80, R81). -/
def Route.enter (r : Route) : Path :=
  { id := r.id, coeff := r.coeff, filter := r.filter, target := .silent, applied := Config.silence, fast := true,
    fastHold := false, leaving := false, clamped := false }

/-- A new table against the old one, path by path, by identity (R80). Announcement paths that an ANNOUNCE takes from one source or
route to another, ACTIVE before and after, are kept by it too (log 44). -/
def mergeRoutes (old : List Path) (new : List Route) : List Path :=
  new.map (fun r =>
    match old.find? (fun q => q.id == r.id) with
    | some q => { q with coeff := r.coeff, filter := r.filter, leaving := false }
    | none => r.enter)
  ++ (old.filter fun q => !new.any fun r => r.id == q.id).map fun q => { q with leaving := true }

/-- The zone's table after an event: resolved while STARTING or ON, with DROPPED_CHANNEL and the resolution set shown; kept while
STOPPING, empty while OFF; the set shown stands as the last resolution left it (R79). -/
def Chip.resolveZone (c : Chip) (z : ZoneId) : Chip :=
  match c.zones[z].power with
  | .starting | .on =>
    (c.updCtx z fun x =>
      { x with paths := mergeRoutes x.paths (c.resolve z), resolution := BitVec.ofNat 20 (c.resolutionSet z) }).updZone z
      fun x => { x with dropped := c.drops z }
  | .stopping => c
  | .off => c.updCtx z fun x => { x with paths := [] }

/-- The active parameter set of a zone that is not OFF (R65). The lendings are read once, at the end of the event: a primary zone that
reached OFF in it keeps its set, although an outlet lent from it came back in the same event (log 73). -/
def Chip.selectSet (c : Chip) (z : ZoneId) : Chip :=
  if c.zones[z].power = .off then c else c.updCtx z fun x => { x with useReduced := c.lendsAway z }

end Sys2Proof.Machine
end

