-- ==== Sys2Proof/Machine/Delay.lean ====
section
/-! DEFINITION. The Delay Alignment Unit (06): the alignment arithmetic, the grant, rounds, the switch, releases of blocks,
and ODP's apply path, which names zones for a round. -/

namespace Sys2Proof.Machine

/-! ### The arithmetic -/

/-- The outlets that stage 1 counts: in the zone, UNUSED clear (R99). -/
def Chip.countedOutlets (c : Chip) (z : ZoneId) : List OutletId :=
  (c.zoneOutlets z).filter fun o => !c.outlets[o].unused

/-- Stage 1 (R99). -/
def Chip.farthest (c : Chip) (z : ZoneId) : Nat := (c.countedOutlets z).foldl (fun d o => max d c.outlets[o].distance) 0

/-- Stage 2: (d_max − d) × 480 / 343 to nearest, halves up (R99). -/
def distanceDelay (dMax d : Nat) : Nat := ((dMax - d) * 960 + 343) / 686

/-- Stage 3: the request in samples (R100). -/
def lipRequest (latency offset : Int) (lDec : Nat) : Int := 48 * latency + 48 * offset - lDec - 256

/-- The request clamped to 0 to 24,000 (R100). -/
def lipOf (request : Int) : Nat := (clampInt 0 24000 request).toNat

/-- The distance delays of the counted outlets. -/
def Chip.distances (c : Chip) (z : ZoneId) : List (OutletId × Nat) :=
  (c.countedOutlets z).map fun o => (o, distanceDelay (c.farthest z) c.outlets[o].distance)

/-- The blocks of a grant with a lip-sync (R101 stage 4). -/
def blockSum (s : List Nat) (lip : Nat) : Nat := s.foldl (fun n d => n + blocksOf (d + lip)) 0

/-- Availability: what the other three zones leave (R101 stage 5). -/
def Chip.available (c : Chip) (z : ZoneId) : Nat :=
  Config.poolBlocks - (allZones.filter (· ≠ z)).foldl (fun n y => n + c.claim y) 0

/-- The largest number at most `top` that `fits`, found bit by bit from `bit`; `fits` does not turn true again above a
number where it is false. -/
def largest (fits : Nat → Bool) (top : Nat) : (bits : Nat) → (from' : Nat) → Nat
  | 0, n => n
  | b + 1, n =>
    let m := n + 2 ^ b
    if m ≤ top ∧ fits m then largest fits top b m else largest fits top b n

/-- What the grant rule gives a zone. -/
structure Grant where
  lip     : Nat
  delays  : List GrantEntry
  demand  : Nat
  short   : Bool
  dropped : Bool
  deriving DecidableEq, Repr

/-- A grant with every outlet at its distance delay plus `lip`. -/
def alignedGrant (d : List (OutletId × Nat)) (lip : Nat) (short : Bool) : Grant where
  lip := lip
  delays := d.map fun e => { outlet := e.1, distance := e.2, delay := e.2 + lip }
  demand := blockSum (d.map (·.2)) lip
  short := short
  dropped := false

/-- A grant with alignment dropped: every outlet at `lip` (R102 step 3). -/
def droppedGrant (d : List (OutletId × Nat)) (lip lip' : Nat) : Grant where
  lip := lip'
  delays := d.map fun e => { outlet := e.1, distance := 0, delay := lip' }
  demand := d.length * blocksOf lip'
  short := decide (lip' < lip)
  dropped := true

/-- The grant rule (R102): full, shortened lip-sync, dropped alignment. -/
def grantOf (d : List (OutletId × Nat)) (lip available : Nat) : Grant :=
  let s := d.map (·.2)
  if blockSum s lip ≤ available then alignedGrant d lip false
  else if blockSum s 0 ≤ available then
    alignedGrant d (largest (fun n => blockSum s n ≤ available) lip 15 0) true
  else droppedGrant d lip (min lip (64 * (available / d.length)))

/-! ### Computing and switching -/

/-- The computed grant differs from the current one in no outlet's delay (R104). An outlet without a line differs. -/
def Chip.grantCurrent (c : Chip) (g : List GrantEntry) : Bool :=
  g.all fun e => match c.outlets[e.outlet].line with
    | some l => l.delay == e.delay
    | none => false

/-- The alignment record with what stages 1 to 3 and a grant give (R96). -/
def Align.compute (a : Align) (dMax : Nat) (request : Int) (g : Grant) : Align :=
  { a with dMax := dMax, requested := request, lip := lipOf request, granted := g.lip, grant := g.delays,
           demand := g.demand, lipsyncShort := g.short, alignDropped := g.dropped, lateAudio := decide (request < 0) }

/-- The grant that the zone's state and the other zones' claims give now (R99 to R102). -/
def Chip.grantFor (c : Chip) (z : ZoneId) (request : Int) : Grant := grantOf (c.distances z) (lipOf request) (c.available z)

/-- The zone's request (R100). -/
def Chip.requestOf (c : Chip) (z : ZoneId) : Int :=
  lipRequest c.zones[z].videoLatency c.zones[z].userOffset c.aligns[z].lDec

/-- Compute one member of a round (R104). The event scratch's `released` is set when its claim falls; a change of the record
republishes the zone's page and P7 (R97). -/
def Chip.computeZone (c : Chip) (z : ZoneId) : Chip :=
  let request := c.requestOf z
  let g := c.grantFor z request
  let before := c.claim z
  let record := c.aligns[z]
  let same := c.grantCurrent g.delays
  let c := c.updAlign z fun a => { a.compute (c.farthest z) request g with pending := !same }
  let c := if c.aligns[z] = record then c else c.markAlign z
  let c := if same then c.liftHold z .regrant else c.placeHold z .regrant
  if c.claim z < before then c.release z else c

/-- A member of a round: STARTING or ON, and named or, after a release, short (R103). -/
def Chip.joinsRound (c : Chip) (named : List ZoneId) (released : Bool) (z : ZoneId) : Bool :=
  c.started z && (decide (z ∈ named) || (released && c.aligns[z].short))

/-- The round's members in ascending order, each computed once; releases of the round's own decisions add the short zones
not yet computed (R103). `left` holds the zones not yet computed. -/
def Chip.roundFrom (c : Chip) (named : List ZoneId) : (fuel : Nat) → (left : List ZoneId) → Chip
  | 0, _ => c
  | fuel + 1, left =>
    match left.find? (c.joinsRound named c.ev.released) with
    | none => c
    | some z => (c.computeZone z).roundFrom named fuel (left.filter (· ≠ z))

/-- The event's round (R103, R107): the zones named and, after a release, the short ones. -/
def Chip.runRound (c : Chip) : Chip :=
  let c' := c.roundFrom c.ev.named 4 allZones
  c'.updEv fun e => { e with named := [], released := false }

/-- A line at the switch: one whose delay is unchanged runs on, any other is built empty (R95, R105). -/
def Outlet.rebuild (x : Outlet) (delay : Nat) : Outlet :=
  match x.line with
  | some l => if l.delay = delay then x else { x with line := some { delay := delay, age := 0 } }
  | none => { x with line := some { delay := delay, age := 0 } }

/-- The switch (R105): the lines take the pending grant, pending clears, a fallen claim is released, the hold lifted; the zone's
page and P7 are republished (R97). -/
def Chip.switchGrant (c : Chip) (z : ZoneId) : Chip :=
  if c.aligns[z].pending then
    let before := c.claim z
    let c := c.aligns[z].grant.foldl (fun c e => c.updOutlet e.outlet fun x => x.rebuild e.delay) c
    let c := (c.updAlign z fun a => { a with pending := false }).markAlign z
    let c := if c.claim z < before then c.release z else c
    c.liftHold z .regrant
  else c

/-! ### Releases -/

/-- An outlet's line is cleared and its blocks are released from its zone's (R95, R106); an outlet in no zone has no line. The zone's
record keeps the outlet's entry and the demand until its next computation, in STOPPING until it is OFF (log 74). -/
def Chip.clearLine (c : Chip) (o : OutletId) : Chip :=
  match c.outlets[o].line with
  | none => c
  | some l =>
    let zone := c.outlets[o].zone
    let c := c.updOutlet o fun x => { x with line := none }
    match zone with
    | some z => if blocksOf l.delay = 0 then c else c.release z
    | none => c

/-- A zone that enters STOPPING abandons a pending grant: the delays and the demand of the computed grant are again those of its lines
(R106); lip', the distance delays and the three flags stay those of the abandoned grant (log 62). -/
def Chip.abandonGrant (c : Chip) (z : ZoneId) : Chip :=
  if c.aligns[z].pending then
    let before := c.claim z
    let held := c.held z
    let current := c.aligns[z].grant.filterMap fun e =>
      c.outlets[e.outlet].line.map fun l => { e with delay := l.delay }
    let c := c.updAlign z fun a => { a with pending := false, demand := held, grant := current }
    let c := if c.claim z < before then c.release z else c
    c.liftHold z .regrant
  else c

/-- Step 4 of a stop: every line of the zone is cleared and its claim released, the grant is empty (R106). -/
def Chip.releaseDelay (c : Chip) (z : ZoneId) : Chip :=
  let c := if 0 < c.claim z then c.release z else c
  let c := (c.zoneOutlets z).foldl Chip.clearLine c
  c.updAlign z fun a => { a with pending := false, demand := 0, grant := [], granted := 0 }

/-- SFE hands the zone's latency and names the zone (R30, R100, R107). -/
def Chip.handOff (c : Chip) (z : ZoneId) : Chip :=
  match c.zones[z].binding with
  | none => c
  | some s => (c.updAlign z fun a => { a with lDec := c.sources[s].latency }).nameZone z

/-! ### The apply path -/

/-- One outlet with a new trim, a new distance, or both. -/
structure ApplyEntry where
  outlet   : OutletId
  trim     : Option Int
  distance : Option Nat
  deriving DecidableEq, Repr

/-- Write one outlet through the apply path (R116): a new trim moves a test signal on the outlet at 1 hdB per millisecond
(R162), also one that is still ramping in (log 54), a changed distance names the outlet's zone. -/
def Chip.applyOne (c : Chip) (e : ApplyEntry) : Chip :=
  let x := c.outlets[e.outlet]
  let trim := e.trim.getD x.trim
  let distance := e.distance.getD x.distance
  let c := c.updOutlet e.outlet fun y => { y with trim := trim, distance := distance }
  let c := if trim ≠ x.trim ∧ c.test.outlet = some e.outlet then c.updTest fun t => { t with fast := false } else c
  match x.zone with
  | some z => if distance ≠ x.distance ∧ c.started z then c.nameZone z else c
  | none => c

/-- One use of the apply path (R116). -/
def Chip.applyAll (c : Chip) (l : List ApplyEntry) : Chip := l.foldl Chip.applyOne c

end Sys2Proof.Machine
end

