-- ==== Sys2Proof/Machine/Meters.lean ====
section
/-! DEFINITION. The Interval Meter Unit (08): arming, edges, the limit, claims, the claim queue and release. -/

namespace Sys2Proof.Machine

/-! ### One meter -/

/-- An edge taken by a meter that may qualify as A or as B; the flag says that the meter closed (R130). -/
def Meter.takeEdge (x : Meter) (isA isB : Bool) : Meter × Bool :=
  match x.state with
  | .armed =>
    if isA then ({ x with state := .opened, aSeen := true, firstA := some true }, false)
    else if isB && !x.ordered then ({ x with state := .opened, bSeen := true, firstA := some false }, false)
    else (x, false)
  | .opened =>
    if x.firstA = some true then
      if isB then
        if x.bCount ≤ x.bEdges + 1 then ({ x with bEdges := x.bEdges + 1, bSeen := true, state := .done }, true)
        else ({ x with bEdges := x.bEdges + 1 }, false)
      else (x, false)
    else if isA then ({ x with aSeen := true, state := .done }, true)
    else (x, false)
  | .free | .done | .over => (x, false)

/-- A detected edge, where ORDER edges never come from outside the meter (R128). -/
def Meter.detect (x : Meter) (e : Edge) : Meter × Bool :=
  if e.source = .order then (x, false) else x.takeEdge (x.edgeA == e) (x.edgeB == e)

/-- The meter with the settings of an arming, its status cleared and its limit started (R129 steps 1 to 3). -/
def Meter.set (x : Meter) (a : Arming) : Meter :=
  { x with state := .armed, edgeA := a.edgeA, edgeB := a.edgeB, bCount := a.bCount, ordered := a.ordered,
           limit := a.limit, aSeen := false, bSeen := false, bEdges := 0, firstA := none, ticks := 0, elapsed := 0 }

/-- An arming: an ORDER edge fires at once, at either polarity (R129 step 4). -/
def Meter.arm (x : Meter) (a : Arming) : Meter :=
  let x := x.set a
  let x := if a.edgeA.source = .order then (x.takeEdge true false).1 else x
  if a.edgeB.source = .order then (x.takeEdge false true).1 else x

/-- The meter at its limit (R131). -/
def Meter.overrun (x : Meter) : Meter := { x with state := .over }

/-- A freed meter: the status fields are cleared, elapsed time among them (log 64), the settings keep their last values (R132). -/
def Meter.freed (x : Meter) : Meter :=
  { x with state := .free, holder := none, aSeen := false, bSeen := false, bEdges := 0, firstA := none, ticks := 0,
           elapsed := 0, clamped := false }

/-- An arming selects the microphone comparator. -/
def Arming.usesMic (a : Arming) : Bool := a.edgeA.source == .micCross || a.edgeB.source == .micCross

/-! ### Arming and claims -/

/-- Arm a meter (R129); an arming that selects MIC_CROSS sets the shared comparator threshold (R128). -/
def Chip.armMeter (c : Chip) (m : MeterId) (a : Arming) : Chip :=
  let c := c.updMeter m fun x => x.arm a
  let c := if a.usesMic then { c with imu := { c.imu with threshold := a.threshold } } else c
  c.markPage 11

/-- CAL changes its run record in run state, results or meter: P12 is republished (R165, R171). -/
def Chip.setRun (c : Chip) (f : CalRec → CalRec) : Chip := (c.updCal f).markPage 12

/-- CAL is told that its meter is given: it records the meter, places the CALIBRATION hold and enters MUTING (R167). -/
def Chip.calGiven (c : Chip) (m : MeterId) : Chip :=
  let c := c.setRun fun x => { x with meter := some m, run := .muting }
  match c.cal.zone with
  | none => c
  | some z => c.placeHold z .calibration

/-- A meter is given to a claim: its holder is set, it is armed, the claimant is told (R133, R134). -/
def Chip.giveMeter (c : Chip) (m : MeterId) (q : Claim) : Chip :=
  let c := c.updMeter m fun x => { x with holder := some q.holder, clamped := q.clamped }
  let c := c.armMeter m q.arming
  if q.holder = .cal then c.calGiven m else c

/-- The meter of a holder with its purpose. -/
def Chip.meterOf (c : Chip) (h : Holder) : Option MeterId := allMeters.find? fun m => c.imu.meters[m].holder == some h

/-- The lowest-numbered FREE meter. -/
def Chip.freeMeter (c : Chip) : Option MeterId := allMeters.find? fun m => c.imu.meters[m].state == .free

/-- A claim by this holder and purpose is queued. -/
def Chip.claimQueued (c : Chip) (h : Holder) : Bool := c.imu.queue.any fun q => q.holder == h

/-- The claim would be refused (R133 cases 1, 3 and 5). -/
def Chip.refusesClaim (c : Chip) (h : Holder) (waits : Bool) : Bool :=
  c.claimQueued h || (c.meterOf h).isSome || (c.freeMeter.isNone && (!waits || decide (8 ≤ c.imu.queue.length)))

/-- A claim (R133): given the lowest-numbered FREE meter, queued, or refused without effect. -/
def Chip.claimMeter (c : Chip) (q : Claim) (waits : Bool) : Chip :=
  if c.refusesClaim q.holder waits then c
  else match c.freeMeter with
    | some m => c.giveMeter m q
    | none => { c with imu := { c.imu with queue := c.imu.queue ++ [q] } }

/-- A holder releases its meter, which goes to the head of the claim queue (R132, R134). -/
def Chip.releaseMeter (c : Chip) (m : MeterId) : Chip :=
  let c := c.updMeter m Meter.freed
  match c.imu.queue with
  | [] => c
  | q :: rest => ({ c with imu := { c.imu with queue := rest } } : Chip).giveMeter m q

/-- A claimant withdraws its queued claim (R133). -/
def Chip.withdrawClaim (c : Chip) (h : Holder) : Chip :=
  { c with imu := { c.imu with queue := c.imu.queue.filter fun q => q.holder != h } }

/-- A claimant gives up: it releases its meter, or withdraws its queued claim. -/
def Chip.dropMeter (c : Chip) (h : Holder) : Chip :=
  match c.meterOf h with
  | some m => c.releaseMeter m
  | none => c.withdrawClaim h

/-! ### Host measurements -/

/-- The result values of a MEASURE that closed: the meter number, the tick count, the first edge (R135). -/
def Meter.doneValues (x : Meter) (m : MeterId) : List ResultValue :=
  [.num m.val, .num x.ticks, .num (if x.firstA = some true then 0 else 1)]

/-- The result values of a MEASURE that reached its limit (R135). -/
def Meter.overValues (x : Meter) (m : MeterId) : List ResultValue :=
  [.num m.val, .num (boolCode x.aSeen), .num (boolCode x.bSeen), .num x.bEdges, .num x.ticks]

/-- WIN completes a MEASURE on its meter's signal and releases the meter (R135). The CLAMPED flag goes with DONE only (log 51). -/
def Chip.measureSignal (c : Chip) (m : MeterId) (ticket : Word) : Chip :=
  let x := c.imu.meters[m]
  let c := if x.state = .done then c.done ticket x.clamped (x.doneValues m)
    else c.doneWith ticket .timingFail (x.overValues m)
  c.releaseMeter m

/-- The tickets of the MEASURE orders in progress that `p` selects by their edges, held ones in meter order, then queued
ones in queue order; they end in this order, which is the model's choice (log 65). -/
def Chip.measures (c : Chip) (p : Edge → Edge → Bool) : List Word :=
  (allMeters.filterMap fun m =>
    let x := c.imu.meters[m]
    match x.holder with
    | some (.win t) => if p x.edgeA x.edgeB then some t else none
    | _ => none)
  ++ c.imu.queue.filterMap fun q =>
    match q.holder with
    | .win t => if p q.arming.edgeA q.arming.edgeB then some t else none
    | _ => none

/-- WIN ends a MEASURE before its signal: its meter is released or its claim withdrawn, and the order ends with ABORTED
(R136, R166, R195). -/
def Chip.abortMeasure (c : Chip) (ticket : Word) : Chip :=
  (c.dropMeter (.win ticket)).doneWith ticket .aborted []

end Sys2Proof.Machine
end

