-- ==== Sys2Proof/Machine/Time.lean ====
section
/-! DEFINITION. Time (00 section 5.3, log 15): what passes in the part while meter ticks go by. Ramps move, timers count
down to 0, where they wait for their expiry to be taken, streams play their FIFOs, running meters count. -/

namespace Sys2Proof.Machine

/-! ### One record -/

def Zone.pass (n : Nat) (x : Zone) : Zone :=
  { x with settleTimer := countDown n x.settleTimer, annHoldTimer := countDown n x.annHoldTimer,
           signalWindow := countDown n x.signalWindow }

def Ctx.pass (n : Nat) (x : Ctx) : Ctx :=
  { x with paths := (x.paths.map (Path.ramp n)).filter fun q => !q.gone }

def Source.pass (n : Nat) (x : Source) : Source :=
  { x with retryTimer := countDown n x.retryTimer, claimRetry := countDown n x.claimRetry,
           checkTimer := countDown n x.checkTimer, signalWindow := countDown n x.signalWindow }

/-- Bytes of a stream frame (R34). -/
def StreamFormat.frameBytes : StreamFormat → Nat
  | .pcm16 => 4 | .pcm24 => 6 | .bitstream => 4

/-- 160ths of a stream frame in a render sample: 160 at 48 kHz, 147 at 44.1 kHz (R34). -/
def Stream.framePace (x : Stream) : Nat := if x.rate = .r44 then 147 else 160

/-- A stream that drains plays a frame at each stream-rate period; a partial frame is discarded (R35). -/
def Stream.play (n : Nat) (x : Stream) : Stream :=
  let due := x.frac + n * x.framePace
  { x with fifo := x.fifo.drop (due / 160 * x.format.frameBytes), frac := due % 160 }

/-- Samples until a stream's FIFO has run empty. -/
def Stream.samplesToEmpty (x : Stream) : Nat :=
  let frames := (x.fifo.length + (x.format.frameBytes - 1)) / x.format.frameBytes
  (160 * frames - x.frac + (x.framePace - 1)) / x.framePace

def Outlet.pass (n : Nat) (x : Outlet) : Outlet :=
  { x with retryTimer := countDown n x.retryTimer, line := x.line.map fun l => { l with age := l.age + n } }

/-- A limit in meter ticks (R131). -/
def Meter.limitTicks (x : Meter) : Nat := x.limit * Config.ticksPerMs

/-- A running meter counts its elapsed time up to its limit, and keeps it behind its close (log 64); in OPEN the tick count runs while
exactly one of A_SEEN and B_SEEN is set (R127, R130, R131). -/
def Meter.pass (dt : Nat) (x : Meter) : Meter :=
  if x.state = .armed ∨ x.state = .opened then
    let d := min dt (x.limitTicks - x.elapsed)
    { x with elapsed := x.elapsed + d,
             ticks := if x.state = .opened ∧ x.aSeen ≠ x.bSeen then x.ticks + d else x.ticks }
  else x

/-- `v` moved toward `goal` by at most `d`. -/
def approach (d : Int) (goal v : Int) : Int :=
  if goal - d ≤ v ∧ v ≤ goal + d then goal else if v < goal then v + d else v - d

/-- The soft-mute attenuation moves at 1 hdB per millisecond (R145). -/
def Tuner.pass (n : Nat) (x : Tuner) : Tuner :=
  { x with timer := countDown n x.timer, measTimer := countDown n x.measTimer,
           softApplied := (approach n (48 * x.softMute) x.softApplied).toNat }

/-- The target of the signal gain on an outlet, in hdB (R162). -/
def Chip.testTarget (c : Chip) (o : OutletId) : Int :=
  min (min (c.test.level + c.outlets[o].trim) c.outlets[o].ceiling) 0

/-- The signal gain follows its target while the signal sounds (R161, R162). -/
def Chip.passTest (n : Nat) (c : Chip) : TestRec :=
  let x := c.test
  let x := { x with timer := countDown n x.timer }
  match x.outlet with
  | none => x
  | some o =>
    if x.started then
      let goal := 48 * c.testTarget o
      let g := approach ((if x.fast then 4 else 1) * n) goal x.gain
      { x with gain := g, fast := x.fast && g != goal }
    else x

def CalRec.pass (n : Nat) (x : CalRec) : CalRec :=
  { x with stepTimer := countDown n x.stepTimer, burstTimer := countDown n x.burstTimer }

/-- An idle timer held at full does not run (R182). -/
def Idle.pass (n : Nat) (held : Bool) (x : Idle) : Idle := if held then x else { x with timer := countDown n x.timer }

def Indicator.pass (n : Nat) (x : Indicator) : Indicator := { x with timer := countDown n x.timer }

def Chip.passSbb (n : Nat) (c : Chip) : Standby :=
  let x := c.sbb
  { x with supplyTimer := countDown n x.supplyTimer, sleepTimer := countDown n x.sleepTimer,
           historyTimer := countDown n x.historyTimer,
           idle := Vector.ofFn fun z => (x.idle[z]).pass n (c.idleHeld z),
           indicators := x.indicators.map (Indicator.pass n) }

/-- The fades of concealment (R56): within a run of bad frames a DECODING engine's output goes to silence, and after it, back from
there. -/
def Engine.fade (n : Nat) (x : Engine) : Engine :=
  if x.state = .decoding then { x with sound := if x.badRun = 0 then min Config.fadeLength (x.sound + n) else x.sound - n } else x

/-- An engine's phase timer is held while its stream source is STALLED (R60). -/
def Chip.passEngine (n : Nat) (c : Chip) (e : EngineId) : Engine :=
  let x := (c.engines[e]).fade n
  if c.sourceStalled x.source then x else { x with phaseTimer := countDown n x.phaseTimer }

/-- A stream plays while it drains; the time to its next fill mark read runs (R35, R36). -/
def Chip.passStream (n : Nat) (c : Chip) (m : StreamId) : Stream :=
  let x := if c.streamDrains m then (c.streams[m]).play n else c.streams[m]
  { x with readTimer := countDown n x.readTimer }

/-! ### The part -/

/-- Render samples that end within the next `dt` meter ticks. -/
def Chip.samplesIn (c : Chip) (dt : Nat) : Nat :=
  (c.clock + dt) / Config.ticksPerSample - c.clock / Config.ticksPerSample

/-- `dt` meter ticks pass, `n` samples among them. -/
def Chip.pass (c : Chip) (dt n : Nat) : Chip :=
  { c with
    clock := c.clock + dt
    zones := c.zones.map (Zone.pass n)
    ctxs := c.ctxs.map (Ctx.pass n)
    sources := c.sources.map (Source.pass n)
    streams := Vector.ofFn (c.passStream n)
    engines := Vector.ofFn (c.passEngine n)
    outlets := c.outlets.map (Outlet.pass n)
    imu := { c.imu with meters := c.imu.meters.map (Meter.pass dt) }
    tuner := c.tuner.pass n
    test := c.passTest n
    cal := c.cal.pass n
    sbb := c.passSbb n }

/-- `dt` meter ticks pass. -/
def Chip.passTicks (c : Chip) (dt : Nat) : Chip := c.pass dt (c.samplesIn dt)

/-- `n` render samples pass. -/
def Chip.passSamples (c : Chip) (n : Nat) : Chip := c.passTicks (n * Config.ticksPerSample)

/-- The time that a running timer still needs passes; a stopped timer lets none pass (log 2). -/
def Chip.passTimer (c : Chip) (t : Option Nat) : Chip := c.passSamples (t.getD 0)

end Sys2Proof.Machine
end

