-- ==== Sys2Proof/Machine/Calibration.lean ====
section
/-! DEFINITION. The Test Generator and the Calibration Unit (10): tests and walks, the calibration run with its bursts, level
steps, results, completion and abort. -/

namespace Sys2Proof.Machine

/-! ### The test generator -/

/-- The length of a SOUNDING step and of a GAP (R163). -/
def soundTime : Nat := Config.ms 2000
def gapTime : Nat := Config.ms 250

/-- The test record back in OFF; the level is kept (R160, R164). -/
def TestRec.ended (x : TestRec) : TestRec := { TestRec.initial with level := x.level }

/-- The running test, if any, ends (R164). -/
def Chip.endTest (c : Chip) : Chip :=
  match c.test.zone with
  | none => c
  | some z => (c.updTest TestRec.ended).liftHold z .test

/-- The test of a zone ends (R164). -/
def Chip.endTestIn (c : Chip) (z : ZoneId) : Chip := if c.test.zone = some z then c.endTest else c

/-- The active positions of the zone's layout list with their places in it and their outlets; position mute does not count
(R163). -/
def Chip.walkStops (c : Chip) (z : ZoneId) : List (Nat × Position × OutletId) :=
  c.ctxs[z].layout.zipIdx.filterMap fun e => (c.activeAt z e.1.1).map fun o => (e.2, e.1.1, o)

/-- The next stop of a walk after the position last sounded, with the wrap (R163): the first one of the list where that position is no
longer in it (log 55). -/
def Chip.nextStop (c : Chip) (z : ZoneId) (last : Option Position) : Option (Position × OutletId) :=
  let stops := c.walkStops z
  let next : Option (Nat × Position × OutletId) := match last.bind fun p => c.ctxs[z].layout.findIdx? fun e => e.1 == p with
    | none => stops.head?
    | some n => (stops.find? fun e => decide (n < e.1)).or stops.head?
  next.map Prod.snd

/-- A walk step that is due (R163): the next active position sounds, or the walk stays in GAP. The step's 2 s run from
the signal's start (log 26). -/
def Chip.walkStep (c : Chip) (z : ZoneId) : Chip :=
  match c.nextStop z c.test.last with
  | some e => c.updTest fun x =>
      { x with outlet := some e.2, phase := some .sounding, last := some e.1, gain := Config.silence, fast := true,
               timer := if x.started then some soundTime else none }
  | none => c.updTest fun x =>
      { x with outlet := none, phase := some .gap, gain := Config.silence, timer := some gapTime }

/-- A FIXED or WALK test sounds on its outlet from its first step on (R161). -/
def Chip.aimTest (c : Chip) (mode : TestMode) (z : ZoneId) (o : Option OutletId) (level : Int) : Chip :=
  match mode, o with
  | .walk, _ => (c.updTest fun x =>
      { x with mode := .walk, zone := some z, level := level, last := none }).walkStep z
  | m, o => c.updTest fun x =>
      { x with mode := m, zone := some z, outlet := o, level := level, phase := none, timer := none, last := none,
               gain := Config.silence, fast := true }

/-- A test in a zone (R161): a new one after the running one has ended, or a change of the running one in its zone. A
change of level alone moves the signal gain at 1 hdB per millisecond. -/
def Chip.setTest (c : Chip) (mode : TestMode) (z : ZoneId) (o : Option OutletId) (level : Int) : Chip :=
  if c.test.zone = some z then
    if c.test.mode = mode ∧ (mode = .walk ∨ c.test.outlet = o) then
      if c.test.level = level then c else c.updTest fun x => { x with level := level, fast := false }
    else c.aimTest mode z o level
  else
    let c := c.endTest.updTest fun _ => TestRec.initial
    (c.aimTest mode z o level).placeHold z .test

/-- The TEST hold is silent: the signal starts (R161). -/
def Chip.testSilent (c : Chip) : Chip :=
  if c.test.started then c
  else c.updTest fun x =>
    { x with started := true, fast := true,
             timer := if x.phase = some .sounding then some soundTime else x.timer }

/-- The end of a SOUNDING step (R163). -/
def TestRec.toGap (x : TestRec) : TestRec :=
  { x with outlet := none, phase := some .gap, timer := some gapTime, gain := Config.silence }

/-- The result values of TEST_SIGNAL: the test record (R160, log 11). -/
def TestRec.values (x : TestRec) : List ResultValue :=
  [.num (codeOf TestMode.all x.mode), .num (optCode (fun z => (z.val : Int)) x.zone),
   .num (optCode (fun o => (o.val : Int) + 1) x.outlet), .num x.level, .num (optCode (codeOf WalkPhase.all) x.phase),
   .num ((x.timer.getD 0 / Config.samplesPerMs : Nat) : Int), .num (x.gain / 48)]

/-! ### Edges of the bursts -/

/-- Every meter takes a detected edge, as it stands before the edge's signals are given (R128, R130, log 75). -/
def Chip.edgeAll (c : Chip) (e : Edge) : Chip :=
  { c with imu := { c.imu with meters := c.imu.meters.map fun x => (x.detect e).1 } }

/-- The meters that a detected edge closes, with their holders; that the holders are served in ascending meter order is the model's
choice (log 63). -/
def Chip.closedBy (c : Chip) (e : Edge) : List (MeterId × Holder) :=
  allMeters.filterMap fun m =>
    let x := c.imu.meters[m]
    if (x.detect e).2 then x.holder.map fun h => (m, h) else none

/-- An edge of a calibration burst (R128): only MEASURE orders can close on it. A meter that a release arms anew within the event does
not take the edge (log 75). -/
def Chip.burstEdge (c : Chip) (o : OutletId) (rising : Bool) : Chip :=
  let e : Edge := { source := .outBurst o, rising := rising }
  (c.closedBy e).foldl (fun c p => match p.2 with
    | .win t => c.measureSignal p.1 t
    | _ => c) (c.edgeAll e)

/-! ### The run -/

/-- The arming of a burst (R168). -/
def burstArming (o : OutletId) (threshold : Int) : Arming where
  edgeA := { source := .outBurst o, rising := true }
  edgeB := { source := .micCross, rising := true }
  bCount := 1
  ordered := true
  limit := 100
  threshold := threshold

/-- A burst on the outlet being measured (R168): the meter is armed, the step timer starts, and at the next meter tick the
tone burst starts. -/
def Chip.startBurst (c : Chip) (i : Nat) (o : OutletId) (k : Nat) : Chip :=
  let c := match c.cal.meter with
    | some m => c.armMeter m (burstArming o c.cal.threshold)
    | none => c
  let c := c.updCal fun x =>
    { x with place := some { index := i, step := .timing, burst := k }, stepTimer := some (Config.ms 300) }
  let c := (c.passTicks 1).burstEdge o true
  c.updCal fun x => { x with burst := some o, burstTimer := some (Config.ms 5) }

/-- A burst that still sounds stops, and its end is an edge (R128, R170, R172). -/
def Chip.stopBurst (c : Chip) : Chip :=
  match c.cal.burst with
  | none => c
  | some o => (c.updCal fun x => { x with burst := none, burstTimer := none }).burstEdge o false

/-- The number of outlets in each status (R171). -/
def CalRec.counts (x : CalRec) : List ResultValue :=
  CalStatus.all.map fun s => .num ((x.results.filter fun e => e.status == s).length : Nat)

/-- The run record in IDLE: ticket, zone, meter, place and the step's counts and timers are cleared, the outlet list, n, the threshold, the
target and APPLY keep their last values, which is the model's choice (log 66); the results are kept (R165). -/
def CalRec.idle (x : CalRec) : CalRec :=
  { x with run := .idle, ticket := none, zone := none, meter := none, place := none, tickSum := 0, valid := 0,
           stepTimer := none, burst := none, burstTimer := none }

/-- The outlets that the apply step writes (R171). -/
def CalRec.applied (x : CalRec) : List ApplyEntry :=
  (x.results.filter fun e => e.status == .ok).map fun e =>
    { outlet := e.outlet, trim := e.trim, distance := e.distance }

/-- CAL gives up its meter or claim and lifts its hold. -/
def Chip.leaveRun (c : Chip) : Chip :=
  let zone := c.cal.zone
  let c := c.dropMeter .cal
  match zone with
  | some z => c.liftHold z .calibration
  | none => c

/-- The run completes (R171); the result value for whether the results were applied is the APPLY flag (log 68). -/
def Chip.completeRun (c : Chip) : Chip :=
  let c := c.leaveRun
  let x := c.cal
  let c := if x.apply then c.applyAll x.applied else c
  let c := c.setRun CalRec.idle
  match x.ticket with
  | some t => c.done t x.clamped (x.counts ++ [.num (boolCode x.apply)])
  | none => c

/-- The run is aborted (R172), without CLAMPED (log 67); nothing happens in IDLE. -/
def Chip.abortRun (c : Chip) : Chip :=
  if c.cal.run = .idle then c
  else
    let c := c.stopBurst.leaveRun.updCal fun x =>
      { x with results := x.results.map fun e => if e.status = .pending then { e with status := .notMeasured } else e }
    let x := c.cal
    let c := c.setRun CalRec.idle
    match x.ticket with
    | some t => c.doneWith t .aborted x.counts
    | none => c

/-- A run in the zone is aborted (R172). -/
def Chip.abortRunIn (c : Chip) (z : ZoneId) : Chip := if c.cal.zone = some z then c.abortRun else c

/-- Record an entry of the result list; the tick sum and the valid count return to 0 (R169, R170). -/
def CalRec.record (x : CalRec) (i : Nat) (f : CalEntry → CalEntry) : CalRec :=
  { x with results := x.results.modify i f, tickSum := 0, valid := 0, stepTimer := none, burst := none,
           burstTimer := none, place := none }

/-- An entry without a measurement keeps the valid count (R170). -/
def CalEntry.failed (status : CalStatus) (valid : Nat) (e : CalEntry) : CalEntry :=
  { e with status := status, valid := valid, level := none, distance := none, trim := none }

/-- Why an outlet cannot be measured now (R170); of the two reasons FAULT comes first (log 69). -/
def Chip.unmeasurable (c : Chip) (o : OutletId) : Option CalStatus :=
  let x := c.outlets[o]
  if !x.protection.serving then some .fault
  else if x.zone = c.cal.zone ∧ x.engaged then none
  else some .absent

/-- Measure the first outlet of the rest of the list that can be measured, from list position `i` on; after the last one
the run completes (R169 to R171). -/
def Chip.measureFrom : List OutletId → Nat → Chip → Chip
  | [], _, c => c.completeRun
  | o :: rest, i, c =>
    match c.unmeasurable o with
    | some s => measureFrom rest (i + 1) (c.setRun fun x => x.record i (CalEntry.failed s x.valid))
    | none => c.startBurst i o 1

/-- The run moves on from list position `i`. -/
def Chip.moveOn (c : Chip) (i : Nat) : Chip := Chip.measureFrom (c.cal.outlets.drop (i + 1)) (i + 1) c

/-- The CALIBRATION hold is silent: the run enters MEASURING at the first outlet (R167). -/
def Chip.calSilent (c : Chip) : Chip :=
  if c.cal.run = .muting then
    let c := c.setRun fun x => { x with run := .measuring }
    Chip.measureFrom c.cal.outlets 0 c
  else c

/-- The outlet being measured, with its list position. -/
def CalRec.measured (x : CalRec) : Option (Nat × OutletId) :=
  if x.run = .measuring then
    match x.place with
    | some p => (x.outlets[p.index]?).map fun o => (p.index, o)
    | none => none
  else none

/-- The outlet being measured trips, latches, is disengaged or leaves its zone: its burst or noise stops, and the run moves on
(R170). -/
def Chip.calLoses (c : Chip) (o : OutletId) (status : CalStatus) : Chip :=
  match c.cal.measured with
  | some (i, p) =>
    if p = o then (c.stopBurst.setRun fun x => x.record i (CalEntry.failed status x.valid)).moveOn i else c
  | none => c

/-- The meter's signal in the timing step: a DONE adds its ticks, an OVER adds nothing (R168). -/
def CalRec.takeMeter (x : CalRec) (m : Meter) : CalRec :=
  if x.run = .measuring ∧ m.state = .done then { x with tickSum := x.tickSum + m.ticks, valid := x.valid + 1 } else x

/-! ### Results -/

/-- Distance from the mean ticks: (mean − 18,432) × 343 / 245,760 to nearest, halves up, limited (R169). -/
def flightDistance (mean : Nat) : Nat :=
  (clampInt 0 1800 ((2 * ((mean : Int) - 18432) * 343 + 245760) / 491520)).toNat

/-- Trim 2 × (target − L_m) to nearest, halves up, limited; the level is in tenths of a dBFS (R169, log 70). -/
def calTrim (target level : Int) : Int := clampInt (-24) 24 ((4 * (10 * target - level) + 10) / 20)

/-- The status of a measurement (R169), by its level in tenths of a dBFS (log 70). -/
def calStatus (level : Int) (valid bursts : Nat) : CalStatus :=
  if level < -700 then .noResponse else if valid < (bursts + 1) / 2 then .timingFail else .ok

/-- The result of an outlet (R169). -/
def CalRec.result (x : CalRec) (level : Int) (e : CalEntry) : CalEntry :=
  let s := calStatus level x.valid x.bursts
  { e with
    status := s
    valid := x.valid
    level := some level
    distance := if s = .ok then some (flightDistance (x.tickSum / x.valid)) else none
    trim := if s = .ok then some (calTrim x.target level) else none }

/-- The step timer expires in the timing step: the next burst, or the level step (R168, R169). -/
def Chip.timingExpired (c : Chip) (p : CalPlace) (o : OutletId) : Chip :=
  if p.burst < c.cal.bursts then c.startBurst p.index o (p.burst + 1)
  else c.updCal fun x => { x with place := some { p with step := .level }, stepTimer := some (Config.ms 500) }

/-- The step timer expires in the level step, with the level measured (R169). -/
def Chip.levelExpired (c : Chip) (i : Nat) (level : Int) : Chip :=
  (c.setRun fun x => x.record i (x.result level)).moveOn i

/-- A run starts (R166 step 3). -/
def startRun (ticket : Word) (z : ZoneId) (outlets : List OutletId) (bursts : Nat) (threshold target : Int)
    (apply clamped : Bool) : CalRec where
  run := .claiming
  ticket := some ticket
  zone := some z
  outlets := outlets
  bursts := bursts
  threshold := threshold
  target := target
  apply := apply
  clamped := clamped
  meter := none
  place := none
  tickSum := 0
  valid := 0
  stepTimer := none
  burst := none
  burstTimer := none
  results := outlets.map fun o =>
    { outlet := o, status := .pending, valid := 0, level := none, distance := none, trim := none }

end Sys2Proof.Machine
end

