-- ==== Sys2Proof/Machine/Outlets.lean ====
section
/-! DEFINITION. Placement of outlets (07 sections 7.2 and 7.3): placing, withdrawing, lending, return, assignment, and the
UNUSED flag. -/

namespace Sys2Proof.Machine

/-- The UNUSED flag is evaluated: set, it clears the outlet's line; a change names the outlet's zone (R95, R113) and republishes P6 (R110). -/
def Chip.evalUnused (c : Chip) (o : OutletId) : Chip :=
  let u := c.unusedOf o
  if u = c.outlets[o].unused then c
  else
    let c := (c.updOutlet o fun x => { x with unused := u }).markPage 6
    let c := if u then c.clearLine o else c
    match c.outlets[o].zone with
    | some z => c.nameZone z
    | none => c

/-- An outlet's placement or assignments change: a zone whose active parameter set changes with it is named (R65, R107), and P6 is
republished, also where the event changes them back (R110). -/
def Chip.relend (c : Chip) (o : OutletId) (f : Outlet → Outlet) : Chip :=
  let c' := (c.updOutlet o f).markPage 6
  allZones.foldl (fun d z => if c'.lendsAway z = c.lendsAway z then d else d.nameZone z) c'

/-- An outlet's engaged flag is set or cleared; a change of it republishes P6, also where the event changes it back (R110). -/
def Chip.setEngaged (c : Chip) (o : OutletId) (on : Bool) : Chip :=
  let c' := c.updOutlet o fun x => { x with engaged := on }
  if c.outlets[o].engaged = on then c' else c'.markPage 6

/-- An outlet is placed in a zone, as HOME or LENT (R113). -/
def Chip.placeOutlet (c : Chip) (o : OutletId) (z : ZoneId) (p : Placement) : Chip :=
  let c := c.relend o fun x => { x with zone := some z, placement := p, engaged := c.started z }
  (c.nameZone z).evalUnused o

/-- An outlet leaves its zone: its relay opens, its line is cleared (R113). -/
def Chip.leaveZone (c : Chip) (o : OutletId) : Chip :=
  let zone := c.outlets[o].zone
  let c := (c.clearLine o).relend o fun x =>
    { x with zone := none, placement := .home, engaged := false, unused := false, relay := false }
  match zone with
  | some z => c.nameZone z
  | none => c

/-- A withdrawal for lending or reassignment begins (R113). It ends a FIXED test on the outlet (R164), and a calibration
run records ABSENT for an outlet it is measuring (R170). -/
def Chip.beginWithdraw (c : Chip) (o : OutletId) (p : Placement) : Chip :=
  let c := c.relend o fun x => { x with engaged := false, placement := p }
  let c := c.updEv fun e => { e with withdrawn := e.withdrawn ++ [o] }
  let c := if c.test.mode = .fixed ∧ c.test.outlet = some o then c.endTest else c
  c.calLoses o .absent

/-- A lending is cancelled: the outlet stays in its primary zone, engaged where the zone is STARTING or ON (R118). -/
def Chip.cancelLending (c : Chip) (o : OutletId) : Chip :=
  let on := match c.outlets[o].zone with
    | some z => c.started z
    | none => false
  (c.relend o fun x => { x with placement := .home, engaged := on }).updEv
    fun e => { e with withdrawn := e.withdrawn.filter (· ≠ o) }

/-- An assignment that names a zone that is STARTING or ON. -/
def Chip.assignmentStarted (c : Chip) (a : Option Assignment) : Bool :=
  match a with
  | some a => c.started a.zone
  | none => false

/-- An outlet in no zone is placed by its assignments: in its alternate zone if that is STARTING or ON, otherwise in its
primary zone (R114). -/
def Chip.placeAssigned (c : Chip) (o : OutletId) : Chip :=
  let x := c.outlets[o]
  if c.assignmentStarted x.alternate then
    match x.alternate with
    | some a => c.placeOutlet o a.zone .lent
    | none => c
  else match x.primary with
    | some a => c.placeOutlet o a.zone .home
    | none => c

/-- The code of an assignment's zone and position (section 12.6). -/
def assignmentValues (a : Option Assignment) : List ResultValue :=
  [.num (optCode (fun a : Assignment => (a.zone.val : Int)) a),
   .num (optCode (fun a : Assignment => codeOf Position.all a.position) a)]

/-- The result values of OUTLET_ASSIGN (R114). -/
def Outlet.assignValues (x : Outlet) : List ResultValue :=
  assignmentValues x.primary ++ assignmentValues x.alternate
    ++ [.num (optCode (fun z : ZoneId => (z.val : Int)) x.zone), .num (codeOf Placement.all x.placement)]

/-- An outlet that has left for a new assignment is placed, and its order completes (R114). -/
def Chip.finishAssign (c : Chip) (o : OutletId) (ticket : Option Word) : Chip :=
  let c := (c.placeAssigned o).updOutlet o fun x => { x with pendingAssign := none }
  match ticket with
  | some t => c.done t false c.outlets[o].assignValues
  | none => c

/-- A withdrawal may end: the outlet is silent, or tripped or latched (R113, R117). -/
def Chip.withdrawDone (c : Chip) (o : OutletId) : Bool := c.outletSilent o || !c.outlets[o].protection.serving

/-- The end of a withdrawal (R113, R114, R117). A lending whose alternate zone is no longer STARTING or ON is cancelled. -/
def Chip.endWithdraw (c : Chip) (o : OutletId) : Chip :=
  let c := c.updEv fun e => { e with withdrawn := e.withdrawn.filter (· ≠ o) }
  let x := c.outlets[o]
  match x.placement with
  | .lending =>
    if c.assignmentStarted x.alternate then
      match x.alternate with
      | some a => (c.leaveZone o).placeOutlet o a.zone .lent
      | none => c
    else c.cancelLending o
  | .reassigning => (c.leaveZone o).finishAssign o x.pendingAssign
  | .home | .lent => c

/-- An outlet that the starting zone borrows (R117). -/
def Chip.borrow (c : Chip) (z : ZoneId) (o : OutletId) : Chip :=
  let x := c.outlets[o]
  match x.alternate, x.zone with
  | some a, some home =>
    if a.zone = z ∧ x.placement = .home then
      if c.zones[home].power = .off then (c.leaveZone o).placeOutlet o z .lent
      else c.beginWithdraw o .lending
    else c
  | _, _ => c

/-- An outlet of the starting zone's own is placed with its engaged flag set (R117). -/
def Chip.engageHome (c : Chip) (z : ZoneId) (o : OutletId) : Chip :=
  let x := c.outlets[o]
  if x.placement = .home ∧ x.zone = some z ∧ (x.primary.map Assignment.zone) = some z then
    (c.setEngaged o true).evalUnused o
  else c

/-- Lending at a zone's start (R117). -/
def Chip.lendTo (c : Chip) (z : ZoneId) : Chip :=
  allOutlets.foldl (fun c o => c.engageHome z o) (allOutlets.foldl (fun c o => c.borrow z o) c)

/-- What a zone's stop does with one outlet (R118): a lent one returns, a lending to the zone is cancelled, one that is being
withdrawn from the zone has reached silence, and every outlet in the zone is disengaged (R113). -/
def Chip.returnOutlet (c : Chip) (z : ZoneId) (o : OutletId) : Chip :=
  let x := c.outlets[o]
  if x.zone = some z then
    match x.placement, x.primary with
    | .lent, some a => (c.leaveZone o).placeOutlet o a.zone .home
    | .lending, _ | .reassigning, _ => c.updEv fun e => { e with withdrawn := e.withdrawn ++ [o] }
    | _, _ => c.setEngaged o false
  else if x.placement = .lending ∧ x.alternate.map Assignment.zone = some z then c.cancelLending o
  else c

/-- The triggers (R125). -/
def Chip.setTriggers (c : Chip) : Chip :=
  { c with triggers := c.triggers.map fun t => { t with asserted := c.triggerAsserted t.binding } }

/-- The triggers are evaluated when a zone has left service; a change republishes P6, also where the zone's restart changes it back within
the event (R9, R125). -/
def Chip.evalTriggers (c : Chip) : Chip :=
  if c.setTriggers.triggers = c.triggers then c else c.setTriggers.markPage 6

/-- Return of the outlets at a zone's stop (R118). -/
def Chip.returnOutlets (c : Chip) (z : ZoneId) : Chip := allOutlets.foldl (fun c o => c.returnOutlet z o) c

/-- UNUSED of the outlets in a zone after a LAYOUT_LOAD (R64, R113). -/
def Chip.evalUnusedIn (c : Chip) (z : ZoneId) : Chip := (c.zoneOutlets z).foldl Chip.evalUnused c

/-- Another outlet's assignment names the zone and position of an assignment (R114). -/
def Chip.assignmentTaken (c : Chip) (o : OutletId) (a : Option Assignment) : Bool :=
  match a with
  | none => false
  | some a => allOutlets.any fun p =>
      p != o && (c.outlets[p].primary == some a || c.outlets[p].alternate == some a)

/-- An assignment of OUTLET_ASSIGN: the inner option is a zone given as NONE, whose position is ignored; the outer one is
absent for an invalid code (R114). -/
def assignmentParam (zone position : Int) : Option (Option Assignment) :=
  match zoneParam zone with
  | none => none
  | some none => some none
  | some (some z) => (ofCode Position.all position).map fun p => some { zone := z, position := p }

/-- An OUTLET_ASSIGN whose checks have passed (R114). -/
def Chip.assign (c : Chip) (ticket : Word) (o : OutletId) (p a : Option Assignment) : Chip :=
  let x := c.outlets[o]
  if x.primary = p ∧ x.alternate = a then c.done ticket false x.assignValues
  else
    let c := c.relend o fun y => { y with primary := p, alternate := a }
    match x.zone with
    | some z =>
      if c.zones[z].power = .off then (c.leaveZone o).finishAssign o (some ticket)
      else (c.updOutlet o fun y => { y with pendingAssign := some ticket }).beginWithdraw o .reassigning
    | none => c.finishAssign o (some ticket)

end Sys2Proof.Machine
end

