-- ==== Sys2Proof/Machine/Engines.lean ====
section
/-! DEFINITION. The engine arbiter (03): the request rule, migration, preemption, taking a source, the wait queue, release,
start failure, changes of format on a decoded source, frames. -/

namespace Sys2Proof.Machine

/-- The phase timer's start (R52, R57). -/
def phaseTime : Nat := Config.ms 500

/-- What of an engine record is its part of the engine table (R44). -/
def Engine.table (x : Engine) : EngineState × Option SourceId × Option Format × List ZoneId :=
  (x.state, x.source, x.format, x.consumers)

/-- The arbiter writes an engine record; an engine table change is announced, also where the event undoes it: P7 is
republished (R44). -/
def Chip.setEngine (c : Chip) (e : EngineId) (f : Engine → Engine) : Chip :=
  let c' := c.updEngine e f
  if c'.engines[e].table = c.engines[e].table then c' else c'.markPage 7

/-- The arbiter writes the wait queue; a change of it is an engine table change (R44). -/
def Chip.setQueue (c : Chip) (q : List ZoneId) : Chip :=
  if q = c.waitQueue then c else ({ c with waitQueue := q } : Chip).markPage 7

/-- A zone joins a consumer set, held in ascending zone order (R44). -/
def insertZone (z : ZoneId) (l : List ZoneId) : List ZoneId := allZones.filter fun y => y = z ∨ y ∈ l

/-- The zone leaves the wait queue (R53). -/
def Chip.dequeue (c : Chip) (z : ZoneId) : Chip := c.setQueue (c.waitQueue.filter (· ≠ z))

/-- The zone joins the tail of the wait queue, unless it is queued (R49 step 5, R51). -/
def Chip.enqueue (c : Chip) (z : ZoneId) : Chip :=
  if z ∈ c.waitQueue then c else c.setQueue (c.waitQueue ++ [z])

/-- The queued zones whose binding is `s`, in queue order. -/
def Chip.queuedFor (c : Chip) (s : SourceId) : List ZoneId := c.waitQueue.filter fun z => c.zones[z].binding == some s

/-- An engine that starts on a source (R44, R45, R52). -/
def Engine.starting (s : SourceId) (f : Format) (consumers : List ZoneId) : Engine where
  state := .starting
  source := some s
  format := some f
  latency := f.latency
  consumers := consumers
  goodRun := 0
  badRun := 0
  phaseTimer := some phaseTime
  objects := []
  sound := 0

/-- A source's decode state is written; a change republishes P5, also where the event changes it back (R19, R21). -/
def Chip.setDecode (c : Chip) (s : SourceId) (d : Decode) : Chip :=
  let c' := c.updSource s fun x => { x with decode := d }
  if c.sources[s].decode = d then c' else c'.markPage 5

/-- An engine takes source `s` in format `f` for a zone; the queued zones bound to `s` join it (R52). -/
def Chip.takeEngine (c : Chip) (e : EngineId) (s : SourceId) (f : Format) (z : ZoneId) : Chip :=
  let joining := c.queuedFor s
  let c := c.setEngine e fun _ => Engine.starting s f (joining.foldl (fun l y => insertZone y l) [z])
  let c := c.setDecode s .engaged
  c.setQueue (c.waitQueue.filter fun y => y ∉ joining ∧ y ≠ z)

/-- An engine that is FREE (R44). -/
def Chip.engineFree (c : Chip) (e : EngineId) : Bool := c.engines[e].state == .free

/-- DE1 is FREE and DE0 decodes a source in a format other than OBJ (R49 step 3, R54). -/
def Chip.canMigrate (c : Chip) : Bool :=
  c.engineFree 1 && !c.engineFree 0 && c.engines[(0 : EngineId)].format != some .obj

/-- Migration: DE1 starts on what DE0 decodes, and DE0 drops it (R50). -/
def Chip.migrate (c : Chip) : Chip :=
  let d := c.engines[(0 : EngineId)]
  match d.source, d.format with
  | some s, some f => (c.setEngine 1 fun _ => Engine.starting s f d.consumers).setEngine 0 fun _ => Engine.initial
  | _, _ => c

/-- Preemption: the engine's zones go to the tail of the queue, its source loses its decode, and ZM takes it (R51). -/
def Chip.preempt (c : Chip) (s : SourceId) (f : Format) : Chip :=
  let e : EngineId := if f = .obj then 0 else 1
  let d := c.engines[e]
  let c := d.consumers.foldl Chip.enqueue c
  let c := match d.source with
    | some s' => c.setDecode s' .none
    | none => c
  (c.setEngine e fun _ => Engine.initial).takeEngine e s f 0

/-- A request of zone `z` for source `s` in format `f`: the first step that applies (R49). -/
def Chip.request (c : Chip) (z : ZoneId) (s : SourceId) (f : Format) : Chip :=
  if c.sources[s].decode = .failed then c
  else match c.engineOf s with
    | some e => c.setEngine e fun x => { x with consumers := insertZone z x.consumers }
    | none =>
      if f = .obj then
        if c.engineFree 0 then c.takeEngine 0 s f z
        else if c.canMigrate then c.migrate.takeEngine 0 s f z
        else if z = 0 then c.preempt s f
        else c.enqueue z
      else if c.engineFree 1 then c.takeEngine 1 s f z
      else if c.engineFree 0 then c.takeEngine 0 s f z
      else if z = 0 then c.preempt s f
      else c.enqueue z

/-- Serve the queue for an engine that is FREE: walk the entries from the head (R54). -/
def Chip.serveEntries (e : EngineId) : List ZoneId → Chip → Chip
  | [], c => c
  | z :: rest, c =>
    match c.zones[z].binding with
    | none => serveEntries e rest (c.dequeue z)
    | some s =>
      match c.sources[s].carries with
      | none => serveEntries e rest (c.dequeue z)
      | some f =>
        if c.sources[s].decode = .failed then serveEntries e rest (c.dequeue z)
        else if f.eligible e then c.takeEngine e s f z
        else if e = 1 ∧ c.canMigrate then c.migrate.takeEngine 0 s f z
        else serveEntries e rest c

/-- Serve the queue for an engine if it is FREE (R54). -/
def Chip.serve (c : Chip) (e : EngineId) : Chip := if c.engineFree e then Chip.serveEntries e c.waitQueue c else c

/-- An engine becomes FREE: its fields clear, an ENGAGED decode state becomes NONE, and its source's signal-present clears
(R55, R33). The queue is served by the caller. -/
def Chip.freeEngine (c : Chip) (e : EngineId) : Chip :=
  let d := c.engines[e]
  let c := c.setEngine e fun _ => Engine.initial
  match d.source with
  | none => c
  | some s =>
    (c.setDecode s (if c.sources[s].decode = .engaged then .none else c.sources[s].decode)).updSource s
      fun x => { x with signalPresent := false, signalWindow := none }

/-- A zone leaves the engine that decodes for it, or the wait queue; an engine without consumers becomes FREE (R53,
R55). -/
def Chip.leaveEngine (c : Chip) (z : ZoneId) : Chip :=
  let c := c.dequeue z
  match c.consumerOf z with
  | none => c
  | some e =>
    let left := c.engines[e].consumers.filter (· ≠ z)
    if left.isEmpty then (c.freeEngine e).serve e else c.setEngine e fun x => { x with consumers := left }

/-- A source stops being a bitstream: its zones leave the queue, its engine becomes FREE (R53, R55). -/
def Chip.dropBitstream (c : Chip) (s : SourceId) : Chip :=
  let c := (c.boundZones s).foldl Chip.dequeue c
  match c.engineOf s with
  | none => c
  | some e => (c.freeEngine e).serve e

/-- SFE's count of a start failure, and its retry (R31). -/
def Source.startFailed (x : Source) : Source :=
  { x with decode := .failed, failCount := min 4 (x.failCount + 1),
           retryTimer := if x.failCount + 1 ≤ 3 then some (Config.ms 2000) else none }

/-- The phase timer has expired: the source has failed to start (R58). -/
def Chip.startFailure (c : Chip) (e : EngineId) : Chip :=
  match c.engines[e].source with
  | none => c
  | some s => ((c.freeEngine e).updSource s Source.startFailed).serve e

/-- Requests for the zones bound to a source, in ascending zone order. -/
def Chip.requestAll (c : Chip) (s : SourceId) (f : Format) (zones : List ZoneId) : Chip :=
  zones.foldl (fun c z => c.request z s f) c

/-- The bound zones that are neither a consumer nor queued (R40). -/
def Chip.unserved (c : Chip) (s : SourceId) : List ZoneId :=
  (c.boundZones s).filter fun z => c.consumerOf z = none ∧ z ∉ c.waitQueue

/-- An engine eligible for the new format of its source (R59). -/
def Engine.reformat (x : Engine) (f : Format) : Engine :=
  { x with format := some f, latency := f.latency, goodRun := 0, badRun := 0, phaseTimer := some phaseTime,
           state := if x.state = .starting then .starting else .resync, objects := [], sound := 0 }

/-- A change from one compressed format to another; the queue is served where the source is one of its entries' (R59). -/
def Chip.reformat (c : Chip) (s : SourceId) (f : Format) : Chip :=
  match c.engineOf s with
  | some e =>
    if f.eligible e then (c.setEngine e fun x => x.reformat f).updSource s fun x => { x with decode := .engaged }
    else ((c.freeEngine e).requestAll s f (c.boundZones s)).serve e
  | none =>
    let c := if c.waitQueue.any fun z => c.zones[z].binding == some s then (c.serve 0).serve 1 else c
    c.requestAll s f (c.unserved s)

/-! ### Frames -/

/-- A frame's object descriptions are in range: R47 makes an azimuth or an elevation beyond its range a bad frame, and says nothing of
a level beyond its own (log 48). -/
def objectsInRange (l : List ObjDesc) : Bool := l.all fun d => decide (d.azimuth ≤ 359) && decide (d.elevation ≤ 1)

/-- An entry of the object list: a level outside 0 to −160 hdB is held as a free value in that range (R47, log 48). -/
def ObjDesc.held (d : ObjDesc) : ObjDesc :=
  if -160 ≤ d.level ∧ d.level ≤ 0 then d else { d with level := -((Config.objectLevel d.level).val : Int) }

/-- The object list that a frame's descriptions give: one entry for each object number, in ascending order (R47). -/
def objectList (l : List ObjDesc) : List ObjDesc :=
  (List.finRange 16).filterMap fun n => (l.find? fun d => d.number == n).map ObjDesc.held

/-- A good frame (R56); an engine that enters DECODING delivers it in full; every good frame replaces the list of objects, which is
an OBJ engine's (R47). -/
def Engine.goodFrame (x : Engine) (objects : List ObjDesc) : Engine :=
  let objects := if x.format = some .obj then objectList objects else []
  match x.state with
  | .starting | .resync =>
    if x.goodRun + 1 < 2 then { x with goodRun := x.goodRun + 1, objects := objects }
    else { x with state := .decoding, goodRun := 0, badRun := 0, phaseTimer := none, objects := objects, sound := Config.fadeLength }
  | .decoding => { x with badRun := 0, objects := objects }
  | .free => x

/-- A bad frame; the eighth in a row takes a DECODING engine to RESYNC (R56, R57). -/
def Engine.badFrame (x : Engine) : Engine :=
  let bad := min 255 (x.badRun + 1)
  match x.state with
  | .starting | .resync => { x with goodRun := 0, badRun := bad }
  | .decoding =>
    if bad < 8 then { x with badRun := bad }
    else { x with state := .resync, goodRun := 0, badRun := bad, phaseTimer := some phaseTime, objects := [], sound := 0 }
  | .free => x

/-- A frame arrives at an engine (R56). A source whose engine reaches DECODING has its start-failure count cleared
(R31). -/
def Chip.frame (c : Chip) (e : EngineId) (checkPasses : Bool) (objects : List ObjDesc) : Chip :=
  let x := c.engines[e]
  let good := checkPasses && (x.format != some .obj || objectsInRange objects)
  let y := if good then x.goodFrame objects else x.badFrame
  let c := c.setEngine e fun _ => y
  match x.source with
  | none => c
  | some s => if y.state = .decoding ∧ x.state ≠ .decoding then c.updSource s fun q => { q with failCount := 0 } else c

end Sys2Proof.Machine
end

