-- ==== Sys2Proof/Machine/Sources.lean ====
section
/-! DEFINITION. The Source Front End (02): acquisition, the rate check, format detection and format changes, retries,
policies, profiles and offers. -/

namespace Sys2Proof.Machine

/-- The period of the rate check (R27). -/
def checkPeriod : Nat := Config.ms 10000
/-- The pause before a refused acquisition claim is made again (R23). -/
def claimPause : Nat := Config.ms 100
/-- The window of a signal-present flag (R18, R33). -/
def signalTime : Nat := Config.ms 1000

/-! ### Rate -/

/-- The settings of a rate measurement (R23). -/
def rateArming (p : SourceId) : Arming where
  edgeA := { source := .portWclk p, rising := true }
  edgeB := { source := .portWclk p, rising := true }
  bCount := 4096
  ordered := true
  limit := 200
  threshold := -40

/-- 4096 periods at a rate last `ticks` meter ticks, within ±0.5% of the rate (R24). -/
def withinTolerance (hz ticks : Nat) : Bool :=
  let span : Int := 4096 * 24576000
  decide (200 * (span - hz * ticks).natAbs ≤ hz * ticks)

/-- The nominal rate of a source's kind that a tick count classes to (R24). -/
def classRate (s : SourceId) (ticks : Nat) : Option Rate := (nominalRates s).find? fun r => withinTolerance r.hz ticks

/-- The class of a rate meter's result: none for OVER (R24, R27). -/
def Meter.classed (x : Meter) (p : SourceId) : Option Rate := if x.state = .done then classRate p x.ticks else none

/-! ### Changes of state -/

/-- The source leaves its state: a check in flight releases its meter, an acquisition claim is given up (R23, R27). -/
def Chip.leaveState (c : Chip) (s : SourceId) : Chip :=
  let c := c.dropMeter (.sfeRate s)
  let c := match c.meterOf (.sfeCheck s) with
    | some m => c.releaseMeter m
    | none => c
  c.updSource s fun x => { x with claimRetry := none, checkTimer := none }

/-- The check period of a clocked port that enters LOCKED or UNSUPPORTED (R27). -/
def newCheck (s : SourceId) : Option Nat := if clocked s then some checkPeriod else none

/-- A source without a signal (R26). -/
def Source.silenced (x : Source) : Source :=
  { x with state := .noSignal, phase := none, reason := none, rate := none, format := none, detail := 0, lanes := 0,
           signalPresent := false, decode := .none, failCount := 0, retryTimer := none, claimRetry := none,
           checkTimer := none, signalWindow := none, frameLayout := 0 }

/-- The source enters NO_SIGNAL (R26). -/
def Chip.loseSignal (c : Chip) (s : SourceId) : Chip :=
  let c := c.leaveState s
  (c.updSource s Source.silenced).dropBitstream s

/-- A source enters LOCKED in a format (R25). -/
def Source.lock (x : Source) (s : SourceId) (f : Format) (detail : Nat) : Source :=
  { x with state := .locked, phase := none, reason := none, format := some f, detail := detail,
           checkTimer := newCheck s }

/-- The hand-off of the latency to each zone bound to a source (R30). -/
def Chip.handOffAll (c : Chip) (s : SourceId) : Chip := (c.boundZones s).foldl Chip.handOff c

/-- The source enters LOCKED in a format it did not have: the latency is handed on, and ZC requests an engine for each
zone bound to a compressed format (R11, R25, R30). -/
def Chip.lockSource (c : Chip) (s : SourceId) (f : Format) (detail : Nat) : Chip :=
  let c := (c.leaveState s).updSource s fun x => x.lock s f detail
  let c := if f.compressed then c.requestAll s f (c.boundZones s) else c
  c.handOffAll s

/-- A source enters UNSUPPORTED (R24, R25). -/
def Source.reject (x : Source) (s : SourceId) (reason : Phase) : Source :=
  { x with state := .unsupported, phase := none, reason := some reason, format := none, detail := 0,
           checkTimer := newCheck s }

/-- The source enters UNSUPPORTED from ACQUIRING (R24, R25). -/
def Chip.rejectSource (c : Chip) (s : SourceId) (reason : Phase) : Chip :=
  (c.leaveState s).updSource s fun x => x.reject s reason

/-- The rate is classed: phase FORMAT (R24, R27). -/
def Chip.enterFormat (c : Chip) (s : SourceId) (r : Rate) : Chip :=
  (c.leaveState s).updSource s fun x =>
    { x with state := .acquiring, phase := some .format, reason := none, rate := some r }

/-- SFE's acquisition claim; refused, it is made again 100 ms later (R23). -/
def Chip.claimRate (c : Chip) (p : SourceId) : Chip :=
  let refused := c.refusesClaim (.sfeRate p) true
  let c := c.claimMeter { holder := .sfeRate p, arming := rateArming p, clamped := false } true
  c.updSource p fun x => { x with claimRetry := if refused then some claimPause else none }

/-- The rate meter's signal (R24). -/
def Chip.rateSignal (c : Chip) (m : MeterId) (p : SourceId) : Chip :=
  let r := (c.imu.meters[m]).classed p
  let c := c.releaseMeter m
  match r with
  | some r => c.enterFormat p r
  | none => c.rejectSource p .rate

/-- The check meter's signal (R27). -/
def Chip.checkSignal (c : Chip) (m : MeterId) (p : SourceId) : Chip :=
  let r := (c.imu.meters[m]).classed p
  let c := c.releaseMeter m
  let x := c.sources[p]
  if x.state = .unsupported ∧ x.reason = some .rate then
    match r with
    | some r => c.enterFormat p r
    | none => c
  else if x.state = .locked ∨ x.state = .unsupported then
    if r.isSome ∧ r = x.rate then c else c.loseSignal p
  else c

/-! ### Formats -/

/-- The PCM format and format detail of a source without a preamble (R25). -/
def Source.pcm (x : Source) (s : SourceId) : Format × Nat :=
  if linkPort s && decide (1 < x.lanes) then (.pcm8, x.frameLayout) else (.pcm2, 0)

/-- The FORMAT_CHANGE holds of step 1 of R29. -/
def Chip.formatHolds (c : Chip) (s : SourceId) : Chip :=
  (c.boundZones s).foldl (fun c z =>
    if c.zones[z].power = .on ∧ c.zones[z].programme = .playing then c.placeHold z .formatChange else c) c

/-- Step 2 of R29. -/
def Source.freshStart (x : Source) : Source := { x with decode := .none, failCount := 0, retryTimer := none }

/-- The source's format is compressed. -/
def Chip.carried (c : Chip) (s : SourceId) : Bool :=
  match c.sources[s].format with
  | some g => g.compressed
  | none => false

/-- A format change of a LOCKED source (R29). -/
def Chip.changeFormat (c : Chip) (s : SourceId) (f : Format) (detail : Nat) : Chip :=
  let was := c.carried s
  let c := (c.formatHolds s).updSource s fun x => { x.freshStart with format := some f, detail := detail }
  let c :=
    if f.compressed then (if was then c.reformat s f else c.requestAll s f (c.boundZones s))
    else if was then c.dropBitstream s else c
  c.handOffAll s

/-- A LOCKED source becomes UNSUPPORTED(FORMAT): a format change to no format (R28). -/
def Chip.loseFormat (c : Chip) (s : SourceId) : Chip :=
  let c := (c.formatHolds s).leaveState s
  (c.updSource s fun x => x.freshStart.reject s .format).dropBitstream s

/-- A source whose data SFE watches for preambles: a clocked port, or M1 as a bitstream stream (R25, R28, R36). -/
def Chip.watched (c : Chip) (s : SourceId) : Bool :=
  clocked s || (s == 13 && !c.streams[(0 : StreamId)].stopped && c.streams[(0 : StreamId)].format == .bitstream)

/-- Phase FORMAT, or UNSUPPORTED with reason FORMAT, where format detection runs (R25). -/
def Source.detecting (x : Source) : Bool :=
  (x.state == .acquiring && x.phase == some .format) || (x.state == .unsupported && x.reason == some .format)

/-- A preamble with a format code (R25, R28). -/
def Chip.preambleSeen (c : Chip) (s : SourceId) (code : Nat) : Chip :=
  if c.watched s then
    let x := c.sources[s]
    match (Format.ofPreamble code).filter (acceptsFormat s) with
    | some f =>
      if x.detecting then c.lockSource s f 0
      else if x.state = .locked ∧ x.format ≠ some f then c.changeFormat s f 0
      else c
    | none =>
      if x.state = .acquiring ∧ x.phase = some .format then c.rejectSource s .format
      else if x.state = .locked then c.loseFormat s
      else c
  else c

/-- 8192 periods without a preamble (R25, R28). -/
def Chip.noPreamble (c : Chip) (s : SourceId) : Chip :=
  if c.watched s then
    let x := c.sources[s]
    if x.detecting then c.lockSource s (x.pcm s).1 (x.pcm s).2
    else if x.lockedIn Format.compressed then c.changeFormat s (x.pcm s).1 (x.pcm s).2
    else c
  else c

/-- A change of a link port's frame status (R25, R28). A PCM8 port whose last lane falls silent changes to PCM2, which R25 gives every
port but one with more than one lane (log 46). A status that changes while the port is in NO_SIGNAL is dropped (log 72). -/
def Chip.frameStatus (c : Chip) (p : SourceId) (lanes layout : Nat) : Chip :=
  if linkPort p && c.sources[p].state != .noSignal then
    let c := c.updSource p fun x => { x with lanes := lanes, frameLayout := layout }
    let x := c.sources[p]
    if x.lockedIn (fun f => !f.compressed) ∧ (x.format ≠ some (x.pcm p).1 ∨ x.detail ≠ (x.pcm p).2) then
      c.changeFormat p (x.pcm p).1 (x.pcm p).2
    else c
  else c

/-! ### Policies and analog sources -/

/-- SOURCE_POLICY on an analog source (R32). -/
def Chip.applyEnable (c : Chip) (s : SourceId) : Chip :=
  if analog s then
    if c.sources[s].enable then
      if c.sources[s].state = .noSignal then
        (c.updSource s fun x => { x with rate := some .r48 }).lockSource s .pcm2 0
      else c
    else c.loseSignal s
  else c

/-- The decode failure is cleared: the decode state becomes NONE, the count 0, and the retry timer stops (R40). An engine that decodes
the source goes on with it (log 21). -/
def Source.clearFailure (x : Source) : Source := { x with decode := .none, failCount := 0, retryTimer := none }

/-- Store a policy, clear the decode failure and request engines for the unserved zones (R40). -/
def Chip.setPolicy (c : Chip) (s : SourceId) (preferPcm enable : Bool) : Chip :=
  let c := c.updSource s fun x => { x.clearFailure with preferPcm := preferPcm, enable := enable }
  let x := c.sources[s]
  let c := match x.format with
    | some f => if x.state = SrcState.locked ∧ f.compressed then c.requestAll s f (c.unserved s) else c
    | none => c
  c.applyEnable s

/-- The retry after a start failure (R31). -/
def Chip.retryDecode (c : Chip) (s : SourceId) : Chip :=
  let c := c.updSource s fun x => { x with retryTimer := none }
  match c.sources[s].carries with
  | none => c
  | some f => (c.updSource s fun x => { x with decode := .none }).requestAll s f (c.boundZones s)

/-! ### Offers -/

/-- An engine is obtainable for a format and a link port (R42). -/
def Chip.obtainable (c : Chip) (s : SourceId) (f : Format) : Bool :=
  let free := ([0, 1] : List EngineId).any fun e => f.eligible e && c.engineFree e
  let migration := f == .obj && c.engineFree 1 && !c.engineFree 0 && c.engines[(0 : EngineId)].source != some s
    && c.engines[(0 : EngineId)].format != some .obj
  let preemption := c.zones[(0 : ZoneId)].binding == some s
    && ([0, 1] : List EngineId).any fun e => f.eligible e && decide ((0 : ZoneId) ∉ c.engines[e].consumers)
  (c.engineOf s).isSome || free || migration || preemption

/-- The format is in the profile's supported set. -/
def Profile.supports (p : Profile) (f : Format) : Bool := p.supported.getLsbD (f.rank - 1)

/-- The checks of one format: skipped without a reason, skipped with one, or passed (R41). -/
def Chip.offerCheck (c : Chip) (s : SourceId) (f : Format) : Option OfferReason :=
  let x := c.sources[s]
  let cls := if x.profile.carriageValid then x.profile.carriageClass else 1
  if cls < f.classNeed then some .limitCarriage
  else if f.compressed && x.preferPcm then some .policyPcm
  else if f.compressed && !c.obtainable s f then some .limitEngine
  else none

/-- Formats in rank order: the first that passes, and the reason of the highest-ranked one skipped (R41). -/
def Chip.offerFrom (c : Chip) (s : SourceId) : List Format → OfferReason → Format × OfferReason
  | [], reason => (.pcm2, reason)
  | f :: rest, reason =>
    if c.sources[s].profile.supports f then
      match c.offerCheck s f with
      | none => (f, reason)
      | some r => c.offerFrom s rest (if reason = .none then r else reason)
    else c.offerFrom s rest reason

/-- The offer of a link port and its reason (R41). -/
def Chip.offerOf (c : Chip) (s : SourceId) : Format × OfferReason :=
  if c.sources[s].profile.formatsValid then c.offerFrom s Format.all .none else (.pcm2, .profileInvalid)

/-- A binding change that involves a source: a link port's offer is recomputed at once, and an offer or reason that differs from the
previous one republishes P5, also where the event changes it back (R11, R43). -/
def Chip.recomputeOffer (c : Chip) (s : SourceId) : Chip :=
  let x := c.sources[s]
  if linkPort s && decide (c.offerOf s ≠ (x.offer, x.offerReason)) then
    (c.updSource s fun x => { x with offer := (c.offerOf s).1, offerReason := (c.offerOf s).2 }).markPage 5
  else c

/-- SFE recomputes the offers of the six link ports, as at every engine table change, which the arbiter announces once in an event
(R43, R44). -/
def Chip.recomputeOffers (c : Chip) : Chip :=
  ([0, 1, 2, 3, 4, 5] : List SourceId).foldl (fun c s =>
    c.updSource s fun x => { x with offer := (c.offerOf s).1, offerReason := (c.offerOf s).2 }) c

/-- Signal-present clears when the source stops carrying sound (R33). That an engine which enters RESYNC, or starts afresh by
migration, has stopped decoding its source is log 45. -/
def Chip.dropSignals (c : Chip) : Chip :=
  allSources.foldl (fun c s =>
    if c.sourceSounds s then c else c.updSource s fun x => { x with signalPresent := false, signalWindow := none }) c

end Sys2Proof.Machine
end

