-- ==== Sys2Proof/Machine/Standby.lean ====
section
/-! DEFINITION. The Standby Block (11): reset kinds, wakes, sleep, frame decoding, the wake pattern table, idle timers, the
resume history and the indicators. -/

namespace Sys2Proof.Machine

/-! ### Idle timers and history -/

/-- An idle timer stops (R182). -/
def Chip.stopIdle (c : Chip) (z : ZoneId) : Chip := c.updIdle z fun i => { i with timer := none }

/-- An idle timer starts at the full setting, where the setting is not 0 (R182). -/
def Chip.startIdle (c : Chip) (z : ZoneId) : Chip := c.updIdle z fun i => { i with timer := i.full }

/-- A running idle timer restarts at the full setting (R182). -/
def Idle.restart (i : Idle) : Idle := if i.timer.isSome then { i with timer := i.full } else i

def Chip.restartIdle (c : Chip) (z : ZoneId) : Chip := c.updIdle z Idle.restart

/-- Activity restarts the timers of every ON zone; only an ON zone's timer runs (R182). -/
def Chip.activity (c : Chip) : Chip := c.updSbb fun b => { b with idle := b.idle.map Idle.restart }

/-- The pause between history samples (R183). -/
def sampleTime : Nat := Config.ms 500

/-- A sample enters the history as entry 0 and sets HISTORY_VALID (R183). -/
def Standby.sample (b : Standby) (on : Bool) : Standby :=
  { b with history := #v[on, b.history[0], b.history[1], b.history[2], b.history[3], b.history[4], b.history[5],
                         b.history[6]],
           historyValid := true }

/-- ZM's power state is ON (R183). -/
def Chip.zmOn (c : Chip) : Bool := c.zones[(0 : ZoneId)].power == .on

/-! ### Power states -/

/-- The sleep countdown and the supply timer (R175, R176). -/
def sleepTime : Nat := Config.ms 2000
def supplyTime : Nat := Config.ms 1000

/-- SBB enters SLEEP_PENDING (R176). -/
def Chip.enterSleep (c : Chip) : Chip := c.updSbb fun b => { b with power := .sleepPending, sleepTimer := some sleepTime }

/-- A countdown is cancelled (R177). -/
def Chip.cancelSleep (c : Chip) : Chip :=
  if c.sbb.power = .sleepPending then c.updSbb fun b => { b with power := .active, sleepTimer := none } else c

/-- Every zone is OFF. -/
def Chip.allOff (c : Chip) : Bool := allZones.all fun z => c.zones[z].power == .off

/-- A zone's transition to OFF is evaluated for sleep (R176). -/
def Chip.evalSleep (c : Chip) : Chip := if c.sbb.power = .active ∧ c.allOff then c.enterSleep else c

/-- The main domain in its main power-up state: what the Standby Block, the lines and time keep is kept (R174). -/
def Chip.mainHeld (c : Chip) : Chip :=
  { Chip.reset with sbb := c.sbb, pins := c.pins, clock := c.clock, powerUpAt := c.powerUpAt, ev := c.ev }

/-- The lines of one group as ODP reads them at a reset (R111). -/
def Chip.readGroup (c : Chip) (g : GroupId) : Group := { w := c.pins.w[g], tsd := c.pins.tsd[g], dcf := c.pins.dcf[g] }

/-- The ceiling of a temperature level (R115). -/
def ceilingOf (w : Fin 4) : Int := 30 - 6 * (w.val : Int)

/-- NORMAL or DERATED by the temperature level (R115, R121). -/
def servingState (w : Fin 4) : Protection := if w = 0 then .normal else .derated

/-- An outlet after ODP has read its group's lines: ceiling and state by w, a DC fault, a temperature shutdown (R111). -/
def readLinesFor (g : Group) (x : Outlet) : Outlet :=
  let x := { x with ceiling := ceilingOf g.w }
  if g.dcf then { x with protection := .latched, cause := some .dc }
  else if g.tsd then { x with protection := .tripped, cause := some .thermal }
  else { x with protection := servingState g.w }

/-- Once the reset values are set, ODP reads every group's lines (R111). -/
def Chip.readLines (c : Chip) : Chip :=
  let c := { c with groups := Vector.ofFn c.readGroup }
  { c with outlets := Vector.ofFn fun o =>
      match groupOf o with
      | some g => readLinesFor c.groups[g] c.outlets[o]
      | none => c.outlets[o] }

/-- The main power-up (R174): reset values, a stored wake source applied to ZM and cleared, history counted from here. -/
def Chip.powerUp (c : Chip) : Chip :=
  let c := c.mainHeld.readLines
  let c := { c with powerUpAt := c.clock }
  let c := match c.sbb.wakeSource with
    | some s => c.updZone 0 fun x => { x with selected := s }
    | none => c
  c.updSbb fun b => { b with wakeSource := none, supplyTimer := none, historyTimer := some sampleTime }

/-- A wake (R175). -/
def Chip.wake (c : Chip) (cause : WakeCause) (source : Option SourceId) : Chip :=
  let c := c.updSbb fun b =>
    { b with power := .active, wakeCause := some cause, wakeSource := source, supplyTimer := some supplyTime }
  if c.pins.mainGood then c.powerUp else c

/-- SBB enters STANDBY, with its final history sample; the main domain is held (R174, R175, R177, R183). -/
def Chip.enterStandby (c : Chip) (on : Bool) : Chip :=
  let c := c.updSbb fun b =>
    { b.sample on with power := .standby, sleepTimer := none, supplyTimer := none, historyTimer := none,
                       idle := b.idle.map fun i => { i with timer := none } }
  c.mainHeld

/-- The resume decision (R183). -/
def Standby.resumes (b : Standby) : Bool :=
  b.historyValid && (match b.resume with | some k => b.history[k] | none => false)

/-- The cold-start values of the always-on state; the backup domain is kept (R174). -/
def Standby.coldStart (b : Standby) : Standby :=
  { Standby.initial with history := b.history, historyValid := b.historyValid, resume := b.resume }

/-- A cold start: the always-on values, STANDBY, then the resume decision (R174, R183). -/
def Chip.coldStart (c : Chip) : Chip :=
  let c := (c.updSbb Standby.coldStart).mainHeld
  if c.sbb.resumes then c.wake .resume none else c

/-- A backup start: the backup domain's values (R174). -/
def Standby.backupStart (b : Standby) : Standby :=
  { b with history := Vector.replicate 8 false, historyValid := false, resume := none }

/-- The soft reset takes effect (R174, R196): main-domain reset values but WINDOW_BASE, SOFT_RESET_COUNT incremented, idle
timers stopped (R182). -/
def Chip.softReset (c : Chip) : Chip :=
  let base := c.win.windowBase
  let count := c.win.softResetCount
  let c := c.mainHeld.readLines
  let c := c.updWin fun w => { w with windowBase := base, softResetCount := count + 1 }
  c.updSbb fun b => { b with idle := b.idle.map fun i => { i with timer := none } }

/-! ### Frames -/

/-- An IR duration in microseconds within ±20% of its nominal value (R178). -/
def irNear (nominal d : Nat) : Bool := decide (nominal * 8 ≤ d * 10) && decide (d * 10 ≤ nominal * 12)

/-- The end space: 6 ms are reached (R178). -/
def irEnd (d : Nat) : Bool := decide (6000 ≤ d)

/-- The bits of a data frame, then its stop mark and end space (R178). -/
def irBits : List Nat → Option (List Bool)
  | [m, e] => if irNear 600 m && irEnd e then some [] else none
  | m :: s :: rest =>
    if irNear 600 m && irNear 600 s then (irBits rest).map (false :: ·)
    else if irNear 600 m && irNear 1800 s then (irBits rest).map (true :: ·)
    else none
  | _ => none

/-- The number that bits stand for, least significant first. -/
def bitsNat : List Bool → Nat
  | [] => 0
  | b :: bs => (if b then 1 else 0) + 2 * bitsNat bs

/-- Byte `i` of a frame's bits, eight to a byte, least significant first (R178). -/
def byteAt (bits : List Bool) (i : Nat) : Byte := BitVec.ofNat 8 (bitsNat ((bits.drop (8 * i)).take 8))

/-- The bytes of an IR frame whose leader mark stands first, none for a repeat frame; absent for a malformed one (R178). -/
def irWhole : List Nat → Option (List Byte)
  | leader :: space :: rest =>
    if irNear 4800 leader then
      if irNear 1200 space then (if irBits rest = some [] then some [] else none)
      else if irNear 2400 space then
        match irBits rest with
        | some bits =>
          if bits.length % 8 = 0 ∧ 1 ≤ bits.length ∧ bits.length ≤ 32 then
            some ((List.range (bits.length / 8)).map (byteAt bits))
          else none
        | none => none
      else none
    else none
  | _ => none

/-- The lengths from the leader mark of the frame that is decoded on: behind a malformed frame, decoding restarts at the next mark
that fits a leader (R178). Marks and spaces alternate. -/
def irFind : List Nat → Option (List Nat)
  | mark :: space :: rest => if (irWhole (mark :: space :: rest)).isSome then some (mark :: space :: rest) else irFind rest
  | _ => none

/-- The bytes of the frame that is decoded, with the lengths from its leader mark on (R178). -/
def irDecode (l : List Nat) : Option (List Byte × List Nat) := (irFind l).bind fun f => (irWhole f).map fun b => (b, f)

/-- Meter ticks in a number of microseconds, rounded down. -/
def usTicks (us : Nat) : Int := us * 24576 / 1000

/-- How long ago an IR frame began when its end space reaches 6 ms, in microseconds (R178). -/
def irAge (l : List Nat) : Nat := l.dropLast.foldl (· + ·) 0 + 6000

/-- The bytes of a control-line frame; absent where a stop bit is missing or there are more than 4 bytes (R179). -/
def controlDecode (l : List ControlByte) : Option (List Byte) :=
  if l.all (·.stop) ∧ l.length ≤ 4 ∧ 1 ≤ l.length then some (l.map (·.value)) else none

/-- How long ago a control-line frame began when 3 ms have passed after its last byte: ten bits of 104.2 µs to a byte, and the
idle times between the bytes (R179). -/
def controlAge (l : List ControlByte) : Nat := l.length * 1042 + (l.dropLast.map ControlByte.gap).sum + 3000

/-! ### The wake pattern table -/

/-- W in meter ticks (R180: units of 20 ms). -/
def Standby.windowTicks (b : Standby) : Int := b.window * 20 * Config.ticksPerMs

/-- A byte of a frame equals the pattern's or the pattern's is 0x00 (R181). -/
def byteMatches (pattern byte : Byte) : Bool := pattern == 0 || pattern == byte

/-- A frame matches an entry (R181). -/
def WakeEntry.matchesFrame (e : WakeEntry) (line : WakeLine) (bytes : List Byte) : Bool :=
  e.line == line && e.bytes.length == bytes.length && (e.bytes.zip bytes).all fun p => byteMatches p.1 p.2

/-- A matching entry is complete at a frame's start (R181). -/
def WakeEntry.complete (e : WakeEntry) (start window : Int) : Bool :=
  !e.double || (match e.armed with | some a => decide (start - a < window) | none => false)

/-- The entry of a number, where a frame matches it. -/
def Standby.matched (b : Standby) (line : WakeLine) (bytes : List Byte) (n : Fin 8) : Option WakeEntry :=
  b.table[n].filter fun e => e.matchesFrame line bytes

/-- The lowest-numbered complete entry (R181). -/
def Standby.completed (b : Standby) (line : WakeLine) (bytes : List Byte) (start : Int) : Option (Fin 8) :=
  (List.finRange 8).find? fun n =>
    match b.matched line bytes n with
    | some e => e.complete start b.windowTicks
    | none => false

/-- Every armed field clears (R181). -/
def Standby.disarm (b : Standby) : Standby :=
  { b with table := b.table.map fun e => e.map fun e => { e with armed := none } }

/-- The matching double entries become armed with the frame's start (R181). -/
def Standby.arm (b : Standby) (line : WakeLine) (bytes : List Byte) (start : Int) : Standby :=
  { b with table := b.table.map fun e => e.map fun e =>
      if e.matchesFrame line bytes ∧ e.double then { e with armed := some start } else e }

/-- A match is reported: the last match, and P13 is republished (R181). -/
def Chip.reportMatch (c : Chip) (n : Fin 8) : Chip :=
  (c.updSbb fun b => { b with lastMatch := some (.entry n) }).markPage 13

/-- A match acts by the power state and its action (R181). -/
def Chip.actMatch (c : Chip) (n : Fin 8) (a : WakeAction) : Chip :=
  let c := c.reportMatch n
  match a with
  | .report => c
  | .wake => if c.sbb.power = .standby then c.wake (.pattern n) none else c.cancelSleep
  | .wakeWithSource s => if c.sbb.power = .standby then c.wake (.pattern n) (some s) else c.cancelSleep

/-- A decoded frame, data or repeat (R181). -/
def Chip.takeFrame (c : Chip) (line : WakeLine) (bytes : List Byte) (start : Int) : Chip :=
  let c := if c.sbb.power = .standby then c else c.activity
  match c.sbb.completed line bytes start with
  | some n =>
    let c := c.updSbb Standby.disarm
    match c.sbb.table[n] with
    | some e => c.actMatch n e.action
    | none => c
  | none => c.updSbb fun b => b.arm line bytes start

/-- An assertion of WAKE_IN (R179); where the last match is LINE already, P13 is not republished (R185). -/
def Chip.wakeInAsserted (c : Chip) : Chip :=
  if c.sbb.wakeInEnable then
    if c.sbb.power = .standby then c.wake .line none
    else c.activity.updSbb fun b => { b with lastMatch := some .line }
  else c

/-- An armed field clears when W has passed from its time; the time that is still missing passes (R181). -/
def Chip.armedExpired (c : Chip) (n : Fin 8) : Chip :=
  match c.sbb.table[n].bind (·.armed) with
  | none => c
  | some a =>
    (c.passTicks (a + c.sbb.windowTicks - c.clock).toNat).updSbb fun b =>
      { b with table := b.table.set n (b.table[n].map fun e => { e with armed := none }) }

/-! ### Indicators -/

/-- The half second of a blink (R184). -/
def blinkTime : Nat := Config.ms 500

/-- A line enters a mode: a blink starts high (R184). -/
def Indicator.enter (i : Indicator) (m : IndMode) : Indicator :=
  { i with shown := m, level := m != .off, timer := if m = .blinkFast ∨ m = .blinkSlow then some blinkTime else none }

/-- A line evaluated: a changed mode is entered (R184). -/
def Chip.evalIndicator (c : Chip) (i : Indicator) : Indicator :=
  if c.indicatorShows i = i.shown then i else i.enter (c.indicatorShows i)

/-- A blinking line toggles: low for 0.5 s or 1.5 s, then high for 0.5 s (R184). -/
def Indicator.toggle (i : Indicator) : Indicator :=
  { i with level := !i.level,
           timer := some (if i.level ∧ i.shown = .blinkSlow then Config.ms 1500 else blinkTime) }

end Sys2Proof.Machine
end

