-- ==== Sys2Proof/Machine/Tuner.lean ====
section
/-! DEFINITION. The radio tuner (09): the grid, measurement, blend and soft mute, tuning, seeking, scanning, presets and the
data service. -/

namespace Sys2Proof.Machine

/-! ### The grid and the measurement -/

/-- Bottom edge, top edge and grid step of a band (R141). -/
def bandGrid : Region → Band → Nat × Nat × Nat
  | .a, .fm => (87500, 108000, 100)
  | .a, .am => (530, 1710, 10)
  | .b, .fm => (87500, 108000, 50)
  | .b, .am => (531, 1602, 9)

/-- A frequency normalised to the grid: the nearer edge, then the nearest grid point, halfway to the higher (R141). -/
def normalise (g : Nat × Nat × Nat) (f : Int) : Nat :=
  let e := (clampInt g.1 g.2.1 f).toNat
  g.1 + (2 * (e - g.1) + g.2.2) / (2 * g.2.2) * g.2.2

def Tuner.grid (x : Tuner) (b : Band) : Nat × Nat × Nat := bandGrid x.region b

/-- The dwell of a seek or scan (R141). -/
def dwellTime : Band → Nat
  | .fm => Config.ms 20
  | .am => Config.ms 40

/-- The settle (R139). -/
def settleTime : Band → Nat
  | .fm => Config.ms 40
  | .am => Config.ms 60

/-- The pause between measurements while LISTENING (R143). -/
def measureTime : Nat := Config.ms 100

/-- A measurement replaces the three measurement fields; on AM, Q is 0 and the pilot clear (R143). -/
def Tuner.measure (x : Tuner) (r : Reception) : Tuner :=
  { x with level := min r.level 100,
           multipath := if x.station.band = .fm then min r.multipath 15 else 0,
           pilot := if x.station.band = .fm then r.pilot else false }

/-- The blend (R144). -/
def blendOf (station : Station) (level multipath : Nat) (pilot : Bool) : Nat :=
  if 12 ≤ multipath ∨ station.mode = .mono ∨ pilot = false ∨ station.band = .am then 0
  else min 16 ((level - 20) * 16 / 20)

/-- The soft-mute attenuation (R145). -/
def softMuteOf (level : Nat) : Nat := if level < 10 then min 20 (2 * (10 - level)) else 0

/-- b and the soft-mute attenuation follow the measurement (R143). -/
def Tuner.follow (x : Tuner) : Tuner :=
  { x with blend := blendOf x.station x.level x.multipath x.pilot, softMute := softMuteOf x.level }

/-- The stop test (R149). -/
def Tuner.passes (x : Tuner) : Bool :=
  match x.station.band with
  | .fm => decide (x.sFm ≤ x.level) && decide (x.multipath ≤ 8)
  | .am => decide (x.sAm ≤ x.level)

/-! ### Changes of state -/

/-- The data service is cleared; P10 is republished when a field changes (R157). -/
def Chip.clearData (c : Chip) : Chip :=
  let c' := c.updTuner fun x => { x with ds := DataService.initial }
  if c.tuner.ds = DataService.initial then c' else c'.markPage 10

/-- A zone holds a binding to T. -/
def Chip.tunerBound (c : Chip) : Bool := allZones.any fun z => c.zones[z].binding == some tunerSource

/-- The tuner enters TUNING at the station, or restarts its settle there; the order in flight is as given (R146). -/
def Chip.enterTuning (c : Chip) (order : Option TunerFlight) : Chip :=
  (c.updTuner fun x =>
    { x with state := .tuning, step := none, seek := none, ret := none, scanBand := none, prevEntry := none,
             order := order, timer := some (settleTime x.station.band), measTimer := none }).clearData

/-- The tuner enters IDLE (R139); P8 is republished also where a binding to T made in the same event takes it out of IDLE again
(R140). -/
def Chip.enterIdle (c : Chip) : Chip :=
  ((c.markPage 8).updTuner fun x =>
    { x with state := .idle, step := none, seek := none, ret := none, scanBand := none, prevEntry := none, order := none,
             timer := none, measTimer := none, level := 0, multipath := 0, pilot := false, blend := 0,
             softMute := 0 }).clearData

/-- The tuner enters LISTENING with its measurement (R147, R149). -/
def Tuner.listen (x : Tuner) : Tuner :=
  { x.follow with state := .listening, step := none, seek := none, order := none, timer := none,
                  measTimer := some measureTime }

/-- The values of a station (section 12.6). -/
def Station.values (s : Station) : List ResultValue :=
  [.num (codeOf Band.all s.band), .num s.freq, .num (codeOf Mode.all s.mode)]

/-- The result values of a tuning: the station, L, Q, the pilot flag and b (R147). -/
def Tuner.values (x : Tuner) : List ResultValue :=
  x.station.values ++ [.num x.level, .num x.multipath, .num (boolCode x.pilot), .num x.blend]

/-- The result value state IDLE (R139). -/
def idleValue : ResultValue := .num (codeOf TunerState.all .idle)

/-- The result values of a scan (R153). -/
def Tuner.scanValues (x : Tuner) : List ResultValue :=
  [.num x.stations.length,
   .num (x.stations.filter fun e => some e.band == x.scanBand).length]

/-- The order in flight ends with a result code and no result values; none is then in flight. -/
def Chip.endFlight (c : Chip) (code : ResultCode) : Chip :=
  match c.tuner.order with
  | none => c
  | some o => (c.doneWith o.ticket code []).updTuner fun x => { x with order := none }

/-- The scan in progress completes with ABORTED and its counts (R154). -/
def Chip.abortScan (c : Chip) : Chip :=
  match c.tuner.order with
  | none => c
  | some o => (c.doneWith o.ticket .aborted c.tuner.scanValues).updTuner fun x => { x with order := none }

/-! ### The station list -/

/-- An entry at its place in ascending frequency (R151). -/
def insertEntry (e : ListEntry) : List ListEntry → List ListEntry
  | [] => [e]
  | x :: rest => if e.freq < x.freq then e :: x :: rest else x :: insertEntry e rest

/-- The entry of the passing frequency. -/
def Tuner.entryAt (x : Tuner) (f : Nat) : ListEntry :=
  { band := x.station.band, freq := f, level := x.level, multipath := x.multipath, pilot := x.pilot, name := none }

/-- The previous entry, if the frequency is one grid step above it (R153). -/
def Tuner.neighbour (x : Tuner) (f : Nat) : Option ListEntry :=
  match x.prevEntry with
  | none => none
  | some p =>
    if f = p + (x.grid x.station.band).2.2 then
      x.stations.find? fun e => e.freq == p && e.band == x.station.band
    else none

/-- A passing frequency that does not end the scan (R153). -/
def Tuner.enter (x : Tuner) (f : Nat) : Tuner :=
  match x.neighbour f with
  | some e =>
    if e.level < x.level then
      { x with stations := x.stations.map (fun y => if y = e then x.entryAt f else y), prevEntry := some f }
    else x
  | none => { x with stations := insertEntry (x.entryAt f) x.stations, prevEntry := some f }

/-- The list is full for a passing frequency (R153). -/
def Tuner.listFull (x : Tuner) (f : Nat) : Bool :=
  x.passes && (x.neighbour f).isNone && decide (64 ≤ x.stations.length)

/-- The entry that a measured dwell on `f` makes: a passing frequency, unless the list is full for it (R153). -/
def Tuner.enterPassing (x : Tuner) (f : Nat) : Tuner := if x.passes && !x.listFull f then x.enter f else x

/-- The dwell on the top edge is over, and its command has not been taken yet. -/
def Tuner.sweepOver (x : Tuner) (f : Nat) : Bool := x.timer == some 0 && decide ((x.grid x.station.band).2.1 ≤ f)

/-- The reading at the end of a sweep that a TUNE or PRESET_RECALL meets (R154): a free value (log 77). -/
def sweepReception (clock : Nat) : Reception where
  level := (Config.sweepReading clock).1
  multipath := (Config.sweepReading clock).2.1
  pilot := (Config.sweepReading clock).2.2

/-- An order that meets the end of a sweep finds the last dwell's entry already made (R154, log 77). -/
def Chip.takeLastDwell (c : Chip) : Chip :=
  match c.tuner.step with
  | none => c
  | some f =>
    if c.tuner.sweepOver f then c.updTuner fun x => (x.measure (sweepReception c.clock)).enterPassing f else c

/-! ### Bindings -/

/-- A binding to T is made (R139). -/
def Chip.tunerBind (c : Chip) : Chip := if c.tuner.state = .idle then c.enterTuning none else c

/-- A binding to T has been released; the last one takes the tuner to IDLE, but for a scan (R139). -/
def Chip.tunerRelease (c : Chip) : Chip :=
  if c.tunerBound || c.tuner.state == .scanning || c.tuner.state == .idle then c
  else
    let c := match c.tuner.order with
      | none => c
      | some o => if o.kind = TunerOrder.seek then c.doneWith o.ticket .aborted [] else c.done o.ticket o.clamped [idleValue]
    c.enterIdle

/-! ### Tuning -/

/-- TUNE and PRESET_RECALL (R146, R156) with a normalised station; met at the end of a sweep, they leave its last entry (R154). -/
def Chip.tuneTo (c : Chip) (o : TunerFlight) (s : Station) : Chip :=
  match c.tuner.state with
  | .idle =>
    let c := (c.updTuner fun x => { x with station := s }).clearData
    c.done o.ticket o.clamped (s.values ++ [idleValue])
  | .tuning | .listening | .seeking =>
    ((c.endFlight .superseded).updTuner fun x => { x with station := s }).enterTuning (some o)
  | .scanning =>
    let c := c.takeLastDwell.abortScan.updTuner fun x => { x with station := s }
    if c.tunerBound then c.enterTuning (some o)
    else c.enterIdle.done o.ticket o.clamped (s.values ++ [idleValue])

/-- The settle timer expires (R147, R149). -/
def Chip.tunerSettled (c : Chip) (r : Reception) : Chip :=
  let order := c.tuner.order
  let c := c.updTuner fun x => (x.measure r).listen
  match order with
  | none => c
  | some o =>
    if o.kind = TunerOrder.seek then c.doneWith o.ticket .notFound c.tuner.values else c.done o.ticket o.clamped c.tuner.values

/-- The measurement while LISTENING (R143). -/
def Tuner.measureDue (x : Tuner) (r : Reception) : Tuner :=
  { (x.measure r).follow with measTimer := some measureTime }

/-! ### Seeking -/

/-- The next grid point in a direction, with the wrap at the band's edges (R149). -/
def nextGrid (g : Nat × Nat × Nat) (up : Bool) (f : Nat) : Nat :=
  if up then (if f = g.2.1 then g.1 else f + g.2.2) else if f = g.1 then g.2.1 else f - g.2.2

/-- A step of the seek from a frequency: a dwell on the next grid point, or the settle at the start (R149). -/
def Chip.seekStep (c : Chip) (up : Bool) (start f : Nat) : Chip :=
  let next := nextGrid (c.tuner.grid c.tuner.station.band) up f
  if next = start then c.enterTuning c.tuner.order
  else c.updTuner fun x => { x with step := some next, timer := some (dwellTime x.station.band) }

/-- A seek begins at a start frequency (R148). -/
def Chip.startSeek (c : Chip) (ticket : Word) (up : Bool) (start : Nat) : Chip :=
  let c := (c.endFlight .superseded).updTuner fun x =>
    { x with state := .seeking, station := { x.station with freq := start }, seek := some (up, start),
             order := some { kind := .seek, ticket := ticket, clamped := false }, measTimer := none }
  c.clearData.seekStep up start start

/-- The start frequency of a seek (R148). -/
def Tuner.seekStart (x : Tuner) : Nat :=
  if x.state = .seeking then x.step.getD x.station.freq else x.station.freq

/-- A seek dwell ends on frequency `f` (R149). -/
def Chip.seekDwell (c : Chip) (up : Bool) (start f : Nat) (r : Reception) : Chip :=
  let c := c.updTuner fun x => x.measure r
  if c.tuner.passes then
    let order := c.tuner.order
    let c := c.updTuner fun x => ({ x with station := { x.station with freq := f } } : Tuner).listen
    match order with
    | none => c
    | some o => c.done o.ticket false c.tuner.values
  else c.seekStep up start f

/-! ### Scanning -/

/-- A scan begins (R152). -/
def Chip.startScan (c : Chip) (ticket : Word) (b : Band) : Chip :=
  let c := (c.endFlight .superseded).updTuner fun x =>
    { x with
      state := .scanning
      ret := some x.station
      station := { x.station with band := b, freq := (x.grid b).1 }
      step := some (x.grid b).1
      seek := none
      scanBand := some b
      prevEntry := none
      order := some { kind := .scan, ticket := ticket, clamped := false }
      timer := some (dwellTime b)
      measTimer := none
      stations := x.stations.filter fun e => e.band ≠ b }
  c.clearData

/-- The scan ends: its order completes, and the tuner goes to the return station (R153, R154). -/
def Chip.endScan (c : Chip) (full : Bool) : Chip :=
  let c := match c.tuner.order with
    | none => c
    | some o => c.endOrder o.ticket .ok false false full c.tuner.scanValues
  let c := c.updTuner fun x => { x with station := x.ret.getD x.station, order := none }
  if c.tunerBound then c.enterTuning none else c.enterIdle

/-- A scan dwell ends on frequency `f` (R153). -/
def Chip.scanDwell (c : Chip) (f : Nat) (r : Reception) : Chip :=
  let c := c.updTuner fun x => x.measure r
  if c.tuner.listFull f then c.endScan true
  else
    let c := c.updTuner fun x => x.enterPassing f
    let g := c.tuner.grid c.tuner.station.band
    if g.2.1 ≤ f then c.endScan false
    else c.updTuner fun x =>
      { x with station := { x.station with freq := f + g.2.2 }, step := some (f + g.2.2),
               timer := some (dwellTime x.station.band) }

/-! ### Region -/

/-- A station moved onto the grid of a region (R142). -/
def Station.regrid (r : Region) (s : Station) : Station := { s with freq := normalise (bandGrid r s.band) s.freq }

/-- A TUNE or PRESET_RECALL in flight completes SUPERSEDED, a SEEK with ABORTED (R142). -/
def Chip.dropFlight (c : Chip) : Chip :=
  match c.tuner.order with
  | none => c
  | some o => c.endFlight (if o.kind = TunerOrder.seek then .aborted else .superseded)

/-- A different region is stored, the list emptied and P9 republished (R142). -/
def Chip.changeRegion (c : Chip) (r : Region) : Chip :=
  let c := (c.markPage 9).updTuner fun x =>
    { x with region := r, stations := [], station := x.station.regrid r, ret := x.ret.map (Station.regrid r) }
  match c.tuner.state with
  | .idle => c
  | .tuning | .listening | .seeking => c.dropFlight.enterTuning none
  | .scanning =>
    let c := c.abortScan.updTuner fun x => { x with station := x.ret.getD x.station }
    if c.tunerBound then c.enterTuning none else c.enterIdle

/-! ### The data service -/

/-- The data service runs while LISTENING on FM (R157). -/
def Tuner.dataRuns (x : Tuner) : Bool := x.state == .listening && x.station.band == .fm

/-- An ID group (R157). -/
def DataService.id (d : DataService) (v : BitVec 16) : DataService :=
  match d.identity with
  | none => { d with identity := some v }
  | some w => if v = w then d else { DataService.initial with identity := some v }

/-- The reading that four present segments form (R158). -/
def reading (v : Vector (Option (Vector Byte 2)) 4) : Option (Vector Byte 8) :=
  match v[0], v[1], v[2], v[3] with
  | some s0, some s1, some s2, some s3 => some #v[s0[0], s0[1], s1[0], s1[1], s2[0], s2[1], s3[0], s3[1]]
  | _, _, _, _ => none

/-- A NAME group (R158); its character codes are taken as they are, also outside 0x20 to 0x7E (log 76). -/
def DataService.nameGroup (d : DataService) (segment : Fin 4) (chars : Vector Byte 2) : DataService :=
  let segs := d.nameSegs.set segment (some chars)
  match reading segs with
  | none => { d with nameSegs := segs }
  | some r =>
    if d.lastReading = some r then { d with nameSegs := Vector.replicate 4 none, accepted := some r }
    else { d with nameSegs := Vector.replicate 4 none, lastReading := some r }

/-- A newly accepted name is copied into the station's list entry (R158). -/
def Tuner.nameEntry (x : Tuner) (n : Vector Byte 8) : Tuner :=
  { x with stations := x.stations.map fun e =>
      if e.band = .fm ∧ e.freq = x.station.freq then { e with name := some n } else e }

/-- The station has an entry in the list (R158). -/
def Tuner.listed (x : Tuner) : Bool := x.stations.any fun e => e.band == .fm && e.freq == x.station.freq

/-- A NAME group handled by the tuner: a newly accepted name republishes P10, and where it is copied into an entry, P9 (R158). -/
def Chip.takeName (c : Chip) (segment : Fin 4) (chars : Vector Byte 2) : Chip :=
  let before := c.tuner.ds.accepted
  let c := c.updTuner fun x => { x with ds := x.ds.nameGroup segment chars }
  match c.tuner.ds.accepted with
  | none => c
  | some n =>
    if before = some n then c
    else
      let c := c.markPage 10
      if c.tuner.listed then (c.markPage 9).updTuner fun x => x.nameEntry n else c

/-- The end marker (R159). -/
def endMarker : Byte := 0x0D

/-- Text length up to segment `k` when the text is complete there: the segments read from 0 on, as long as they are
present, to the first that holds the end marker (R159). -/
def textScan : List (Option (Vector Byte 4)) → (k : Nat) → Option Nat
  | [], k => if k = 64 then some 64 else none
  | none :: _, _ => none
  | some v :: rest, k =>
    match v.toList.findIdx? (· == endMarker) with
    | some i => some (k + i)
    | none => textScan rest (k + 4)

/-- Completeness of the text (R159): present segments from 0 to the lowest one with the end marker, or all sixteen. -/
def DataService.complete (d : DataService) : DataService :=
  match textScan d.textSegs.toList 0 with
  | some n => { d with textComplete := true, textLength := n }
  | none => { d with textComplete := false, textLength := 0 }

/-- The flip of a TEXT group (R159 step 1). -/
def DataService.flipTo (d : DataService) (flip : Bool) : DataService :=
  if d.flip = some (!flip) then
    { d with textSegs := Vector.replicate 16 none, textComplete := false, textLength := 0, flip := some flip }
  else { d with flip := some flip }

/-- A TEXT group (R159). -/
def DataService.textGroup (d : DataService) (segment : Fin 16) (flip : Bool) (chars : Vector Byte 4) : DataService :=
  let d := d.flipTo flip
  ({ d with textSegs := d.textSegs.set segment (some chars) } : DataService).complete

/-- A TEXT group handled by the tuner: a changed flip that clears a complete text republishes P10, also where the group completes an
equal text at once (R159). -/
def Chip.takeText (c : Chip) (segment : Fin 16) (flip : Bool) (chars : Vector Byte 4) : Chip :=
  let d := c.tuner.ds
  let c := if d.textComplete ∧ d.flip = some (!flip) then c.markPage 10 else c
  c.updTuner fun x => { x with ds := d.textGroup segment flip chars }

/-- The characters of a complete text. -/
def DataService.text (d : DataService) : List Byte :=
  (d.textSegs.toList.flatMap fun s => match s with | some v => v.toList | none => []).take d.textLength

end Sys2Proof.Machine
end

