-- ==== Sys2Proof/Machine/Zones.lean ====
section
/-! DEFINITION. The Zone Controller (01): binding, start, stop, the pending orders, source changes, the FAULT stop, the
announcement state and the programme state. -/

namespace Sys2Proof.Machine

/-! ### Binding -/

/-- Bind a zone to a source (R11): the latency is handed, the offer recomputed, a LOCKED compressed source is requested, T leaves
IDLE. -/
def Chip.bindZone (c : Chip) (z : ZoneId) (s : SourceId) : Chip :=
  let c := ((c.updZone z fun x => { x with binding := some s }).handOff z).recomputeOffer s
  let x := c.sources[s]
  let c := match x.format with
    | some f => if x.state = SrcState.locked ∧ f.compressed then c.request z s f else c
    | none => c
  if s = tunerSource then c.tunerBind else c

/-- Release a zone's binding (R11): the zone leaves its engine or the queue, the offer of the source is recomputed, T may go idle. The
zone's page is republished, also where the event binds the same source again (R3). -/
def Chip.releaseBinding (c : Chip) (z : ZoneId) : Chip :=
  match c.zones[z].binding with
  | none => c.leaveEngine z
  | some s =>
    let c := (c.leaveEngine z).updZone z fun x => { x with binding := none }
    let c := (c.markPage (zonePageOf z)).recomputeOffer s
    if s = tunerSource then c.tunerRelease else c

/-! ### ZONE_POWER's results and lists -/

/-- The three result values of a ZONE_POWER (R4): power state, programme state, stop cause, as they stand. -/
def Chip.powerValues (c : Chip) (z : ZoneId) : List ResultValue :=
  let x := c.zones[z]
  [.num (codeOf Power.all x.power), .num (codeOf Programme.all (c.programmeOf z)),
   .num (optCode (codeOf StopCause.all) x.stopCause)]

/-- Every pending on-order completes with a result code, in list order (R6). -/
def Chip.endOnOrders (c : Chip) (z : ZoneId) (code : ResultCode) : Chip :=
  let l := c.zones[z].onOrders
  let c := l.foldl (fun c t => c.doneWith t code (c.powerValues z)) c
  c.updZone z fun x => { x with onOrders := [] }

/-- Every pending off-order completes DONE, in list order (R6). -/
def Chip.endOffOrders (c : Chip) (z : ZoneId) : Chip :=
  let l := c.zones[z].offOrders
  let c := l.foldl (fun c t => c.doneWith t .ok (c.powerValues z)) c
  c.updZone z fun x => { x with offOrders := [] }

/-! ### Start -/

/-- The settle period (R5). -/
def zoneSettle : Nat := Config.ms 2000

/-- The start of a zone, steps 1 to 6 (R5). The routes and the triggers follow at the end of the event. -/
def Chip.startZone (c : Chip) (z : ZoneId) : Chip :=
  let c := c.updZone z fun x => { x with power := .starting, restart := false, settleTimer := some zoneSettle }
  let c := (c.lendTo z).nameZone z
  c.bindZone z c.zones[z].selected

/-- The end of the settle period, step 7 (R5). -/
def Chip.settleZone (c : Chip) (z : ZoneId) : Chip :=
  let c := (c.updZone z fun x => { x with power := .on, settleTimer := none }).startIdle z
  c.endOnOrders z .ok

/-! ### Stop -/

/-- A source change in progress ends at a stop: its order completes DONE, the hold is lifted (R12). -/
def Chip.endSwitch (c : Chip) (z : ZoneId) : Chip :=
  match c.zones[z].switchOrder with
  | none => c
  | some t => ((c.liftHold z .sourceSwitch).done t false []).updZone z fun x => { x with switchOrder := none }

/-- Step 1 of a stop (R8), with what other blocks end at it: the run, the test, a pending grant, a source change. -/
def Chip.beginStop (c : Chip) (z : ZoneId) (cause : StopCause) : Chip :=
  let c := c.abortRunIn z
  let c := c.updZone z fun x => { x with power := .stopping, stopCause := some cause, settleTimer := none }
  let c := (c.endOnOrders z .superseded).dequeue z
  let c := ((c.stopIdle z).endSwitch z).endTestIn z
  (c.abandonGrant z).updEv fun e => { e with stopping := e.stopping ++ [z] }

/-- A stop cause reaches a zone (R8). -/
def Chip.stopZone (c : Chip) (z : ZoneId) (cause : StopCause) : Chip :=
  match c.zones[z].power with
  | .off => c
  | .starting | .on => c.beginStop z cause
  | .stopping =>
    let c := c.updZone z fun x => { x with stopCause := some cause }
    if cause = .standby ∨ cause = .fault then
      (c.updZone z fun x => { x with restart := false }).endOnOrders z .superseded
    else c

/-- The flags of R1 clear when a zone enters OFF, and its power state is OFF (R8 step 5). -/
def Chip.offZone (c : Chip) (z : ZoneId) : Chip :=
  let c := c.updZone z fun x =>
    { x with power := .off, programme := .none, dropped := false, limited := false, signalPresent := false }
  let c := c.updAlign z fun a => { a with lipsyncShort := false, alignDropped := false, lateAudio := false }
  (c.updCtx z fun x => { x with paths := [] }).clearHolds z

/-- Steps 3 to 5 of a stop (R8). With restart-pending set, the start follows once the stop's re-grants are made (R9). Of two zones
whose stops end in one event, the one that began to stop first reaches OFF first; their active sets are read at the event's end (log 73). -/
def Chip.finishStop (c : Chip) (z : ZoneId) : Chip :=
  let c := c.updEv fun e => { e with stopping := e.stopping.filter (· ≠ z) }
  let c := ((c.releaseBinding z).releaseDelay z).returnOutlets z
  let c := (c.offZone z).evalTriggers.endOffOrders z
  if c.zones[z].restart then c.updEv fun e => { e with restarts := e.restarts ++ [z] } else c.evalSleep

/-- The starts that restart-pending carries on to, when the stops have finished (R9). -/
def Chip.restartZones (c : Chip) : Chip :=
  c.ev.restarts.foldl Chip.startZone (c.updEv fun e => { e with restarts := [] })

/-- The FAULT condition (R10). -/
def Chip.faultCondition (c : Chip) (z : ZoneId) : Bool :=
  let l := c.zoneOutlets z
  c.started z && !l.isEmpty && l.all fun o => c.outlets[o].protection == .latched

/-- The test of R10. -/
def Chip.testFault (c : Chip) (z : ZoneId) : Chip := if c.faultCondition z then c.stopZone z .fault else c

/-! ### ZONE_POWER -/

/-- An order joins a pending list (R6). -/
def Chip.joinOn (c : Chip) (z : ZoneId) (t : Word) : Chip := c.updZone z fun x => { x with onOrders := x.onOrders ++ [t] }
def Chip.joinOff (c : Chip) (z : ZoneId) (t : Word) : Chip :=
  c.updZone z fun x => { x with offOrders := x.offOrders ++ [t] }

/-- ZONE_POWER(on) (R4); it cancels a sleep countdown (R177). -/
def Chip.powerOn (c : Chip) (z : ZoneId) (t : Word) : Chip :=
  let c := c.cancelSleep
  match c.zones[z].power with
  | .off => (c.startZone z).joinOn z t
  | .starting => c.joinOn z t
  | .on => c.done t false (c.powerValues z)
  | .stopping => (c.updZone z fun x => { x with restart := true }).joinOn z t

/-- ZONE_POWER(off) (R4); in STOPPING it is a stop cause ORDER too (R8, log 19). -/
def Chip.powerOff (c : Chip) (z : ZoneId) (t : Word) : Chip :=
  match c.zones[z].power with
  | .off => c.done t false (c.powerValues z)
  | .starting | .on => (c.stopZone z .order).joinOff z t
  | .stopping =>
    let restart := c.zones[z].restart
    let c := c.stopZone z .order
    let c := if restart then (c.updZone z fun x => { x with restart := false }).endOnOrders z .superseded else c
    c.joinOff z t

/-! ### ZONE_SOURCE -/

/-- ZONE_SOURCE in ON (R12): done at once, a new source change, or the later order of the one in progress. A source other
than the bound one aborts a calibration run in the zone (R172). -/
def Chip.switchSource (c : Chip) (z : ZoneId) (t : Word) (s : SourceId) : Chip :=
  let c := if c.zones[z].binding = some s then c else c.abortRunIn z
  match c.zones[z].switchOrder with
  | some earlier => (c.doneWith earlier .superseded []).updZone z fun x => { x with switchOrder := some t }
  | none =>
    if c.zones[z].binding = some s then c.done t false []
    else (c.updZone z fun x => { x with switchOrder := some t }).placeHold z .sourceSwitch

/-- ZONE_SOURCE with a valid source (R12). -/
def Chip.zoneSource (c : Chip) (z : ZoneId) (t : Word) (s : SourceId) : Chip :=
  let c := c.updZone z fun x => { x with selected := s }
  match c.zones[z].power with
  | .off | .stopping => c.done t false []
  | .starting => ((c.releaseBinding z).bindZone z s).done t false []
  | .on => c.switchSource z t s

/-- The SOURCE_SWITCH hold is silent (R12). -/
def Chip.switchSilent (c : Chip) (z : ZoneId) : Chip :=
  let s := c.zones[z].selected
  let c := if c.zones[z].binding = some s then c else (c.releaseBinding z).bindZone z s
  c.endSwitch z

/-! ### Announcements -/

/-- The announcement state by the first case that applies (R16). -/
def Chip.announceOf (c : Chip) (z : ZoneId) : AnnState :=
  let x := c.zones[z]
  let s := streamSource x.ann.source
  if !x.ann.enable then .off
  else if x.selected = s ∨ c.sources[s].lockedIn Format.compressed then .unusable
  else if x.power ≠ .on then .ready
  else if c.sources[s].lockedIn (· == .pcm2) then .active
  else if x.annState = .active ∨ x.annState = .hold then .hold
  else .ready

/-- The hold of an announcement (R16). -/
def annHoldTime : Nat := Config.ms 500

/-- A zone takes an announcement state: HOLD from ACTIVE starts the hold timer, leaving HOLD cancels it (R16). -/
def Zone.announce (x : Zone) (a : AnnState) : Zone :=
  { x with annState := a,
           annHoldTimer := if a = .hold then (if x.annState = .hold then x.annHoldTimer else some annHoldTime)
             else none }

/-- ZC evaluates the announcement state (R16). -/
def Chip.evalAnnounce (c : Chip) (z : ZoneId) : Chip := c.updZone z fun x => x.announce (c.announceOf z)

/-! ### The programme state -/

/-- ZC derives the programme state (R13), once at the end of the event (log 58); signal-present clears when it is not PLAYING (R18). -/
def Chip.deriveProgramme (c : Chip) (z : ZoneId) : Chip :=
  let p := c.programmeOf z
  c.updZone z fun x => { x with programme := p, signalPresent := x.signalPresent && p == .playing }

end Sys2Proof.Machine
end

