-- ==== Sys2Proof/Machine/Protection.lean ====
section
/-! DEFINITION. Amplifier protection (07 section 7.5): trips, the re-engagement check, temperature levels and shutdowns, DC
faults, OUTLET_CLEAR, and what a change of the protection state hands on. -/

namespace Sys2Proof.Machine

/-- The time of a trip: milliseconds since the last main power-up (R109). -/
def Chip.nowMs (c : Chip) : Nat := (c.clock - c.powerUpAt) / Config.ticksPerMs

/-- The retry after an over-current trip (R120). -/
def tripRetry : Nat := Config.ms 2000

/-- How long an entry of the trip history stands, in ms (R109). -/
def tripLife : Nat := 60000

/-! ### One outlet -/

/-- An over-current trip at a time: TRIPPED with a retry, or LATCHED at the third entry of the history (R120). -/
def Outlet.trip (x : Outlet) (now : Nat) : Outlet :=
  let h := x.history ++ [now]
  { x with protection := if 3 ≤ h.length then .latched else .tripped, cause := some .overcurrent, history := h,
           retryTimer := if 3 ≤ h.length then none else some tripRetry }

/-- The DC fault (R123). -/
def Outlet.dcFault (x : Outlet) : Outlet := { x with protection := .latched, cause := some .dc, retryTimer := none }

/-- TRIPPED with cause THERMAL (R122). -/
def Outlet.shutDown (x : Outlet) : Outlet :=
  { x with protection := .tripped, cause := some .thermal, retryTimer := none }

/-- Back in service by the temperature level (R121 step 4). -/
def Outlet.reEngage (x : Outlet) (w : Fin 4) : Outlet :=
  { x with protection := servingState w, cause := none, retryTimer := none }

/-- The re-engagement check against the outlet's lines (R121). -/
def Outlet.check (x : Outlet) (g : Group) (overcurrent : Bool) (now : Nat) : Outlet :=
  if g.dcf then x.dcFault
  else if overcurrent then x.trip now
  else if g.tsd ∨ 2 ≤ g.w.val then x.shutDown
  else x.reEngage g.w

/-- The temperature level acts on an outlet of the group (R115). -/
def Outlet.warm (x : Outlet) (w : Fin 4) : Outlet :=
  { x with ceiling := ceilingOf w, protection := if x.protection.serving then servingState w else x.protection }

/-! ### Lines -/

/-- The over-current line of an outlet; a line-level outlet has none (R109). -/
def Chip.overcurrentLine (c : Chip) (o : OutletId) : Bool := if h : o.val < 16 then c.pins.oc[o.val] else false

/-- The check of an outlet as the lines stand; a line-level outlet has no lines and passes none (R121). -/
def Chip.checkOutlet (c : Chip) (o : OutletId) (x : Outlet) : Outlet :=
  match groupOf o with
  | some g => x.check c.groups[g] (c.overcurrentLine o) c.nowMs
  | none => x

/-! ### Handing on -/

/-- The relay of an outlet that is tripped or latched is open, and its withdrawal ends at once (R117, R119, R120). -/
def Chip.cutDrive (c : Chip) (o : OutletId) : Chip :=
  let x := c.outlets[o]
  if x.protection.serving then c
  else
    let c := c.updOutlet o fun y => { y with relay := false }
    if (x.placement = .lending ∨ x.placement = .reassigning) ∧ o ∉ c.ev.withdrawn then
      c.updEv fun e => { e with withdrawn := e.withdrawn ++ [o] }
    else c

/-- The zones in which an outlet of the list has entered LATCHED since `before` (R10). -/
def Chip.latchedZones (c before : Chip) (l : List OutletId) : List ZoneId :=
  allZones.filter fun z => l.any fun o =>
    c.outlets[o].protection == .latched && before.outlets[o].protection != .latched && c.outlets[o].zone == some z

/-- A calibration run that is measuring an outlet which has left service since `before` records the fault (R120, R170). -/
def Chip.reportFault (before c : Chip) (o : OutletId) : Chip :=
  if before.outlets[o].protection.serving ∧ ¬ c.outlets[o].protection.serving then c.calLoses o .fault else c

/-- The zones that hold an outlet of the list which has entered or left service since `before`. -/
def Chip.servedZones (c before : Chip) (l : List OutletId) : List ZoneId :=
  allZones.filter fun z => l.any fun o =>
    c.outlets[o].protection.serving != before.outlets[o].protection.serving && c.outlets[o].zone == some z

/-- The protection states of outlets change, all of them first; then the change is handed on: drive and relays, the resolution of
each affected zone, its FAULT test once, the calibration run (R120, R123). Relays that close follow at the end of the event. -/
def Chip.protect (c : Chip) (l : List OutletId) (f : OutletId → Outlet → Outlet) : Chip :=
  let changed := l.foldl (fun c o => c.updOutlet o (f o)) c
  let cut := l.foldl Chip.cutDrive changed
  let resolved := (cut.servedZones c l).foldl Chip.resolveZone cut
  let tested := (resolved.latchedZones c l).foldl Chip.testFault resolved
  l.foldl (Chip.reportFault c) tested

/-! ### Events of the lines -/

/-- An over-current line is asserted: a serving outlet trips (R120). -/
def Chip.overcurrent (c : Chip) (o : OutletId) : Chip :=
  if c.outlets[o].protection.serving then c.protect [o] fun _ x => x.trip c.nowMs else c

/-- The shutdown of a group may end: TSD clear and w at 1 or 0 (R122). -/
def Chip.endShutdown (c : Chip) (g : GroupId) : Chip :=
  if c.groups[g].tsd ∨ 2 ≤ c.groups[g].w.val then c
  else c.protect ((groupOutlets g).filter fun o =>
    c.outlets[o].protection == .tripped && c.outlets[o].cause == some .thermal) c.checkOutlet

/-- A group's temperature level changes (R115). A raised ceiling moves a test signal at 1 hdB per millisecond (R162), also one that is
still ramping in (log 54). -/
def Chip.setWarning (c : Chip) (g : GroupId) (w : Fin 4) : Chip :=
  let c := c.updGroup g fun x => { x with w := w }
  let rises := match c.test.outlet with
    | some o => groupOf o == some g && decide (c.outlets[o].ceiling < ceilingOf w)
    | none => false
  let c := (groupOutlets g).foldl (fun c o => c.updOutlet o fun x => x.warm w) c
  let c := if rises then c.updTest fun t => { t with fast := false } else c
  c.endShutdown g

/-- A group's TSD line is asserted (R122). -/
def Chip.assertTsd (c : Chip) (g : GroupId) : Chip :=
  let c := c.updGroup g fun x => { x with tsd := true }
  c.protect ((groupOutlets g).filter fun o => c.outlets[o].protection != .latched) fun _ x => x.shutDown

/-- A group's TSD line clears (R122). -/
def Chip.clearTsd (c : Chip) (g : GroupId) : Chip := (c.updGroup g fun x => { x with tsd := false }).endShutdown g

/-- A group's DCF line is asserted (R123). -/
def Chip.assertDcf (c : Chip) (g : GroupId) : Chip :=
  (c.updGroup g fun x => { x with dcf := true }).protect (groupOutlets g) fun _ x => x.dcFault

/-- The retry timer of an outlet expires (R121). -/
def Chip.retryOutlet (c : Chip) (o : OutletId) : Chip := c.protect [o] c.checkOutlet

/-- The oldest entry of a trip history expires 60 s after its time; the time still missing passes (R109, log 2). -/
def Chip.expireTrip (c : Chip) (o : OutletId) : Chip :=
  match c.outlets[o].history with
  | [] => c
  | t :: rest =>
    (c.passTicks (c.powerUpAt + (t + tripLife) * Config.ticksPerMs - c.clock)).updOutlet o
      fun x => { x with history := rest }

/-! ### OUTLET_CLEAR -/

/-- The result values of OUTLET_CLEAR (R124). -/
def Outlet.clearValues (x : Outlet) : List ResultValue :=
  [.num (codeOf Protection.all x.protection), .num (optCode (codeOf TripCause.all) x.cause), .num x.history.length]

/-- A fault line of the outlet is asserted (R124). -/
def Chip.faultPresent (c : Chip) (o : OutletId) : Bool :=
  c.overcurrentLine o || (match groupOf o with | some g => c.groups[g].dcf | none => false)

/-- OUTLET_CLEAR (R124). -/
def Chip.clearOutlet (c : Chip) (t : Word) (o : OutletId) : Chip :=
  let latched := c.outlets[o].protection == .latched
  if latched && c.faultPresent o then c.refuse t .faultPresent
  else
    let c := c.updOutlet o fun x => { x with history := [] }
    let c := if latched then c.protect [o] c.checkOutlet else c
    c.done t false c.outlets[o].clearValues

end Sys2Proof.Machine
end

