-- ==== Sys2Proof/Machine/Pages.lean ====
section
/-! DEFINITION. The status pages P0 to P13 as bytes (section 12.6, log 7). Each content is written once, with a flag `shown`:
set, it gives the bytes of a publication; clear, the fields that change without republishing the page are left at 0, which
gives what a publication is due for when it changes. -/

namespace Sys2Proof.Machine

/-! ### Fields -/

/-- A one-byte field. -/
def b1 (v : Int) : List Byte := [byteOf v]

def bFlag (b : Bool) : List Byte := b1 (boolCode b)

/-- An optional one-byte code: 0xFF marks an absent field (section 12.6). -/
def bOpt {α : Type} (f : α → Int) (v : Option α) : List Byte := b1 (optCode f v)

/-- An optional field of `n` bytes on P8 to P12: a presence byte, then the field, 0 where it is absent (log 7). -/
def bSome {α : Type} (n : Nat) (f : α → List Byte) : Option α → List Byte
  | none => 0 :: List.replicate n 0
  | some v => 1 :: f v

/-- A list: a 32-bit count and its entries (section 12.6). -/
def bList {α : Type} (f : α → List Byte) (l : List α) : List Byte := le32 l.length ++ l.flatMap f

/-- A field that only a publication shows. -/
def seen (shown : Bool) (v : Int) : Int := if shown then v else 0

def zoneCode (z : ZoneId) : Int := z.val
def sourceCode (s : SourceId) : Int := s.val
def posCode (p : Position) : Int := posBit p
def le32Word (w : Word) : List Byte := le32 w.toNat

/-! ### P0 to P4 -/

/-- P0 (R192). -/
def Chip.page0 (c : Chip) : List Byte :=
  b1 (codeOf PartState.all c.win.partState) ++ le32Word c.win.nextTicket ++ le32Word c.win.lastPost
    ++ le32Word c.win.orderGap ++ le32Word c.win.orphaned ++ le32Word c.win.duplicate ++ le32Word c.win.softResetCount
    ++ bList (fun e => le32Word e.ticket ++ b1 e.slot.val ++ b1 (codeOf OrderKind.all e.kind + 1)) c.win.inFlight

def ParamSet.bytes (p : ParamSet) : List Byte := b1 p.crossover ++ b1 p.lfe ++ bFlag p.toFronts

/-- The six flags of a zone page. -/
def Chip.zoneFlags (c : Chip) (z : ZoneId) : Int :=
  boolCode c.aligns[z].lipsyncShort + 2 * boolCode c.aligns[z].alignDropped + 4 * boolCode c.aligns[z].lateAudio
    + 8 * boolCode c.ctxs[z].noLfe + 16 * boolCode c.zones[z].dropped + 32 * boolCode c.zones[z].limited

/-- Offsets 8 to 51 of a zone page. -/
def Chip.zoneHead (c : Chip) (z : ZoneId) : List Byte :=
  let x := c.zones[z]
  let y := c.ctxs[z]
  b1 (codeOf Power.all x.power) ++ b1 (codeOf Programme.all x.programme) ++ b1 x.selected.val ++ bOpt sourceCode x.binding
    ++ bFlag x.restart ++ bOpt (codeOf StopCause.all) x.stopCause ++ b1 x.onOrders.length ++ b1 x.offOrders.length
    ++ le16 x.volume
    ++ bFlag x.muted ++ b1 x.lift ++ bFlag x.ann.enable ++ b1 x.ann.source.val ++ b1 x.ann.duck
    ++ b1 (codeOf AnnRoute.routes x.ann.route) ++ le16 x.ann.level ++ b1 (codeOf AnnState.all x.annState)
    ++ bFlag x.signalPresent
    ++ le16 x.videoLatency ++ le16 x.userOffset
    ++ b1 (c.zoneFlags z)
    ++ bFlag y.useReduced ++ b1 y.layout.length ++ bFlag c.aligns[z].pending
    ++ y.full.bytes ++ y.reduced.bytes
    ++ le16 c.aligns[z].dMax
    ++ le32 y.resolution.toNat ++ le32 y.muteMap.toNat

/-- Offsets 52 to 71: the alignment record (R97). -/
def Chip.alignBytes (c : Chip) (z : ZoneId) : List Byte :=
  let a := c.aligns[z]
  le16 a.lDec ++ le16 ((a.lip : Int) - a.granted) ++ le32 a.requested ++ le32 a.lip ++ le32 a.granted
    ++ le16 (c.claim z) ++ le16 (c.held z)

def sizeCode : SpeakerSize → Int
  | .large => 0
  | .small => 1

/-- The position list with its sizes, 16 entries. -/
def Ctx.layoutBytes (y : Ctx) : List Byte :=
  (y.layout.flatMap fun e => b1 (posCode e.1) ++ b1 (sizeCode e.2)) ++ List.replicate (32 - 2 * y.layout.length) 0

/-- An outlet's delay on a zone page: s_o, the applied delay and the blocks held. -/
def Chip.delayBytes (c : Chip) (z : ZoneId) (o : OutletId) : List Byte :=
  let s := match c.aligns[z].grant.find? fun e => e.outlet == o with
    | some e => e.distance
    | none => 0
  let d : Nat := match c.outlets[o].line with
    | some l => l.delay
    | none => 0
  b1 o.val ++ bFlag c.outlets[o].line.isSome ++ le16 (s : Int) ++ le16 (Int.ofNat d) ++ le16 (blocksOf d : Int)

/-- P1 to P4 (R3, R61, R66, R67, R97). -/
def Chip.zonePage (c : Chip) (z : ZoneId) : List Byte :=
  let l := c.zoneOutlets z
  c.zoneHead z ++ c.alignBytes z ++ c.ctxs[z].layoutBytes ++ l.flatMap (c.delayBytes z)
    ++ (List.replicate (24 - l.length) [0xFF, 0, 0, 0, 0, 0, 0, 0]).flatten

/-! ### P5 -/

def Profile.bytes (p : Profile) : List Byte :=
  bFlag p.formatsValid ++ b1 p.supported.toNat ++ bOpt (codeOf Format.all) p.active ++ bFlag p.carriageValid
    ++ b1 p.carriageClass

/-- The stream context of an entry; the marks are those of the publication (R21). -/
def Stream.bytes (shown : Bool) (x : Stream) : List Byte :=
  le32 x.offset ++ le32 x.size ++ b1 (codeOf StreamFormat.all x.format) ++ b1 (codeOf [Rate.r44, Rate.r48] x.rate)
    ++ bFlag x.overrun ++ bFlag x.stopped ++ le32 (seen shown x.fillMark.toNat) ++ le32 (seen shown x.drain.toNat)

/-- An entry of the source page. -/
def Chip.sourceBytes (shown : Bool) (c : Chip) (s : SourceId) : List Byte :=
  let x := c.sources[s]
  b1 (codeOf SrcState.all x.state) ++ bOpt (codeOf Phase.all) x.phase ++ bOpt (codeOf Phase.all) x.reason
    ++ bOpt (codeOf Format.all) x.format ++ b1 x.detail ++ b1 x.lanes ++ bFlag x.signalPresent
    ++ b1 (codeOf Decode.all x.decode)
    ++ le32 (match x.rate with | some r => r.hz | none => 0)
    ++ b1 x.failCount ++ b1 (boolCode x.preferPcm + 2 * boolCode x.enable) ++ b1 (codeOf Format.all x.offer)
    ++ b1 (codeOf OfferReason.all x.offerReason) ++ bFlag x.activeMismatch ++ bFlag x.retryTimer.isSome
    ++ x.profile.bytes ++ [0]
    ++ (match streamOf s with
        | some m => c.streams[m].bytes shown
        | none => List.replicate 20 0)
    ++ List.replicate 4 0

/-- P5 (R21). -/
def Chip.page5 (shown : Bool) (c : Chip) : List Byte := allSources.flatMap (c.sourceBytes shown)

/-! ### P6 -/

def assignmentBytes (a : Option Assignment) : List Byte :=
  bOpt (fun a : Assignment => zoneCode a.zone) a ++ bOpt (fun a : Assignment => posCode a.position) a

/-- Three trip times; 0 where there is none. -/
def tripBytes (l : List Nat) : List Byte :=
  ((l ++ List.replicate (3 - l.length) 0).take 3).flatMap fun t : Nat => le32 t

/-- An entry of the outlet page. A line-level outlet has no group and no relay. -/
def Chip.outletBytes (c : Chip) (o : OutletId) : List Byte :=
  let x := c.outlets[o]
  bFlag (!isSpeaker o) ++ bOpt (fun g : GroupId => (g.val : Int)) (groupOf o) ++ assignmentBytes x.primary
    ++ assignmentBytes x.alternate ++ bOpt zoneCode x.zone ++ b1 (codeOf Placement.all x.placement) ++ bFlag x.engaged
    ++ bFlag x.unused
    ++ b1 x.trim ++ b1 (codeOf Protection.all x.protection) ++ bOpt (codeOf TripCause.all) x.cause
    ++ b1 x.history.length ++ (if isSpeaker o then bFlag x.relay else b1 absent) ++ b1 x.ceiling
    ++ le16 x.distance ++ bFlag x.pendingAssign.isSome ++ [0]
    ++ le32Word (x.pendingAssign.getD 0) ++ tripBytes x.history ++ bFlag x.retryTimer.isSome ++ [0, 0, 0]

def Group.bytes (g : Group) : List Byte := b1 g.w.val ++ bFlag g.tsd ++ bFlag g.dcf ++ [0]

def bindingCode : TriggerBinding → Int × Int
  | .none => (0, absent)
  | .zone z => (1, z.val)
  | .source s => (2, s.val)

/-- A trigger record: polarity in bit 0 and drive in bit 1 of its third byte (log 7). -/
def Trigger.bytes (t : Trigger) : List Byte :=
  b1 (bindingCode t.binding).1 ++ b1 (bindingCode t.binding).2 ++ b1 (boolCode t.activeLow + 2 * boolCode t.openDrain)
    ++ bFlag t.asserted

/-- P6 (R110). -/
def Chip.page6 (c : Chip) : List Byte :=
  allOutlets.flatMap c.outletBytes ++ c.groups.toList.flatMap Group.bytes ++ c.triggers.toList.flatMap Trigger.bytes

/-! ### P7 -/

/-- A zone set: bit n for zone n. -/
def zoneSet (l : List ZoneId) : Int := allZones.foldl (fun n z => if z ∈ l then n + 2 ^ z.val else n) 0

/-- An engine record and its source's start-failure count, 0 for a FREE engine, which has no source (log 7); the runs and the phase timer
do not republish it (R44). -/
def Chip.engineBytes (shown : Bool) (c : Chip) (e : EngineId) : List Byte :=
  let x := c.engines[e]
  let fails := match x.source with
    | some s => c.sources[s].failCount
    | none => 0
  b1 (codeOf EngineState.all x.state) ++ bOpt sourceCode x.source ++ bOpt (codeOf Format.all) x.format ++ le16 x.latency
    ++ b1 (zoneSet x.consumers) ++ b1 (seen shown x.goodRun) ++ b1 (seen shown x.badRun)
    ++ le16 (seen shown ((x.phaseTimer.getD 0 / Config.samplesPerMs : Nat) : Int)) ++ b1 fails

/-- P7 (R44, R97): beside the engine table, the free count and the claims. What else of a zone's alignment changes republishes P7 where
`Chip.markAlign` says so: at a computation, a switch and a release. -/
def Chip.page7 (shown : Bool) (c : Chip) : List Byte :=
  c.engineBytes shown 0 ++ c.engineBytes shown 1 ++ bList (fun z => b1 (zoneCode z)) c.waitQueue
    ++ le16 c.freeBlocks ++ allZones.flatMap (fun z => le16 (c.claim z))

/-! ### P8 to P10 -/

def le32Nat (n : Nat) : List Byte := le32 n

/-- P8 (R140): L and Q alone do not republish it, and while SCANNING nor do the dwells. -/
def Tuner.page8 (shown : Bool) (x : Tuner) : List Byte :=
  let dwells := shown || x.state != .scanning
  b1 (codeOf TunerState.all x.state) ++ b1 (codeOf Region.all x.region) ++ b1 x.sFm ++ b1 x.sAm
    ++ b1 (codeOf Band.all x.station.band) ++ le32 (seen dwells x.station.freq) ++ b1 (codeOf Mode.all x.station.mode)
    ++ bSome 4 le32Nat (if dwells then x.step else none)
    ++ bOpt (fun d : Bool × Nat => if d.1 then 0 else 1) x.seek ++ bOpt (codeOf Band.all) x.scanBand
    ++ b1 (seen shown x.level) ++ b1 (seen shown x.multipath) ++ b1 (seen dwells (boolCode x.pilot)) ++ b1 x.blend
    ++ b1 x.softMute

def nameBytes (n : Vector Byte 8) : List Byte := n.toList

def ListEntry.bytes (e : ListEntry) : List Byte :=
  b1 (codeOf Band.all e.band) ++ le32 e.freq ++ b1 e.level ++ b1 e.multipath ++ bFlag e.pilot ++ bSome 8 nameBytes e.name

/-- A preset slot: a presence byte, and the slot where it is filled (log 8). -/
def presetBytes : Option Preset → List Byte
  | none => [0]
  | some p => 1 :: b1 (codeOf Band.all p.station.band) ++ le32 p.station.freq ++ b1 (codeOf Mode.all p.station.mode)
      ++ nameBytes p.name

/-- P9 (R140, R151, R155); a content beyond the page is cut off at its end (log 8). -/
def Tuner.page9 (x : Tuner) : List Byte := bList ListEntry.bytes x.stations ++ x.presets.toList.flatMap presetBytes

/-- P10 (R157 to R159). The identity, the accepted name and a complete text republish it. -/
def DataService.page10 (shown : Bool) (d : DataService) : List Byte :=
  bSome 2 (fun v : BitVec 16 => le16 v.toNat) d.identity ++ bSome 8 nameBytes d.accepted
    ++ (if shown then d.textSegs.toList.flatMap (bSome 4 fun v : Vector Byte 4 => v.toList) ++ bOpt boolCode d.flip
        else d.text)
    ++ bFlag d.textComplete ++ b1 d.textLength

/-! ### P11 -/

/-- A holder: one code for the block and its purpose, a port byte with 255 for none, a ticket with 0 for none (R137; the bytes are log
7). -/
def Holder.bytes : Holder → List Byte
  | .sfeRate p => b1 0 ++ b1 p.val ++ le32 0
  | .sfeCheck p => b1 1 ++ b1 p.val ++ le32 0
  | .cal => b1 2 ++ b1 absent ++ le32 0
  | .win t => b1 3 ++ b1 absent ++ le32Word t

def edgeBytes (e : Edge) : List Byte :=
  b1 (edgeSourceCode e.source).1 ++ b1 (edgeSourceCode e.source).2 ++ bFlag (!e.rising)

/-- A meter (R137): its state and holder republish the page, the rest is that of the publication. A meter without a holder shows 255 for
the block and the port, and B edges seen stand between B_SEEN and the first edge, both the model's choice (log 7). -/
def Meter.bytes (shown : Bool) (x : Meter) : List Byte :=
  b1 (codeOf MeterState.all x.state)
    ++ (match x.holder with
        | some h => h.bytes
        | none => b1 absent ++ b1 absent ++ le32 0)
    ++ (if shown then
          edgeBytes x.edgeA ++ edgeBytes x.edgeB ++ le16 x.bCount ++ bFlag x.ordered ++ le16 x.limit ++ bFlag x.aSeen
            ++ bFlag x.bSeen ++ le16 x.bEdges ++ bOpt (fun a : Bool => if a then 0 else 1) x.firstA ++ le32 x.ticks
        else [])

/-- P11 (R137). -/
def Imu.page11 (shown : Bool) (x : Imu) : List Byte :=
  x.meters.toList.flatMap (Meter.bytes shown) ++ b1 x.threshold ++ bList (fun q : Claim => q.holder.bytes) x.queue

/-! ### P12 -/

def outletCode (o : OutletId) : Int := (o.val : Int) + 1

/-- The test record without the walk timer and the signal gain (R160). -/
def TestRec.bytes (x : TestRec) : List Byte :=
  b1 (codeOf TestMode.all x.mode) ++ bOpt zoneCode x.zone ++ bOpt outletCode x.outlet ++ b1 x.level
    ++ bOpt (codeOf WalkPhase.all) x.phase

def CalEntry.bytes (e : CalEntry) : List Byte :=
  b1 (outletCode e.outlet) ++ b1 (codeOf CalStatus.all e.status) ++ b1 e.valid ++ bSome 2 le16 e.level
    ++ bSome 2 (fun d : Nat => le16 d) e.distance ++ bSome 1 b1 e.trim

def CalPlace.bytes (p : CalPlace) : List Byte := b1 p.index ++ b1 (codeOf CalStep.all p.step) ++ b1 p.burst

/-- The run record without the step timer and the tick sum; the run state, the meter and the results republish P12
(R165). -/
def CalRec.bytes (shown : Bool) (x : CalRec) : List Byte :=
  b1 (codeOf RunState.all x.run)
    ++ (if shown then
          bSome 4 le32Word x.ticket ++ bOpt zoneCode x.zone ++ bList (fun o => b1 (outletCode o)) x.outlets ++ b1 x.bursts
            ++ b1 x.threshold ++ b1 x.target ++ bFlag x.apply
        else [])
    ++ bOpt (fun m : MeterId => (m.val : Int)) x.meter
    ++ (if shown then bSome 3 CalPlace.bytes x.place ++ b1 x.valid else [])
    ++ bList CalEntry.bytes x.results

/-! ### P13 -/

def wakeCauseBytes : Option WakeCause → List Byte
  | none => b1 absent ++ b1 absent
  | some (.pattern e) => b1 0 ++ b1 e.val
  | some .line => b1 1 ++ b1 absent
  | some .resume => b1 2 ++ b1 absent

/-- The last match: an entry's number, 8 for the line (log 7). -/
def lastMatchCode : LastMatch → Int
  | .entry n => n.val
  | .line => 8

def actionCode : WakeAction → Int
  | .wake => 0
  | .wakeWithSource _ => 1
  | .report => 2

def actionSource : WakeAction → Int
  | .wakeWithSource s => s.val
  | .wake | .report => 0

/-- An entry of the wake table, in the arrangement of its data block (section 12.6). -/
def wakeEntryBytes : Option WakeEntry → List Byte
  | none => List.replicate 8 0
  | some e =>
    b1 (match e.line with | .ir => 1 | .control => 2) ++ b1 e.bytes.length ++ e.bytes
      ++ List.replicate (4 - e.bytes.length) 0 ++ b1 (actionCode e.action)
      ++ b1 (actionSource e.action + 128 * boolCode e.double)

/-- The armed time of an entry in milliseconds, on P13 behind the entry (R180, R185, log 7). -/
def armedBytes (e : Option WakeEntry) : List Byte := bSome 4 (fun a : Int => le32 (a / Config.ticksPerMs)) (e.bind (·.armed))

def Idle.bytes (shown : Bool) (i : Idle) : List Byte :=
  b1 i.count ++ bFlag i.seconds ++ bFlag i.timer.isSome
    ++ le32 (seen shown ((i.timer.getD 0 / Config.samplesPerMs : Nat) : Int))

/-- P13 (R185); an armed field, like a timer, does not republish it. The history is a byte with entry n in bit n (log 7). -/
def Standby.page13 (shown : Bool) (x : Standby) : List Byte :=
  b1 (codeOf PowerState.all x.power) ++ le16 (seen shown ((x.sleepTimer.getD 0 / Config.samplesPerMs : Nat) : Int))
    ++ wakeCauseBytes x.wakeCause ++ bOpt sourceCode x.wakeSource ++ bOpt lastMatchCode x.lastMatch
    ++ x.table.toList.flatMap (fun e => wakeEntryBytes e ++ (if shown then armedBytes e else []))
    ++ b1 x.window ++ bFlag x.wakeInEnable ++ bFlag x.wakeInHigh
    ++ bFlag x.wakeLock ++ x.idle.toList.flatMap (Idle.bytes shown)
    ++ b1 (match x.resume with | some k => k.val | none => 8)
    ++ (if shown then
          bFlag x.historyValid ++ b1 (x.history.toList.zipIdx.foldl (fun n e => if e.1 then n + 2 ^ e.2 else n) (0 : Nat))
        else [])
    ++ x.indicators.toList.flatMap fun i => b1 (codeOf IndFunction.all i.function) ++ b1 (codeOf IndMode.all i.manual)

/-! ### All pages -/

/-- The content of a page: of a publication, or what it mirrors. -/
def Chip.pageContent (shown : Bool) (c : Chip) (p : PageId) : List Byte :=
  match p.val with
  | 0 => c.page0
  | 1 => c.zonePage 0
  | 2 => c.zonePage 1
  | 3 => c.zonePage 2
  | 4 => c.zonePage 3
  | 5 => c.page5 shown
  | 6 => c.page6
  | 7 => c.page7 shown
  | 8 => c.tuner.page8 shown
  | 9 => c.tuner.page9
  | 10 => c.tuner.ds.page10 shown
  | 11 => c.imu.page11 shown
  | 12 => c.test.bytes ++ c.cal.bytes shown
  | _ => c.sbb.page13 shown

/-- The bytes of a page: header and content, filled up with zeros to 1 KiB (section 12.6). -/
def Chip.pageImage (c : Chip) (p : PageId) : List Byte :=
  let content := (c.pageContent true p).take 1016
  le32Word c.win.revisions[p] ++ le16 p.val ++ le16 content.length ++ content
    ++ List.replicate (1016 - content.length) 0

end Sys2Proof.Machine
end

