-- ==== Sys2Proof/Machine/Streams.lean ====
section
/-! DEFINITION. The stream buffers M1 and M2 (02 section 2.5): set-up, the fill mark read, overrun, underrun, stop, and the
stall at a window fault. -/

namespace Sys2Proof.Machine

/-- The FIFO's size, the content below which the fill mark is read, and the time between reads (R35, R36). -/
def fifoSize : Nat := 1024
def fifoLow : Nat := 512
def readTime : Nat := Config.ms 1

/-- The window size in bytes (R187). -/
def Chip.windowBytes (c : Chip) : Nat := c.win.windowKiB * 1024

/-- `n` bytes of the circular buffer from the read position on (R35). -/
def Stream.fetched (x : Stream) (m : Mem) (base n : Nat) : List Byte :=
  (List.range n).map fun i => m.read (base + x.offset + (x.readPos + i) % x.size)

/-- The bytes waiting: fill minus drain, modulo 2^32 (R35). -/
def Stream.waiting (x : Stream) (fill : Word) : Nat := (fill - x.drain).toNat

/-- Write the stream's drain mark into the window at the end of the event (R35). -/
def Chip.writeDrain (c : Chip) (m : StreamId) : Chip :=
  c.updEv fun e => { e with marks := e.marks ++ [(c.streams[m].offset - 4, c.streams[m].drain)] }

/-- The source of a stream enters STALLED; it keeps the format it had (R19, R36). -/
def Source.stall (x : Source) : Source := { x with state := .stalled, phase := none, reason := none }

/-- The read position and the marks of an overrun (R37). -/
def Stream.overran (x : Stream) (fill : Word) : Stream :=
  { x with overrun := true, readPos := (x.readPos + x.waiting fill) % x.size, drain := fill, fifo := [] }

/-- As many waiting bytes as fit are fetched (R35). -/
def Stream.fetch (x : Stream) (mem : Mem) (base : Nat) (fill : Word) : Stream :=
  let n := min (x.waiting fill) (fifoSize - x.fifo.length)
  { x with fifo := x.fifo ++ x.fetched mem base n, drain := x.drain + BitVec.ofNat 32 n,
           readPos := (x.readPos + n) % x.size }

/-- A stalled stream has a quarter of its buffer waiting: LOCKED in its format, or ACQUIRING with phase FORMAT (R36). -/
def Chip.unstall (c : Chip) (m : StreamId) : Chip :=
  let s := streamSource m
  match c.sources[s].format with
  | some f =>
    let c := c.updSource s fun x => { x with state := .locked }
    if f.compressed then c.requestAll s f (c.boundZones s) else c
  | none => c.updSource s fun x => { x with state := .acquiring, phase := some .format }

/-- A read of the fill mark is due: while the source is STALLED (R36), and while it drains with its FIFO's content below 512 bytes
(R35). A stopped stream, and one that a window fault has frozen, is not read (R38). -/
def Chip.fillDue (c : Chip) (m : StreamId) : Bool :=
  let x := c.streams[m]
  !x.stopped && !x.frozen && c.windowUp
    && (c.sources[streamSource m].state == .stalled || (c.streamDrains m && decide (x.fifo.length < fifoLow)))

/-- After a read the next one comes 1 ms later, if it is then still due (R35, R36). -/
def Chip.nextRead (c : Chip) (m : StreamId) : Chip :=
  c.updStream m fun x => { x with readTimer := if c.fillDue m then some readTime else none }

/-- What SFE does with the fill mark that it has read (R35 to R37). -/
def Chip.takeFill (c : Chip) (mem : Mem) (m : StreamId) : Chip :=
  let x := c.streams[m]
  let fill := mem.word (c.base + x.offset - 8)
  let c := c.updStream m fun y => { y with fillMark := fill }
  if x.size < x.waiting fill then
    ((c.updStream m fun y => y.overran fill).updSource (streamSource m) Source.stall).writeDrain m
  else if c.sources[streamSource m].state = .stalled then
    if x.size ≤ 4 * x.waiting fill then
      ((c.unstall m).updStream m fun y => y.fetch mem c.base fill).writeDrain m
    else c
  else (c.updStream m fun y => y.fetch mem c.base fill).writeDrain m

/-- SFE reads the fill mark (R35 to R37), where a read is due; the time that is still missing to it passes. -/
def Chip.readFill (c : Chip) (mem : Mem) (m : StreamId) : Chip :=
  let c' := c.passTimer c.streams[m].readTimer
  if c'.fillDue m then (c'.takeFill mem m).nextRead m else c

/-- The stream plays until its FIFO is empty; with nothing waiting it has underrun (R35, R36). -/
def Chip.underrun (c : Chip) (m : StreamId) : Chip :=
  if c.streamDrains m then
    let c := c.passSamples (c.streams[m]).samplesToEmpty
    if c.streams[m].fillMark = c.streams[m].drain then c.updSource (streamSource m) Source.stall else c
  else c

/-- A window fault stalls the streams that are set up and ends their window accesses (R38, R195). -/
def Chip.freezeStreams (c : Chip) : Chip :=
  ([0, 1] : List StreamId).foldl (fun c m =>
    if c.streams[m].stopped then c
    else (c.updStream m fun x => { x with frozen := true, readTimer := none }).updSource (streamSource m) Source.stall) c

/-- A buffer with its mark pair and another stream's overlap (R34). -/
def Stream.overlaps (x : Stream) (offset size : Int) : Bool :=
  !x.stopped && decide (offset - 8 < x.offset + x.size) && decide ((x.offset : Int) - 8 < offset + size)

/-- The other stream buffer. -/
def otherStream (m : StreamId) : StreamId := if m = 0 then 1 else 0

/-- The format and rate of a set-up, where the target allows them (R34). -/
def streamSettings (m : StreamId) (format rate : Int) : Option (StreamFormat × Rate) :=
  match ofCode StreamFormat.all format, ofCode [Rate.r44, Rate.r48] rate with
  | some f, some r => if m = 1 ∧ (f = .bitstream ∨ r ≠ .r48) then none else some (f, r)
  | _, _ => none

/-- The size and offset of a set-up are well formed (R34). -/
def streamShape (offset size : Int) : Bool :=
  decide (4096 ≤ size) && decide (size ≤ 1048576) && decide (size % 256 = 0) && decide (offset % 256 = 0)

/-- A stream set up: its context filled, its marks 0 and the fill mark read (R34); what this read found is tested at the next one,
1 ms later (log 47). -/
def setUpStream (offset size : Nat) (f : StreamFormat) (r : Rate) (fill : Word) : Stream where
  stopped := false
  offset := offset
  size := size
  format := f
  rate := r
  readPos := 0
  fifo := []
  fillMark := fill
  drain := 0
  overrun := false
  frozen := false
  frac := 0
  readTimer := some readTime

/-- STREAM_SETUP taken (R34): the source enters STALLED, as PCM2 or with no format, at the stream rate. -/
def Chip.startStream (c : Chip) (mem : Mem) (m : StreamId) (offset size : Nat) (f : StreamFormat) (r : Rate) : Chip :=
  let s := streamSource m
  let fill := mem.word (c.base + offset - 8)
  let c := (c.updStream m fun _ => setUpStream offset size f r fill).writeDrain m
  let c := c.updSource s fun x =>
    { x.stall with rate := some r, format := if f = .bitstream then none else some .pcm2, detail := 0 }
  let c := if f = .bitstream then c else c.handOffAll s
  c.markPage 5

/-- STREAM_STOP (R38): a set-up stream stops with the clearing actions of R26. -/
def Chip.stopStream (c : Chip) (m : StreamId) : Chip :=
  let c := c.markPage 5
  if c.streams[m].stopped then c
  else (c.updStream m fun x => { x with stopped := true, fifo := [], overrun := false, frozen := false, readTimer := none }).loseSignal
    (streamSource m)

end Sys2Proof.Machine
end

