-- ==== Sys2Proof/Machine/Settle.lean ====
section
/-! DEFINITION. What every event brings to its end (95_what_each_step_holds.md): withdrawals and stops that find silence at
once, the round, holds that report silent at once, then everything that follows from the rest of the state. -/

namespace Sys2Proof.Machine

/-! ### Work that falls within the event -/

/-- The silent report of a hold reaches its placer (R12, R29, R105, R161, R167). -/
def Chip.holdReport (c : Chip) (z : ZoneId) (h : Hold) : Chip :=
  let c := c.updEv fun e => { e with placed := e.placed.filter (· ≠ (z, h)) }
  match h with
  | .sourceSwitch => c.switchSilent z
  | .formatChange => c.liftHold z .formatChange
  | .regrant => c.switchGrant z
  | .test => c.testSilent
  | .calibration => c.calSilent

/-- The next piece of work of the event, if any: the end of a withdrawal whose outlet is silent (R113), the end of a stop
whose zone is silent (R8), the round (R103), the starts that follow stops (R9), the report of a hold placed in this event and silent
(R87). -/
def Chip.workOnce (c : Chip) : Option Chip :=
  match c.ev.withdrawn.find? c.withdrawDone with
  | some o => some (c.endWithdraw o)
  | none =>
    match c.ev.stopping.find? c.zoneSilent with
    | some z => some (c.finishStop z)
    | none =>
      if !c.ev.named.isEmpty || c.ev.released then some c.runRound
      else if !c.ev.restarts.isEmpty then some c.restartZones
      else match c.ev.placed.find? fun p => c.holdSilent p.1 p.2 with
        | some p => some (c.holdReport p.1 p.2)
        | none => none

/-- The event's work, piece by piece. -/
def Chip.workLoop : (fuel : Nat) → Chip → Chip
  | 0, c => c
  | fuel + 1, c =>
    match c.workOnce with
    | none => c
    | some d => Chip.workLoop fuel d

/-- More pieces than an event can hold: 24 withdrawals, 4 stops, their rounds and restarts, and 20 holds. -/
def workFuel : Nat := 96

/-- The event's work, all of it. -/
def Chip.work (c : Chip) : Chip := Chip.workLoop workFuel c

/-! ### What follows from the state -/

/-- The signal gain of a test never stands above the outlet's ceiling (R162). -/
def Chip.cutTest (c : Chip) : Chip :=
  c.updTest fun t => match t.outlet with
    | some o => { t with gain := min t.gain (48 * c.outlets[o].ceiling) }
    | none => t

/-- The relays by the rule of R119. -/
def Chip.setRelays (c : Chip) : Chip :=
  { c with outlets := Vector.ofFn fun o => { c.outlets[o] with relay := c.relayOf o } }

/-- The idle timers that are held stand at full (R182). -/
def Chip.holdIdle (c : Chip) : Chip :=
  c.updSbb fun b => { b with idle := Vector.ofFn fun z => if c.idleHeld z then (b.idle[z]).restart else b.idle[z] }

/-- What follows in the main domain: parameter sets, programme and announcement states, routes, targets, signal flags, offers,
relays, triggers, held timers. -/
def Chip.deriveMain (c : Chip) : Chip :=
  let c := allZones.foldl Chip.selectSet c
  let c := allZones.foldl Chip.deriveProgramme c
  let c := allZones.foldl Chip.evalAnnounce c
  let c := allZones.foldl Chip.resolveZone c
  let c := c.relevel.cutTest
  let c := c.dropSignals.recomputeOffers
  (c.setRelays.setTriggers).holdIdle

/-- The indicators (R184). -/
def Chip.setIndicators (c : Chip) : Chip :=
  c.updSbb fun b => { b with indicators := b.indicators.map c.evalIndicator }

/-- Everything that follows from the rest of the state; a held main domain stands as it is held (R174). -/
def Chip.derive (c : Chip) : Chip := (if c.mainUp then c.deriveMain else c).setIndicators

/-- One event: its own effect, the work that falls within it, and what follows. -/
def Chip.event (c : Chip) (f : Chip → Chip) : Chip := (f c.fresh).work.derive

end Sys2Proof.Machine
end

