-- ==== Sys2Proof/Machine/Window.lean ====
section
/-! DEFINITION. What the Window Interface writes at the end of an event (12): results and final states of slots, stream marks,
the header, pages. The window's bytes stand in the host's DRAM. -/

namespace Sys2Proof.Machine

/-- The part and the host's DRAM. -/
abbrev View := Chip × Mem

/-! ### Addresses -/

/-- A slot of the slate (section 12.6). -/
def Chip.slotAt (c : Chip) (slot : Fin 32) : Nat := c.base + 256 + 128 * slot.val
/-- A page (R192). -/
def Chip.pageAt (c : Chip) (p : PageId) : Nat := c.base + 8192 + 1024 * p.val

/-- Slot states (section 12.6). -/
def slotPosted : Byte := 1
def slotAccepted : Byte := 2
def slotDone : Byte := 3
def slotRefused : Byte := 4

/-! ### Ends of orders -/

def ResultValue.bytes : ResultValue → List Byte
  | .num v => le32 v
  | .name n => n.toList

/-- The result area of a slot (section 12.6). -/
def OrderEnd.area (e : OrderEnd) : List Byte :=
  let values := (e.values.flatMap ResultValue.bytes).take 60
  b1 (codeOf ResultCode.all e.code) ++ b1 (boolCode e.clamped + 2 * boolCode e.listFull) ++ le16 values.length ++ values

/-- A compare-and-write of a slot's first 8 bytes, of which only the state is changed: it succeeds where the slot still
holds the state expected and the ticket (R189, R191). -/
def slotHolds (m : Mem) (a : Nat) (state : Byte) (ticket : Word) : Bool := m.read a == state && m.word (a + 4) == ticket

/-- An end that cannot be written is counted (R188). -/
def Win.orphan (w : Win) : Win := { w with orphaned := w.orphaned + 1 }

/-- NEWS bit of a page (R193). -/
def Win.tell (w : Win) (p : PageId) : Win := { w with news := w.news ||| (1#14 <<< p.val) }

/-- The state that WIN last wrote for an order, or POSTED (R191 step 2). -/
def OrderEnd.expects (e : OrderEnd) : Byte := if e.accepted then slotAccepted else slotPosted

/-- WIN ends an order (R191); without a window, and for an order that was in flight when the part entered WINDOW_FAULT, the end
is counted as ORPHANED without a write (R195). -/
def writeEnd (v : View) (e : OrderEnd) : View :=
  if v.1.windowUp && !e.lost then
    let a := v.1.slotAt e.slot
    let m := v.2.write (a + 64) e.area
    if slotHolds m a e.expects e.ticket then
      (v.1.updWin fun w => w.tell 0, m.write a [if e.refused then slotRefused else slotDone])
    else (v.1.updWin Win.orphan, m)
  else (v.1.updWin Win.orphan, v.2)

/-- WIN writes ACCEPTED for an order that stays in flight (R189 step 5). -/
def writeAccepted (c : Chip) (m : Mem) (e : InFlight) : Mem :=
  if !e.accepted && c.windowUp && slotHolds m (c.slotAt e.slot) slotPosted e.ticket then
    m.write (c.slotAt e.slot) [slotAccepted]
  else m

/-- Every order in flight has been accepted. -/
def acceptAll (v : View) : View :=
  (v.1.updWin fun w => { w with inFlight := w.inFlight.map fun e => { e with accepted := true } },
   v.1.win.inFlight.foldl (writeAccepted v.1) v.2)

/-! ### Marks, header and pages -/

/-- A mark of a stream (R34, R35). -/
def writeMark (v : View) (p : Nat × Word) : View :=
  if v.1.windowUp then (v.1, v.2.write (v.1.base + p.1) (le32Word p.2)) else v

/-- The header fields that WIN writes: NT and the counters (R188). -/
def Win.header (w : Win) : List Word := [w.nextTicket, w.orderGap, w.orphaned, w.duplicate, w.softResetCount]

/-- WIN writes the header (R188). -/
def writeHeader (v : View) : View := (v.1, v.2.write (v.1.base + 4) (v.1.win.header.flatMap le32Word))

/-- A publication of a page (R192). -/
def publish (v : View) (p : PageId) : View :=
  let c := v.1.updWin fun w => ({ w with revisions := w.revisions.set p (w.revisions[p] + 2) } : Win).tell p
  (c, v.2.write (c.pageAt p) (c.pageImage p))

/-- What a page mirrors has changed since `before`, or a rule asks for its publication (R192). -/
def Chip.pageDue (c before : Chip) (p : PageId) : Bool :=
  decide (p ∈ c.ev.dirty) || c.pageContent false p != before.pageContent false p

def allPages : List PageId := List.finRange 14

/-- The refusals of further candidates for a ticket among the ends of an event (R189 step 3). -/
def duplicatesOf (l : List OrderEnd) : List OrderEnd := l.filter fun e => e.code == .duplicateTicket

/-- The other ends of an event: results of orders that their owners or WIN end. -/
def resultsOf (l : List OrderEnd) : List OrderEnd := l.filter fun e => e.code != .duplicateTicket

/-- The ends of orders and the drain marks of an event, in the order in which the rules make them: further candidates are refused before
the order reaches its owner (R189 steps 3 and 4), and a STREAM_SETUP writes its drain mark before it completes (R34). -/
def writeEnds (e : Ev) (v : View) : View :=
  (resultsOf e.ends).foldl writeEnd (e.marks.foldl writeMark ((duplicatesOf e.ends).foldl writeEnd v))

/-- The end of an event: ends of orders and marks, acceptances, header and pages, in RUNNING and HALTED; at a start
the header is written whatever it holds (R187, R188, R191, R192). -/
def commit (before : Chip) (v : View) : View :=
  let v := acceptAll (writeEnds v.1.ev v)
  if v.1.windowUp then
    let v := if before.windowUp ∧ v.1.win.header = before.win.header then v else writeHeader v
    (allPages.filter (v.1.pageDue before)).foldl publish v
  else v

/-! ### Events of the machine -/

/-- What the write-out of an event changes, as `c` and `m` stand before it, with what it writes: `before` is the part before the event,
`after` the part behind the write-out (R195, log 14). -/
def Chip.written (c before after : Chip) (m : Mem) : Written where
  dram := m
  orphaned := c.win.orphaned
  news := c.win.news
  revisions := c.win.revisions
  ends := c.ev.ends
  fresh := c.win.inFlight.filter fun e => !e.accepted
  marks := c.ev.marks
  header := !(before.windowUp && after.win.header == before.win.header)
  pages := allPages.filter fun p => after.win.revisions[p] != c.win.revisions[p]

/-- One event of the machine. -/
def State.run (s : State) (f : Chip → Chip) : State :=
  let c := s.chip.event f
  let v := commit s.chip (c, s.dram)
  { s with chip := v.1.fresh, dram := v.2, last := some (c.written s.chip v.1 s.dram) }

/-- An event of a main-domain block: nothing happens while the main domain is held (R174). -/
def State.runMain (s : State) (f : Chip → Chip) : State := if s.chip.mainUp then s.run f else s

end Sys2Proof.Machine
end

