-- ==== Sys2Proof/Machine/Slot.lean ====
section
/-! DEFINITION. Orders in their slots (section 12.6): the bytes that the host fills a slot with for an order, and the order
that intake reads from a slot's bytes. -/

namespace Sys2Proof.Machine

/-- What a slot holds beside its state: the kind, the head, the flags and the parameters (section 12.6). -/
structure Posting where
  kind   : OrderKind
  head   : OrderHead
  flags  : Byte
  params : List Byte
  deriving DecidableEq, Repr

/-! ### From an order to its slot -/

/-- Flags from bit 0 on (section 12.6, log 10). -/
def flagBits : List Bool → Nat
  | [] => 0
  | b :: bs => (if b then 1 else 0) + 2 * flagBits bs

/-- The flags byte of an order (log 10). -/
def flagsByte (l : List Bool) : Byte := BitVec.ofNat 8 (flagBits l)

/-- Number and code parameters. -/
def fields (l : List Int) : List Byte := l.flatMap le32

/-- The formats of a supported set, bit rank − 1. -/
def setBits (v : BitVec 5) : List Bool := (List.finRange 5).map fun i => v.getLsbD i.val

/-- The slot of an order; a command that is no order has none. Parameters stand in the order in which their rules list
them. -/
def posting : Instr → Option Posting
  | .zonePower h p => some ⟨.zonePower, h, 0, fields [p]⟩
  | .zoneSource h p => some ⟨.zoneSource, h, 0, fields [p]⟩
  | .announce h e a b c d => some ⟨.announce, h, flagsByte [e], fields [a, b, c, d]⟩
  | .sourceProfile h fv sup a cv c =>
      some ⟨.sourceProfile, h, flagsByte ([fv] ++ setBits sup ++ [cv]), fields [a, c]⟩
  | .sourcePolicy h p e => some ⟨.sourcePolicy, h, flagsByte [p, e], []⟩
  | .streamSetup h a b c d => some ⟨.streamSetup, h, 0, fields [a, b, c, d]⟩
  | .streamStop h => some ⟨.streamStop, h, 0, []⟩
  | .layoutLoad h a b => some ⟨.layoutLoad, h, 0, fields [a, b]⟩
  | .positionMute h a b => some ⟨.positionMute, h, 0, fields [a, b]⟩
  | .volume h a b => some ⟨.volume, h, 0, fields [a, b]⟩
  | .mute h a => some ⟨.mute, h, 0, fields [a]⟩
  | .dialogueLift h a => some ⟨.dialogueLift, h, 0, fields [a]⟩
  | .lipsync h a b => some ⟨.lipsync, h, 0, fields [a, b]⟩
  | .outletAssign h a b c d => some ⟨.outletAssign, h, 0, fields [a, b, c, d]⟩
  | .outletSet h tv dv a b => some ⟨.outletSet, h, flagsByte [tv, dv], fields [a, b]⟩
  | .outletClear h => some ⟨.outletClear, h, 0, []⟩
  | .triggerSet h a b c d => some ⟨.triggerSet, h, 0, fields [a, b, c, d]⟩
  | .measure h a b c d e f g o i j => some ⟨.measure, h, flagsByte [o], fields [a, b, c, d, e, f, g, i, j]⟩
  | .measureCancel h a => some ⟨.measureCancel, h, 0, fields [a]⟩
  | .tunerSetup h a b c => some ⟨.tunerSetup, h, 0, fields [a, b, c]⟩
  | .tune h a b c => some ⟨.tune, h, 0, fields [a, b, c]⟩
  | .seek h a => some ⟨.seek, h, 0, fields [a]⟩
  | .scan h a => some ⟨.scan, h, 0, fields [a]⟩
  | .presetStore h a b c d n => some ⟨.presetStore, h, 0, fields [a, b, c, d] ++ n.toList⟩
  | .presetRecall h => some ⟨.presetRecall, h, 0, []⟩
  | .presetClear h => some ⟨.presetClear, h, 0, []⟩
  | .testSignal h a b c d => some ⟨.testSignal, h, 0, fields [a, b, c, d]⟩
  | .calibrate h l a b c ap => some ⟨.calibrate, h, flagsByte [ap], le32 l.length ++ l ++ fields [a, b, c]⟩
  | .calAbort h => some ⟨.calAbort, h, 0, []⟩
  | .wakeTable h a b => some ⟨.wakeTable, h, 0, fields [a, b]⟩
  | .wakeLock h => some ⟨.wakeLock, h, 0, []⟩
  | .resumeSet h a => some ⟨.resumeSet, h, 0, fields [a]⟩
  | .idleSet h a b => some ⟨.idleSet, h, 0, fields [a, b]⟩
  | .idleExpire h => some ⟨.idleExpire, h, 0, []⟩
  | .standbyNow h => some ⟨.standbyNow, h, 0, []⟩
  | .indicatorSet h a b => some ⟨.indicatorSet, h, 0, fields [a, b]⟩
  | _ => none

/-- The first 64 bytes of a slot as the host fills it: state POSTED, kind, target, flags, ticket, parameters. -/
def Posting.bytes (p : Posting) : List Byte :=
  [slotPosted] ++ b1 (codeOf OrderKind.all p.kind + 1) ++ [p.head.target, p.flags] ++ le32Word p.head.ticket ++ p.params
    ++ List.replicate (56 - p.params.length) 0

/-! ### From a slot to its order -/

/-- The signed 32-bit field at a place of a list of bytes. -/
def fieldAt (l : List Byte) (i : Nat) : Int := (BitVec.ofNat 32 (leNat ((l.drop i).take 4))).toInt

/-- Parameter `n`, counted from 0, of a slot's parameter bytes. -/
def paramAt (l : List Byte) (n : Nat) : Int := fieldAt l (4 * n)

/-- A byte of a list, 0 beyond its end. -/
def byteIn (l : List Byte) (i : Nat) : Byte := l[i]?.getD 0

/-- Flag `n` of a flags byte. -/
def flagIn (b : Byte) (n : Nat) : Bool := b.getLsbD n

/-- The name at a place of a list of bytes. -/
def nameAt (l : List Byte) (i : Nat) : Vector Byte 8 := Vector.ofFn fun j => byteIn l (i + j.val)

/-- The items of the list that the parameters begin with: no more than the parameter area holds beside the three numbers
behind it, which is more than any list that CALIBRATE takes. -/
def listAt (l : List Byte) : List Byte := (l.drop 4).take (min (fieldAt l 0).toNat 40)

/-- The order of a kind that a slot's flags and parameters stand for. -/
def orderOf (h : OrderHead) (f : Byte) (p : List Byte) (k : OrderKind) : Instr :=
  let a := paramAt p
  match k with
  | .zonePower => .zonePower h (a 0)
  | .zoneSource => .zoneSource h (a 0)
  | .announce => .announce h (flagIn f 0) (a 0) (a 1) (a 2) (a 3)
  | .sourceProfile => .sourceProfile h (flagIn f 0) (f.extractLsb' 1 5) (a 0) (flagIn f 6) (a 1)
  | .sourcePolicy => .sourcePolicy h (flagIn f 0) (flagIn f 1)
  | .streamSetup => .streamSetup h (a 0) (a 1) (a 2) (a 3)
  | .streamStop => .streamStop h
  | .layoutLoad => .layoutLoad h (a 0) (a 1)
  | .positionMute => .positionMute h (a 0) (a 1)
  | .volume => .volume h (a 0) (a 1)
  | .mute => .mute h (a 0)
  | .dialogueLift => .dialogueLift h (a 0)
  | .lipsync => .lipsync h (a 0) (a 1)
  | .outletAssign => .outletAssign h (a 0) (a 1) (a 2) (a 3)
  | .outletSet => .outletSet h (flagIn f 0) (flagIn f 1) (a 0) (a 1)
  | .outletClear => .outletClear h
  | .triggerSet => .triggerSet h (a 0) (a 1) (a 2) (a 3)
  | .measure => .measure h (a 0) (a 1) (a 2) (a 3) (a 4) (a 5) (a 6) (flagIn f 0) (a 7) (a 8)
  | .measureCancel => .measureCancel h (a 0)
  | .tunerSetup => .tunerSetup h (a 0) (a 1) (a 2)
  | .tune => .tune h (a 0) (a 1) (a 2)
  | .seek => .seek h (a 0)
  | .scan => .scan h (a 0)
  | .presetStore => .presetStore h (a 0) (a 1) (a 2) (a 3) (nameAt p 16)
  | .presetRecall => .presetRecall h
  | .presetClear => .presetClear h
  | .testSignal => .testSignal h (a 0) (a 1) (a 2) (a 3)
  | .calibrate =>
    let n := (listAt p).length
    .calibrate h (listAt p) (fieldAt p (4 + n)) (fieldAt p (8 + n)) (fieldAt p (12 + n)) (flagIn f 0)
  | .calAbort => .calAbort h
  | .wakeTable => .wakeTable h (a 0) (a 1)
  | .wakeLock => .wakeLock h
  | .resumeSet => .resumeSet h (a 0)
  | .idleSet => .idleSet h (a 0) (a 1)
  | .idleExpire => .idleExpire h
  | .standbyNow => .standbyNow h
  | .indicatorSet => .indicatorSet h (a 0) (a 1)

/-- The head of the order in a slot. -/
def slotHead (slot : Fin 32) (l : List Byte) : OrderHead where
  slot := slot
  ticket := BitVec.ofNat 32 (leNat ((l.drop 4).take 4))
  target := byteIn l 2

/-- The order that a slot's bytes hold; absent where the kind code is none of the order kinds (R189 step 4). -/
def readSlot (slot : Fin 32) (l : List Byte) : Option Instr :=
  (OrderKind.ofKindByte (byteIn l 1)).map (orderOf (slotHead slot l) (byteIn l 3) ((l.drop 8).take 56))

end Sys2Proof.Machine
end

