-- ==== Sys2Proof/Machine/Taking.lean ====
section
/-! DEFINITION. Taking one order (R189 steps 4 to 6): the target check, the list of orders in flight, the hand-over to the
owner, and the next ticket. -/

namespace Sys2Proof.Machine

/-- The ticket that follows another: after 0xFFFFFFFF it is 1 (R189 step 6). -/
def nextTicket (t : Word) : Word := if t = 0xFFFFFFFF then 1 else t + 1

/-- A slot refused by WIN itself: its order never enters the list of orders in flight (R189 steps 3 and 4). -/
def Chip.refuseSlot (c : Chip) (slot : Fin 32) (ticket : Word) (code : ResultCode) : Chip :=
  c.updEv fun e =>
    { e with
      ends := e.ends ++ [{ ticket := ticket, slot := slot, accepted := false, refused := true, code := code,
                           clamped := false, listFull := false, values := [] }]
      dirty := 0 :: e.dirty }

/-- The list of orders in flight is full (R189 step 4). -/
def Chip.ordersFull (c : Chip) : Bool := decide (32 ≤ c.win.inFlight.length)

/-- An order that is handed to its owner stands in the list of orders in flight until it ends (R189 steps 4 and 5). -/
def Chip.addInFlight (c : Chip) (k : OrderKind) (h : OrderHead) : Chip :=
  c.updWin fun w => { w with inFlight := w.inFlight ++ [{ ticket := h.ticket, slot := h.slot, kind := k, accepted := false }] }

/-- A zone-targeted order restarts the zone's idle timer, whatever its result (R182). -/
def Chip.touchIdle (c : Chip) (k : OrderKind) (h : OrderHead) : Chip :=
  if k.zoneTargeted && k.targetOk h.target.toNat then c.restartIdle (zoneOf h.target) else c

/-- NT advances past a ticket (R189 step 6). -/
def Chip.advance (c : Chip) (ticket : Word) : Chip := c.updWin fun w => { w with nextTicket := nextTicket ticket }

/-- WIN takes one order, `f` being what its owner does (R189 steps 4 to 6). -/
def Chip.takeOrder (c : Chip) (k : OrderKind) (h : OrderHead) (f : Chip → Chip) : Chip :=
  let c := c.touchIdle k h
  let c := if !k.targetOk h.target.toNat then c.refuseSlot h.slot h.ticket .badTarget
    else if c.ordersFull then c.refuseSlot h.slot h.ticket .busy
    else f (c.addInFlight k h)
  c.advance h.ticket

/-- Ticket `a` lies at or below ticket `b` in ticket order (R189). -/
def atOrBelow (a b : Word) : Bool := decide ((b - a).toNat < 2147483648)

/-- Intake takes the order of a ticket: it runs, the ticket is not 0 and not below NT (R189), and no order in flight has it
(log 3). -/
def Chip.takesOrder (c : Chip) (ticket : Word) : Bool :=
  c.intakeOpen && ticket != 0 && atOrBelow c.win.nextTicket ticket && !c.win.inFlight.any fun e => e.ticket == ticket

/-- The gap rule: ORDER_GAP is incremented, and NT becomes the nearest posted ticket above it, if there is one, or goes past POST
(R190). -/
def gapTo (next : Option Word) (c : Chip) : Chip :=
  c.updWin fun w => { w with orderGap := w.orderGap + 1, nextTicket := next.getD (nextTicket w.post) }

/-- The host fills a slot (R189). -/
def State.fillSlot (s : State) (p : Posting) : State :=
  { s with dram := s.dram.write (s.chip.slotAt p.head.slot) p.bytes }

/-- Where the posted ticket lies above NT, the tickets between are a gap (R190). -/
def State.skipTo (s : State) (ticket : Word) : State :=
  if ticket = s.chip.win.nextTicket then s else s.run (gapTo (some ticket))

/-- An order command: the host fills the order's slot and posts its ticket, the next one that is posted; intake goes to it, with a gap
where NT lies below it, and takes it (R189, R190, log 3). -/
def State.order (s : State) (i : Instr) (f : Chip → Chip) : State :=
  match posting i with
  | none => s
  | some p =>
    if s.chip.takesOrder p.head.ticket then
      ((s.fillSlot p).skipTo p.head.ticket).run fun c => c.takeOrder p.kind p.head f
    else s

end Sys2Proof.Machine
end

