-- ==== Sys2Proof/Machine/Orders.lean ====
section
/-! DEFINITION. The 36 orders (12 section 12.7): what each owner does with its order, and the order's command. -/

namespace Sys2Proof.Machine

/-! ### Zone Controller -/

/-- ZONE_POWER (R4): ON is code 0, OFF code 1 (log 9). -/
def effectZonePower (h : OrderHead) (power : Int) (c : Chip) : Chip :=
  if power = 0 then c.powerOn (zoneOf h.target) h.ticket
  else if power = 1 then c.powerOff (zoneOf h.target) h.ticket
  else c.refuse h.ticket .badParam

/-- ZONE_SOURCE (R12). -/
def effectZoneSource (h : OrderHead) (source : Int) (c : Chip) : Chip :=
  match ofCode allSources source with
  | some s => c.zoneSource (zoneOf h.target) h.ticket s
  | none => c.refuse h.ticket .badParam

/-- New announcement settings: evaluation starts from READY when the source or the route has changed (R15). -/
def Zone.setAnnounce (x : Zone) (a : AnnSettings) : Zone :=
  { x with ann := a,
           annState := if x.ann.source = a.source ∧ x.ann.route = a.route then x.annState else .ready }

/-- ANNOUNCE (R15). -/
def effectAnnounce (h : OrderHead) (enable : Bool) (source duck level route : Int) (c : Chip) : Chip :=
  match ofCode [(0 : StreamId), 1] source, ofCode AnnRoute.routes route with
  | some m, some r =>
    let a := { enable := enable, source := m, duck := clampInt (-40) 0 duck, level := clampInt (-160) 0 level, route := r }
    (c.updZone (zoneOf h.target) fun x => x.setAnnounce a).done h.ticket
      (isOutside (-40) 0 duck || isOutside (-160) 0 level) []
  | _, _ => c.refuse h.ticket .badParam

/-! ### Source Front End -/

/-- The offer and offer reason of a link port (R39, R40). -/
def Chip.offerValues (c : Chip) (s : SourceId) : List ResultValue :=
  [.num (codeOf Format.all (c.offerOf s).1), .num (codeOf OfferReason.all (c.offerOf s).2)]

/-- The reported active format of a profile: absent, or one of the five formats (R39). -/
def activeParam (v : Int) : Option (Option Format) :=
  if v = absent then some none else (ofCode Format.all v).map some

/-- The carriage class stored (R39); outside 1 to 4 with carriage-valid clear, a free value (log 16). -/
def classStored (v : Int) : Nat :=
  if 1 ≤ v ∧ v ≤ 4 then v.toNat else (Config.invalidCarriageClass v).val + 1

/-- SOURCE_PROFILE (R39). -/
def effectSourceProfile (h : OrderHead) (formatsValid : Bool) (supported : BitVec 5) (active : Int)
    (carriageValid : Bool) (carriageClass : Int) (c : Chip) : Chip :=
  match activeParam active with
  | some a =>
    if carriageValid ∧ isOutside 1 4 carriageClass then c.refuse h.ticket .badParam
    else
      let s := sourceOf h.target
      let c := c.updSource s fun x =>
        { x with profile := { formatsValid := formatsValid, supported := supported, active := a,
                              carriageValid := carriageValid, carriageClass := classStored carriageClass } }
      c.done h.ticket false (c.offerValues s)
  | none => c.refuse h.ticket .badParam

/-- SOURCE_POLICY (R40). -/
def effectSourcePolicy (h : OrderHead) (preferPcm enable : Bool) (c : Chip) : Chip :=
  let s := sourceOf h.target
  let c := c.setPolicy s preferPcm enable
  c.done h.ticket false (if linkPort s then c.offerValues s else [])

/-- The stream that a target names: 13 is M1, 14 is M2 (R34). -/
def streamTarget (target : Byte) : StreamId := if target.toNat = 13 then 0 else 1

/-- The mark pair and the buffer lie in the free area, apart from the other stream's (R34). -/
def Chip.streamPlaced (c : Chip) (m : StreamId) (offset size : Int) : Bool :=
  decide (32768 ≤ offset - 8) && decide (offset + size ≤ c.windowBytes)
    && !(c.streams[otherStream m]).overlaps offset size

/-- STREAM_SETUP (R34). -/
def effectStreamSetup (h : OrderHead) (offset size format rate : Int) (mem : Mem) (c : Chip) : Chip :=
  let m := streamTarget h.target
  if !c.streams[m].stopped then c.refuse h.ticket .busy
  else if !streamShape offset size then c.refuse h.ticket .badParam
  else match streamSettings m format rate with
    | none => c.refuse h.ticket .badParam
    | some (f, r) =>
      if !c.streamPlaced m offset size then c.refuse h.ticket .badReference
      else (c.startStream mem m offset.toNat size.toNat f r).done h.ticket false []

/-- STREAM_STOP (R38). -/
def effectStreamStop (h : OrderHead) (c : Chip) : Chip := (c.stopStream (streamTarget h.target)).done h.ticket false []

/-! ### Render Matrix -/

/-- A data block lies inside the free area of the window (R63, R180). -/
def Chip.blockInside (c : Chip) (offset length : Int) : Bool :=
  decide ((Config.freeArea : Int) ≤ offset) && decide (0 ≤ length) && decide (offset + length ≤ c.windowBytes)

/-- The bytes of a data block. -/
def Chip.block (c : Chip) (mem : Mem) (offset length : Int) : List Byte := mem.bytes (c.base + offset.toNat) length.toNat

/-- A frequency field of a parameter set: the nearer end of its range, then the nearest 10 Hz step, halves up (R63). -/
def stepHz (lo : Nat) (b : Byte) : Nat := ((clampInt lo 150 (b.toNat : Int)).toNat + 5) / 10 * 10

/-- A parameter set of a layout block, from byte `i` on (R63). -/
def setOf (l : List Byte) (i : Nat) : ParamSet where
  crossover := stepHz 40 (byteIn l i)
  lfe := stepHz 80 (byteIn l (i + 1))
  toFronts := flagOf (byteIn l (i + 2))

/-- A frequency of the parameter set at byte `i` was adjusted (R63). -/
def setAdjusted (l : List Byte) (i : Nat) : Bool :=
  stepHz 40 (byteIn l i) != (byteIn l i).toNat || stepHz 80 (byteIn l (i + 1)) != (byteIn l (i + 1)).toNat

def sizeParam (b : Byte) : Option SpeakerSize := if b = 0 then some .large else if b = 1 then some .small else none

/-- Entry `i` of a layout block; absent where a code is invalid (R63). -/
def layoutEntry (l : List Byte) (i : Nat) : Option (Position × SpeakerSize) :=
  match ofCode Position.all (byteIn l (7 + 2 * i)).toNat, sizeParam (byteIn l (8 + 2 * i)) with
  | some p, some s => some (p, s)
  | _, _ => none

/-- The position list of a layout block for a zone; absent where a check fails (R63). -/
def layoutOf (z : ZoneId) (l : List Byte) : Option (List (Position × SpeakerSize)) :=
  let n := (byteIn l 0).toNat
  if l.length ≠ 7 + 2 * n ∨ n = 0 ∨ layoutLimit z < n then none
  else match (List.range n).mapM (layoutEntry l) with
    | none => none
    | some e => if (e.map (·.1)).Nodup then some e else none

/-- NO_LFE_FOR_SMALL of a position list (R63). -/
def noLfeFor (l : List (Position × SpeakerSize)) : Bool :=
  (l.any fun e => e.2 == .small) && !l.any fun e => isLfe e.1

def ParamSet.values (p : ParamSet) : List ResultValue := [.num p.crossover, .num p.lfe, .num (boolCode p.toFronts)]

/-- LAYOUT_LOAD (R63, R64). -/
def effectLayoutLoad (h : OrderHead) (offset length : Int) (mem : Mem) (c : Chip) : Chip :=
  if !c.blockInside offset length then c.refuse h.ticket .badReference
  else
    let z := zoneOf h.target
    let l := c.block mem offset length
    match layoutOf z l with
    | none => c.refuse h.ticket .badParam
    | some e =>
      let c := c.updCtx z fun x => { x with layout := e, full := setOf l 1, reduced := setOf l 4, noLfe := noLfeFor e }
      let c := (c.evalUnusedIn z).nameZone z
      c.done h.ticket (setAdjusted l 1 || setAdjusted l 4)
        (.num (boolCode (noLfeFor e)) :: (setOf l 1).values ++ (setOf l 4).values)

/-- A mute map with one mark set or cleared (R67). -/
def markMap (map : BitVec 20) (p : Position) (muted : Bool) : BitVec 20 :=
  if muted then map ||| (1#20 <<< posBit p) else map &&& ~~~(1#20 <<< posBit p)

/-- POSITION_MUTE (R67): MUTED is code 0, UNMUTED code 1 (log 9). -/
def effectPositionMute (h : OrderHead) (position state : Int) (c : Chip) : Chip :=
  match ofCode Position.all position, ofCode [true, false] state with
  | some p, some muted =>
    let c := c.updCtx (zoneOf h.target) fun x => { x with muteMap := markMap x.muteMap p muted }
    c.done h.ticket false [.num c.ctxs[zoneOf h.target].muteMap.toNat]
  | _, _ => c.refuse h.ticket .badParam

/-! ### Level Unit -/

/-- What a VOLUME order asks for: ABSOLUTE is code 0, RELATIVE code 1 (R91, log 9). -/
def volumeAsked (stored mode value : Int) : Int := if mode = 0 then value else stored + value

/-- VOLUME (R91). -/
def effectVolume (h : OrderHead) (mode value : Int) (c : Chip) : Chip :=
  if mode = 0 ∨ mode = 1 then
    let z := zoneOf h.target
    let v := volumeAsked c.zones[z].volume mode value
    let c := c.updZone z fun x => { x with volume := clampInt (-160) 30 v }
    c.done h.ticket (isOutside (-160) 30 v) [.num c.zones[z].volume, .num (boolCode c.zones[z].muted)]
  else c.refuse h.ticket .badParam

/-- MUTE (R92): MUTED is code 0, UNMUTED code 1 (log 9). -/
def effectMute (h : OrderHead) (state : Int) (c : Chip) : Chip :=
  match ofCode [true, false] state with
  | some muted =>
    let z := zoneOf h.target
    let c := c.updZone z fun x => { x with muted := muted }
    c.done h.ticket false [.num (boolCode c.zones[z].muted), .num c.zones[z].volume]
  | none => c.refuse h.ticket .badParam

/-- DIALOGUE_LIFT (R93). -/
def effectDialogueLift (h : OrderHead) (value : Int) (c : Chip) : Chip :=
  (c.updZone (zoneOf h.target) fun x => { x with lift := clampInt 0 12 value }).done h.ticket (isOutside 0 12 value)
    [.num (clampInt 0 12 value)]

/-! ### Delay Alignment Unit -/

/-- The nine result values of LIPSYNC (R108). -/
def Chip.lipsyncValues (c : Chip) (z : ZoneId) : List ResultValue :=
  let a := c.aligns[z]
  [.num c.zones[z].videoLatency, .num c.zones[z].userOffset, .num a.requested, .num a.lip, .num a.granted,
   .num (boolCode a.pending), .num (boolCode a.lipsyncShort), .num (boolCode a.alignDropped), .num (boolCode a.lateAudio)]

/-- LIPSYNC (R108): the round is run before the order completes, and with it a switch that falls within the event (log 50). -/
def effectLipsync (h : OrderHead) (latency offset : Int) (c : Chip) : Chip :=
  let z := zoneOf h.target
  let c := c.updZone z fun x =>
    { x with videoLatency := clampInt 0 500 latency, userOffset := clampInt (-100) 400 offset }
  let c := (c.nameZone z).work
  c.done h.ticket (isOutside 0 500 latency || isOutside (-100) 400 offset) (c.lipsyncValues z)

/-! ### Outlet Drive and Protection -/

/-- The first failing check of an OUTLET_ASSIGN whose codes are valid (R114). -/
def Chip.assignRefusal (c : Chip) (o : OutletId) (p a : Option Assignment) : Option ResultCode :=
  if a.isSome ∧ p.isNone then some .badParam
  else if a.isSome ∧ a.map Assignment.zone = p.map Assignment.zone then some .badParam
  else if c.assignmentTaken o p || c.assignmentTaken o a then some .badParam
  else if c.outlets[o].pendingAssign.isSome then some .busy
  else none

/-- OUTLET_ASSIGN (R114). -/
def effectOutletAssign (h : OrderHead) (primaryZone primaryPos alternateZone alternatePos : Int) (c : Chip) : Chip :=
  let o := outletOf h.target
  match assignmentParam primaryZone primaryPos, assignmentParam alternateZone alternatePos with
  | some p, some a =>
    match c.assignRefusal o p a with
    | some code => c.refuse h.ticket code
    | none => c.assign h.ticket o p a
  | _, _ => c.refuse h.ticket .badParam

/-- The result values of OUTLET_SET (R116). -/
def Outlet.setValues (x : Outlet) : List ResultValue := [.num x.trim, .num x.distance]

/-- OUTLET_SET: one use of the apply path (R116). -/
def effectOutletSet (h : OrderHead) (trimValid distanceValid : Bool) (trim distance : Int) (c : Chip) : Chip :=
  let o := outletOf h.target
  let c := c.applyAll
    [{ outlet := o
       trim := if trimValid then some (clampInt (-24) 24 trim) else none
       distance := if distanceValid then some (clampInt 0 1800 distance).toNat else none }]
  c.done h.ticket ((trimValid && isOutside (-24) 24 trim) || (distanceValid && isOutside 0 1800 distance))
    c.outlets[o].setValues

/-- OUTLET_CLEAR (R124). -/
def effectOutletClear (h : OrderHead) (c : Chip) : Chip := c.clearOutlet h.ticket (outletOf h.target)

/-- A binding from its kind and index: NONE, ZONE, SOURCE (R125, R126). -/
def bindingParam (kind index : Int) : Option TriggerBinding :=
  if kind = 0 then some .none
  else if kind = 1 then (ofCode allZones index).map .zone
  else if kind = 2 then (ofCode allSources index).map .source
  else none

/-- The result values of TRIGGER_SET (R126). -/
def Trigger.values (t : Trigger) : List ResultValue :=
  [.num (bindingCode t.binding).1, .num (bindingCode t.binding).2, .num (boolCode t.activeLow),
   .num (boolCode t.openDrain), .num (boolCode t.asserted)]

/-- TRIGGER_SET (R126): the trigger is evaluated at once. -/
def effectTriggerSet (h : OrderHead) (kind index polarity drive : Int) (c : Chip) : Chip :=
  match bindingParam kind index, ofCode [false, true] polarity, ofCode [false, true] drive with
  | some b, some low, some open' =>
    let t := { binding := b, activeLow := low, openDrain := open', asserted := c.triggerAsserted b }
    (c.updTrigger (Fin.ofNat 4 h.target.toNat) fun _ => t).done h.ticket false t.values
  | _, _, _ => c.refuse h.ticket .badParam

/-! ### Interval Meter Unit -/

/-- The settings of a MEASURE whose codes are valid (R135). -/
def measureArming (a b : Edge) (bCount : Int) (ordered : Bool) (limit threshold : Int) : Arming where
  edgeA := a
  edgeB := b
  bCount := (clampInt 1 4096 bCount).toNat
  ordered := ordered
  limit := (clampInt 1 1000 limit).toNat
  threshold := clampInt (-60) (-20) threshold

/-- The first failing check of a MEASURE whose codes are valid (R135). -/
def Chip.measureRefusal (c : Chip) (q : Arming) : Option ResultCode :=
  if q.edgeA.source = .order ∧ q.edgeB.source = .order then some .badParam
  else if q.edgeB.source = .order ∧ q.ordered then some .badParam
  else if q.usesMic ∧ c.cal.run ≠ .idle then some .notNow
  else none

/-- MEASURE (R135). A refused claim completes the order with BUSY: the slot shows DONE (R191), without CLAMPED (log 51). -/
def effectMeasure (h : OrderHead) (aSource aIndex aPolarity bSource bIndex bPolarity bCount : Int) (ordered : Bool)
    (limit threshold : Int) (c : Chip) : Chip :=
  match edgeParam aSource aIndex aPolarity, edgeParam bSource bIndex bPolarity with
  | some a, some b =>
    let q := measureArming a b bCount ordered limit threshold
    let clamped := isOutside 1 4096 bCount || isOutside 1 1000 limit || isOutside (-60) (-20) threshold
    match c.measureRefusal q with
    | some code => c.refuse h.ticket code
    | none =>
      if c.refusesClaim (.win h.ticket) true then c.doneWith h.ticket .busy []
      else c.claimMeter { holder := .win h.ticket, arming := q, clamped := clamped } true
  | _, _ => c.refuse h.ticket .badParam

/-- MEASURE_CANCEL (R136): it completes after the MEASURE. For a withdrawn claim it has no result value (log 52). -/
def effectMeasureCancel (h : OrderHead) (ticket : Int) (c : Chip) : Chip :=
  let t : Word := BitVec.ofInt 32 ticket
  match c.meterOf (.win t) with
  | some m => (c.abortMeasure t).done h.ticket false [.num m.val]
  | none =>
    if c.claimQueued (.win t) then (c.abortMeasure t).done h.ticket false []
    else c.refuse h.ticket .notFound

/-! ### Radio tuner -/

/-- TUNER_SETUP (R142). -/
def effectTunerSetup (h : OrderHead) (region sFm sAm : Int) (c : Chip) : Chip :=
  match ofCode Region.all region with
  | none => c.refuse h.ticket .badParam
  | some r =>
    let fm := (clampInt 10 60 sFm).toNat
    let am := (clampInt 20 70 sAm).toNat
    let c := c.updTuner fun x => { x with sFm := fm, sAm := am }
    let c := if c.tuner.region = r then c else c.changeRegion r
    c.done h.ticket (isOutside 10 60 sFm || isOutside 20 70 sAm) [.num (codeOf Region.all r), .num fm, .num am]

/-- TUNE (R146). -/
def effectTune (h : OrderHead) (band frequency mode : Int) (c : Chip) : Chip :=
  match ofCode Band.all band, ofCode Mode.all mode with
  | some b, some m =>
    let f := normalise (c.tuner.grid b) frequency
    c.tuneTo { kind := .tune, ticket := h.ticket, clamped := (f : Int) != frequency } { band := b, freq := f, mode := m }
  | _, _ => c.refuse h.ticket .badParam

/-- SEEK (R148): UP is code 0, DOWN code 1 (log 9). -/
def effectSeek (h : OrderHead) (direction : Int) (c : Chip) : Chip :=
  match ofCode [true, false] direction with
  | none => c.refuse h.ticket .badParam
  | some up =>
    if c.tuner.state = .idle then c.refuse h.ticket .notNow
    else if c.tuner.state = .scanning then c.refuse h.ticket .busy
    else c.startSeek h.ticket up c.tuner.seekStart

/-- SCAN (R152). -/
def effectScan (h : OrderHead) (band : Int) (c : Chip) : Chip :=
  match ofCode Band.all band with
  | none => c.refuse h.ticket .badParam
  | some b => if c.tuner.state = .scanning then c.refuse h.ticket .busy else c.startScan h.ticket b

/-- The preset slot that a target names (R155). -/
def presetOf (target : Byte) : Fin 40 := Fin.ofNat 40 target.toNat

def Preset.values (p : Preset) : List ResultValue := p.station.values ++ [.name p.name]

/-- A preset slot is filled (R155); P9 is republished. -/
def Chip.storePreset (c : Chip) (h : OrderHead) (p : Preset) (clamped : Bool) : Chip :=
  ((c.updTuner fun x => { x with presets := x.presets.set (presetOf h.target) (some p) }).markPage 9).done h.ticket clamped
    p.values

/-- A name character (R155). -/
def nameChar (b : Byte) : Bool := decide (0x20 ≤ b.toNat) && decide (b.toNat ≤ 0x7E)

/-- Eight spaces (R155). -/
def spaces : Vector Byte 8 := Vector.replicate 8 0x20

/-- PRESET_STORE (R155): CURRENT is code 0, EXPLICIT code 1 (log 9). -/
def effectPresetStore (h : OrderHead) (kind band frequency mode : Int) (name : Vector Byte 8) (c : Chip) : Chip :=
  if kind = 0 then
    if c.tuner.state = .seeking ∨ c.tuner.state = .scanning then c.refuse h.ticket .notNow
    else c.storePreset h { station := c.tuner.station, name := c.tuner.ds.accepted.getD spaces } false
  else if kind = 1 then
    match ofCode Band.all band, ofCode Mode.all mode with
    | some b, some m =>
      if name.toList.all nameChar then
        let f := normalise (c.tuner.grid b) frequency
        c.storePreset h { station := { band := b, freq := f, mode := m }, name := name } ((f : Int) != frequency)
      else c.refuse h.ticket .badParam
    | _, _ => c.refuse h.ticket .badParam
  else c.refuse h.ticket .badParam

/-- PRESET_RECALL (R156). -/
def effectPresetRecall (h : OrderHead) (c : Chip) : Chip :=
  match c.tuner.presets[presetOf h.target] with
  | none => c.refuse h.ticket .empty
  | some p =>
    let f := normalise (c.tuner.grid p.station.band) p.station.freq
    c.tuneTo { kind := .recall, ticket := h.ticket, clamped := f != p.station.freq } { p.station with freq := f }

/-- PRESET_CLEAR (R156). -/
def effectPresetClear (h : OrderHead) (c : Chip) : Chip :=
  (c.updTuner fun x => { x with presets := x.presets.set (presetOf h.target) none }).done h.ticket false []

/-! ### Test generator and calibration -/

/-- What a TEST_SIGNAL's mode and indices name; absent where a code or index is out of range (R161). -/
def testParam (mode outlet zone : Int) : Option (TestMode × OutletId × ZoneId) :=
  match ofCode TestMode.all mode with
  | some .off => some (.off, 0, 0)
  | some .fixed => (outletParam outlet).map fun o => (.fixed, o, 0)
  | some .walk => (ofCode allZones zone).map fun z => (.walk, 0, z)
  | none => none

/-- The zone of a FIXED or WALK test, where it is ON (R161). -/
def Chip.testZone (c : Chip) (mode : TestMode) (o : OutletId) (z : ZoneId) : Option ZoneId :=
  (if mode = .fixed then c.outlets[o].zone else some z).filter fun y => c.zones[y].power == .on

/-- TEST_SIGNAL (R161). Its result values are taken before a silent report of the hold that falls within the event (log 53). -/
def effectTestSignal (h : OrderHead) (mode outlet zone level : Int) (c : Chip) : Chip :=
  match testParam mode outlet zone with
  | none => c.refuse h.ticket .badParam
  | some (m, o, z) =>
    if c.cal.run ≠ .idle then c.refuse h.ticket .notNow
    else if m = .off then
      let c := c.endTest
      c.done h.ticket (isOutside (-80) 0 level) c.test.values
    else match c.testZone m o z with
      | none => c.refuse h.ticket .notNow
      | some y =>
        let c := c.setTest m y (if m = .fixed then some o else none) (clampInt (-80) 0 level)
        c.done h.ticket (isOutside (-80) 0 level) c.test.values

/-- The outlets of an outlet list; absent where the list is refused (R166). -/
def outletList (l : List Byte) : Option (List OutletId) :=
  if l.length = 0 ∨ 24 < l.length then none
  else match l.mapM fun b => outletParam b.toNat with
    | none => none
    | some os => if os.Nodup then some os else none

/-- The first failing check of a CALIBRATE whose list is well formed (R166). -/
def Chip.calRefusal (c : Chip) (z : ZoneId) (l : List OutletId) : Option ResultCode :=
  if c.cal.run ≠ .idle then some .busy
  else if c.zones[z].power ≠ .on then some .notNow
  else if !l.all fun o => c.outlets[o].zone == some z then some .badTarget
  else if c.refusesClaim .cal true then some .busy
  else none

/-- CALIBRATE ends every MEASURE in progress that selects MIC_CROSS (R166 step 2), in the order of `Chip.measures` (log 65). -/
def Chip.abortMicMeasures (c : Chip) : Chip :=
  (c.measures fun a b => a.source == .micCross || b.source == .micCross).foldl Chip.abortMeasure c

/-- CALIBRATE (R166). -/
def effectCalibrate (h : OrderHead) (outlets : List Byte) (bursts threshold target : Int) (apply : Bool) (c : Chip) : Chip :=
  match outletList outlets with
  | none => c.refuse h.ticket .badParam
  | some l =>
    let z := zoneOf h.target
    match c.calRefusal z l with
    | some code => c.refuse h.ticket code
    | none =>
      let th := clampInt (-60) (-20) threshold
      let c := c.endTest.abortMicMeasures
      let c := c.setRun fun _ => startRun h.ticket z l (clampInt 1 8 bursts).toNat th (clampInt (-50) (-10) target) apply
        (isOutside 1 8 bursts || isOutside (-60) (-20) threshold || isOutside (-50) (-10) target)
      match l with
      | [] => c
      | o :: _ => c.claimMeter { holder := .cal, arming := burstArming o th, clamped := false } true

/-- CAL_ABORT (R173). -/
def effectCalAbort (h : OrderHead) (c : Chip) : Chip :=
  match c.cal.ticket with
  | none => c.refuse h.ticket .notFound
  | some t => c.abortRun.done h.ticket false [.num t.toInt]

/-! ### Standby Block -/

/-- The action of a wake table entry (section 12.6). -/
def actionParam (code source : Nat) : Option WakeAction :=
  if code = 0 then some .wake
  else if code = 1 then some (.wakeWithSource (Fin.ofNat 16 (source % 16)))
  else if code = 2 then some .report
  else none

/-- The line of a wake table entry; the outer option is absent for an invalid code, the inner one for an empty entry
(section 12.6). -/
def lineParam (code : Nat) : Option (Option WakeLine) :=
  if code = 0 then some none else if code = 1 then some (some .ir) else if code = 2 then some (some .control) else none

/-- An entry of a wake table block: 8 bytes from byte `i` on; the outer option is absent where a code is invalid (R180). -/
def wakeEntryAt (l : List Byte) (i : Nat) : Option (Option WakeEntry) :=
  match lineParam (byteIn l i).toNat with
  | none => none
  | some none => some none
  | some (some line) =>
    let n := (byteIn l (i + 1)).toNat
    match actionParam (byteIn l (i + 6)).toNat (byteIn l (i + 7)).toNat with
    | none => none
    | some a =>
      if n = 0 ∨ 4 < n then none
      else some (some { line := line, bytes := (l.drop (i + 2)).take n, double := (byteIn l (i + 7)).getLsbD 7, action := a,
                        armed := none })

/-- The eight entries of a wake table block (R180). -/
def wakeEntries (l : List Byte) : Option (Vector (Option WakeEntry) 8) :=
  (Vector.ofFn fun i : Fin 8 => wakeEntryAt l (8 * i.val)).mapM id

/-- WAKE_TABLE (R180). -/
def effectWakeTable (h : OrderHead) (offset length : Int) (mem : Mem) (c : Chip) : Chip :=
  if c.sbb.wakeLock then c.refuse h.ticket .locked
  else if !c.blockInside offset length then c.refuse h.ticket .badReference
  else if length ≠ 68 then c.refuse h.ticket .badParam
  else
    let l := c.block mem offset length
    match wakeEntries l with
    | none => c.refuse h.ticket .badParam
    | some t =>
      let w : Int := (byteIn l 64).toNat
      (c.updSbb fun b =>
        { b with table := t, window := (clampInt 1 63 w).toNat, wakeInEnable := flagOf (byteIn l 65),
                 wakeInHigh := flagOf (byteIn l 66) }).done h.ticket (isOutside 1 63 w) []

/-- WAKE_LOCK (R180). -/
def effectWakeLock (h : OrderHead) (c : Chip) : Chip :=
  (c.updSbb fun b => { b with wakeLock := true }).done h.ticket false []

/-- RESUME_SET (R183): 8 is DISABLED. -/
def effectResumeSet (h : OrderHead) (k : Int) (c : Chip) : Chip :=
  if isOutside 0 8 k then c.refuse h.ticket .badParam
  else (c.updSbb fun b => { b with resume := ofCode (List.finRange 8) k }).done h.ticket false []

/-- The count that IDLE_SET stores (R182); below 0 a free value (log 16). -/
def idleCount (count : Int) : Nat :=
  if count < 0 then (Config.idleCountBelowZero count).val else if 255 < count then 255 else count.toNat

/-- IDLE_SET (R182): in ON the timer starts again at the new setting, or stops for 0. -/
def effectIdleSet (h : OrderHead) (count unit : Int) (c : Chip) : Chip :=
  match ofCode [false, true] unit with
  | none => c.refuse h.ticket .badParam
  | some seconds =>
    let z := zoneOf h.target
    let c := c.updIdle z fun i => { i with count := idleCount count, seconds := seconds }
    let c := if c.zones[z].power = .on then c.startIdle z else c
    c.done h.ticket (decide (255 < count)) []

/-- IDLE_EXPIRE (R182). -/
def effectIdleExpire (h : OrderHead) (c : Chip) : Chip :=
  let z := zoneOf h.target
  if c.zones[z].power = .on then (c.stopZone z .idle).done h.ticket false [] else c.refuse h.ticket .notNow

/-- The power state and the time left on the countdown (R176), in whole milliseconds rounded down (log 60). -/
def Standby.sleepValues (b : Standby) : List ResultValue :=
  [.num (codeOf PowerState.all b.power), .num ((b.sleepTimer.getD 0 / Config.samplesPerMs : Nat) : Int)]

/-- STANDBY_NOW (R176). -/
def effectStandbyNow (h : OrderHead) (c : Chip) : Chip :=
  let c := if c.sbb.power = .active then
      (allZones.foldl (fun c z => c.stopZone z .standby) c.abortRun).enterSleep
    else c
  c.done h.ticket false c.sbb.sleepValues

/-- INDICATOR_SET (R184). -/
def effectIndicatorSet (h : OrderHead) (function mode : Int) (c : Chip) : Chip :=
  match ofCode IndFunction.all function, ofCode IndMode.all mode with
  | some f, some m =>
    (c.updSbb fun b =>
      { b with indicators := b.indicators.set (zoneOf h.target)
                 { b.indicators[zoneOf h.target] with function := f, manual := m } }).done h.ticket false []
  | _, _ => c.refuse h.ticket .badParam

end Sys2Proof.Machine
end

