-- ==== Sys2Proof/Machine/Intake.lean ====
section
/-! DEFINITION. Intake (R189, R190): the orders posted in the slate, taken in ticket order, one event each (log 4). -/

namespace Sys2Proof.Machine

/-- What the owner of an order does with it; `mem` is the window as it stands when the order is taken. -/
def orderEffect (mem : Mem) : Instr → Chip → Chip
  | .zonePower h a => effectZonePower h a
  | .zoneSource h a => effectZoneSource h a
  | .announce h a b c d e => effectAnnounce h a b c d e
  | .sourceProfile h a b c d e => effectSourceProfile h a b c d e
  | .sourcePolicy h a b => effectSourcePolicy h a b
  | .streamSetup h a b c d => effectStreamSetup h a b c d mem
  | .streamStop h => effectStreamStop h
  | .layoutLoad h a b => effectLayoutLoad h a b mem
  | .positionMute h a b => effectPositionMute h a b
  | .volume h a b => effectVolume h a b
  | .mute h a => effectMute h a
  | .dialogueLift h a => effectDialogueLift h a
  | .lipsync h a b => effectLipsync h a b
  | .outletAssign h a b c d => effectOutletAssign h a b c d
  | .outletSet h a b c d => effectOutletSet h a b c d
  | .outletClear h => effectOutletClear h
  | .triggerSet h a b c d => effectTriggerSet h a b c d
  | .measure h a b c d e f g i j k => effectMeasure h a b c d e f g i j k
  | .measureCancel h a => effectMeasureCancel h a
  | .tunerSetup h a b c => effectTunerSetup h a b c
  | .tune h a b c => effectTune h a b c
  | .seek h a => effectSeek h a
  | .scan h a => effectScan h a
  | .presetStore h a b c d e => effectPresetStore h a b c d e
  | .presetRecall h => effectPresetRecall h
  | .presetClear h => effectPresetClear h
  | .testSignal h a b c d => effectTestSignal h a b c d
  | .calibrate h a b c d e => effectCalibrate h a b c d e
  | .calAbort h => effectCalAbort h
  | .wakeTable h a b => effectWakeTable h a b mem
  | .wakeLock h => effectWakeLock h
  | .resumeSet h a => effectResumeSet h a
  | .idleSet h a b => effectIdleSet h a b
  | .idleExpire h => effectIdleExpire h
  | .standbyNow h => effectStandbyNow h
  | .indicatorSet h a b => effectIndicatorSet h a b
  | _ => id

/-! ### The slate -/

/-- The bytes of a slot (section 12.6). -/
def State.slotBytes (s : State) (slot : Fin 32) : List Byte := s.dram.bytes (s.chip.slotAt slot) 128

/-- The ticket in a slot. -/
def State.slotTicket (s : State) (slot : Fin 32) : Word := s.dram.word (s.chip.slotAt slot + 4)

/-- The slots in state POSTED, in ascending order. -/
def State.posted (s : State) : List (Fin 32) := (List.finRange 32).filter fun n => s.dram.read (s.chip.slotAt n) == slotPosted

/-! ### One turn of intake -/

/-- The order of a slot, taken from its snapshot (R189 steps 2 and 4). -/
def takeSlot (mem : Mem) (slot : Fin 32) (l : List Byte) (c : Chip) : Chip :=
  match (readSlot slot l).bind fun i => (posting i).map fun p => (i, p) with
  | none => (c.refuseSlot slot (slotHead slot l).ticket .badKind).advance (slotHead slot l).ticket
  | some (i, p) => c.takeOrder p.kind p.head (orderEffect mem i)

/-- A further candidate is refused (R189 step 3). -/
def refuseDuplicate (ticket : Word) (c : Chip) (slot : Fin 32) : Chip :=
  (c.refuseSlot slot ticket .duplicateTicket).updWin fun w => { w with duplicate := w.duplicate + 1 }

/-- The nearer of two tickets above NT (R190). -/
def nearer (nt : Word) (a : Option Word) (t : Word) : Option Word :=
  match a with
  | none => some t
  | some u => if (t - nt).toNat < (u - nt).toNat then some t else some u

/-- The posted ticket nearest above NT that lies at or below POST (R190). A ticket of 0 is never found. -/
def State.nextPosted (s : State) : Option Word :=
  let nt := s.chip.win.nextTicket
  ((s.posted.map s.slotTicket).filter fun t =>
    t != 0 && t != nt && atOrBelow nt t && atOrBelow t s.chip.win.post).foldl (nearer nt) none

/-- One turn of intake: the refusal of an order's duplicates and then the order, or a gap; nothing where NT lies above POST or intake
does not run (R189). -/
def State.intakeTurn (s : State) : Option State :=
  let nt := s.chip.win.nextTicket
  if s.chip.intakeOpen && atOrBelow nt s.chip.win.post then
    match s.posted.filter fun n => s.slotTicket n == nt with
    | [] => some (s.run (gapTo s.nextPosted))
    | n :: others => some (s.run fun c => takeSlot s.dram n (s.slotBytes n) (others.foldl (refuseDuplicate nt) c))
  else none

/-- Each turn takes one of 32 slots or is a gap before one or behind the last, so 66 turns are enough (R189). -/
def intakeTurns : Nat := 66

/-- Intake, turn by turn (R189). -/
def State.intakeLoop : (fuel : Nat) → State → State
  | 0, s => s
  | fuel + 1, s =>
    match s.intakeTurn with
    | none => s
    | some t => State.intakeLoop fuel t

/-- Where intake runs, the stored POST is the last POST value taken (R189, R192). -/
def Chip.openIntake (c : Chip) : Chip := if c.intakeOpen then c.updWin fun w => { w with lastPost := w.post } else c

end Sys2Proof.Machine
end

