-- ==== Sys2Proof/WellFormed.lean ====
section
/-! DEFINITION. Which commands the outside can send: the bounds that the types of `Syntax` do not say. -/

namespace Sys2Proof

/-- A signed 32-bit parameter field (12 section 12.6). -/
def isField (p : Int) : Bool := decide (-2147483648 ≤ p) && decide (p ≤ 2147483647)

/-- Tickets are never 0 (R189). -/
def OrderHead.wellFormed (h : OrderHead) : Bool := h.ticket != 0

/-- Intake makes at most 66 turns: one for each of 32 slots, and a gap before each and behind the last (R189, R190). -/
def BusAccess.wellFormed : BusAccess → Bool
  | .intakeRead _ turns | .duplicateWrite _ turns _ | .blockRead _ turns | .intakeWrite _ turns _ => decide (turns < 66)
  | _ => true

/-- L1 to L6, D1, D2 and R are the nine clocked ports (R20). -/
def isClockedPort (s : SourceId) : Bool := decide (s.val ≤ 7) || s == 15

/-- L1 to L6 are the link ports (R20). -/
def isLinkPort (s : SourceId) : Bool := decide (s.val ≤ 5)

/-- The front end reads L from 0 to 100 and Q from 0 to 15 (R143). -/
def Reception.wellFormed (r : Reception) : Bool := decide (r.level ≤ 100) && decide (r.multipath ≤ 15)

/-- An edge that comes from outside: the bursts and the ORDER edges are the part's own (R128), and a port edge names a
clocked port. -/
def Edge.fromOutside (e : Edge) : Bool :=
  match e.source with
  | .outBurst _ => false
  | .order => false
  | .portFrame p => isClockedPort p
  | .portWclk p => isClockedPort p
  | .micCross => true
  | .edgeIn1 => true
  | .edgeIn2 => true

/-- An object's level as a stream carries it (R47). -/
def ObjDesc.wellFormed (d : ObjDesc) : Bool := decide (-160 ≤ d.level) && decide (d.level ≤ 0)

/-- Within a control-line frame the idle time between two bytes stays below 3 ms (R179). -/
def gapsFit (l : List ControlByte) : Bool := l.dropLast.all fun b => decide (b.gap < 3000)

/-- The check of every command: parameters are fields, tickets are not 0, ports are clocked ports, frames hold 1 to 4
bytes or are short enough, object levels and measurements lie in their ranges. -/
def Instr.wellFormed : Instr → Bool
  | .zonePower h p => h.wellFormed && isField p
  | .zoneSource h p => h.wellFormed && isField p
  | .announce h _ a b c d => h.wellFormed && isField a && isField b && isField c && isField d
  | .sourceProfile h _ _ a _ c => h.wellFormed && isField a && isField c
  | .sourcePolicy h _ _ => h.wellFormed
  | .streamSetup h a b c d => h.wellFormed && isField a && isField b && isField c && isField d
  | .streamStop h => h.wellFormed
  | .layoutLoad h a b => h.wellFormed && isField a && isField b
  | .positionMute h a b => h.wellFormed && isField a && isField b
  | .volume h a b => h.wellFormed && isField a && isField b
  | .mute h a => h.wellFormed && isField a
  | .dialogueLift h a => h.wellFormed && isField a
  | .lipsync h a b => h.wellFormed && isField a && isField b
  | .outletAssign h a b c d => h.wellFormed && isField a && isField b && isField c && isField d
  | .outletSet h _ _ a b => h.wellFormed && isField a && isField b
  | .outletClear h => h.wellFormed
  | .triggerSet h a b c d => h.wellFormed && isField a && isField b && isField c && isField d
  | .measure h a b c d e f g _ i j =>
      h.wellFormed && [a, b, c, d, e, f, g, i, j].all isField
  | .measureCancel h a => h.wellFormed && isField a
  | .tunerSetup h a b c => h.wellFormed && isField a && isField b && isField c
  | .tune h a b c => h.wellFormed && isField a && isField b && isField c
  | .seek h a => h.wellFormed && isField a
  | .scan h a => h.wellFormed && isField a
  | .presetStore h a b c d _ => h.wellFormed && isField a && isField b && isField c && isField d
  | .presetRecall h => h.wellFormed
  | .presetClear h => h.wellFormed
  | .testSignal h a b c d => h.wellFormed && isField a && isField b && isField c && isField d
  | .calibrate h l a b c _ => h.wellFormed && decide (l.length ≤ 40) && isField a && isField b && isField c
  | .calAbort h => h.wellFormed
  | .wakeTable h a b => h.wellFormed && isField a && isField b
  | .wakeLock h => h.wellFormed
  | .resumeSet h a => h.wellFormed && isField a
  | .idleSet h a b => h.wellFormed && isField a && isField b
  | .idleExpire h => h.wellFormed
  | .standbyNow h => h.wellFormed
  | .indicatorSet h a b => h.wellFormed && isField a && isField b
  | .controlRunSet => true
  | .controlRunClear => true
  | .controlSoftReset => true
  | .controlIrqEn _ => true
  | .post _ => true
  | .news _ => true
  | .registerWrite offset _ => offset == 4
  | .softResetTakesEffect => true
  | .busError a => a.wellFormed
  | .backupStart => true
  | .coldStart => true
  | .mainGoodRise => true
  | .mainGoodFall => true
  | .supplyTimeout => true
  | .sleepCountdownExpiry => true
  | .historySample => true
  | .irFrame l => decide (2 ≤ l.length)
  | .controlLineFrame l => decide (1 ≤ l.length) && gapsFit l
  | .wakeArmedExpiry _ => true
  | .wakeInAssertion => true
  | .idleTimerExpiry _ => true
  | .indicatorBlinkToggle _ => true
  | .zoneSettleExpiry _ => true
  | .zoneStopRampEnd _ => true
  | .sourceSwitchHoldSilent _ => true
  | .announceHoldExpiry _ => true
  | .zoneSignalDetect _ => true
  | .zoneSignalWindowExpiry _ => true
  | .sourceSignalDetect _ => true
  | .sourceSignalWindowExpiry _ => true
  | .portWclkFirstEdge p => isClockedPort p
  | .claimRetryExpiry p => isClockedPort p
  | .clockLoss p => isClockedPort p
  | .periodicCheckDue p => isClockedPort p
  | .preamble s _ => isClockedPort s || s == 13
  | .noPreambleCountExpiry s => isClockedPort s || s == 13
  | .portFrameStatusChange p lanes layout => isLinkPort p && decide (lanes ≤ 4) && decide (layout ≤ 7)
  | .formatChangeHoldSilent _ => true
  | .decodeRetryExpiry _ => true
  | .streamFillMarkRead _ => true
  | .streamUnderrun _ => true
  | .bitstreamFrame _ _ objects => decide (objects.length ≤ 16) && objects.all ObjDesc.wellFormed
  | .phaseTimerExpiry _ => true
  | .pathRampEnd _ _ => true
  | .regrantHoldSilent _ => true
  | .withdrawalEnd _ => true
  | .overcurrentAsserted _ => true
  | .overcurrentCleared _ => true
  | .tripRetryExpiry _ => true
  | .tripHistoryExpiry _ => true
  | .temperatureWarningChange _ _ => true
  | .tsdAsserted _ => true
  | .tsdCleared _ => true
  | .dcfAsserted _ => true
  | .dcfCleared _ => true
  | .meterEdge _ e => e.fromOutside
  | .meterLimitExpiry _ => true
  | .tunerSettleExpiry r => r.wellFormed
  | .tunerMeasurementDue r => r.wellFormed
  | .seekDwellEnd r => r.wellFormed
  | .scanDwellEnd r => r.wellFormed
  | .idGroup _ => true
  | .nameGroup _ _ => true
  | .textGroup _ _ _ => true
  | .testHoldSilent => true
  | .walkSoundingEnd => true
  | .walkGapEnd => true
  | .calibrationHoldSilent => true
  | .calBurstEnd => true
  | .calTimingStepExpiry => true
  | .calLevelStepExpiry _ => true

end Sys2Proof
end

