-- ==== Sys2Proof/Machine/Events.lean ====
section
/-! DEFINITION. The commands that are no orders: register writes, window faults, supplies, lines, timer expiries, silent
reports and arriving data. A timer's expiry lets the time pass that the timer still needs; a command whose timer, ramp or
condition is not there has no effect (log 2). -/

namespace Sys2Proof.Machine

/-! ### Registers (R186, R187, R193, R194, R196) -/

/-- Read the window size and start, or enter WINDOW_FAULT (R187). -/
def Chip.start (c : Chip) (mem : Mem) : Chip :=
  let size := (mem.word c.base).toNat
  if size < 64 ∨ 4096 < size then c.updWin fun w => { w with partState := .windowFault }
  else
    (c.updWin fun w =>
      { w with partState := .running, windowKiB := size, revisions := Vector.replicate 14 0 }).updEv
      fun e => { e with dirty := allPages }

/-- The event with which a write of RUN or POST begins intake, before its first turn; none where the write begins nothing (R186, R187,
R189). -/
def State.beginIntake (s : State) : IntakeStart → Option State
  | .post t =>
    let s' := { s with chip := s.chip.updWin fun w => { w with post := t } }
    if s'.chip.intakeOpen then some (s'.run Chip.openIntake) else none
  | .run =>
    if s.chip.mainUp then
      match s.chip.win.partState with
      | .ready | .windowFault => some (s.run fun c => (c.start s.dram).openIntake)
      | .halted => some (s.run fun c => (c.updWin fun w => { w with partState := .running }).openIntake)
      | .running => none
    else none

/-- The write of RUN = 1 (R186, R187). -/
def State.setRun (s : State) : State :=
  match s.beginIntake .run with
  | some t => State.intakeLoop intakeTurns t
  | none => s

def execControlRunSet (s : State) : Host.Outcome State Fault Refusal := .next s.setRun

/-- The write of RUN = 0 halts a RUNNING part (R194). -/
def Win.halt (w : Win) : Win := if w.partState = .running then { w with partState := .halted } else w

def execControlRunClear (s : State) : Host.Outcome State Fault Refusal := .next (s.runMain fun c => c.updWin Win.halt)

/-- The write of SOFT_RESET = 1: intake stops, a test ends, every path moves to silence (R81, R164, R196). -/
def Chip.beginReset (c : Chip) : Chip := (c.updWin fun w => { w with softReset := true }).endTest

def execControlSoftReset (s : State) : Host.Outcome State Fault Refusal := .next (s.runMain Chip.beginReset)

/-- A register write that changes nothing but its register, and writes nothing into the window; it is lost while the main domain is
held (R174, R186). -/
def State.writeRegister (s : State) (f : Win → Win) : State :=
  if s.chip.mainUp then { s with chip := s.chip.updWin f, last := none } else s

def execControlIrqEn (enable : Bool) (s : State) : Host.Outcome State Fault Refusal :=
  .next (s.writeRegister fun w => { w with irqEn := enable })

/-- The write of POST: stored in every state, and in RUNNING intake runs (R186, R189). -/
def State.writePost (s : State) (ticket : Word) : State :=
  match s.beginIntake (.post ticket) with
  | some t => State.intakeLoop intakeTurns t
  | none => s.writeRegister fun w => { w with post := ticket }

def execPost (ticket : Word) (s : State) : Host.Outcome State Fault Refusal := .next (s.writePost ticket)

/-- The write of NEWS clears each bit written as 1 (R193). -/
def Win.clearNews (w : Win) (mask : Word) : Win := { w with news := w.news &&& ~~~(mask.setWidth 14) }

def execNews (mask : Word) (s : State) : Host.Outcome State Fault Refusal :=
  .next (s.writeRegister fun w => w.clearNews mask)

/-- The write of WINDOW_BASE, taken in READY and WINDOW_FAULT; the low 16 bits are not stored (R186). -/
def Win.setBase (w : Win) (value : Word) : Win :=
  if w.partState = .ready ∨ w.partState = .windowFault then { w with windowBase := value &&& 0xFFFF0000 } else w

/-- REGISTER_WRITE: WINDOW_BASE is the one register that no other command writes; a write elsewhere has no effect
(log 27). -/
def execRegisterWrite (offset : Nat) (value : Word) (s : State) : Host.Outcome State Fault Refusal :=
  .next (if offset = 4 then s.writeRegister fun w => w.setBase value else s)

/-- Samples until every path of every zone is silent. -/
def Chip.samplesToQuiet (c : Chip) : Nat := allZones.foldl (fun n z => max n (c.ctxs[z].samplesToSilence fun _ => true)) 0

/-- A soft reset that has begun takes effect once every path is silent (R196). -/
def Chip.finishReset (c : Chip) : Chip :=
  if c.win.softReset then (c.passSamples c.samplesToQuiet).softReset else c

def execSoftResetTakesEffect (s : State) : Host.Outcome State Fault Refusal := .next (s.runMain Chip.finishReset)

/-! ### Window faults (R189, R195, log 14) -/

/-- The part enters WINDOW_FAULT: the orders in flight will end without a write, MEASURE orders are ended, streams stall (R38,
R195). -/
def Chip.enterFault (c : Chip) : Chip :=
  let c := c.updWin fun w =>
    { w with partState := .windowFault, inFlight := w.inFlight.map fun e => { e with lost := true } }
  ((c.measures fun _ _ => true).foldl Chip.abortMeasure c).freezeStreams

/-- Intake would make a turn now: it runs, and NT does not lie above POST (R189). -/
def State.intakeDue (s : State) : Bool := s.chip.intakeOpen && atOrBelow s.chip.win.nextTicket s.chip.win.post

/-- The order with ticket NT that intake would take now: its slot and the further candidates. -/
def State.candidate (s : State) : Option (Fin 32 × List (Fin 32)) :=
  if s.intakeDue then
    match s.posted.filter fun n => s.slotTicket n == s.chip.win.nextTicket with
    | [] => none
    | n :: others => some (n, others)
  else none

/-- The intake that a write begins, behind that many of its turns (R189). -/
def State.intakeAfter (s : State) (start : IntakeStart) (turns : Nat) : Option State :=
  (s.beginIntake start).map (State.intakeLoop turns)

/-- The further candidates for ticket NT in these slots are refused (R189 step 3). -/
def State.refuseOthers (s : State) (slots : List (Fin 32)) : State :=
  s.run fun c => slots.foldl (refuseDuplicate s.chip.win.nextTicket) c

/-- A slot read of intake fails: its order is not taken, and NT keeps its value (R189). -/
def State.readFails (s : State) : Option State := if s.intakeDue then some (s.run Chip.enterFault) else none

/-- The refusal of a further candidate for ticket NT fails: those before it are refused, its own end is counted as ORPHANED, and the
order is not taken, so that NT keeps its value (R189, R195). -/
def State.duplicateFails (s : State) (slot : Fin 32) : Option State :=
  match s.candidate with
  | none => none
  | some (_, others) =>
    if slot ∈ others then
      some ((s.refuseOthers (others.takeWhile (· ≠ slot))).run fun c => (c.updWin Win.orphan).enterFault)
    else none

/-- The order of a slot whose data block cannot be read: LAYOUT_LOAD and WAKE_TABLE read one, and their result is dropped
(R63, R195). -/
def blockFails (slot : Fin 32) (l : List Byte) : Option (Chip → Chip) :=
  match (readSlot slot l).bind posting with
  | none => none
  | some p =>
    if p.kind = .layoutLoad ∨ p.kind = .wakeTable then
      some fun c => c.takeOrder p.kind p.head fun c => c.refuse p.head.ticket .badReference
    else none

/-- The data block read of the order of ticket NT fails: its duplicates are refused, NT has advanced, and its end is counted as
ORPHANED (R63, R189, R195). -/
def State.blockReadFails (s : State) : Option State :=
  match s.candidate with
  | none => none
  | some (n, others) =>
    (blockFails n (s.slotBytes n)).map fun f => (s.refuseOthers others).run fun c => (f c).enterFault

/-! ### A write of the event just past (R188, R189, R191, R192, R195)

The writes of an event come in one order (`commit`). The one that failed and those behind it have not been made. -/

/-- What stands before the first element of a list that `p` holds for; none where it holds for none. -/
def listBefore {α : Type} (p : α → Bool) (l : List α) : Option (List α) :=
  if l.any p then some (l.takeWhile fun a => !p a) else none

/-- The part and the memory before the event's writes. -/
def Written.unwritten (x : Written) (c : Chip) : View :=
  (c.updWin fun w => { w with orphaned := x.orphaned, news := x.news, revisions := x.revisions }, x.dram)

/-- The ends of orders that a failed write leaves unwritten: each is counted as ORPHANED (R195). -/
def orphanRest (n : Nat) (v : View) : View := (v.1.updWin fun w => { w with orphaned := w.orphaned + BitVec.ofNat 32 n }, v.2)

/-- The refusals of further candidates, which come first (R189 step 3), and some of the marks. -/
def Written.marked (x : Written) (c : Chip) (l : List (Nat × Word)) : View :=
  l.foldl writeMark ((duplicatesOf x.ends).foldl writeEnd (x.unwritten c))

/-- The same with all marks, and some of the results (R34). -/
def Written.resulted (x : Written) (c : Chip) (l : List OrderEnd) : View := l.foldl writeEnd (x.marked c x.marks)

/-- A failed write that has all results but the first `n` behind it, or is the first of these itself (R195). -/
def Written.unresulted (x : Written) (n : Nat) (v : View) : View := orphanRest ((resultsOf x.ends).length - n) v

/-- The same with all results, and ACCEPTED in the slots of some orders. -/
def Written.accepted (x : Written) (c : Chip) (l : List InFlight) : View :=
  let v := x.resulted c (resultsOf x.ends)
  (v.1, l.foldl (writeAccepted v.1) v.2)

/-- The same for all the orders accepted, the header where the event wrote it, and some pages. -/
def Written.paged (x : Written) (c : Chip) (l : List PageId) : View :=
  let v := x.accepted c x.fresh
  l.foldl publish (if x.header then writeHeader v else v)

/-- A page left at its odd revision (R192). -/
def oddPage (p : PageId) (v : View) : View :=
  let c := v.1.updWin fun w => { w with revisions := w.revisions.set p (w.revisions[p] + 1) }
  (c, v.2.write (c.pageAt p) (le32Word c.win.revisions[p]))

/-- The writes of the event just past, up to the one that failed; none where the event made no such write. -/
def Written.upTo (x : Written) (c : Chip) : EventWrite → Option View
  | .mark m =>
    if c.streams[m].stopped then none
    else (listBefore (fun p => p.1 == c.streams[m].offset - 4) x.marks).map fun l => x.unresulted 0 (x.marked c l)
  | .result t => (listBefore (fun e => e.ticket == t) (resultsOf x.ends)).map fun l => x.unresulted l.length (x.resulted c l)
  | .accepted t => (listBefore (fun e => e.ticket == t) x.fresh).map (x.accepted c)
  | .header => if x.header then some (x.accepted c x.fresh) else none
  | .page p => (listBefore (fun q => q == p) x.pages).map fun l => oddPage p (x.paged c l)

/-- A write of the event just past has failed, and the part enters WINDOW_FAULT (R195). -/
def State.writeFails (s : State) (w : EventWrite) : Option State :=
  match s.last with
  | none => none
  | some x =>
    if s.chip.mainUp && s.chip.windowUp then
      (x.upTo s.chip w).map fun v => State.run { s with chip := v.1, dram := v.2 } Chip.enterFault
    else none

/-- A window access has ended in a bus error (R195); none where that access cannot be made now. -/
def State.accessFails (s : State) : BusAccess → Option State
  | .headerRead =>
    if s.chip.mainUp ∧ (s.chip.win.partState = .ready ∨ s.chip.win.partState = .windowFault) then
      some (s.run fun c => c.updWin fun w => { w with partState := .windowFault })
    else none
  | .intakeRead start turns => (s.intakeAfter start turns).bind State.readFails
  | .duplicateWrite start turns slot => (s.intakeAfter start turns).bind fun t => t.duplicateFails slot
  | .blockRead start turns => (s.intakeAfter start turns).bind State.blockReadFails
  | .intakeWrite start turns w => ((s.intakeAfter start turns).bind State.intakeTurn).bind fun t => t.writeFails w
  | .openingWrite start w => (s.beginIntake start).bind fun t => t.writeFails w
  | .written w => s.writeFails w
  | .stream m =>
    if s.chip.mainUp ∧ s.chip.windowUp ∧ ¬ s.chip.streams[m].stopped ∧ ¬ s.chip.streams[m].frozen then
      some (s.run Chip.enterFault)
    else none

def execBusError (access : BusAccess) (s : State) : Host.Outcome State Fault Refusal := .next ((s.accessFails access).getD s)

/-! ### Supplies (R174, R175, R177, R183) -/

/-- A backup start: the backup domain's values; VDD_AON was absent too, so the always-on state stands as a cold start sets it
and the main domain is held (R174, log 28). -/
def Chip.backupStart (c : Chip) : Chip := (c.updSbb fun b => b.coldStart.backupStart).mainHeld

def execBackupStart (s : State) : Host.Outcome State Fault Refusal := .next (s.run Chip.backupStart)

def execColdStart (s : State) : Host.Outcome State Fault Refusal := .next (s.run Chip.coldStart)

/-- The level of MAIN_GOOD. -/
def Chip.setMainGood (c : Chip) (level : Bool) : Chip := { c with pins := { c.pins with mainGood := level } }

/-- A rise of MAIN_GOOD: during a wake the main power-up runs (R175). -/
def Chip.mainGoodRise (c : Chip) : Chip :=
  let c := c.setMainGood true
  if c.sbb.power = .active ∧ c.sbb.supplyTimer.isSome then c.powerUp else c

def execMainGoodRise (s : State) : Host.Outcome State Fault Refusal :=
  .next (if s.chip.pins.mainGood then s else s.run Chip.mainGoodRise)

/-- A fall of MAIN_GOOD: outside STANDBY it takes the part there, with a final sample of OFF (R174, R175, R183, log 23). -/
def Chip.mainGoodFall (c : Chip) : Chip :=
  let c := c.setMainGood false
  if c.sbb.power = .standby then c else c.enterStandby false

def execMainGoodFall (s : State) : Host.Outcome State Fault Refusal :=
  .next (if s.chip.pins.mainGood then (s.runMain Chip.abortRun).run Chip.mainGoodFall else s)

/-- The supply timer expires before MAIN_GOOD rises (R175). -/
def Chip.supplyTimeout (c : Chip) : Chip :=
  if c.sbb.supplyTimer.isSome then (c.passTimer c.sbb.supplyTimer).enterStandby false else c

def execSupplyTimeout (s : State) : Host.Outcome State Fault Refusal := .next (s.run Chip.supplyTimeout)

/-- The countdown expires: a run in progress is aborted, then SBB enters STANDBY with its final sample (R172, R177, R183). -/
def State.sleepExpiry (s : State) : State :=
  if s.chip.sbb.sleepTimer.isSome then
    (s.run fun c => (c.passTimer c.sbb.sleepTimer).abortRun).run fun c => c.enterStandby c.zmOn
  else s

def execSleepCountdownExpiry (s : State) : Host.Outcome State Fault Refusal := .next s.sleepExpiry

/-- A history sample (R183). -/
def Chip.historySample (c : Chip) : Chip :=
  if c.sbb.historyTimer.isSome then
    let c := c.passTimer c.sbb.historyTimer
    c.updSbb fun b => { b.sample c.zmOn with historyTimer := some sampleTime }
  else c

def execHistorySample (s : State) : Host.Outcome State Fault Refusal := .next (s.run Chip.historySample)

/-! ### Lines of the Standby Block (R178, R179, R181, R182, R184) -/

/-- An IR frame has ended: decoded, it is taken with the time at which it began; otherwise it is discarded (R178). -/
def Chip.irFrame (c : Chip) (l : List Nat) : Chip :=
  match irDecode l with
  | some (bytes, f) => c.takeFrame .ir bytes (c.clock - usTicks (irAge f))
  | none => c

def execIrFrame (lengths : List Nat) (s : State) : Host.Outcome State Fault Refusal :=
  .next (s.run fun c => c.irFrame lengths)

/-- A control-line frame has ended (R179). -/
def Chip.controlFrame (c : Chip) (l : List ControlByte) : Chip :=
  match controlDecode l with
  | some bytes => c.takeFrame .control bytes (c.clock - usTicks (controlAge l))
  | none => c

def execControlLineFrame (bytes : List ControlByte) (s : State) : Host.Outcome State Fault Refusal :=
  .next (s.run fun c => c.controlFrame bytes)

def execWakeArmedExpiry (entry : Fin 8) (s : State) : Host.Outcome State Fault Refusal :=
  .next (s.run fun c => c.armedExpired entry)

def execWakeInAssertion (s : State) : Host.Outcome State Fault Refusal := .next (s.run Chip.wakeInAsserted)

/-- The idle timer of a zone expires (R182). -/
def Chip.idleExpired (c : Chip) (z : ZoneId) : Chip :=
  if c.sbb.idle[z].timer.isSome ∧ ¬ c.idleHeld z then (c.passTimer c.sbb.idle[z].timer).stopZone z .idle else c

def execIdleTimerExpiry (z : ZoneId) (s : State) : Host.Outcome State Fault Refusal :=
  .next (s.runMain fun c => c.idleExpired z)

/-- A blinking line toggles (R184). -/
def Chip.blinkToggle (c : Chip) (line : Fin 4) : Chip :=
  if c.sbb.indicators[line].timer.isSome then
    (c.passTimer c.sbb.indicators[line].timer).updSbb fun b =>
      { b with indicators := b.indicators.set line b.indicators[line].toggle }
  else c

def execIndicatorBlinkToggle (line : Fin 4) (s : State) : Host.Outcome State Fault Refusal :=
  .next (s.run fun c => c.blinkToggle line)

/-! ### Zones (R5, R8, R12, R16, R18) -/

/-- The settle period of a zone expires (R5 step 7). -/
def Chip.settleExpired (c : Chip) (z : ZoneId) : Chip :=
  if c.zones[z].settleTimer.isSome then (c.passTimer c.zones[z].settleTimer).settleZone z else c

def execZoneSettleExpiry (z : ZoneId) (s : State) : Host.Outcome State Fault Refusal :=
  .next (s.runMain fun c => c.settleExpired z)

/-- Every path of a stopping zone has reached silence (R8 step 2). -/
def Chip.stopRampEnd (c : Chip) (z : ZoneId) : Chip :=
  if c.zones[z].power = .stopping then
    (c.passSamples (c.ctxs[z].samplesToSilence fun _ => true)).finishStop z
  else c

def execZoneStopRampEnd (z : ZoneId) (s : State) : Host.Outcome State Fault Refusal :=
  .next (s.runMain fun c => c.stopRampEnd z)

/-- A hold of a zone becomes silent: its ramps run to their end, and the placer is told (R87). -/
def Chip.holdSilence (c : Chip) (z : ZoneId) (h : Hold) : Chip :=
  if h ∈ c.ctxs[z].holds then (c.passSamples (c.ctxs[z].samplesToSilence h.covers)).holdReport z h else c

def execSourceSwitchHoldSilent (z : ZoneId) (s : State) : Host.Outcome State Fault Refusal :=
  .next (s.runMain fun c => c.holdSilence z .sourceSwitch)

/-- The hold timer of an announcement expires (R16). -/
def Chip.announceExpired (c : Chip) (z : ZoneId) : Chip :=
  if c.zones[z].annHoldTimer.isSome then
    (c.passTimer c.zones[z].annHoldTimer).updZone z fun x => { x with annState := .ready, annHoldTimer := none }
  else c

def execAnnounceHoldExpiry (z : ZoneId) (s : State) : Host.Outcome State Fault Refusal :=
  .next (s.runMain fun c => c.announceExpired z)

/-- A sample above −60 dBFS at the input of a zone's rendering context (R18). -/
def Zone.signal (x : Zone) : Zone :=
  if x.binding.isSome then
    { x with signalWindow := some signalTime, signalPresent := x.signalPresent || x.programme == .playing }
  else x

def execZoneSignalDetect (z : ZoneId) (s : State) : Host.Outcome State Fault Refusal :=
  .next (s.runMain fun c => c.updZone z Zone.signal)

/-- The signal window of a zone runs out (R18). -/
def Chip.zoneWindowExpired (c : Chip) (z : ZoneId) : Chip :=
  if c.zones[z].signalWindow.isSome then
    (c.passTimer c.zones[z].signalWindow).updZone z fun x => { x with signalPresent := false, signalWindow := none }
  else c

def execZoneSignalWindowExpiry (z : ZoneId) (s : State) : Host.Outcome State Fault Refusal :=
  .next (s.runMain fun c => c.zoneWindowExpired z)

/-! ### Sources, streams and engines (02, 03) -/

/-- A sample above −60 dBFS of a source's programme (R33). -/
def Chip.sourceSignal (c : Chip) (s : SourceId) : Chip :=
  if c.sourceSounds s then c.updSource s fun x => { x with signalPresent := true, signalWindow := some signalTime } else c

def execSourceSignalDetect (src : SourceId) (s : State) : Host.Outcome State Fault Refusal :=
  .next (s.runMain fun c => c.sourceSignal src)

/-- The signal window of a source runs out (R33). -/
def Chip.sourceWindowExpired (c : Chip) (s : SourceId) : Chip :=
  if c.sources[s].signalWindow.isSome then
    (c.passTimer c.sources[s].signalWindow).updSource s fun x => { x with signalPresent := false, signalWindow := none }
  else c

def execSourceSignalWindowExpiry (src : SourceId) (s : State) : Host.Outcome State Fault Refusal :=
  .next (s.runMain fun c => c.sourceWindowExpired src)

/-- The first word-clock edge at a port without a signal (R23). As an edge for the meters (R128) it is a METER_EDGE of its own
(log 59). -/
def Chip.firstEdge (c : Chip) (p : SourceId) : Chip :=
  if clocked p && c.sources[p].state == .noSignal then
    (c.updSource p fun x => { x with state := .acquiring, phase := some .rate }).claimRate p
  else c

def execPortWclkFirstEdge (port : SourceId) (s : State) : Host.Outcome State Fault Refusal :=
  .next (s.runMain fun c => c.firstEdge port)

/-- A refused acquisition claim is made again (R23). -/
def Chip.claimAgain (c : Chip) (p : SourceId) : Chip :=
  if c.sources[p].claimRetry.isSome then (c.passTimer c.sources[p].claimRetry).claimRate p else c

def execClaimRetryExpiry (port : SourceId) (s : State) : Host.Outcome State Fault Refusal :=
  .next (s.runMain fun c => c.claimAgain port)

/-- A port's word clock has shown no edge for 10 ms (R26). -/
def Chip.clockLoss (c : Chip) (p : SourceId) : Chip := if clocked p then c.loseSignal p else c

def execClockLoss (port : SourceId) (s : State) : Host.Outcome State Fault Refusal :=
  .next (s.runMain fun c => c.clockLoss port)

/-- The periodic check of a port is due: a claim that does not wait (R27). -/
def Chip.checkDue (c : Chip) (p : SourceId) : Chip :=
  if c.sources[p].checkTimer.isSome then
    ((c.passTimer c.sources[p].checkTimer).updSource p fun x => { x with checkTimer := some checkPeriod }).claimMeter
      { holder := .sfeCheck p, arming := rateArming p, clamped := false } false
  else c

def execPeriodicCheckDue (port : SourceId) (s : State) : Host.Outcome State Fault Refusal :=
  .next (s.runMain fun c => c.checkDue port)

def execPreamble (src : SourceId) (code : Nat) (s : State) : Host.Outcome State Fault Refusal :=
  .next (s.runMain fun c => c.preambleSeen src code)

def execNoPreambleCountExpiry (src : SourceId) (s : State) : Host.Outcome State Fault Refusal :=
  .next (s.runMain fun c => c.noPreamble src)

def execPortFrameStatusChange (port : SourceId) (lanes layout : Nat) (s : State) : Host.Outcome State Fault Refusal :=
  .next (s.runMain fun c => c.frameStatus port lanes layout)

def execFormatChangeHoldSilent (z : ZoneId) (s : State) : Host.Outcome State Fault Refusal :=
  .next (s.runMain fun c => c.holdSilence z .formatChange)

/-- The retry timer of a source expires (R31). -/
def Chip.retryExpired (c : Chip) (s : SourceId) : Chip :=
  if c.sources[s].retryTimer.isSome then (c.passTimer c.sources[s].retryTimer).retryDecode s else c

def execDecodeRetryExpiry (src : SourceId) (s : State) : Host.Outcome State Fault Refusal :=
  .next (s.runMain fun c => c.retryExpired src)

def execStreamFillMarkRead (m : StreamId) (s : State) : Host.Outcome State Fault Refusal :=
  .next (s.runMain fun c => c.readFill s.dram m)

def execStreamUnderrun (m : StreamId) (s : State) : Host.Outcome State Fault Refusal :=
  .next (s.runMain fun c => c.underrun m)

/-- A frame arrives at an engine; a stalled stream carries none (R56, R60). -/
def Chip.frameArrives (c : Chip) (e : EngineId) (checkPasses : Bool) (objects : List ObjDesc) : Chip :=
  if c.engineFree e || c.sourceStalled c.engines[e].source then c else c.frame e checkPasses objects

def execBitstreamFrame (e : EngineId) (checkPasses : Bool) (objects : List ObjDesc) (s : State) :
    Host.Outcome State Fault Refusal :=
  .next (s.runMain fun c => c.frameArrives e checkPasses objects)

/-- The phase timer of an engine expires; it is held while the engine's stream is STALLED (R58, R60). -/
def Chip.phaseExpired (c : Chip) (e : EngineId) : Chip :=
  if c.engines[e].phaseTimer.isSome && !c.sourceStalled c.engines[e].source then
    (c.passTimer c.engines[e].phaseTimer).startFailure e
  else c

def execPhaseTimerExpiry (e : EngineId) (s : State) : Host.Outcome State Fault Refusal :=
  .next (s.runMain fun c => c.phaseExpired e)

/-! ### Levels, delays and outlets (05, 06, 07) -/

/-- A path's ramp runs to its end; a leaving path at silence is deleted there (R81, R85). -/
def Chip.rampEnd (c : Chip) (z : ZoneId) (id : PathId) : Chip :=
  match c.ctxs[z].paths.find? fun q => q.id == id with
  | some q => c.passSamples q.samplesLeft
  | none => c

def execPathRampEnd (z : ZoneId) (path : PathId) (s : State) : Host.Outcome State Fault Refusal :=
  .next (s.runMain fun c => c.rampEnd z path)

def execRegrantHoldSilent (z : ZoneId) (s : State) : Host.Outcome State Fault Refusal :=
  .next (s.runMain fun c => c.holdSilence z .regrant)

/-- Samples until no path reaches an outlet above silence, as the ramps stand. -/
def Chip.samplesToRelease (c : Chip) (o : OutletId) : Nat :=
  allZones.foldl (fun n z => c.ctxs[z].paths.foldl (fun n q =>
    if q.id.outlet = o ∧ Config.silence < q.applied then max n q.samplesLeft else n) n) 0

/-- A withdrawal ends when its outlet is silent (R113). -/
def Chip.withdrawalEnd (c : Chip) (o : OutletId) : Chip :=
  if c.outlets[o].placement = .lending ∨ c.outlets[o].placement = .reassigning then
    let c' := c.passSamples (c.samplesToRelease o)
    if c'.withdrawDone o then c'.endWithdraw o else c
  else c

def execWithdrawalEnd (o : OutletId) (s : State) : Host.Outcome State Fault Refusal :=
  .next (s.runMain fun c => c.withdrawalEnd o)

/-- The main domain acts on a line only while it is up (R174). -/
def Chip.whenUp (c : Chip) (f : Chip → Chip) : Chip := if c.mainUp then f c else c

def Chip.pinOc (c : Chip) (o : SpeakerId) (level : Bool) : Chip :=
  { c with pins := { c.pins with oc := c.pins.oc.set o level } }
def Chip.pinW (c : Chip) (g : GroupId) (w : Fin 4) : Chip := { c with pins := { c.pins with w := c.pins.w.set g w } }
def Chip.pinTsd (c : Chip) (g : GroupId) (level : Bool) : Chip :=
  { c with pins := { c.pins with tsd := c.pins.tsd.set g level } }
def Chip.pinDcf (c : Chip) (g : GroupId) (level : Bool) : Chip :=
  { c with pins := { c.pins with dcf := c.pins.dcf.set g level } }

def execOvercurrentAsserted (o : SpeakerId) (s : State) : Host.Outcome State Fault Refusal :=
  .next (s.run fun c => (c.pinOc o true).whenUp fun c => c.overcurrent (speakerOutlet o))

def execOvercurrentCleared (o : SpeakerId) (s : State) : Host.Outcome State Fault Refusal :=
  .next { s with chip := s.chip.pinOc o false }

/-- The retry timer of a tripped outlet expires (R121). -/
def Chip.tripRetryExpired (c : Chip) (o : OutletId) : Chip :=
  if c.outlets[o].retryTimer.isSome then
    ((c.passTimer c.outlets[o].retryTimer).updOutlet o fun x => { x with retryTimer := none }).retryOutlet o
  else c

def execTripRetryExpiry (o : OutletId) (s : State) : Host.Outcome State Fault Refusal :=
  .next (s.runMain fun c => c.tripRetryExpired o)

def execTripHistoryExpiry (o : OutletId) (s : State) : Host.Outcome State Fault Refusal :=
  .next (s.runMain fun c => c.expireTrip o)

def execTemperatureWarningChange (g : GroupId) (w : Fin 4) (s : State) : Host.Outcome State Fault Refusal :=
  .next (s.run fun c => (c.pinW g w).whenUp fun c => c.setWarning g w)

def execTsdAsserted (g : GroupId) (s : State) : Host.Outcome State Fault Refusal :=
  .next (s.run fun c => (c.pinTsd g true).whenUp fun c => c.assertTsd g)

def execTsdCleared (g : GroupId) (s : State) : Host.Outcome State Fault Refusal :=
  .next (s.run fun c => (c.pinTsd g false).whenUp fun c => c.clearTsd g)

def execDcfAsserted (g : GroupId) (s : State) : Host.Outcome State Fault Refusal :=
  .next (s.run fun c => (c.pinDcf g true).whenUp fun c => c.assertDcf g)

def execDcfCleared (g : GroupId) (s : State) : Host.Outcome State Fault Refusal :=
  .next (s.run fun c => (c.pinDcf g false).whenUp fun c => c.updGroup g fun x => { x with dcf := false })

/-! ### Meters (R130, R131) -/

/-- A meter's signal reaches its holder; CAL takes a second edge and ignores a limit (R24, R27, R135, R168). -/
def Chip.meterSignal (c : Chip) (m : MeterId) (h : Holder) : Chip :=
  if c.imu.meters[m].holder = some h then
    match h with
    | .sfeRate p => c.rateSignal m p
    | .sfeCheck p => c.checkSignal m p
    | .cal => c.updCal fun x => x.takeMeter c.imu.meters[m]
    | .win t => c.measureSignal m t
  else c

/-- An edge from outside, `after` meter ticks from now (R130); the part's own edges do not come from there (R128). A meter that a release
arms anew within the event does not take the edge (log 75). -/
def Chip.edge (c : Chip) (after : Nat) (e : Edge) : Chip :=
  if e.fromOutside then
    let c := c.passTicks after
    (c.closedBy e).foldl (fun c p => c.meterSignal p.1 p.2) (c.edgeAll e)
  else c

def execMeterEdge (after : Nat) (edge : Edge) (s : State) : Host.Outcome State Fault Refusal :=
  .next (s.runMain fun c => c.edge after edge)

/-- A running meter reaches its limit (R131). -/
def Chip.limitExpired (c : Chip) (m : MeterId) : Chip :=
  let x := c.imu.meters[m]
  if x.state = .armed ∨ x.state = .opened then
    let c := (c.passTicks (x.limitTicks - x.elapsed)).updMeter m Meter.overrun
    match x.holder with
    | some h => c.meterSignal m h
    | none => c
  else c

def execMeterLimitExpiry (m : MeterId) (s : State) : Host.Outcome State Fault Refusal :=
  .next (s.runMain fun c => c.limitExpired m)

/-! ### Tuner (09) -/

/-- The settle timer expires (R147). -/
def Chip.settleDone (c : Chip) (r : Reception) : Chip :=
  if c.tuner.state = .tuning then (c.passTimer c.tuner.timer).tunerSettled r else c

def execTunerSettleExpiry (r : Reception) (s : State) : Host.Outcome State Fault Refusal :=
  .next (s.runMain fun c => c.settleDone r)

/-- The next measurement while LISTENING (R143). -/
def Chip.measurementDue (c : Chip) (r : Reception) : Chip :=
  if c.tuner.state = .listening then (c.passTimer c.tuner.measTimer).updTuner fun x => x.measureDue r else c

def execTunerMeasurementDue (r : Reception) (s : State) : Host.Outcome State Fault Refusal :=
  .next (s.runMain fun c => c.measurementDue r)

/-- A seek dwell ends (R149). -/
def Chip.seekDwellEnd (c : Chip) (r : Reception) : Chip :=
  match c.tuner.state, c.tuner.seek, c.tuner.step with
  | .seeking, some (up, start), some f => (c.passTimer c.tuner.timer).seekDwell up start f r
  | _, _, _ => c

def execSeekDwellEnd (r : Reception) (s : State) : Host.Outcome State Fault Refusal :=
  .next (s.runMain fun c => c.seekDwellEnd r)

/-- A scan dwell ends (R153). -/
def Chip.scanDwellEnd (c : Chip) (r : Reception) : Chip :=
  match c.tuner.state, c.tuner.step with
  | .scanning, some f => (c.passTimer c.tuner.timer).scanDwell f r
  | _, _ => c

def execScanDwellEnd (r : Reception) (s : State) : Host.Outcome State Fault Refusal :=
  .next (s.runMain fun c => c.scanDwellEnd r)

/-- A group is discarded where it has an error that the decoder cannot correct, and unless the data service runs (R157). -/
def Chip.takeGroup {α : Type} (c : Chip) (content : Option α) (f : Chip → α → Chip) : Chip :=
  match content with
  | none => c
  | some v => if c.tuner.dataRuns then f c v else c

def execIdGroup (identity : Option (BitVec 16)) (s : State) : Host.Outcome State Fault Refusal :=
  .next (s.runMain fun c => c.takeGroup identity fun c v => c.updTuner fun x => { x with ds := x.ds.id v })

def execNameGroup (segment : Fin 4) (chars : Option (Vector Byte 2)) (s : State) : Host.Outcome State Fault Refusal :=
  .next (s.runMain fun c => c.takeGroup chars fun c v => c.takeName segment v)

def execTextGroup (segment : Fin 16) (flip : Bool) (chars : Option (Vector Byte 4)) (s : State) :
    Host.Outcome State Fault Refusal :=
  .next (s.runMain fun c => c.takeGroup chars fun c v => c.takeText segment flip v)

/-! ### Test generator and calibration (10) -/

/-- The TEST hold becomes silent: the signal starts (R161). -/
def Chip.testHoldSilent (c : Chip) : Chip :=
  match c.test.zone with
  | some z => if c.test.started then c else c.holdSilence z .test
  | none => c

def execTestHoldSilent (s : State) : Host.Outcome State Fault Refusal := .next (s.runMain Chip.testHoldSilent)

/-- The walk timer expires in SOUNDING (R163). -/
def Chip.soundingEnd (c : Chip) : Chip :=
  if c.test.phase = some .sounding ∧ c.test.timer.isSome then (c.passTimer c.test.timer).updTest TestRec.toGap else c

def execWalkSoundingEnd (s : State) : Host.Outcome State Fault Refusal := .next (s.runMain Chip.soundingEnd)

/-- The walk timer expires in GAP (R163). -/
def Chip.gapEnd (c : Chip) : Chip :=
  match c.test.zone with
  | some z => if c.test.phase = some .gap ∧ c.test.timer.isSome then (c.passTimer c.test.timer).walkStep z else c
  | none => c

def execWalkGapEnd (s : State) : Host.Outcome State Fault Refusal := .next (s.runMain Chip.gapEnd)

/-- The CALIBRATION hold becomes silent (R167). -/
def Chip.calHoldSilent (c : Chip) : Chip :=
  match c.cal.zone with
  | some z => if c.cal.run = .muting then c.holdSilence z .calibration else c
  | none => c

def execCalibrationHoldSilent (s : State) : Host.Outcome State Fault Refusal := .next (s.runMain Chip.calHoldSilent)

/-- A tone burst ends after its 5 ms (R128, R168). -/
def Chip.burstEnd (c : Chip) : Chip :=
  match c.cal.burst with
  | some o =>
    ((c.passTimer c.cal.burstTimer).updCal fun x => { x with burst := none, burstTimer := none }).burstEdge o false
  | none => c

def execCalBurstEnd (s : State) : Host.Outcome State Fault Refusal := .next (s.runMain Chip.burstEnd)

/-- The step timer expires in the timing step (R168). -/
def Chip.timingStepEnd (c : Chip) : Chip :=
  match c.cal.measured, c.cal.place with
  | some (_, o), some p => if p.step = .timing then (c.passTimer c.cal.stepTimer).timingExpired p o else c
  | _, _ => c

def execCalTimingStepExpiry (s : State) : Host.Outcome State Fault Refusal := .next (s.runMain Chip.timingStepEnd)

/-- The step timer expires in the level step, with the level measured over its last 200 ms (R169). -/
def Chip.levelStepEnd (c : Chip) (level : Int) : Chip :=
  match c.cal.measured, c.cal.place with
  | some (i, _), some p => if p.step = .level then (c.passTimer c.cal.stepTimer).levelExpired i level else c
  | _, _ => c

def execCalLevelStepExpiry (level : Int) (s : State) : Host.Outcome State Fault Refusal :=
  .next (s.runMain fun c => c.levelStepEnd level)

end Sys2Proof.Machine
end

