-- ==== Sys2Proof/Machine/OrderCommands.lean ====
section
/-! DEFINITION. The commands of the 36 orders: the host posts the order, and WIN hands it to its owner (log 3). -/

namespace Sys2Proof.Machine

/-- The ZONE_POWER order. -/
def execZonePower (h : OrderHead) (power : Int) (s : State) :
    Host.Outcome State Fault Refusal :=
  .next (s.order (.zonePower h power) (effectZonePower h power))

/-- The ZONE_SOURCE order. -/
def execZoneSource (h : OrderHead) (source : Int) (s : State) :
    Host.Outcome State Fault Refusal :=
  .next (s.order (.zoneSource h source) (effectZoneSource h source))

/-- The ANNOUNCE order. -/
def execAnnounce (h : OrderHead) (enable : Bool) (source duck level route : Int) (s : State) :
    Host.Outcome State Fault Refusal :=
  .next (s.order (.announce h enable source duck level route) (effectAnnounce h enable source duck level route))

/-- The SOURCE_PROFILE order. -/
def execSourceProfile (h : OrderHead) (formatsValid : Bool) (supported : BitVec 5) (active : Int) (carriageValid :
      Bool) (carriageClass : Int) (s : State) :
    Host.Outcome State Fault Refusal :=
  .next (s.order (.sourceProfile h formatsValid supported active carriageValid carriageClass) (effectSourceProfile h
      formatsValid supported active carriageValid carriageClass))

/-- The SOURCE_POLICY order. -/
def execSourcePolicy (h : OrderHead) (preferPcm enable : Bool) (s : State) :
    Host.Outcome State Fault Refusal :=
  .next (s.order (.sourcePolicy h preferPcm enable) (effectSourcePolicy h preferPcm enable))

/-- The STREAM_SETUP order. -/
def execStreamSetup (h : OrderHead) (offset size format rate : Int) (s : State) :
    Host.Outcome State Fault Refusal :=
  .next (s.order (.streamSetup h offset size format rate) (effectStreamSetup h offset size format rate s.dram))

/-- The STREAM_STOP order. -/
def execStreamStop (h : OrderHead) (s : State) :
    Host.Outcome State Fault Refusal :=
  .next (s.order (.streamStop h) (effectStreamStop h))

/-- The LAYOUT_LOAD order. -/
def execLayoutLoad (h : OrderHead) (offset length : Int) (s : State) :
    Host.Outcome State Fault Refusal :=
  .next (s.order (.layoutLoad h offset length) (effectLayoutLoad h offset length s.dram))

/-- The POSITION_MUTE order. -/
def execPositionMute (h : OrderHead) (position state : Int) (s : State) :
    Host.Outcome State Fault Refusal :=
  .next (s.order (.positionMute h position state) (effectPositionMute h position state))

/-- The VOLUME order. -/
def execVolume (h : OrderHead) (mode value : Int) (s : State) :
    Host.Outcome State Fault Refusal :=
  .next (s.order (.volume h mode value) (effectVolume h mode value))

/-- The MUTE order. -/
def execMute (h : OrderHead) (state : Int) (s : State) :
    Host.Outcome State Fault Refusal :=
  .next (s.order (.mute h state) (effectMute h state))

/-- The DIALOGUE_LIFT order. -/
def execDialogueLift (h : OrderHead) (value : Int) (s : State) :
    Host.Outcome State Fault Refusal :=
  .next (s.order (.dialogueLift h value) (effectDialogueLift h value))

/-- The LIPSYNC order. -/
def execLipsync (h : OrderHead) (latency offset : Int) (s : State) :
    Host.Outcome State Fault Refusal :=
  .next (s.order (.lipsync h latency offset) (effectLipsync h latency offset))

/-- The OUTLET_ASSIGN order. -/
def execOutletAssign (h : OrderHead) (primaryZone primaryPos alternateZone alternatePos : Int) (s : State) :
    Host.Outcome State Fault Refusal :=
  .next (s.order (.outletAssign h primaryZone primaryPos alternateZone alternatePos) (effectOutletAssign h
      primaryZone primaryPos alternateZone alternatePos))

/-- The OUTLET_SET order. -/
def execOutletSet (h : OrderHead) (trimValid distanceValid : Bool) (trim distance : Int) (s : State) :
    Host.Outcome State Fault Refusal :=
  .next (s.order (.outletSet h trimValid distanceValid trim distance) (effectOutletSet h trimValid distanceValid trim
      distance))

/-- The OUTLET_CLEAR order. -/
def execOutletClear (h : OrderHead) (s : State) :
    Host.Outcome State Fault Refusal :=
  .next (s.order (.outletClear h) (effectOutletClear h))

/-- The TRIGGER_SET order. -/
def execTriggerSet (h : OrderHead) (kind index polarity drive : Int) (s : State) :
    Host.Outcome State Fault Refusal :=
  .next (s.order (.triggerSet h kind index polarity drive) (effectTriggerSet h kind index polarity drive))

/-- The MEASURE order. -/
def execMeasure (h : OrderHead) (aSource aIndex aPolarity bSource bIndex bPolarity bCount : Int) (ordered : Bool)
      (limit threshold : Int) (s : State) :
    Host.Outcome State Fault Refusal :=
  .next (s.order (.measure h aSource aIndex aPolarity bSource bIndex bPolarity bCount ordered limit threshold)
      (effectMeasure h aSource aIndex aPolarity bSource bIndex bPolarity bCount ordered limit threshold))

/-- The MEASURE_CANCEL order. -/
def execMeasureCancel (h : OrderHead) (ticket : Int) (s : State) :
    Host.Outcome State Fault Refusal :=
  .next (s.order (.measureCancel h ticket) (effectMeasureCancel h ticket))

/-- The TUNER_SETUP order. -/
def execTunerSetup (h : OrderHead) (region sFm sAm : Int) (s : State) :
    Host.Outcome State Fault Refusal :=
  .next (s.order (.tunerSetup h region sFm sAm) (effectTunerSetup h region sFm sAm))

/-- The TUNE order. -/
def execTune (h : OrderHead) (band frequency mode : Int) (s : State) :
    Host.Outcome State Fault Refusal :=
  .next (s.order (.tune h band frequency mode) (effectTune h band frequency mode))

/-- The SEEK order. -/
def execSeek (h : OrderHead) (direction : Int) (s : State) :
    Host.Outcome State Fault Refusal :=
  .next (s.order (.seek h direction) (effectSeek h direction))

/-- The SCAN order. -/
def execScan (h : OrderHead) (band : Int) (s : State) :
    Host.Outcome State Fault Refusal :=
  .next (s.order (.scan h band) (effectScan h band))

/-- The PRESET_STORE order. -/
def execPresetStore (h : OrderHead) (kind band frequency mode : Int) (name : Vector Byte 8) (s : State) :
    Host.Outcome State Fault Refusal :=
  .next (s.order (.presetStore h kind band frequency mode name) (effectPresetStore h kind band frequency mode name))

/-- The PRESET_RECALL order. -/
def execPresetRecall (h : OrderHead) (s : State) :
    Host.Outcome State Fault Refusal :=
  .next (s.order (.presetRecall h) (effectPresetRecall h))

/-- The PRESET_CLEAR order. -/
def execPresetClear (h : OrderHead) (s : State) :
    Host.Outcome State Fault Refusal :=
  .next (s.order (.presetClear h) (effectPresetClear h))

/-- The TEST_SIGNAL order. -/
def execTestSignal (h : OrderHead) (mode outlet zone level : Int) (s : State) :
    Host.Outcome State Fault Refusal :=
  .next (s.order (.testSignal h mode outlet zone level) (effectTestSignal h mode outlet zone level))

/-- The CALIBRATE order. -/
def execCalibrate (h : OrderHead) (outlets : List Byte) (bursts threshold target : Int) (apply : Bool) (s : State) :
    Host.Outcome State Fault Refusal :=
  .next (s.order (.calibrate h outlets bursts threshold target apply) (effectCalibrate h outlets bursts threshold
      target apply))

/-- The CAL_ABORT order. -/
def execCalAbort (h : OrderHead) (s : State) :
    Host.Outcome State Fault Refusal :=
  .next (s.order (.calAbort h) (effectCalAbort h))

/-- The WAKE_TABLE order. -/
def execWakeTable (h : OrderHead) (offset length : Int) (s : State) :
    Host.Outcome State Fault Refusal :=
  .next (s.order (.wakeTable h offset length) (effectWakeTable h offset length s.dram))

/-- The WAKE_LOCK order. -/
def execWakeLock (h : OrderHead) (s : State) :
    Host.Outcome State Fault Refusal :=
  .next (s.order (.wakeLock h) (effectWakeLock h))

/-- The RESUME_SET order. -/
def execResumeSet (h : OrderHead) (k : Int) (s : State) :
    Host.Outcome State Fault Refusal :=
  .next (s.order (.resumeSet h k) (effectResumeSet h k))

/-- The IDLE_SET order. -/
def execIdleSet (h : OrderHead) (count unit : Int) (s : State) :
    Host.Outcome State Fault Refusal :=
  .next (s.order (.idleSet h count unit) (effectIdleSet h count unit))

/-- The IDLE_EXPIRE order. -/
def execIdleExpire (h : OrderHead) (s : State) :
    Host.Outcome State Fault Refusal :=
  .next (s.order (.idleExpire h) (effectIdleExpire h))

/-- The STANDBY_NOW order. -/
def execStandbyNow (h : OrderHead) (s : State) :
    Host.Outcome State Fault Refusal :=
  .next (s.order (.standbyNow h) (effectStandbyNow h))

/-- The INDICATOR_SET order. -/
def execIndicatorSet (h : OrderHead) (function mode : Int) (s : State) :
    Host.Outcome State Fault Refusal :=
  .next (s.order (.indicatorSet h function mode) (effectIndicatorSet h function mode))

end Sys2Proof.Machine
end

