-- ==== Sys2Proof/Machine/Dispatch.lean ====
section
/-! DEFINITION. One arm for each command: a direct call of its meaning. -/

namespace Sys2Proof.Machine

def exec (i : Instr) (s : State) : Host.Outcome State Fault Refusal :=
  match i with
  | .zonePower h power => Sys2Proof.Machine.execZonePower h power s
  | .zoneSource h source => Sys2Proof.Machine.execZoneSource h source s
  | .announce h enable source duck level route => Sys2Proof.Machine.execAnnounce h enable source duck level route s
  | .sourceProfile h formatsValid supported active carriageValid carriageClass => Sys2Proof.Machine.execSourceProfile h formatsValid supported active carriageValid carriageClass s
  | .sourcePolicy h preferPcm enable => Sys2Proof.Machine.execSourcePolicy h preferPcm enable s
  | .streamSetup h offset size format rate => Sys2Proof.Machine.execStreamSetup h offset size format rate s
  | .streamStop h => Sys2Proof.Machine.execStreamStop h s
  | .layoutLoad h offset length => Sys2Proof.Machine.execLayoutLoad h offset length s
  | .positionMute h position state => Sys2Proof.Machine.execPositionMute h position state s
  | .volume h mode value => Sys2Proof.Machine.execVolume h mode value s
  | .mute h state => Sys2Proof.Machine.execMute h state s
  | .dialogueLift h value => Sys2Proof.Machine.execDialogueLift h value s
  | .lipsync h latency offset => Sys2Proof.Machine.execLipsync h latency offset s
  | .outletAssign h primaryZone primaryPos alternateZone alternatePos => Sys2Proof.Machine.execOutletAssign h primaryZone primaryPos alternateZone alternatePos s
  | .outletSet h trimValid distanceValid trim distance => Sys2Proof.Machine.execOutletSet h trimValid distanceValid trim distance s
  | .outletClear h => Sys2Proof.Machine.execOutletClear h s
  | .triggerSet h kind index polarity drive => Sys2Proof.Machine.execTriggerSet h kind index polarity drive s
  | .measure h aSource aIndex aPolarity bSource bIndex bPolarity bCount ordered limit threshold => Sys2Proof.Machine.execMeasure h aSource aIndex aPolarity bSource bIndex bPolarity bCount ordered limit threshold s
  | .measureCancel h ticket => Sys2Proof.Machine.execMeasureCancel h ticket s
  | .tunerSetup h region sFm sAm => Sys2Proof.Machine.execTunerSetup h region sFm sAm s
  | .tune h band frequency mode => Sys2Proof.Machine.execTune h band frequency mode s
  | .seek h direction => Sys2Proof.Machine.execSeek h direction s
  | .scan h band => Sys2Proof.Machine.execScan h band s
  | .presetStore h kind band frequency mode name => Sys2Proof.Machine.execPresetStore h kind band frequency mode name s
  | .presetRecall h => Sys2Proof.Machine.execPresetRecall h s
  | .presetClear h => Sys2Proof.Machine.execPresetClear h s
  | .testSignal h mode outlet zone level => Sys2Proof.Machine.execTestSignal h mode outlet zone level s
  | .calibrate h outlets bursts threshold target apply => Sys2Proof.Machine.execCalibrate h outlets bursts threshold target apply s
  | .calAbort h => Sys2Proof.Machine.execCalAbort h s
  | .wakeTable h offset length => Sys2Proof.Machine.execWakeTable h offset length s
  | .wakeLock h => Sys2Proof.Machine.execWakeLock h s
  | .resumeSet h k => Sys2Proof.Machine.execResumeSet h k s
  | .idleSet h count unit => Sys2Proof.Machine.execIdleSet h count unit s
  | .idleExpire h => Sys2Proof.Machine.execIdleExpire h s
  | .standbyNow h => Sys2Proof.Machine.execStandbyNow h s
  | .indicatorSet h function mode => Sys2Proof.Machine.execIndicatorSet h function mode s
  | .controlRunSet => Sys2Proof.Machine.execControlRunSet s
  | .controlRunClear => Sys2Proof.Machine.execControlRunClear s
  | .controlSoftReset => Sys2Proof.Machine.execControlSoftReset s
  | .controlIrqEn enable => Sys2Proof.Machine.execControlIrqEn enable s
  | .post ticket => Sys2Proof.Machine.execPost ticket s
  | .news mask => Sys2Proof.Machine.execNews mask s
  | .registerWrite offset value => Sys2Proof.Machine.execRegisterWrite offset value s
  | .softResetTakesEffect => Sys2Proof.Machine.execSoftResetTakesEffect s
  | .busError access => Sys2Proof.Machine.execBusError access s
  | .backupStart => Sys2Proof.Machine.execBackupStart s
  | .coldStart => Sys2Proof.Machine.execColdStart s
  | .mainGoodRise => Sys2Proof.Machine.execMainGoodRise s
  | .mainGoodFall => Sys2Proof.Machine.execMainGoodFall s
  | .supplyTimeout => Sys2Proof.Machine.execSupplyTimeout s
  | .sleepCountdownExpiry => Sys2Proof.Machine.execSleepCountdownExpiry s
  | .historySample => Sys2Proof.Machine.execHistorySample s
  | .irFrame lengths => Sys2Proof.Machine.execIrFrame lengths s
  | .controlLineFrame bytes => Sys2Proof.Machine.execControlLineFrame bytes s
  | .wakeArmedExpiry entry => Sys2Proof.Machine.execWakeArmedExpiry entry s
  | .wakeInAssertion => Sys2Proof.Machine.execWakeInAssertion s
  | .idleTimerExpiry z => Sys2Proof.Machine.execIdleTimerExpiry z s
  | .indicatorBlinkToggle line => Sys2Proof.Machine.execIndicatorBlinkToggle line s
  | .zoneSettleExpiry z => Sys2Proof.Machine.execZoneSettleExpiry z s
  | .zoneStopRampEnd z => Sys2Proof.Machine.execZoneStopRampEnd z s
  | .sourceSwitchHoldSilent z => Sys2Proof.Machine.execSourceSwitchHoldSilent z s
  | .announceHoldExpiry z => Sys2Proof.Machine.execAnnounceHoldExpiry z s
  | .zoneSignalDetect z => Sys2Proof.Machine.execZoneSignalDetect z s
  | .zoneSignalWindowExpiry z => Sys2Proof.Machine.execZoneSignalWindowExpiry z s
  | .sourceSignalDetect src => Sys2Proof.Machine.execSourceSignalDetect src s
  | .sourceSignalWindowExpiry src => Sys2Proof.Machine.execSourceSignalWindowExpiry src s
  | .portWclkFirstEdge port => Sys2Proof.Machine.execPortWclkFirstEdge port s
  | .claimRetryExpiry port => Sys2Proof.Machine.execClaimRetryExpiry port s
  | .clockLoss port => Sys2Proof.Machine.execClockLoss port s
  | .periodicCheckDue port => Sys2Proof.Machine.execPeriodicCheckDue port s
  | .preamble src code => Sys2Proof.Machine.execPreamble src code s
  | .noPreambleCountExpiry src => Sys2Proof.Machine.execNoPreambleCountExpiry src s
  | .portFrameStatusChange port lanes layout => Sys2Proof.Machine.execPortFrameStatusChange port lanes layout s
  | .formatChangeHoldSilent z => Sys2Proof.Machine.execFormatChangeHoldSilent z s
  | .decodeRetryExpiry src => Sys2Proof.Machine.execDecodeRetryExpiry src s
  | .streamFillMarkRead m => Sys2Proof.Machine.execStreamFillMarkRead m s
  | .streamUnderrun m => Sys2Proof.Machine.execStreamUnderrun m s
  | .bitstreamFrame e checkPasses objects => Sys2Proof.Machine.execBitstreamFrame e checkPasses objects s
  | .phaseTimerExpiry e => Sys2Proof.Machine.execPhaseTimerExpiry e s
  | .pathRampEnd z path => Sys2Proof.Machine.execPathRampEnd z path s
  | .regrantHoldSilent z => Sys2Proof.Machine.execRegrantHoldSilent z s
  | .withdrawalEnd o => Sys2Proof.Machine.execWithdrawalEnd o s
  | .overcurrentAsserted o => Sys2Proof.Machine.execOvercurrentAsserted o s
  | .overcurrentCleared o => Sys2Proof.Machine.execOvercurrentCleared o s
  | .tripRetryExpiry o => Sys2Proof.Machine.execTripRetryExpiry o s
  | .tripHistoryExpiry o => Sys2Proof.Machine.execTripHistoryExpiry o s
  | .temperatureWarningChange g w => Sys2Proof.Machine.execTemperatureWarningChange g w s
  | .tsdAsserted g => Sys2Proof.Machine.execTsdAsserted g s
  | .tsdCleared g => Sys2Proof.Machine.execTsdCleared g s
  | .dcfAsserted g => Sys2Proof.Machine.execDcfAsserted g s
  | .dcfCleared g => Sys2Proof.Machine.execDcfCleared g s
  | .meterEdge after edge => Sys2Proof.Machine.execMeterEdge after edge s
  | .meterLimitExpiry m => Sys2Proof.Machine.execMeterLimitExpiry m s
  | .tunerSettleExpiry r => Sys2Proof.Machine.execTunerSettleExpiry r s
  | .tunerMeasurementDue r => Sys2Proof.Machine.execTunerMeasurementDue r s
  | .seekDwellEnd r => Sys2Proof.Machine.execSeekDwellEnd r s
  | .scanDwellEnd r => Sys2Proof.Machine.execScanDwellEnd r s
  | .idGroup identity => Sys2Proof.Machine.execIdGroup identity s
  | .nameGroup segment chars => Sys2Proof.Machine.execNameGroup segment chars s
  | .textGroup segment flip chars => Sys2Proof.Machine.execTextGroup segment flip chars s
  | .testHoldSilent => Sys2Proof.Machine.execTestHoldSilent s
  | .walkSoundingEnd => Sys2Proof.Machine.execWalkSoundingEnd s
  | .walkGapEnd => Sys2Proof.Machine.execWalkGapEnd s
  | .calibrationHoldSilent => Sys2Proof.Machine.execCalibrationHoldSilent s
  | .calBurstEnd => Sys2Proof.Machine.execCalBurstEnd s
  | .calTimingStepExpiry => Sys2Proof.Machine.execCalTimingStepExpiry s
  | .calLevelStepExpiry level => Sys2Proof.Machine.execCalLevelStepExpiry level s

end Sys2Proof.Machine
end

