-- ==== Sys2Proof/Machine/Audio.lean ====
section
/-! DEFINITION. What the part makes of a sample, as functions of its state (log 18): the multiplier of a gain (R89),
what a source passes (R29, R36, R46, R56), an outlet's sum (R90), the test signal (R162), the delay line (R95), what an outlet
drives (R112), the tuner's stereo blend (R144). Samples are fractions of digital full scale; no sample stands in the state. -/

namespace Sys2Proof.Machine

/-! ### Gains -/

/-- `k` does not lie above 2^24 × 10^(a/1920) + 1/2, in whole numbers: (2k − 1)^1920 against 2^(25 × 1920) × 10^a. The
applied gain `a` is in 1/48 hdB, so that its multiplier is 10^(a/1920). -/
def roundsTo (a : Int) (k : Nat) : Bool :=
  let top := 2 ^ 48000
  if 0 ≤ a then decide ((2 * k - 1) ^ 1920 ≤ top * 10 ^ a.toNat)
  else decide ((2 * k - 1) ^ 1920 * 10 ^ (-a).toNat ≤ top)

/-- The multiplier of an applied gain in 1/48 hdB, times 2^24: 10^(a/40) of the gain in hdB to the nearest multiple of
2^−24, halves up; 0 for silence (R89). -/
def multiplier (a : Int) : Nat := if a ≤ Config.silence then 0 else largest (roundsTo a) (2 ^ 28 - 1) 28 0

/-- A sample limited to digital full scale (R90). -/
def limitSample (x : ℚ) : ℚ := if 1 < x then 1 else if x < -1 then -1 else x

/-! ### The tuner -/

/-- The two channels of T before the soft mute: M ± (b/16) × S on FM, from the demodulated left and right; on AM the one demodulated
programme, which `left` gives, on both; silence unless the tuner is LISTENING (R139, R144). -/
def Tuner.stereo (x : Tuner) (left right : ℚ) : ℚ × ℚ :=
  if x.state = .listening then
    if x.station.band = .fm then
      let m := (left + right) / 2
      let s := (left - right) / 2
      (m + x.blend / 16 * s, m - x.blend / 16 * s)
    else (left, left)
  else (0, 0)

/-- The two channels of T behind the soft-mute attenuation now applied (R145). -/
def Tuner.carries (x : Tuner) (left right : ℚ) : ℚ × ℚ :=
  let k : ℚ := (multiplier (-(x.softApplied : Int)) : ℚ) / 2 ^ 24
  ((x.stereo left right).1 * k, (x.stereo left right).2 * k)

/-! ### What a source passes -/

/-- The lane of a PCM8 channel is active: channels stand two to a lane, in the order of the channel set, from lane 0 on; of the lanes
the active ones are the first (R46, log 56). -/
def Source.laneActive (x : Source) (p : Position) : Bool :=
  x.format != some .pcm8 || decide ((channelsOf .pcm8 x.detail).idxOf p / 2 < x.lanes)

/-- The factor on an engine's output, on every channel and object: silence but in DECODING (R46); there, silence within a run of bad
frames behind its 2 ms fade, and full behind the 2 ms fade after it (R47, R56). -/
def Engine.factor (x : Engine) : ℚ :=
  if x.state ≠ .decoding ∨ x.sound = 0 then 0 else if Config.fadeLength ≤ x.sound then 1 else Config.fadeFactor x.sound

/-- A sample that a source passes on a channel or object, `raw` being what it carries there: silence while it is not LOCKED, as in a
stall (R36), on the channels of lanes that are not active (R46), and as its engine gives (R46, R56). T passes its two channels
(R144, R145). -/
def Chip.passes (c : Chip) (s : SourceId) (origin : Origin) (raw : Origin → ℚ) : ℚ :=
  let x := c.sources[s]
  if s = tunerSource then
    let t := c.tuner.carries (raw (.pos .fl)) (raw (.pos .fr))
    if origin = .pos .fl then t.1 else if origin = .pos .fr then t.2 else 0
  else if x.state ≠ .locked then 0
  else if x.lockedIn Format.compressed then
    match c.engineOf s with
    | some e => (c.engines[e]).factor * raw origin
    | none => 0
  else match origin with
    | .pos p => if x.laneActive p then raw origin else 0
    | .obj _ => 0

/-- The programme of a zone on a channel or object: the bound source's, or silence in its place until a FORMAT_CHANGE hold has
reported silent (R29). -/
def Chip.programmeSample (c : Chip) (z : ZoneId) (origin : Origin) (raw : SourceId → Origin → ℚ) : ℚ :=
  if Hold.formatChange ∈ c.ctxs[z].holds then 0
  else match c.zones[z].binding with
    | some s => c.passes s origin (raw s)
    | none => 0

/-- The announcement of a zone on a channel: its stream's, or silence in HOLD (R16). -/
def Chip.announceSample (c : Chip) (z : ZoneId) (origin : Origin) (raw : SourceId → Origin → ℚ) : ℚ :=
  let x := c.zones[z]
  if x.annState = .hold then 0 else c.passes (streamSource x.ann.source) origin (raw (streamSource x.ann.source))

/-- The signal of a path behind its filter; `bank` is what each path's filter makes of the sample now delivered (R77, R78). -/
def Chip.pathSignal (c : Chip) (z : ZoneId) (bank : ZoneId → PathId → ℚ → ℚ) (raw : SourceId → Origin → ℚ) (q : Path) : ℚ :=
  let x := if isProgramme q.id.kind then c.programmeSample z q.id.origin raw else c.announceSample z q.id.origin raw
  if q.filter = .none then x else bank z q.id x

/-- The signals of a zone's paths by identity, which `Ctx.sumInto` sums. -/
def Chip.pathSignals (c : Chip) (bank : ZoneId → PathId → ℚ → ℚ) (raw : SourceId → Origin → ℚ) (z : ZoneId) (id : PathId) : ℚ :=
  match c.ctxs[z].paths.find? fun q => q.id == id with
  | some q => c.pathSignal z bank raw q
  | none => 0

/-! ### Outlets -/

/-- The products of a zone's paths into an outlet; `x` gives the signal of each path behind its filter (R89, R90). -/
def Ctx.sumInto (y : Ctx) (o : OutletId) (x : PathId → ℚ) : ℚ :=
  y.paths.foldl (fun s q => if q.id.outlet = o then s + x q.id * (multiplier q.applied : ℚ) / 2 ^ 24 else s) 0

/-- The signal of an outlet: the sum of every path into it, limited to full scale; silence for an outlet of no zone (R90). -/
def Chip.outletSum (c : Chip) (o : OutletId) (x : ZoneId → PathId → ℚ) : ℚ :=
  if c.outlets[o].zone = none then 0 else limitSample (allZones.foldl (fun s z => s + c.ctxs[z].sumInto o (x z)) 0)

/-- The signal of an outlet from what the sources carry and the filters make of it (R89, R90). -/
def Chip.outletSignal (c : Chip) (o : OutletId) (bank : ZoneId → PathId → ℚ → ℚ) (raw : SourceId → Origin → ℚ) : ℚ :=
  c.outletSum o (c.pathSignals bank raw)

/-- The signal with the test noise added at its signal gain, limited to full scale (R162). -/
def Chip.testSum (c : Chip) (o : OutletId) (x : ZoneId → PathId → ℚ) (noise : ℚ) : ℚ :=
  if c.testOn o ∧ c.test.started then
    limitSample (c.outletSum o x + noise * (multiplier c.test.gain : ℚ) / 2 ^ 24)
  else c.outletSum o x

/-- What a line delivers of the outlet's signal, `past n` being the signal of `n` samples earlier: silence until the applied
delay has passed since it was built (R95). -/
def Line.out (l : Line) (past : Nat → ℚ) : ℚ := if l.age < l.delay then 0 else past l.delay

/-- The level at which the calibration unit sounds on the outlet, in 1/48 hdB: a tone burst at −10 dBFS (R168), the noise of the level
step at −20 dBFS (R169); absent where it does not sound. -/
def Chip.calLevel (c : Chip) (o : OutletId) : Option Int :=
  if c.cal.burst = some o then some (48 * -20)
  else if c.cal.place.any (fun p => p.step == .level) && c.cal.measured.any (fun m => m.2 == o) then some (48 * -40)
  else none

/-- What the calibration unit adds to an outlet, `wave` being its burst or noise at full scale (R168, R169, log 18). -/
def Chip.calSample (c : Chip) (o : OutletId) (wave : ℚ) : ℚ :=
  match c.calLevel o with
  | some a => wave * (multiplier a : ℚ) / 2 ^ 24
  | none => 0

/-- What an outlet drives: silence (R112), or its delayed signal with the calibration unit's burst or noise added behind the
line, without trim, volume, ceiling or delay (R112, R168, R169). An outlet without a line sounds nothing through the pool
(R95). -/
def Chip.drives (c : Chip) (o : OutletId) (past : Nat → ℚ) (wave : ℚ) : ℚ :=
  if c.drivesSilence o then 0
  else
    (match c.outlets[o].line with
      | some l => l.out past
      | none => 0)
    + c.calSample o wave

end Sys2Proof.Machine
end

