-- ==== Sys2Proof/Safety.lean ====
section
/-! DEFINITION. Predicates on states that the statements use: what of the part does not follow from the rest (`core`), what
only its own commands change (`kept`), what a command does to the rest of the state, and the invariants. -/

namespace Sys2Proof.Machine

/-! ### Core: the part without what every event works out again

Two parts with one `core` differ at most in what an event works out from the rest of the part at its end (programme and
announcement states, routes and gains, offers, signal flags, relays, trigger levels, held idle timers, indicator levels)
and in what the window's own bookkeeping counts (page revisions, NEWS, ORPHANED, the acceptance of orders in flight). -/

def InFlight.core (e : InFlight) : InFlight := { e with accepted := true }

def Win.core (w : Win) : Win :=
  { w with news := 0, orphaned := 0, revisions := Vector.replicate 14 0, inFlight := w.inFlight.map InFlight.core }

def Zone.core (x : Zone) : Zone :=
  { x with programme := .none, annState := .off, annHoldTimer := none, signalPresent := false, dropped := false,
           limited := false }

def Ctx.core (x : Ctx) : Ctx := { x with useReduced := false, resolution := 0, paths := [] }

def Source.core (x : Source) : Source :=
  { x with offer := .pcm2, offerReason := .profileInvalid, signalPresent := false, signalWindow := none }

def Outlet.core (x : Outlet) : Outlet := { x with relay := false }

def Trigger.core (x : Trigger) : Trigger := { x with asserted := false }

def TestRec.core (x : TestRec) : TestRec := { x with gain := 0 }

def Idle.core (x : Idle) : Idle := { x with timer := none }

def Indicator.core (x : Indicator) : Indicator := { x with shown := .off, level := false, timer := none }

def Standby.core (x : Standby) : Standby :=
  { x with idle := x.idle.map Idle.core, indicators := x.indicators.map Indicator.core }

def Chip.core (c : Chip) : Chip :=
  { c with
    win := c.win.core
    zones := c.zones.map Zone.core
    ctxs := c.ctxs.map Ctx.core
    sources := c.sources.map Source.core
    outlets := c.outlets.map Outlet.core
    triggers := c.triggers.map Trigger.core
    test := c.test.core
    sbb := c.sbb.core
    ev := Ev.initial }

/-! ### Kept: the part without what starts, stops, rounds, holds, engines, tests, meters and time change

Two parts with one `kept` agree in every setting, in the acquisition state of every source, in the set-up of the streams, in
the protection of every outlet, in the wake table and history, in the registers and counters but NEWS and ORPHANED. -/

def Win.kept (w : Win) : Win :=
  { w with news := 0, orphaned := 0, revisions := Vector.replicate 14 0, inFlight := [] }

def Zone.kept (x : Zone) : Zone :=
  { Zone.initial with
    selected := x.selected, volume := x.volume, muted := x.muted, lift := x.lift, ann := x.ann,
    videoLatency := x.videoLatency, userOffset := x.userOffset }

def Ctx.kept (x : Ctx) : Ctx := { x with useReduced := false, resolution := 0, paths := [], holds := [] }

def Source.kept (x : Source) : Source :=
  { x with signalPresent := false, decode := .none, retryTimer := none, offer := .pcm2, offerReason := .profileInvalid,
           claimRetry := none, checkTimer := none, signalWindow := none }

def Stream.kept (x : Stream) : Stream := { x with fifo := [], frac := 0, readTimer := none }

def Outlet.kept (x : Outlet) : Outlet :=
  { Outlet.initial with
    primary := x.primary, alternate := x.alternate, protection := x.protection, cause := x.cause, history := x.history,
    ceiling := x.ceiling }

def Tuner.kept (x : Tuner) : Tuner :=
  { Tuner.initial with
    region := x.region, sFm := x.sFm, sAm := x.sAm, station := x.station, stations := x.stations, presets := x.presets }

/-- The power state as far as it says whether the main domain is powered. -/
def PowerState.kept : PowerState → PowerState
  | .standby => .standby
  | .active | .sleepPending => .active

def Standby.kept (x : Standby) : Standby :=
  { x with
    power := x.power.kept, supplyTimer := none, sleepTimer := none, historyTimer := none, idle := x.idle.map Idle.core,
    indicators := x.indicators.map Indicator.core }

def Chip.kept (c : Chip) : Chip :=
  { Chip.reset with
    win := c.win.kept
    zones := c.zones.map Zone.kept
    ctxs := c.ctxs.map Ctx.kept
    sources := c.sources.map Source.kept
    streams := c.streams.map Stream.kept
    outlets := c.outlets.map Outlet.kept
    groups := c.groups
    triggers := c.triggers.map Trigger.core
    tuner := c.tuner.kept
    sbb := c.sbb.kept
    pins := c.pins
    powerUpAt := c.powerUpAt }

/-! ### Settled: kept, with the zones' power and bindings

Two parts with one `settled` agree also in power, binding, pending orders and stop cause of every zone and in the power
state. -/

/-- `Zone.kept` with the zone's power, binding and waiting orders, and whether its settle period runs. -/
def Zone.steady (x : Zone) : Zone :=
  { x.kept with
    power := x.power, binding := x.binding, restart := x.restart, onOrders := x.onOrders, offOrders := x.offOrders,
    stopCause := x.stopCause, settleTimer := x.settleTimer.map fun _ => 0, switchOrder := x.switchOrder }

/-- `Standby.kept` with the power state. -/
def Standby.steady (x : Standby) : Standby := { x.kept with power := x.power }

def Chip.settled (c : Chip) : Chip := { c.kept with zones := c.zones.map Zone.steady, sbb := c.sbb.steady }

/-! ### Apart: core, without delay alignment and holds

Two parts with one `apart` differ at most in what `core` takes away and in what a round of the delay alignment changes: the
alignment records, the delay lines, the holds. -/

def Ctx.apart (x : Ctx) : Ctx := { x.core with holds := [] }

def Outlet.apart (x : Outlet) : Outlet := { x.core with line := none }

def Chip.apart (c : Chip) : Chip :=
  { c.core with
    ctxs := c.ctxs.map Ctx.apart
    aligns := Vector.replicate 4 Align.initial
    outlets := c.outlets.map Outlet.apart }

/-! ### What a command does -/

/-- Bytes of the window before its end at 22,528: header, slate and pages (section 12.6). -/
def windowEnd : Nat := 22528

/-- The address lies outside the header, the slate and the pages. -/
def Chip.outside (c : Chip) (a : Nat) : Prop := a < c.base ∨ c.base + windowEnd ≤ a

/-- The command answers a next state in which the part is as `P` says, no waiting command is touched, and every byte of memory
outside the header, the slate and the pages is as before. -/
def Does (i : Instr) (s : State) (P : Chip → Prop) : Prop :=
  ∃ t, exec i s = .next t ∧ t.pending = s.pending ∧ (∀ a, s.chip.outside a → t.dram.read a = s.dram.read a) ∧ P t.chip

/-- The order is taken and handed to its owner: intake runs, its ticket is NT and no order's in flight, its target index is one of its
kind's, and the list of orders in flight has room (R189). -/
def State.accepts (s : State) (i : Instr) : Prop :=
  match posting i with
  | none => False
  | some p => s.chip.takesOrder p.head.ticket = true ∧ p.head.ticket = s.chip.win.nextTicket ∧
      p.kind.targetOk p.head.target.toNat = true ∧ s.chip.ordersFull = false

/-- The end of an order within the event that takes it, DONE with result code OK. -/
def doneEnd (h : OrderHead) (clamped : Bool) (values : List ResultValue) : OrderEnd where
  ticket := h.ticket
  slot := h.slot
  accepted := false
  refused := false
  code := .ok
  clamped := clamped
  listFull := false
  values := values

/-- The refusal of an order within the event that takes it. -/
def refusedEnd (h : OrderHead) (code : ResultCode) : OrderEnd :=
  { doneEnd h false [] with refused := true, code := code }

/-- In `t` the slot of an order shows its end (R191): the result area, and the state DONE or REFUSED. -/
def State.shows (s t : State) (e : OrderEnd) : Prop :=
  t.dram.bytes (s.chip.slotAt e.slot + 64) e.area.length = e.area ∧
    t.dram.read (s.chip.slotAt e.slot) = if e.refused then slotRefused else slotDone

/-- From `s` to `t` the order in flight with this ticket has ended DONE (R191): where the window is served and its slot stood in state
ACCEPTED with its ticket, and no other order in flight has that slot, the slot shows the result code, the flags and the values. -/
def State.ended (s t : State) (ticket : Word) (code : ResultCode) (clamped listFull : Bool) (values : List ResultValue) : Prop :=
  s.chip.windowUp = true → ∀ e : InFlight, s.chip.win.inFlight.find? (fun e => e.ticket == ticket) = some e → e.accepted = true →
    e.lost = false → s.dram.read (s.chip.slotAt e.slot) = slotAccepted → s.dram.word (s.chip.slotAt e.slot + 4) = ticket →
    (∀ x ∈ s.chip.win.inFlight.eraseP fun e => e.ticket == ticket, x.slot ≠ e.slot) →
    s.shows t { ticket := ticket, slot := e.slot, accepted := true, refused := false, code := code, clamped := clamped,
                listFull := listFull, values := values }

/-- The command ends another order than its own: the one in flight with this ticket. -/
def Ends (i : Instr) (s : State) (ticket : Word) (code : ResultCode) (clamped listFull : Bool) (values : List ResultValue) : Prop :=
  ∃ t, exec i s = .next t ∧ s.ended t ticket code clamped listFull values

/-- No order in flight has the slot of the order that is posted. -/
def State.slotFree (s : State) (h : OrderHead) : Prop := ∀ e ∈ s.chip.win.inFlight, e.slot ≠ h.slot

/-- The order's command answers a next state as `Does` says, and the order has ended in it: its slot shows the end `e`. -/
def Answers (i : Instr) (s : State) (e : OrderEnd) (P : Chip → Prop) : Prop :=
  ∃ t, exec i s = .next t ∧ t.pending = s.pending ∧ (∀ a, s.chip.outside a → t.dram.read a = s.dram.read a) ∧
    s.shows t e ∧ P t.chip

/-- The order's command answers a next state as `Does` says, and the order is in flight in it: its slot stands in state
ACCEPTED, with the order's ticket. -/
def Accepts (i : Instr) (s : State) (h : OrderHead) (P : Chip → Prop) : Prop :=
  ∃ t, exec i s = .next t ∧ t.pending = s.pending ∧ (∀ a, s.chip.outside a → t.dram.read a = s.dram.read a) ∧
    t.dram.read (s.chip.slotAt h.slot) = slotAccepted ∧ t.dram.word (s.chip.slotAt h.slot + 4) = h.ticket ∧ P t.chip

/-- The part with the order in the list of orders in flight. -/
def Chip.withFlight (c : Chip) (k : OrderKind) (h : OrderHead) : Chip :=
  { c with win := { c.win with
      inFlight := c.win.inFlight ++ [{ ticket := h.ticket, slot := h.slot, kind := k, accepted := true }] } }

/-- The part with NT moved on past the ticket of an order that it has taken (R189 step 6). -/
def Chip.took (c : Chip) (ticket : Word) : Chip := c.advance ticket

/-- The order is refused with a result code, and nothing but its slot and NT changes. -/
def Refuses (i : Instr) (s : State) (h : OrderHead) (code : ResultCode) : Prop :=
  Answers i s (refusedEnd h code) fun t => t.core = (s.chip.took h.ticket).core

/-- The order is done with result code OK, and the part is `c` with NT moved on. -/
def Completes (i : Instr) (s : State) (h : OrderHead) (clamped : Bool) (values : List ResultValue) (c : Chip) : Prop :=
  Answers i s (doneEnd h clamped values) fun t => t.core = (c.took h.ticket).core

/-- The part without the order of this ticket in the list of orders in flight: the order has ended. -/
def Chip.dropOrder (c : Chip) (ticket : Word) : Chip :=
  { c with win := { c.win with inFlight := c.win.inFlight.eraseP fun e => e.ticket == ticket } }

/-- The part without the orders of these tickets. -/
def Chip.dropOrders (c : Chip) (tickets : List Word) : Chip := tickets.foldl Chip.dropOrder c

/-- The zone waits for no order of this ticket. -/
def Zone.waitsNot (x : Zone) (ticket : Word) : Prop :=
  ticket ∉ x.onOrders ∧ ticket ∉ x.offOrders ∧ x.switchOrder ≠ some ticket

/-- No calibration run is in progress in the zone. -/
def Chip.noRunIn (c : Chip) (z : ZoneId) : Prop := c.cal.zone ≠ some z

/-- The calibration unit's claim is not the next for a meter. -/
def Chip.calNotNext (c : Chip) : Prop := c.imu.queue.head?.map Claim.holder ≠ some .cal

/-- The part without the tuner's order in flight, if there is one. -/
def Chip.dropTunerOrder (c : Chip) : Chip :=
  match c.tuner.order with
  | none => c
  | some o => c.dropOrder o.ticket

/-- The tuner's order in flight, if there is one, has another ticket. -/
def Chip.tunerOrderOther (c : Chip) (ticket : Word) : Prop := ∀ o, c.tuner.order = some o → o.ticket ≠ ticket

/-- The tuner in TUNING at a station, its settle of 40 ms or 60 ms just begun (R139, R146). -/
def Tuner.tuningAt (x : Tuner) (st : Station) (o : Option TunerFlight) : Tuner :=
  { x with
    state := .tuning, station := st, order := o, timer := some (if st.band = .fm then 1920 else 2880), measTimer := none,
    step := none, seek := none, ret := none, scanBand := none, prevEntry := none, ds := DataService.initial }

/-- The tuner in IDLE at a station: everything but region, thresholds, list and presets at its IDLE value (R139). -/
def Tuner.idleAt (x : Tuner) (st : Station) : Tuner :=
  { Tuner.initial with
    region := x.region, sFm := x.sFm, sAm := x.sAm, station := st, softApplied := x.softApplied, stations := x.stations,
    presets := x.presets }

/-- The meter that a claim is given, just armed with the claim's arming: an ORDER edge has fired (R129, R134), edge A first; edge B opens
a meter that is not ordered, and behind edge A it counts. -/
def Meter.givenTo (q : Claim) : Meter :=
  let a := q.arming.edgeA.source = .order
  let b := q.arming.edgeB.source = .order
  let closes := a ∧ b ∧ q.arming.bCount ≤ 1
  let opensB := ¬ a ∧ b ∧ q.arming.ordered = false
  { state := if closes then .done else if a ∨ opensB then .opened else .armed, holder := some q.holder,
    edgeA := q.arming.edgeA, edgeB := q.arming.edgeB, bCount := q.arming.bCount, ordered := q.arming.ordered,
    limit := q.arming.limit, aSeen := decide a, bSeen := decide (closes ∨ opensB), bEdges := if a ∧ b then 1 else 0,
    firstA := if a then some true else if opensB then some false else none, ticks := 0, elapsed := 0, clamped := q.clamped }

/-- The comparator threshold behind an arming: the arming's own where it selects MIC_CROSS (R128, R129). -/
def Arming.thresholdOver (q : Arming) (old : Int) : Int :=
  if q.edgeA.source = .micCross ∨ q.edgeB.source = .micCross then q.threshold else old

/-- The meters behind the release of one (R132, R134): it goes to the head of the claim queue; where no claim waits, it is FREE, with its
settings kept. -/
def Imu.releasing (x : Imu) (m : MeterId) : Imu :=
  match x.queue with
  | [] =>
    let y : Meter :=
      { x.meters[m] with state := .free, holder := none, aSeen := false, bSeen := false, bEdges := 0, firstA := none, ticks := 0,
                         elapsed := 0, clamped := false }
    { x with meters := x.meters.set m y }
  | q :: rest => { meters := x.meters.set m (Meter.givenTo q), queue := rest, threshold := q.arming.thresholdOver x.threshold }

/-! ### Intake and the writes of an event -/

/-- `t` is `s` behind that many turns of intake (R189). -/
def State.turns : Nat → State → State → Prop
  | 0, s, t => t = s
  | n + 1, s, t => ∃ u, s.intakeTurn = some u ∧ State.turns n u t

/-- NT does not lie above POST, and intake runs: a turn of it is due (R189). -/
def State.turnDue (s : State) : Prop :=
  s.chip.intakeOpen = true ∧ (s.chip.win.post - s.chip.win.nextTicket).toNat < 2147483648

/-- The slots in state POSTED that hold ticket NT, in ascending order (R189 step 1). -/
def State.candidates (s : State) : List (Fin 32) :=
  (List.finRange 32).filter fun n =>
    s.dram.read (s.chip.slotAt n) == slotPosted && s.dram.word (s.chip.slotAt n + 4) == s.chip.win.nextTicket

/-- The refusal of a further candidate for a ticket (R189 step 3). -/
def duplicateEnd (ticket : Word) (slot : Fin 32) : OrderEnd where
  ticket := ticket
  slot := slot
  accepted := false
  refused := true
  code := .duplicateTicket
  clamped := false
  listFull := false
  values := []

/-- The event made this write (log 14). -/
def Written.made (x : Written) (c : Chip) : EventWrite → Prop
  | .result t => ∃ e ∈ x.ends, e.ticket = t ∧ e.code ≠ .duplicateTicket
  | .accepted t => ∃ e ∈ x.fresh, e.ticket = t
  | .mark m => c.streams[m].stopped = false ∧ ∃ p ∈ x.marks, p.1 = c.streams[m].offset - 4
  | .header => x.header = true
  | .page p => p ∈ x.pages

/-- The part has entered WINDOW_FAULT from `s` (R38, R195): every order in flight that is no meter's will end without a write, every
stream that is set up is STALLED, and no meter and no queued claim is an order's; NT, the settings and the zones are as before. -/
def State.faults (s t : State) : Prop :=
  t.pending = s.pending ∧ t.chip.win.partState = .windowFault ∧ t.chip.win.nextTicket = s.chip.win.nextTicket ∧
  (∀ e ∈ t.chip.win.inFlight, e.lost = true) ∧
  (∀ e ∈ s.chip.win.inFlight, (∀ m : MeterId, s.chip.imu.meters[m].holder ≠ some (.win e.ticket)) →
    (∀ q ∈ s.chip.imu.queue, q.holder ≠ .win e.ticket) → ∃ e' ∈ t.chip.win.inFlight, e'.ticket = e.ticket) ∧
  (∀ m : StreamId, s.chip.streams[m].stopped = false → t.chip.streams[m].frozen = true ∧
    t.chip.sources[streamSource m].state = .stalled) ∧
  (∀ (m : MeterId) (ticket : Word), t.chip.imu.meters[m].holder ≠ some (.win ticket)) ∧
  (∀ q ∈ t.chip.imu.queue, ∀ ticket : Word, q.holder ≠ .win ticket) ∧
  t.chip.zones.map Zone.steady = s.chip.zones.map Zone.steady ∧ t.chip.ctxs.map Ctx.kept = s.chip.ctxs.map Ctx.kept ∧
  t.chip.outlets.map Outlet.kept = s.chip.outlets.map Outlet.kept

/-- The result values of a run (R171, R172): the number of outlets in each status. -/
def runCounts (l : List CalEntry) : List ResultValue :=
  CalStatus.all.map fun k => .num ((l.filter fun e => e.status == k).length : Nat)

/-- From `s` to `t` the calibration run has completed (R171): its meter is released, its hold is lifted, with APPLY the trims and distances
of the outlets in status OK are the outlets' own and no others change, the run is IDLE, and its order has ended DONE with the count of
each status and the APPLY flag. -/
def State.completesRun (s t : State) : Prop :=
  let x := s.chip.cal
  let c := t.chip
  let ok (e : CalEntry) : Bool := x.apply && e.status == .ok
  c.cal.run = .idle ∧ c.cal.ticket = none ∧ c.cal.zone = none ∧ (∀ z, x.zone = some z → Hold.calibration ∉ c.ctxs[z].holds) ∧
  (∀ m : MeterId, (∀ n : MeterId, s.chip.imu.meters[n].holder = some .cal ↔ n = m) → s.chip.imu.queue = [] →
    c.imu.meters[m].state = .free ∧ c.imu.meters[m].holder = none) ∧
  ((c.cal.results.map CalEntry.outlet).Nodup → ∀ e ∈ c.cal.results, ok e = true →
    c.outlets[e.outlet].trim = e.trim.getD s.chip.outlets[e.outlet].trim ∧
      c.outlets[e.outlet].distance = e.distance.getD s.chip.outlets[e.outlet].distance) ∧
  (∀ o : OutletId, (∀ e ∈ c.cal.results, e.outlet = o → ok e = false) →
    c.outlets[o].trim = s.chip.outlets[o].trim ∧ c.outlets[o].distance = s.chip.outlets[o].distance) ∧
  ∀ (ticket : Word) (e : InFlight), x.ticket = some ticket →
    s.chip.win.inFlight.find? (fun e => e.ticket == ticket) = some e → s.chip.imu.queue = [] →
    c.win.inFlight.map InFlight.ticket = (s.chip.win.inFlight.map InFlight.ticket).erase ticket ∧
    (s.chip.windowUp = true → e.accepted = true → e.lost = false → s.dram.read (s.chip.slotAt e.slot) = slotAccepted →
      s.dram.word (s.chip.slotAt e.slot + 4) = ticket →
      s.shows t { ticket := ticket, slot := e.slot, accepted := true, refused := false, code := .ok, clamped := x.clamped,
                  listFull := false,
                  values := runCounts c.cal.results ++ [.num (boolCode x.apply)] })

/-- From `s` to `t` the calibration run has been aborted (R172): the run is IDLE without a meter, its hold is lifted, the outlets in status
PENDING are NOT_MEASURED, the other entries stand, and its order has ended with ABORTED and the count of each status. A MEASURE that an edge
of the stopped burst closes is another order's. -/
def State.abortsRun (s t : State) : Prop :=
  let x := s.chip.cal
  let results := x.results.map fun e => if e.status = .pending then { e with status := .notMeasured } else e
  t.chip.cal.run = .idle ∧ t.chip.cal.ticket = none ∧ t.chip.cal.zone = none ∧ t.chip.cal.meter = none ∧ t.chip.cal.burst = none ∧
  t.chip.cal.results = results ∧ (∀ z, x.zone = some z → Hold.calibration ∉ t.chip.ctxs[z].holds) ∧
  ∀ ticket, x.ticket = some ticket → s.chip.meterOf (.win ticket) = none →
    s.ended t ticket .aborted false false (runCounts results)

/-! ### Invariants -/

/-- The memory is in its canonical form, and so is the memory before the last event's writes (log 5, log 14). -/
def State.memoryWf (s : State) : Prop := Mem.wf s.dram ∧ ∀ x, s.last = some x → Mem.wf x.dram

/-- The window stands at a multiple of 64 KiB (R186), and while it is served its size is one that a start takes (R187). -/
def Chip.windowSane (c : Chip) : Prop :=
  c.win.windowBase &&& 0xFFFF = 0 ∧ (c.windowUp = true → 64 ≤ c.win.windowKiB ∧ c.win.windowKiB ≤ 4096)

/-- While MAIN_GOOD is low or the power state is STANDBY, every main-domain block stands in its main power-up state (R174). -/
def Chip.heldWhenDown (c : Chip) : Prop := c.mainUp = false → c.mainHeld = c

/-- A closed relay belongs to a serving outlet of a zone that is ON or STOPPING (R119). -/
def Chip.relaysSafe (c : Chip) : Prop :=
  ∀ o : OutletId, c.outlets[o].relay = true →
    c.outlets[o].protection.serving = true ∧
      ∃ z, c.outlets[o].zone = some z ∧ (c.zones[z].power = .on ∨ c.zones[z].power = .stopping)

/-- A path's identity, coefficient and filter, as a resolution makes them (R68). -/
def Path.route (q : Path) : Route := { id := q.id, coeff := q.coeff, filter := q.filter }

/-- The route tables stand as the zones' inputs give them: in a STARTING or ON zone the paths that are not leaving are the routes of a
resolution, with the resolution set shown and DROPPED_CHANNEL its own; an OFF zone has no path (R66, R71, R79, R80). -/
def Chip.routed (c : Chip) : Prop :=
  ∀ z : ZoneId, match c.zones[z].power with
    | .starting | .on => (c.ctxs[z].paths.filter fun q => !q.leaving).map Path.route = c.resolve z ∧
        c.ctxs[z].resolution = BitVec.ofNat 20 (c.resolutionSet z) ∧ c.zones[z].dropped = c.drops z
    | .stopping => True
    | .off => c.ctxs[z].paths = []

/-- The engine table and the wait queue agree (R44, R53): a FREE engine's record is empty, one that is not FREE has a source and
consumers, which are zones bound to it, and no two engines have one source; the queue holds no ZM, each zone at most once, no
consumer, and no zone whose source an engine decodes. -/
def Chip.enginesAgree (c : Chip) : Prop :=
  (∀ e : EngineId, c.engines[e].state = .free → c.engines[e] = Engine.initial) ∧
  (∀ e : EngineId, c.engines[e].state ≠ .free → c.engines[e].source.isSome = true ∧ c.engines[e].consumers ≠ []) ∧
  (c.engines[(0 : EngineId)].source.isSome = true → c.engines[(0 : EngineId)].source ≠ c.engines[(1 : EngineId)].source) ∧
  (∀ e : EngineId, ∀ z ∈ c.engines[e].consumers, c.zones[z].binding = c.engines[e].source) ∧
  c.waitQueue.Nodup ∧ 0 ∉ c.waitQueue ∧
  ∀ z ∈ c.waitQueue, c.zones[z].binding.isSome = true ∧
    ∀ e : EngineId, z ∉ c.engines[e].consumers ∧ c.zones[z].binding ≠ c.engines[e].source

/-- Records that agree with one another: an IDLE tuner has no order in flight, the test generator is OFF exactly when it has no zone, a
line-level outlet is NORMAL, and the engine table and the wait queue agree. -/
def Chip.recordsAgree (c : Chip) : Prop :=
  (c.tuner.state = .idle → c.tuner.order = none) ∧ (c.test.mode = .off ↔ c.test.zone = none) ∧
  (∀ o : OutletId, groupOf o = none → c.outlets[o].protection = .normal) ∧ c.enginesAgree

/-- The delay pool (R94, R95): the claims of the four zones do not sum above its 2048 blocks; a pending grant belongs to a STARTING or
ON zone and counts exactly the zone's outlets that are not UNUSED, its demand their blocks; an outlet that has a line is in a zone that is
not OFF, and is not UNUSED. -/
def Chip.poolFits (c : Chip) : Prop :=
  c.claim 0 + c.claim 1 + c.claim 2 + c.claim 3 ≤ 2048 ∧
  (∀ z : ZoneId, c.aligns[z].pending = true → c.started z = true ∧ c.aligns[z].grant.map GrantEntry.outlet = c.countedOutlets z ∧
    c.aligns[z].demand = c.aligns[z].grant.foldl (fun n e => n + blocksOf e.delay) 0) ∧
  ∀ o : OutletId, c.outlets[o].line.isSome = true → c.outlets[o].unused = false ∧
    ∃ z, c.outlets[o].zone = some z ∧ c.zones[z].power ≠ .off

/-- What follows from the rest of the state stands as it follows: programme states (R13), offers (R41), triggers (R125), targets
of the paths with their clamped flags (R83), LIMITED (R84), route tables (R79). -/
def Chip.followed (c : Chip) : Prop :=
  (∀ z : ZoneId, c.zones[z].programme = c.programmeOf z) ∧
  (∀ s : SourceId, s.val ≤ 5 → (c.sources[s].offer, c.sources[s].offerReason) = c.offerOf s) ∧
  (∀ t : Fin 4, c.triggers[t].asserted = c.triggerAsserted c.triggers[t].binding) ∧
  (∀ z : ZoneId, ∀ q ∈ c.ctxs[z].paths, (q.target, q.clamped) = c.targetOf z q) ∧
  (∀ z : ZoneId, c.zones[z].limited = c.ctxs[z].paths.any fun q => q.clamped) ∧
  c.routed

/-- What shows in other records stands as it follows: the announcement state of a zone is the first case of R16 that applies, and its hold
timer runs in HOLD only; an idle timer that a signal, a test or a calibration run in its zone holds stands at full (R182); an indicator
shows the mode of its function's row (R184). -/
def Chip.signsFollow (c : Chip) : Prop :=
  (∀ z : ZoneId,
    let x := c.zones[z]
    let n := streamSource x.ann.source
    let y := c.sources[n]
    (x.annHoldTimer.isSome = true ↔ x.annState = .hold) ∧
    if x.ann.enable = false then x.annState = .off
    else if x.selected = n ∨ y.state = .locked ∧ (y.format = some .obj ∨ y.format = some .hrs ∨ y.format = some .sur) then
      x.annState = .unusable
    else if x.power ≠ .on then x.annState = .ready
    else if y.state = .locked ∧ y.format = some .pcm2 then x.annState = .active
    else x.annState = .hold ∨ x.annState = .ready) ∧
  (∀ z : ZoneId, c.mainUp = true →
    c.zones[z].signalPresent = true ∨ c.test.mode ≠ .off ∧ c.test.zone = some z ∨ c.cal.run ≠ .idle ∧ c.cal.zone = some z →
    c.sbb.idle[z].timer.isSome = true → c.sbb.idle[z].timer = c.sbb.idle[z].full) ∧
  ∀ n : Fin 4, c.sbb.indicators[n].shown = match c.sbb.indicators[n].function with
    | .standby => if c.sbb.power = .standby then .on else .off
    | .protect => if c.sbb.power ≠ .standby ∧ ∃ o : OutletId, c.outlets[o].protection = .latched then .blinkFast else .off
    | .object =>
      if c.sbb.power ≠ .standby ∧ c.zones[(0 : ZoneId)].programme = .playing ∧
          ∃ k : SourceId, c.zones[(0 : ZoneId)].binding = some k ∧ c.sources[k].format = some .obj then .on
      else .off
    | .stereo => if c.sbb.power ≠ .standby ∧ c.tuner.state = .listening ∧ c.tuner.blend = 16 then .on else .off
    | .manual => c.sbb.indicators[n].manual

/-- Each outlet's ceiling is the one its group's temperature level gives (R115), and no applied gain stands above it (R86). -/
def Chip.underCeilings (c : Chip) : Prop :=
  (∀ o : OutletId, c.outlets[o].ceiling = match groupOf o with
    | some g => 30 - 6 * (c.groups[g].w.val : Int)
    | none => 30) ∧
  ∀ z : ZoneId, ∀ q ∈ c.ctxs[z].paths, q.applied ≤ 48 * c.outlets[q.id.outlet].ceiling

end Sys2Proof.Machine
end

