-- ==== Sys2Proof/Certificates/Slice0/Obligations.lean ====
section
/-! DEFINITION. The statements for the provers. `s` is any state, reached or not, unless a premise says otherwise. A statement
about an order speaks of the order's command in a state that accepts it; what a state that does not accept it does with it is
`IntakeOfOrders`. What an event works out at its end from the rest of the state (what `Chip.core` leaves out) is
`FollowingStateFollows`, `RelaysStaySafe` and `GainsStayUnderCeilings`. Values and conventions that the model chose, no rule, are
named with their log entry. -/

open Sys2Proof Sys2Proof.Machine

/-! ### Orders of levels and settings (01, 04, 05) -/

/-- VOLUME (R91), absolute or relative to the stored V, limited to −160 and +30; MUTE (R92); DIALOGUE_LIFT (R93); POSITION_MUTE
(R67). Nothing else changes: the targets of the paths follow (`FollowingStateFollows`). Codes: log 9. -/
def Obligations.LevelOrders : Prop :=
  (∀ (s : State) (h : OrderHead) (mode value : Int), s.accepts (.volume h mode value) →
    let z := zoneOf h.target
    let x := s.chip.zones[z]
    let asked := if mode = 0 then value else x.volume + value
    let v := max (-160) (min 30 asked)
    if mode = 0 ∨ mode = 1 then
      Completes (.volume h mode value) s h (decide (asked < -160 ∨ 30 < asked)) [.num v, .num (boolCode x.muted)]
        (s.chip.updZone z fun y => { y with volume := v })
    else Refuses (.volume h mode value) s h .badParam) ∧
  (∀ (s : State) (h : OrderHead) (state : Int), s.accepts (.mute h state) →
    let z := zoneOf h.target
    let done (m : Bool) :=
      Completes (.mute h state) s h false [.num (boolCode m), .num s.chip.zones[z].volume]
        (s.chip.updZone z fun y => { y with muted := m })
    if state = 0 then done true else if state = 1 then done false else Refuses (.mute h state) s h .badParam) ∧
  (∀ (s : State) (h : OrderHead) (value : Int), s.accepts (.dialogueLift h value) →
    let z := zoneOf h.target
    let v := max 0 (min 12 value)
    Completes (.dialogueLift h value) s h (decide (value < 0 ∨ 12 < value)) [.num v]
      (s.chip.updZone z fun y => { y with lift := v })) ∧
  ∀ (s : State) (h : OrderHead) (position state : Int), s.accepts (.positionMute h position state) →
    let z := zoneOf h.target
    let old := s.chip.ctxs[z].muteMap
    if 0 ≤ position ∧ position < 20 ∧ (state = 0 ∨ state = 1) then
      ∃ map : BitVec 20, map.getLsbD position.toNat = decide (state = 0) ∧
        (∀ n, n ≠ position.toNat → map.getLsbD n = old.getLsbD n) ∧
        Completes (.positionMute h position state) s h false [.num map.toNat]
          (s.chip.updCtx z fun x => { x with muteMap := map })
    else Refuses (.positionMute h position state) s h .badParam

/-- ANNOUNCE (R15): the settings, clamped; a source or route code outside its values is refused. A changed source or route leaves HOLD: the
evaluation starts from READY. Codes: log 9. -/
def Obligations.AnnounceOrder : Prop :=
  ∀ (s : State) (h : OrderHead) (enable : Bool) (source duck level route : Int),
    s.accepts (.announce h enable source duck level route) →
    let i := Instr.announce h enable source duck level route
    let clamped := decide (duck < -40 ∨ 0 < duck ∨ level < -160 ∨ 0 < level)
    let x := s.chip.zones[zoneOf h.target]
    let done (r : AnnRoute) :=
      (x.ann.source ≠ (if source = 0 then 0 else 1) ∨ x.ann.route ≠ r →
        Does i s fun t => t.zones[zoneOf h.target].annState ≠ .hold) ∧
      Completes i s h clamped [] (s.chip.updZone (zoneOf h.target) fun x =>
        { x with ann := { enable := enable, source := if source = 0 then 0 else 1, duck := max (-40) (min 0 duck),
                          level := max (-160) (min 0 level), route := r } })
    if source = 0 ∨ source = 1 then
      if route = 0 then done .frontPair else if route = 1 then done .centre else if route = 2 then done .all
      else Refuses i s h .badParam
    else Refuses i s h .badParam

/-- SOURCE_PROFILE (R39): the profile of a link port; an active format outside the five formats (255 is absent, log 9) or a class
outside 1 to 4 with carriage-valid set is refused. With carriage-valid clear the class stored outside 1 to 4 is not stated (log 16).
-/
def Obligations.SourceProfileOrder : Prop :=
  ∀ (s : State) (h : OrderHead) (formatsValid : Bool) (supported : BitVec 5) (active : Int) (carriageValid : Bool) (cls : Int),
    s.accepts (.sourceProfile h formatsValid supported active carriageValid cls) →
    let i := Instr.sourceProfile h formatsValid supported active carriageValid cls
    if (0 ≤ active ∧ active < 5 ∨ active = 255) ∧ (carriageValid = true → 1 ≤ cls ∧ cls ≤ 4) then
      ∃ n : Nat, (1 ≤ cls ∧ cls ≤ 4 → (n : Int) = cls) ∧
        let c := s.chip.updSource (sourceOf h.target) fun x =>
          { x with profile := { formatsValid := formatsValid, supported := supported,
                                active := if active = 255 then none else Format.all[active.toNat]?,
                                carriageValid := carriageValid, carriageClass := n } }
        let offer := c.offerOf (sourceOf h.target)
        Completes i s h false [.num (codeOf Format.all offer.1), .num (codeOf OfferReason.all offer.2)] c
    else Refuses i s h .badParam

/-- TRIGGER_SET (R126): binding, polarity and drive; the result values are the stored record, evaluated at once (R125). Codes, and 255 as the
index of a NONE binding, are the model's choice (log 9). -/
def Obligations.TriggerSetOrder : Prop :=
  ∀ (s : State) (h : OrderHead) (kind index polarity drive : Int), s.accepts (.triggerSet h kind index polarity drive) →
    let i := Instr.triggerSet h kind index polarity drive
    let done (b : TriggerBinding) (codeK codeI : Int) :=
      Completes i s h false
        [.num codeK, .num codeI, .num polarity, .num drive, .num (boolCode (s.chip.triggerAsserted b))]
        (s.chip.updTrigger (Fin.ofNat 4 h.target.toNat) fun t =>
          { t with binding := b, activeLow := decide (polarity = 1), openDrain := decide (drive = 1) })
    if (polarity = 0 ∨ polarity = 1) ∧ (drive = 0 ∨ drive = 1) then
      if kind = 0 then done .none 0 255
      else if kind = 1 ∧ 0 ≤ index ∧ index ≤ 3 then done (.zone (Fin.ofNat 4 index.toNat)) 1 index
      else if kind = 2 ∧ 0 ≤ index ∧ index ≤ 15 then done (.source (Fin.ofNat 16 index.toNat)) 2 index
      else Refuses i s h .badParam
    else Refuses i s h .badParam

/-! ### Orders of the Standby Block (11) -/

/-- RESUME_SET (R183): 0 to 7 is the history entry, 8 DISABLED. INDICATOR_SET (R184). WAKE_LOCK (R180). IDLE_SET (R182): count and
unit; in ON the timer runs at the full new setting, or is stopped for 0; below 0 the count stored is a free value (log 16). -/
def Obligations.StandbySettingOrders : Prop :=
  (∀ (s : State) (h : OrderHead) (k : Int), s.accepts (.resumeSet h k) →
    if 0 ≤ k ∧ k ≤ 8 then
      Completes (.resumeSet h k) s h false []
        (s.chip.updSbb fun b => { b with resume := if k = 8 then none else some (Fin.ofNat 8 k.toNat) })
    else Refuses (.resumeSet h k) s h .badParam) ∧
  (∀ (s : State) (h : OrderHead) (function mode : Int), s.accepts (.indicatorSet h function mode) →
    let i := Instr.indicatorSet h function mode
    match IndFunction.all[function.toNat]?, IndMode.all[mode.toNat]? with
    | some f, some m =>
      if 0 ≤ function ∧ 0 ≤ mode then
        Completes i s h false [] (s.chip.updSbb fun b =>
          { b with indicators := b.indicators.set (zoneOf h.target)
                     { b.indicators[zoneOf h.target] with function := f, manual := m } })
      else Refuses i s h .badParam
    | _, _ => Refuses i s h .badParam) ∧
  (∀ (s : State) (h : OrderHead), s.accepts (.wakeLock h) →
    Completes (.wakeLock h) s h false [] (s.chip.updSbb fun b => { b with wakeLock := true })) ∧
  ∀ (s : State) (h : OrderHead) (count unit : Int), s.accepts (.idleSet h count unit) →
    let z := zoneOf h.target
    let i := Instr.idleSet h count unit
    if unit = 0 ∨ unit = 1 then
      ∃ n : Nat, (0 ≤ count → (n : Int) = min 255 count) ∧
        Answers i s (doneEnd h (decide (255 < count)) []) fun t =>
          t.core = ((s.chip.updIdle z fun x => { x with count := n, seconds := decide (unit = 1) }).took h.ticket).core ∧
            (s.chip.zones[z].power = .on →
              t.sbb.idle[z].timer = if n = 0 then none else some (n * if unit = 1 then 48000 else 2880000))
    else Refuses i s h .badParam

/-! ### Orders of the radio tuner (09) -/

/-- TUNER_SETUP (R142): a code other than A or B is refused; with the region stored already, the thresholds, clamped, and nothing else; a
different region empties the list and moves the station, or a scan's return station, onto the new grid. In TUNING, LISTENING and
SEEKING the order in flight ends, a SEEK with ABORTED and another one SUPERSEDED, and the tuner settles on the station; in SCANNING the scan
ends with ABORTED and its counts of the emptied list, and the tuner tunes to the return station or goes to IDLE as a zone is bound to T or
not. That an IDLE tuner has no order is `MainDomainStaysHeld`. Codes: log 9. -/
def Obligations.TunerSetupOrder : Prop :=
  ∀ (s : State) (h : OrderHead) (region sFm sAm : Int), s.accepts (.tunerSetup h region sFm sAm) →
    let i := Instr.tunerSetup h region sFm sAm
    let fm := max 10 (min 60 sFm)
    let am := max 20 (min 70 sAm)
    let ending := doneEnd h (decide (sFm < 10 ∨ 60 < sFm ∨ sAm < 20 ∨ 70 < sAm)) [.num region, .num fm, .num am]
    let set := s.chip.updTuner fun x => { x with sFm := fm.toNat, sAm := am.toNat }
    match ofCode Region.all region with
    | none => Refuses i s h .badParam
    | some r =>
      if s.chip.tuner.region = r then Answers i s ending fun t => t.core = (set.took h.ticket).core
      else s.chip.tunerOrderOther h.ticket → (s.chip.tuner.state = .idle → s.chip.tuner.order = none) →
        let back := (s.chip.tuner.ret.getD s.chip.tuner.station)
        let set := set.dropTunerOrder
        let moved := set.updTuner fun x =>
          { x with region := r, stations := [], station := x.station.regrid r, ret := x.ret.map (Station.regrid r) }
        (s.slotFree h → ∀ o, s.chip.tuner.order = some o → if s.chip.tuner.state = .scanning then
            Ends i s o.ticket .aborted false false [.num 0, .num 0]
          else Ends i s o.ticket (if o.kind = .seek then .aborted else .superseded) false false []) ∧
        Answers i s ending fun t => t.core = ((match s.chip.tuner.state with
          | .idle => moved
          | .tuning | .listening | .seeking =>
              moved.updTuner fun x => x.tuningAt (s.chip.tuner.station.regrid r) none
          | .scanning =>
              if s.chip.tunerBound then moved.updTuner fun x => x.tuningAt (back.regrid r) none
              else moved.updTuner fun x => x.idleAt (back.regrid r)).took h.ticket).core

/-- TUNE (R146) in every state of the tuner: done at once in IDLE, in flight in TUNING, LISTENING and SEEKING, where the order in flight
ends SUPERSEDED; in SCANNING the scan ends with ABORTED and its counts, and the tuner tunes or goes to IDLE as a zone is bound to T or not.
PRESET_RECALL (R156): EMPTY on an empty slot; otherwise it acts as a TUNE to the slot's station on the present grid. Where the dwell on
the top edge is over, either order finds its entry made: the list is the one that SCAN_DWELL_END would leave (R154), for whatever the front
end then reads, which is a free value (log 77); `TunerEvents` says what a dwell leaves. -/
def Obligations.TuneAndRecallOrders : Prop :=
  let swept (s : State) : Chip := if s.chip.tuner.state = .scanning then s.chip.takeLastDwell else s.chip
  let ends (i : Instr) (s : State) (h : OrderHead) : Prop :=
    let x := (swept s).tuner
    s.slotFree h → x.state ≠ .idle → ∀ o, x.order = some o → if x.state = .scanning then
        Ends i s o.ticket .aborted false false
          [.num x.stations.length, .num (x.stations.filter fun e => some e.band == x.scanBand).length]
      else Ends i s o.ticket .superseded false false []
  (∀ (s : State) (f : Nat), s.chip.mainUp = true → s.chip.tuner.state = .scanning → s.chip.tuner.step = some f →
    let x := s.chip.tuner
    let fm := x.station.band = .fm
    let r := sweepReception s.chip.clock
    if x.timer = some 0 ∧ (bandGrid x.region x.station.band).2.1 ≤ f then
      ∃ list prev, Does (.scanDwellEnd r) s (fun t => t.tuner.stations = list) ∧
        swept s = s.chip.updTuner fun x =>
          { x with level := r.level, multipath := if fm then r.multipath else 0, pilot := if fm then r.pilot else false,
                   stations := list, prevEntry := prev }
    else swept s = s.chip) ∧
  (∀ (s : State) (h : OrderHead) (band frequency mode : Int), s.accepts (.tune h band frequency mode) →
    s.chip.tunerOrderOther h.ticket →
    let i := Instr.tune h band frequency mode
    match ofCode Band.all band, ofCode Mode.all mode with
    | some b, some m =>
      let f := normalise (bandGrid s.chip.tuner.region b) frequency
      let clamped := decide ((f : Int) ≠ frequency)
      let st : Station := { band := b, freq := f, mode := m }
      let idle := [ResultValue.num band, .num f, .num mode, .num 0]
      let tuning := Accepts i s h fun t => t.core = ((((swept s).dropTunerOrder.updTuner fun x =>
        x.tuningAt st (some { kind := .tune, ticket := h.ticket, clamped := clamped })).withFlight .tune h).took h.ticket).core
      ends i s h ∧ match s.chip.tuner.state with
      | .idle => Completes i s h clamped idle (s.chip.updTuner fun x => { x with station := st, ds := DataService.initial })
      | .tuning | .listening | .seeking => tuning
      | .scanning =>
        if s.chip.tunerBound then tuning
        else Completes i s h clamped idle ((swept s).dropTunerOrder.updTuner fun x => x.idleAt st)
    | _, _ => Refuses i s h .badParam) ∧
  ∀ (s : State) (h : OrderHead), s.accepts (.presetRecall h) → s.chip.tunerOrderOther h.ticket →
    let i := Instr.presetRecall h
    match s.chip.tuner.presets[presetOf h.target] with
    | none => Refuses i s h .empty
    | some p =>
      let f := normalise (bandGrid s.chip.tuner.region p.station.band) p.station.freq
      let clamped := decide (f ≠ p.station.freq)
      let st : Station := { p.station with freq := f }
      let tuning := Accepts i s h fun t => t.core = ((((swept s).dropTunerOrder.updTuner fun x =>
        x.tuningAt st (some { kind := .recall, ticket := h.ticket, clamped := clamped })).withFlight .presetRecall h).took
          h.ticket).core
      ends i s h ∧ match s.chip.tuner.state with
      | .idle => Completes i s h clamped (st.values ++ [.num 0])
          (s.chip.updTuner fun x => { x with station := st, ds := DataService.initial })
      | .tuning | .listening | .seeking => tuning
      | .scanning =>
        if s.chip.tunerBound then tuning
        else Completes i s h clamped (st.values ++ [.num 0]) ((swept s).dropTunerOrder.updTuner fun x => x.idleAt st)

/-- SEEK (R148): NOT_NOW in IDLE, BUSY in SCANNING; otherwise the tuner is SEEKING from the start frequency, and dwells on the next grid
point in the direction, with the wrap at the band's edges (R149). SCAN (R152): BUSY in SCANNING; otherwise the entries of the scan
band leave the list, and the first dwell begins at the bottom edge. With either, the tuner's order in flight ends SUPERSEDED. -/
def Obligations.SeekAndScanOrders : Prop :=
  (∀ (s : State) (h : OrderHead) (direction : Int), s.accepts (.seek h direction) → s.chip.tunerOrderOther h.ticket →
    let i := Instr.seek h direction
    let x := s.chip.tuner
    if direction ≠ 0 ∧ direction ≠ 1 then Refuses i s h .badParam
    else match x.state with
      | .idle => Refuses i s h .notNow
      | .scanning => Refuses i s h .busy
      | .tuning | .listening | .seeking =>
        let start := if x.state = .seeking then x.step.getD x.station.freq else x.station.freq
        let next := nextGrid (bandGrid x.region x.station.band) (decide (direction = 0)) start
        0 < start →
        (s.slotFree h → ∀ o, x.order = some o → Ends i s o.ticket .superseded false false []) ∧
        Accepts i s h fun t => t.core = (((s.chip.dropTunerOrder.updTuner fun x =>
          { x with
            state := .seeking
            station := { x.station with freq := start }
            seek := some (decide (direction = 0), start)
            step := some next
            order := some { kind := .seek, ticket := h.ticket, clamped := false }
            timer := some (if x.station.band = .fm then 960 else 1920)
            measTimer := none
            ds := DataService.initial }).withFlight .seek h).took h.ticket).core) ∧
  ∀ (s : State) (h : OrderHead) (band : Int), s.accepts (.scan h band) → s.chip.tunerOrderOther h.ticket →
    let i := Instr.scan h band
    match ofCode Band.all band with
    | none => Refuses i s h .badParam
    | some b =>
      if s.chip.tuner.state = .scanning then Refuses i s h .busy
      else
        let bottom := (bandGrid s.chip.tuner.region b).1
        (s.slotFree h → ∀ o, s.chip.tuner.order = some o → Ends i s o.ticket .superseded false false []) ∧
        Accepts i s h fun t => t.core = (((s.chip.dropTunerOrder.updTuner fun x =>
          { x with
            state := .scanning
            ret := some x.station
            station := { x.station with band := b, freq := bottom }
            step := some bottom
            seek := none
            scanBand := some b
            prevEntry := none
            order := some { kind := .scan, ticket := h.ticket, clamped := false }
            timer := some (if b = .fm then 960 else 1920)
            measTimer := none
            stations := x.stations.filter fun e => e.band ≠ b
            ds := DataService.initial }).withFlight .scan h).took h.ticket).core

/-- PRESET_STORE (R155), CURRENT and EXPLICIT, and PRESET_CLEAR (R156). -/
def Obligations.PresetOrders : Prop :=
  (∀ (s : State) (h : OrderHead) (kind band frequency mode : Int) (name : Vector Byte 8),
    s.accepts (.presetStore h kind band frequency mode name) →
    let i := Instr.presetStore h kind band frequency mode name
    let x := s.chip.tuner
    let store (p : Preset) (clamped : Bool) :=
      Completes i s h clamped (p.station.values ++ [.name p.name])
        (s.chip.updTuner fun x => { x with presets := x.presets.set (presetOf h.target) (some p) })
    if kind = 0 then
      if x.state = .seeking ∨ x.state = .scanning then Refuses i s h .notNow
      else store { station := x.station, name := x.ds.accepted.getD (Vector.replicate 8 0x20) } false
    else if kind = 1 then
      match ofCode Band.all band, ofCode Mode.all mode with
      | some b, some m =>
        let f := normalise (bandGrid x.region b) frequency
        if ∀ j : Fin 8, 0x20 ≤ name[j].toNat ∧ name[j].toNat ≤ 0x7E then
          store { station := { band := b, freq := f, mode := m }, name := name } (decide ((f : Int) ≠ frequency))
        else Refuses i s h .badParam
      | _, _ => Refuses i s h .badParam
    else Refuses i s h .badParam) ∧
  ∀ (s : State) (h : OrderHead), s.accepts (.presetClear h) →
    Completes (.presetClear h) s h false []
      (s.chip.updTuner fun x => { x with presets := x.presets.set (presetOf h.target) none })

/-! ### Orders of the Interval Meter Unit (08) -/

/-- MEASURE (R135): the checks in their order; a claim that is refused completes the order with BUSY; otherwise a waiting claim: the
lowest-numbered FREE meter is armed, or the claim joins the queue, and the order is in flight. That a threshold counts for CLAMPED also
where no selected edge uses it is the model's choice (log 39), and that the order completed with BUSY does not show CLAMPED (log 51).
-/
def Obligations.MeasureOrder : Prop :=
  ∀ (s : State) (h : OrderHead) (aSource aIndex aPolarity bSource bIndex bPolarity bCount : Int) (ordered : Bool)
    (limit threshold : Int),
    let i := Instr.measure h aSource aIndex aPolarity bSource bIndex bPolarity bCount ordered limit threshold
    s.accepts i →
    match edgeParam aSource aIndex aPolarity, edgeParam bSource bIndex bPolarity with
    | some a, some b =>
      let q : Arming := { edgeA := a, edgeB := b, bCount := (max 1 (min 4096 bCount)).toNat, ordered := ordered,
                          limit := (max 1 (min 1000 limit)).toNat, threshold := max (-60) (min (-20) threshold) }
      let clamped := decide (bCount < 1 ∨ 4096 < bCount ∨ limit < 1 ∨ 1000 < limit ∨ threshold < -60 ∨ -20 < threshold)
      let mic := a.source = .micCross ∨ b.source = .micCross
      if b.source = .order ∧ (a.source = .order ∨ ordered = true) then Refuses i s h .badParam
      else if mic ∧ s.chip.cal.run ≠ .idle then Refuses i s h .notNow
      else if s.chip.refusesClaim (.win h.ticket) true then
        Answers i s { doneEnd h false [] with code := .busy } fun t => t.core = (s.chip.took h.ticket).core
      else
        let claim : Claim := { holder := .win h.ticket, arming := q, clamped := clamped }
        let imu : Imu := match s.chip.freeMeter with
          | some m => { s.chip.imu with
              meters := s.chip.imu.meters.set m (Meter.givenTo claim), threshold := q.thresholdOver s.chip.imu.threshold }
          | none => { s.chip.imu with queue := s.chip.imu.queue ++ [claim] }
        Accepts i s h fun t =>
          t.core = ((({ s.chip with imu := imu } : Chip).withFlight .measure h).took h.ticket).core
    | _, _ => Refuses i s h .badParam

/-- MEASURE_CANCEL (R136): a held meter is released and offered to the queue, a queued claim is withdrawn; the MEASURE ends with ABORTED and
is no longer in flight; with neither, NOT_FOUND. A withdrawn claim has no result value (log 52). A released meter goes to the head of the
claim queue, armed with that claim's arming, an ORDER edge firing then (R132, R134); its settings stay where no claim waits. With the
calibration run's claim at the head the run has the meter (R167): it is MUTING with its hold placed, and where the hold is silent at once,
it goes on to measure its first outlet, with the meter. -/
def Obligations.MeasureCancelOrder : Prop :=
  ∀ (s : State) (h : OrderHead) (ticket : Int), s.accepts (.measureCancel h ticket) →
    let i := Instr.measureCancel h ticket
    let t : Word := BitVec.ofInt 32 ticket
    let x := s.chip.cal
    let released (m : MeterId) : Chip := { s.chip with imu := s.chip.imu.releasing m }
    let toRun (m : MeterId) : Chip :=
      let c := (released m).updCal fun x => { x with meter := some m, run := .muting }
      match x.zone with
      | some z => c.updCtx z fun y =>
          { y with holds := if Hold.calibration ∈ y.holds then y.holds else y.holds ++ [.calibration] }
      | none => c
    let gone (u : Chip) : Prop := (s.chip.win.inFlight.map InFlight.ticket).Nodup → ∀ e ∈ u.win.inFlight, e.ticket ≠ t
    (t ≠ h.ticket → s.slotFree h → (s.chip.meterOf (.win t)).isSome = true ∨ s.chip.claimQueued (.win t) = true →
      Ends i s t .aborted false false []) ∧
    match s.chip.meterOf (.win t) with
    | some m => t ≠ h.ticket →
      if s.chip.imu.queue.head?.map Claim.holder = some .cal then
        (Does i s fun u => u.kept = (s.chip.took h.ticket).kept ∧ gone u) ∧
        ((∀ z, x.zone = some z → s.chip.holdSilent z .calibration = false) →
          Answers i s (doneEnd h false [.num m.val]) fun u =>
            u.core = (((toRun m).dropOrder t).took h.ticket).core ∧ gone u) ∧
        (s.slotFree h → Answers i s (doneEnd h false [.num m.val]) fun u => gone u ∧
          ∀ z o rest, x.zone = some z → Hold.calibration ∉ s.chip.ctxs[z].holds → s.chip.holdSilent z .calibration = true →
            x.outlets = o :: rest → s.chip.outlets[o].protection.serving = true → s.chip.outlets[o].zone = some z →
            s.chip.outlets[o].engaged = true → (∀ q ∈ s.chip.imu.queue.tail, q.holder ≠ .cal) →
            u.cal.run = .measuring ∧ u.cal.meter = some m ∧ u.imu.meters[m].holder = some .cal ∧ u.cal.burst = some o)
      else Completes i s h false [.num m.val] ((released m).dropOrder t)
    | none =>
      if s.chip.claimQueued (.win t) then t ≠ h.ticket →
        Completes i s h false [] (({ s.chip with imu := { s.chip.imu with
          queue := s.chip.imu.queue.filter fun q => q.holder != .win t } } : Chip).dropOrder t)
      else Refuses i s h .notFound

/-! ### Orders of layouts, delays and outlets (04, 06, 07) -/

/-- LAYOUT_LOAD (R63, R64): BAD_REFERENCE for a block outside the free area, BAD_PARAM for one that fails a check; otherwise the
layout record is the block's, and UNUSED of the zone's outlets follows it; a flag byte beyond 1 gives a free value (log 16). A round may
follow (log 12). What a resolution makes of a channel and of an object in every room: a channel whose position is present goes there at
0, another one to the present members of the first hop of its walk that has one (R69, R70); an object is panned on the upper ring where
elevation 1 finds a position there, else on the ear ring (R72), between the present positions next to it (R73), with the gains of the pan
table (`PanTable`); a path into a position handled as SMALL is split, with a bass path to each low-frequency position present (R76, R77),
and a low-frequency channel at a low-frequency outlet takes the low-pass (R78). -/
def Obligations.LayoutLoadOrder : Prop :=
  (∀ (s : State) (h : OrderHead) (offset length : Int), s.accepts (.layoutLoad h offset length) →
    let i := Instr.layoutLoad h offset length
    let z := zoneOf h.target
    if offset < 32768 ∨ length < 0 ∨ (s.chip.windowBytes : Int) < offset + length then Refuses i s h .badReference
    else
      let block := s.dram.bytes (s.chip.base + offset.toNat) length.toNat
      match layoutOf z block with
      | none => Refuses i s h .badParam
      | some e =>
        let noLfe := e.any (fun x => x.2 == .small) && !e.any fun x => x.1 == .lfe1 || x.1 == .lfe2
        let c := s.chip.updCtx z fun x => { x with layout := e, full := setOf block 1, reduced := setOf block 4, noLfe := noLfe }
        Answers i s
          (doneEnd h (setAdjusted block 1 || setAdjusted block 4)
            (.num (boolCode noLfe) :: (setOf block 1).values ++ (setOf block 4).values))
          fun t =>
            let outlet (o : OutletId) : Outlet :=
              if c.outlets[o].zone == some z then { c.outlets[o] with unused := c.unusedOf o } else c.outlets[o]
            t.apart = (Chip.took { c with outlets := Vector.ofFn outlet } h.ticket).apart) ∧
  ∀ r : Room,
    let walk (p : Position) : List (List (Position × Int)) := match p with
      | .fl | .fr => []
      | .c => [[(.fl, -6), (.fr, -6)]]
      | .lfe1 => if r.set.toFronts then [[(.lfe2, 0)], [(.fl, 0), (.fr, 0)]] else [[(.lfe2, 0)]]
      | .lfe2 => if r.set.toFronts then [[(.lfe1, 0)], [(.fl, 0), (.fr, 0)]] else [[(.lfe1, 0)]]
      | .sl => [[(.bl, 0)], [(.fl, 0)]]
      | .sr => [[(.br, 0)], [(.fr, 0)]]
      | .bl => [[(.sl, 0)], [(.fl, 0)]]
      | .br => [[(.sr, 0)], [(.fr, 0)]]
      | .bc => [[(.bl, -6), (.br, -6)], [(.sl, -12), (.sr, -12)], [(.fl, -12), (.fr, -12)]]
      | .wl => [[(.fl, 0)]]
      | .wr => [[(.fr, 0)]]
      | .fhl => [[(.tfl, 0)], [(.fl, 0)]]
      | .fhr => [[(.tfr, 0)], [(.fr, 0)]]
      | .tfl => [[(.fhl, 0)], [(.fl, 0)]]
      | .tfr => [[(.fhr, 0)], [(.fr, 0)]]
      | .tml => [[(.tfl, 0)], [(.sl, 0)], [(.fl, 0)]]
      | .tmr => [[(.tfr, 0)], [(.sr, 0)], [(.fr, 0)]]
      | .trl => [[(.tml, 0)], [(.bl, 0)], [(.fl, 0)]]
      | .trr => [[(.tmr, 0)], [(.br, 0)], [(.fr, 0)]]
    let here (m : Position × Int) : Bool := r.present m.1
    let channel (p : Position) (l : List (Position × Int)) : List Route :=
      l.flatMap fun m => r.split .channel (.pos p) m.1 m.2
    let ear : List (Position × Nat) := [(.c, 0), (.fr, 30), (.wr, 60), (.sr, 110), (.br, 150), (.bc, 180), (.bl, 210), (.sl, 250),
      (.wl, 300), (.fl, 330)]
    let upper : List (Position × Nat) := [(.fhr, 30), (.tfr, 45), (.tmr, 90), (.trr, 135), (.trl, 225), (.tml, 270), (.tfl, 315),
      (.fhl, 330)]
    let there (l : List (Position × Nat)) : List (Position × Nat) := l.filter fun m => r.present m.1
    let cw (a b : Nat) : Nat := (b + 360 - a) % 360
    let lfe (p : Position) : Prop := p = .lfe1 ∨ p = .lfe2
    let small (p : Position) : Prop := r.noLfe = false ∧ ¬ lfe p ∧ (r.present .lfe1 = true ∨ r.present .lfe2 = true) ∧
      ∃ e ∈ r.layout, e = (p, SpeakerSize.small)
    (∀ p, r.channelRoutes p = if r.present p then channel p [(p, 0)]
      else channel p ((((walk p).find? fun l => l.any here).getD []).filter here)) ∧
    (∀ d : ObjDesc, d.azimuth < 360 →
      let ring := if d.elevation = 1 ∧ there upper ≠ [] then there upper else there ear
      let pan (p : Position) (g : Option Int) : List Route := match g with
        | some g => r.split .object (.obj d.number) p (g + d.level)
        | none => []
      (ring = [] → r.objectRoutes d = []) ∧
      (∀ p, ring = [p] → r.objectRoutes d = pan p.1 (some 0)) ∧
      ∀ p1 ∈ ring, ∀ p2 ∈ ring, p1 ≠ p2 → (∀ q ∈ ring, q ≠ p1 → cw p1.2 d.azimuth < cw q.2 d.azimuth) →
        (∀ q ∈ ring, q ≠ p1 → q ≠ p2 → cw d.azimuth p2.2 < cw d.azimuth q.2) →
        let k := (32 * cw p1.2 d.azimuth + cw p1.2 p2.2) / (2 * cw p1.2 p2.2)
        r.objectRoutes d = pan p1.1 (panGain k) ++ pan p2.1 (panGain (16 - k))) ∧
    ∀ (kind : PathKind) (origin : Origin) (p : Position) (g : Int),
      let route (kind : PathKind) (o : OutletId) (split : Option OutletId) (g : Int) (f : Filter) : Route :=
        { id := { kind := kind, origin := origin, outlet := o, split := split },
          coeff := if g ≤ -200 then .off else .hdb g, filter := f }
      (r.outletOf p = none → r.split kind origin p g = []) ∧
      ∀ o, r.outletOf p = some o →
        (small p → ∃ bass, r.split kind origin p g = route kind o none g (.high r.set.crossover) :: bass ∧
          ∀ x, x ∈ bass ↔ ∃ l b, lfe l ∧ r.outletOf l = some b ∧ x = route .bass b (some o)
            (if r.present .lfe1 = true ∧ r.present .lfe2 = true then g - 6 else g) (.low r.set.crossover)) ∧
        (¬ small p → r.split kind origin p g = [route kind o none g
          (match origin with
            | .pos q => if (q = .lfe1 ∨ q = .lfe2) ∧ (p = .lfe1 ∨ p = .lfe2) then .lfe r.set.lfe else .none
            | .obj _ => .none)])

/-- LIPSYNC (R108): the video latency held between 0 and 500, the user offset between −100 and +400; the first two result values are
both as stored. In a STARTING or ON zone the round within the order computes the zone's alignment record from them: the request, the
lip-sync held between 0 and 24,000 samples, LATE_AUDIO, the largest distance (R99, R100), and the grant of R102 for the blocks that the
other zones leave: where they suffice the full one, every counted outlet at its distance delay plus the lip-sync, neither flag set;
otherwise the largest lip-sync that leaves the distance delays, with LIPSYNC_SHORT, or no distance delays, with ALIGN_DROPPED and the
smaller of the lip-sync and 64 samples for each block that an outlet then has; a full grant's switch waits for the zone's silence, and
comes at once where the zone is silent (R103 to R105, log 50). The two short grants are stated where the zone is not silent or no other
zone is short, as another round may follow a switch. OUTLET_SET (R116): trim and distance, each where its valid flag is set, held in its
range; a new trim moves a test signal on the outlet at the slow rate (R162), also one that is still ramping in, which is the model's
choice (log 54). A round may follow (log 12). -/
def Obligations.LipsyncAndOutletSetOrders : Prop :=
  (∀ (s : State) (h : OrderHead) (latency offset : Int), s.accepts (.lipsync h latency offset) →
    let v := max 0 (min 500 latency)
    let u := max (-100) (min 400 offset)
    let z := zoneOf h.target
    let request := 48 * v + 48 * u - s.chip.aligns[z].lDec - 256
    let lip := (max 0 (min 24000 request)).toNat
    let counted := allOutlets.filter fun o => s.chip.outlets[o].zone == some z && !s.chip.outlets[o].unused
    let dMax := counted.foldl (fun d o => max d s.chip.outlets[o].distance) 0
    let delay (o : OutletId) : Nat := (960 * (dMax - s.chip.outlets[o].distance) + 343) / 686
    let blocks (n : Nat) : Nat := counted.foldl (fun k o => k + blocksOf (delay o + n)) 0
    let free := s.chip.available z
    ∃ more, Answers (.lipsync h latency offset) s
      (doneEnd h (decide (latency < 0 ∨ 500 < latency ∨ offset < -100 ∨ 400 < offset)) (.num v :: .num u :: more))
      fun t => t.apart = ((s.chip.updZone z fun x => { x with videoLatency := v, userOffset := u }).took h.ticket).apart ∧
        (s.chip.started z = true →
          let a := t.aligns[z]
          a.requested = request ∧ a.lip = lip ∧ a.lateAudio = decide (request < 0) ∧ a.dMax = dMax ∧
          (blocks lip ≤ free → a.granted = lip ∧ a.demand = blocks lip ∧ a.lipsyncShort = false ∧ a.alignDropped = false ∧
            a.grant.map (fun e => (e.outlet, e.distance, e.delay)) = counted.map (fun o => (o, delay o, delay o + lip)) ∧
            (a.pending = false → ∀ o ∈ counted, t.outlets[o].line.map Line.delay = some (delay o + lip)) ∧
            (a.pending = true → Hold.regrant ∈ t.ctxs[z].holds) ∧
            (Hold.regrant ∉ s.chip.ctxs[z].holds → s.chip.holdSilent z .regrant = true → a.pending = false)) ∧
          (free < blocks lip → (s.chip.holdSilent z .regrant = false ∨
              ∀ y : ZoneId, y ≠ z → s.chip.started y = true → s.chip.aligns[y].short = false) →
            a.granted ≤ lip ∧ a.lipsyncShort = decide (a.granted < lip) ∧
            if blocks 0 ≤ free then
              a.alignDropped = false ∧ a.demand = blocks a.granted ∧ blocks a.granted ≤ free ∧
              (∀ n ≤ lip, blocks n ≤ free → n ≤ a.granted) ∧
              a.grant.map (fun e => (e.outlet, e.distance, e.delay)) = counted.map fun o => (o, delay o, delay o + a.granted)
            else
              a.alignDropped = true ∧ a.granted = min lip (64 * (free / counted.length)) ∧
              a.demand = counted.length * blocksOf a.granted ∧
              a.grant.map (fun e => (e.outlet, e.distance, e.delay)) = counted.map fun o => (o, 0, a.granted)))) ∧
  ∀ (s : State) (h : OrderHead) (trimValid distanceValid : Bool) (trim distance : Int),
    s.accepts (.outletSet h trimValid distanceValid trim distance) →
    let o := outletOf h.target
    let x := s.chip.outlets[o]
    let t := if trimValid then max (-24) (min 24 trim) else x.trim
    let d := if distanceValid then (max 0 (min 1800 distance)).toNat else x.distance
    let slow := t ≠ x.trim ∧ s.chip.test.outlet = some o
    Answers (.outletSet h trimValid distanceValid trim distance) s
      (doneEnd h (decide (trimValid = true ∧ (trim < -24 ∨ 24 < trim) ∨ distanceValid = true ∧ (distance < 0 ∨ 1800 < distance)))
        [.num t, .num d])
      fun u => u.apart = (((s.chip.updOutlet o fun x => { x with trim := t, distance := d }).updTest fun y =>
        if slow then { y with fast := false } else y).took h.ticket).apart

/-- OUTLET_ASSIGN (R114): the checks in their order; the stored assignments again change nothing; an outlet in an OFF zone moves at once;
one that is heard in its zone is withdrawn, and its order is in flight. In every case taken the new assignments are stored; an outlet that
is not heard, and has no test signal, moves at once also in a zone that is not OFF: to its new alternate zone if that is STARTING or ON,
else to its new primary zone, else to none, with its order DONE; one that is heard moves so at the end of its withdrawal
(`RampAndWithdrawalEvents`). Zone code 255 for no assignment and the codes of absent result values are the model's choice (log 9); a round
may follow (log 12). -/
def Obligations.OutletAssignOrder : Prop :=
  ∀ (s : State) (h : OrderHead) (pz pp az ap : Int), s.accepts (.outletAssign h pz pp az ap) →
    let i := Instr.outletAssign h pz pp az ap
    let o := outletOf h.target
    let x := s.chip.outlets[o]
    match assignmentParam pz pp, assignmentParam az ap with
    | some p, some a =>
      if a.isSome ∧ (p = none ∨ a.map Assignment.zone = p.map Assignment.zone) then Refuses i s h .badParam
      else if s.chip.assignmentTaken o p || s.chip.assignmentTaken o a then Refuses i s h .badParam
      else if x.pendingAssign.isSome then Refuses i s h .busy
      else if x.primary = p ∧ x.alternate = a then
        Completes i s h false (assignmentValues p ++ assignmentValues a ++
          [.num (optCode (fun z : ZoneId => (z.val : Int)) x.zone), .num (codeOf Placement.all x.placement)]) s.chip
      else
        let stored := s.chip.updOutlet o fun x => { x with primary := p, alternate := a }
        let lent := a.any fun a => s.chip.started a.zone
        let place := if lent then a else p
        let moved := stored.updOutlet o fun x =>
          { x with
            zone := place.map Assignment.zone
            placement := if lent then .lent else .home
            engaged := place.any fun b => s.chip.started b.zone
            unused := place.any fun b => !(s.chip.ctxs[b.zone].layout.any fun e => e.1 == b.position) }
        let off := x.zone.all fun z => s.chip.zones[z].power = .off
        let heard := s.chip.test.outlet ≠ some o ∧ x.protection.serving = true ∧
          ∃ z : ZoneId, ∃ q ∈ s.chip.ctxs[z].paths, q.id.outlet = o ∧ -9600 < q.applied
        if off ∧ (x.zone.isSome ∨ p.isSome) then
          Answers i s (doneEnd h false (moved.outlets[o]).assignValues) fun t => t.apart = (moved.took h.ticket).apart
        else
          (¬ off ∧ heard ∧ s.chip.cal.run ≠ .measuring →
            Accepts i s h fun t => t.apart = (((stored.updOutlet o fun x =>
              { x with pendingAssign := some h.ticket, engaged := false, placement := .reassigning }).withFlight
                .outletAssign h).took h.ticket).apart) ∧
          (¬ off ∧ ¬ heard ∧ s.chip.test.outlet ≠ some o ∧ s.chip.cal.run ≠ .measuring →
            Answers i s (doneEnd h false (moved.outlets[o]).assignValues) fun t => t.apart = (moved.took h.ticket).apart) ∧
          Does i s fun t => t.kept = (stored.took h.ticket).kept
    | _, _ => Refuses i s h .badParam

/-- OUTLET_CLEAR (R124): FAULT_PRESENT while a fault line of a latched outlet is asserted; otherwise the trip history is emptied,
and a latched outlet is checked against its group's shutdown and temperature level (R121). A latched outlet that is being withdrawn
does not stand after an event (R117). The codes of protection and cause, 255 for no cause, are the model's choice (log 9). -/
def Obligations.OutletClearOrder : Prop :=
  ∀ (s : State) (h : OrderHead), s.accepts (.outletClear h) →
    let i := Instr.outletClear h
    let o := outletOf h.target
    let x := s.chip.outlets[o]
    let done (y : Outlet) := Completes i s h false
      [.num (codeOf Protection.all y.protection), .num (optCode (codeOf TripCause.all) y.cause), .num 0]
      (s.chip.updOutlet o fun _ => y)
    if x.protection = .latched then
      match groupOf o with
      | none => (x.placement = .home ∨ x.placement = .lent) → done { x with history := [] }
      | some g =>
        let w := s.chip.groups[g].w
        if s.chip.overcurrentLine o ∨ s.chip.groups[g].dcf then Refuses i s h .faultPresent
        else if s.chip.groups[g].tsd ∨ 2 ≤ w.val then
          (x.placement = .home ∨ x.placement = .lent) →
            done { x with history := [], protection := .tripped, cause := some .thermal, retryTimer := none }
        else done { x with history := [], protection := if w.val = 0 then .normal else .derated, cause := none,
                           retryTimer := none }
    else done { x with history := [] }

/-! ### Orders of sources and streams (02) -/

/-- SOURCE_POLICY (R40, R32): both flags are stored and the decode failure is cleared: the decode state is NONE, or ENGAGED where an engine
takes the source for a zone that no engine serves; the start-failure count is 0 and the retry timer stopped; while the source is LOCKED
in a compressed format every zone bound to it is a consumer or queued. An analog source follows ENABLE: LOCKED as PCM2 at 48 kHz, or
NO_SIGNAL with everything of R26 cleared. The order is done, for a link port with the offer and its reason. That an engine which decodes
the source goes on with it is the model's (log 21). STREAM_STOP (R38): the context is stopped and its FIFO empty, the source NO_SIGNAL
with everything of R26 cleared, and the order is done; a stopped stream stays as it is. No run of the calibration waits for a meter
(log 12). -/
def Obligations.SourcePolicyAndStreamStopOrders : Prop :=
  let cleared (x : Source) : Prop := x.decode = .none ∧ x.retryTimer = none ∧ x.checkTimer = none ∧ x.claimRetry = none ∧
    x.signalPresent = false ∧ x.signalWindow = none
  (∀ (s : State) (h : OrderHead) (preferPcm enable : Bool), s.accepts (.sourcePolicy h preferPcm enable) →
    s.chip.claimQueued .cal = false →
    let n := sourceOf h.target
    ∃ values, Answers (.sourcePolicy h preferPcm enable) s (doneEnd h false values) fun t =>
     (values = if n.val ≤ 5 then
        [.num (codeOf Format.all (t.offerOf n).1), .num (codeOf OfferReason.all (t.offerOf n).2)] else []) ∧
     t.sources[n].decode ≠ .failed ∧ t.sources[n].retryTimer = none ∧
     (s.chip.sources[n].lockedIn Format.compressed = false ∨ s.chip.unserved n = [] → t.sources[n].decode = .none) ∧
     (s.chip.sources[n].lockedIn Format.compressed = true → (8 ≤ n.val ∧ n.val ≤ 11 → enable = true) →
       ∀ z : ZoneId, s.chip.zones[z].binding = some n → (t.consumerOf z).isSome = true ∨ z ∈ t.waitQueue) ∧
     (8 ≤ n.val ∧ n.val ≤ 11 ∧ enable = false → cleared t.sources[n]) ∧
     t.kept = ((s.chip.updSource n fun x =>
      let y := { x with preferPcm := preferPcm, enable := enable, failCount := 0 }
      if 8 ≤ n.val ∧ n.val ≤ 11 then
        if enable then
          if x.state = .noSignal then
            { y with state := .locked, phase := none, reason := none, rate := some .r48, format := some .pcm2, detail := 0 }
          else y
        else { y with state := .noSignal, phase := none, reason := none, rate := none, format := none, detail := 0, lanes := 0,
                      frameLayout := 0 }
      else y).took h.ticket).kept) ∧
  ∀ (s : State) (h : OrderHead), s.accepts (.streamStop h) →
    let i := Instr.streamStop h
    let m : StreamId := if h.target.toNat = 13 then 0 else 1
    if s.chip.streams[m].stopped then Completes i s h false [] s.chip
    else s.chip.claimQueued .cal = false → Answers i s (doneEnd h false []) fun t =>
      cleared t.sources[streamSource m] ∧ t.streams[m].fifo = [] ∧
      t.kept = (((s.chip.updStream m fun x => { x with stopped := true, overrun := false, frozen := false }).updSource
        (streamSource m) fun x =>
        { x with state := .noSignal, phase := none, reason := none, rate := none, format := none, detail := 0, lanes := 0,
                 failCount := 0, frameLayout := 0 }).took h.ticket).kept

/-- STREAM_SETUP (R34): BUSY for a stream that is set up, BAD_PARAM for a size, offset, format or rate that is not allowed,
BAD_REFERENCE for a place that is not allowed; otherwise the context is filled, the source is STALLED with its format, and the
drain mark in the window is 0. Beside the window's own areas only the drain mark's four bytes change. The fill mark is read, and what it
says is tested at the next read, 1 ms later (log 47). -/
def Obligations.StreamSetupOrder : Prop :=
  ∀ (s : State) (h : OrderHead) (offset size format rate : Int), s.accepts (.streamSetup h offset size format rate) →
    let i := Instr.streamSetup h offset size format rate
    let m : StreamId := if h.target.toNat = 13 then 0 else 1
    let other := s.chip.streams[otherStream m]
    if s.chip.streams[m].stopped = false then Refuses i s h .busy
    else if size < 4096 ∨ 1048576 < size ∨ size % 256 ≠ 0 ∨ offset % 256 ≠ 0 then Refuses i s h .badParam
    else if ¬ (0 ≤ format ∧ format ≤ 2 ∧ 0 ≤ rate ∧ rate ≤ 1) ∨ m = 1 ∧ (format = 2 ∨ rate = 0) then Refuses i s h .badParam
    else if offset - 8 < 32768 ∨ (s.chip.windowBytes : Int) < offset + size ∨
        other.stopped = false ∧ offset - 8 < other.offset + other.size ∧ (other.offset : Int) - 8 < offset + size then
      Refuses i s h .badReference
    else
      let mark := s.chip.base + offset.toNat - 4
      let f : StreamFormat := if format = 0 then .pcm16 else if format = 1 then .pcm24 else .bitstream
      let r : Rate := if rate = 0 then .r44 else .r48
      ∃ t, exec i s = .next t ∧ t.pending = s.pending ∧
        (∀ a, s.chip.outside a → (a < mark ∨ mark + 4 ≤ a) → t.dram.read a = s.dram.read a) ∧ t.dram.word mark = 0 ∧
        s.shows t (doneEnd h false []) ∧
        t.chip.apart = (((s.chip.updStream m fun _ =>
          { stopped := false, offset := offset.toNat, size := size.toNat, format := f, rate := r, readPos := 0, fifo := [],
            fillMark := s.dram.word (s.chip.base + offset.toNat - 8), drain := 0, overrun := false, frozen := false,
            frac := 0, readTimer := some 48 }).updSource (streamSource m) fun x =>
          { x with state := .stalled, phase := none, reason := none, rate := some r,
                   format := if format = 2 then none else some .pcm2, detail := 0 }).took h.ticket).apart


/-! ### Orders of tests, calibration and the Standby Block (10, 11) -/

/-- TEST_SIGNAL (R161, R163, R164): the parameters, NOT_NOW in a calibration run and for a zone that is not ON; OFF ends a running test
and keeps its level; otherwise the record names mode, zone, outlet and level: the running test with another level, or a new signal, on
the named outlet or on the first active position of the zone's list; a test that begins in another zone places the TEST hold. The level
is held in its range, the order is done with the record as its result values and CLAMPED for a level out of range. That OFF keeps the
stored level, and reports CLAMPED for a level that it does not use, is the model's choice (log 40); the result values are those of log 11
with the codes of log 9, and show the record before a silent report in the same event (log 53). That the walk timer of a new WALK stands still
until its signal starts, and the result values show it so, is log 26. -/
def Obligations.TestSignalOrder : Prop :=
  ∀ (s : State) (h : OrderHead) (mode outlet zone level : Int), s.accepts (.testSignal h mode outlet zone level) →
    let i := Instr.testSignal h mode outlet zone level
    let v := max (-80) (min 0 level)
    let clamped := decide (level < -80 ∨ 0 < level)
    let x := s.chip.test
    let vals (y : TestRec) : List ResultValue :=
      [.num (codeOf TestMode.all y.mode), .num (match y.zone with | some z => z.val | none => 255),
       .num (match y.outlet with | some o => o.val + 1 | none => 255), .num y.level,
       .num (match y.phase with | some .sounding => 0 | some .gap => 1 | none => 255), .num ((y.timer.getD 0 / 48 : Nat) : Int),
       .num (y.gain / 48)]
    let fixed (z : ZoneId) (o : OutletId) : TestRec :=
      if x.zone = some z ∧ x.mode = .fixed ∧ x.outlet = some o then { x with level := v }
      else { TestRec.initial with mode := .fixed, zone := some z, outlet := some o, level := v }
    let walk (z : ZoneId) : TestRec :=
      if x.zone = some z ∧ x.mode = .walk then { x with level := v }
      else match ((s.chip.ctxs[z].layout.map Prod.fst).filterMap fun p => s.chip.activeAt z p).head? with
        | some o => { TestRec.initial with
            mode := .walk, zone := some z, outlet := some o, level := v, phase := some .sounding
            timer := if x.zone = some z ∧ x.started = true then some 96000 else none }
        | none => { TestRec.initial with mode := .walk, zone := some z, level := v, phase := some .gap, timer := some 12000 }
    let set (on : Option ZoneId) (y : ZoneId → TestRec) : Prop :=
      match on.filter fun z => s.chip.zones[z].power = .on with
      | none => Refuses i s h .notNow
      | some z => Answers i s (doneEnd h clamped (vals (y z))) fun t =>
          t.kept = (s.chip.took h.ticket).kept ∧ t.test.mode = (y z).mode ∧ t.test.zone = some z ∧ t.test.level = v ∧
            t.test.outlet = (y z).outlet ∧ t.test.phase = (y z).phase ∧ (x.zone ≠ some z → Hold.test ∈ t.ctxs[z].holds)
    if mode = 0 then
      if s.chip.cal.run ≠ .idle then Refuses i s h .notNow
      else match x.zone with
        | none => Completes i s h clamped (vals x) s.chip
        | some z =>
          let off := { TestRec.initial with level := x.level }
          Completes i s h clamped (vals off)
            ((s.chip.updTest fun _ => off).updCtx z fun y => { y with holds := y.holds.filter fun k => k ≠ .test })
    else if mode = 1 ∧ 1 ≤ outlet ∧ outlet ≤ 24 then
      let o : OutletId := Fin.ofNat 24 (outlet - 1).toNat
      if s.chip.cal.run ≠ .idle then Refuses i s h .notNow
      else set s.chip.outlets[o].zone fun z => fixed z o
    else if mode = 2 ∧ 0 ≤ zone ∧ zone ≤ 3 then
      if s.chip.cal.run ≠ .idle then Refuses i s h .notNow
      else set (some (Fin.ofNat 4 zone.toNat)) walk
    else Refuses i s h .badParam

/-- CALIBRATE (R166, R167): the outlet list and the checks in their order; a run that is taken has its settings, clamped, a PENDING
result for each outlet, and waits for a meter or, with one, for its hold to become silent; a running test has ended, and so has every
MEASURE in progress that selects MIC_CROSS, with ABORTED. CAL_ABORT (R172, R173): NOT_FOUND without a run; otherwise the run is over, what
was not yet measured says so, and the CALIBRATE has ended with ABORTED and the count of each status; that it does not show CLAMPED is log
67. That the test generator is OFF exactly when it has no zone is `MainDomainStaysHeld`. -/
def Obligations.CalibrationOrders : Prop :=
  (∀ (s : State) (h : OrderHead) (outlets : List Byte) (bursts threshold target : Int) (apply : Bool),
    s.accepts (.calibrate h outlets bursts threshold target apply) → outlets.length ≤ 40 →
    (s.chip.test.mode = .off ↔ s.chip.test.zone = none) →
    let i := Instr.calibrate h outlets bursts threshold target apply
    let z := zoneOf h.target
    let l := outlets.map fun b => Fin.ofNat 24 (b.toNat - 1)
    if outlets = [] ∨ 24 < outlets.length ∨ (∃ b ∈ outlets, b = 0 ∨ 24 < b.toNat) ∨ ¬ outlets.Nodup then
      Refuses i s h .badParam
    else if s.chip.cal.run ≠ .idle then Refuses i s h .busy
    else if s.chip.zones[z].power ≠ .on then Refuses i s h .notNow
    else if ∃ o ∈ l, s.chip.outlets[o].zone ≠ some z then Refuses i s h .badTarget
    else if s.chip.refusesClaim .cal true then Refuses i s h .busy
    else
      let mic (a b : Edge) : Prop := a.source = .micCross ∨ b.source = .micCross
      (s.slotFree h → ∀ ticket : Word, ticket ≠ h.ticket →
        (∃ m : MeterId, s.chip.imu.meters[m].holder = some (.win ticket) ∧ mic s.chip.imu.meters[m].edgeA s.chip.imu.meters[m].edgeB) ∨
        (∃ q ∈ s.chip.imu.queue, q.holder = .win ticket ∧ mic q.arming.edgeA q.arming.edgeB) →
        ∃ t, exec i s = .next t ∧ s.ended t ticket .aborted false false [] ∧
          ((s.chip.win.inFlight.map InFlight.ticket).Nodup → ∀ f ∈ t.chip.win.inFlight, f.ticket ≠ ticket)) ∧
      (s.chip.holdSilent z .calibration = false → s.chip.meterOf (.win h.ticket) = none →
        s.chip.claimQueued (.win h.ticket) = false →
      Accepts i s h fun t =>
        t.kept = (s.chip.took h.ticket).kept ∧ t.test.mode = .off ∧
        (t.cal.run = .claiming ∨ t.cal.run = .muting ∧ t.cal.meter.isSome = true ∧ Hold.calibration ∈ t.ctxs[z].holds) ∧
        (s.chip.freeMeter.isSome = true → t.cal.run = .muting) ∧
        t.cal.ticket = some h.ticket ∧ t.cal.zone = some z ∧ t.cal.outlets = l ∧
        (t.cal.bursts : Int) = max 1 (min 8 bursts) ∧ t.cal.threshold = max (-60) (min (-20) threshold) ∧
        t.cal.target = max (-50) (min (-10) target) ∧ t.cal.apply = apply ∧
        t.cal.clamped = decide (bursts < 1 ∨ 8 < bursts ∨ threshold < -60 ∨ -20 < threshold ∨ target < -50 ∨ -10 < target) ∧
        t.cal.results.map CalEntry.outlet = l ∧ ∀ e ∈ t.cal.results, e.status = .pending)) ∧
  ∀ (s : State) (h : OrderHead), s.accepts (.calAbort h) →
    match s.chip.cal.ticket with
    | none => Refuses (.calAbort h) s h .notFound
    | some t => t ≠ h.ticket → s.chip.cal.run ≠ .idle → s.chip.calNotNext →
      (s.slotFree h → ∃ u, exec (.calAbort h) s = .next u ∧ s.abortsRun u) ∧
      Answers (.calAbort h) s (doneEnd h false [.num t.toInt]) fun u =>
        u.kept = (s.chip.took h.ticket).kept ∧ u.cal.run = .idle ∧ u.cal.ticket = none ∧ u.cal.meter = none ∧
        (∀ z, s.chip.cal.zone = some z → Hold.calibration ∉ u.ctxs[z].holds) ∧
        u.cal.results = s.chip.cal.results.map fun e =>
          if e.status = .pending then { e with status := .notMeasured } else e

/-- WAKE_TABLE (R180): the checks in their order; a taken table replaces every entry, with every armed field clear. That the other bytes
of an empty entry are not checked (log 43), and what a flag byte other than 0 and 1 stands for, a free value (log 16), are the
model's. -/
def Obligations.WakeTableOrder : Prop :=
  ∀ (s : State) (h : OrderHead) (offset length : Int), s.accepts (.wakeTable h offset length) →
    let i := Instr.wakeTable h offset length
    let b (n : Nat) : Byte := s.dram.read (s.chip.base + offset.toNat + n)
    let valid (n : Nat) : Bool := decide ((b (8 * n)).toNat = 0 ∨
      (b (8 * n)).toNat ≤ 2 ∧ 1 ≤ (b (8 * n + 1)).toNat ∧ (b (8 * n + 1)).toNat ≤ 4 ∧ (b (8 * n + 6)).toNat ≤ 2)
    let entry (n : Nat) : Option WakeEntry :=
      if (b (8 * n)).toNat = 0 then none
      else some
        { line := if (b (8 * n)).toNat = 1 then .ir else .control
          bytes := (List.range (b (8 * n + 1)).toNat).map fun k => b (8 * n + 2 + k)
          double := (b (8 * n + 7)).getLsbD 7
          action := if (b (8 * n + 6)).toNat = 0 then .wake
            else if (b (8 * n + 6)).toNat = 1 then .wakeWithSource (Fin.ofNat 16 (b (8 * n + 7)).toNat) else .report
          armed := none }
    let w := (b 64).toNat
    if s.chip.sbb.wakeLock = true then Refuses i s h .locked
    else if offset < 32768 ∨ length < 0 ∨ (s.chip.windowBytes : Int) < offset + length then Refuses i s h .badReference
    else if length ≠ 68 ∨ (List.range 8).all valid = false then Refuses i s h .badParam
    else ∃ enable high : Bool, (b 65 = 0 → enable = false) ∧ (b 65 = 1 → enable = true) ∧ (b 66 = 0 → high = false) ∧
      (b 66 = 1 → high = true) ∧
      Completes i s h (decide (w < 1 ∨ 63 < w)) [] (s.chip.updSbb fun x =>
        { x with table := Vector.ofFn fun n => entry n.val, window := max 1 (min 63 w), wakeInEnable := enable,
                 wakeInHigh := high })

/-- IDLE_EXPIRE (R182) in ON, and elsewhere; STANDBY_NOW (R176) in ACTIVE and elsewhere. No zone is left STARTING or ON. The order is
done with the power state and the time left on the countdown, in whole milliseconds rounded down, which is the model's choice (log 60). -/
def Obligations.IdleExpireAndStandbyOrders : Prop :=
  (∀ (s : State) (h : OrderHead), s.accepts (.idleExpire h) →
    let z := zoneOf h.target
    if s.chip.zones[z].power = .on then
      Does (.idleExpire h) s fun t => t.kept = (s.chip.took h.ticket).kept ∧ t.zones[z].stopCause = some .idle ∧
        (s.chip.zoneSilent z = false → t.zones[z].power = .stopping)
    else Refuses (.idleExpire h) s h .notNow) ∧
  ∀ (s : State) (h : OrderHead), s.accepts (.standbyNow h) →
    if s.chip.sbb.power = .active then
      Does (.standbyNow h) s fun t => t.kept = (s.chip.took h.ticket).kept ∧ t.sbb.power = .sleepPending ∧
        ((∀ e ∈ s.chip.win.inFlight, e.slot ≠ h.slot) → ∃ u, exec (.standbyNow h) s = .next u ∧
          s.shows u (doneEnd h false [.num (codeOf PowerState.all .sleepPending), .num 2000])) ∧
        (s.chip.calNotNext → t.sbb.sleepTimer = some 96000) ∧
        (∀ z : ZoneId, s.chip.zones[z].power ≠ .off → t.zones[z].stopCause = some .standby) ∧
        ((∀ z : ZoneId, s.chip.zones[z].power.started = true → s.chip.zones[z].restart = false) →
          ∀ z : ZoneId, t.zones[z].power = .off ∨ t.zones[z].power = .stopping)
    else Completes (.standbyNow h) s h false
      [.num (codeOf PowerState.all s.chip.sbb.power), .num ((s.chip.sbb.sleepTimer.getD 0 / 48 : Nat) : Int)] s.chip

/-! ### Orders of the Zone Controller (01) -/

/-- ZONE_POWER(on) (R4, R5, R177): a start from OFF, with the selected source bound and the settle period begun; joining the pending
on-orders in STARTING and, with restart-pending set, in STOPPING; done at once in ON. A sleep countdown is cancelled. Codes: log 9. -/
def Obligations.ZonePowerOnOrder : Prop :=
  ∀ (s : State) (h : OrderHead), s.accepts (.zonePower h 0) →
    let i := Instr.zonePower h 0
    let z := zoneOf h.target
    let x := s.chip.zones[z]
    let c := if s.chip.sbb.power = .sleepPending then
        s.chip.updSbb fun b => { b with power := .active, sleepTimer := none }
      else s.chip
    match x.power with
    | .off => Does i s fun t =>
        t.settled = ((c.updZone z fun y =>
          { y with power := .starting, restart := false, binding := some y.selected, settleTimer := some 96000,
                   onOrders := y.onOrders ++ [h.ticket] }).took h.ticket).settled ∧
          t.zones[z].settleTimer = some 96000
    | .starting => Accepts i s h fun t =>
        t.core = (((c.updZone z fun y => { y with onOrders := y.onOrders ++ [h.ticket] }).withFlight .zonePower h).took h.ticket).core
    | .on => Completes i s h false
        [.num 2, .num (codeOf Programme.all (s.chip.programmeOf z)), .num (optCode (codeOf StopCause.all) x.stopCause)] c
    | .stopping => Accepts i s h fun t =>
        t.core = (((c.updZone z fun y =>
          { y with restart := true, onOrders := y.onOrders ++ [h.ticket] }).withFlight .zonePower h).took h.ticket).core

/-- ZONE_POWER(off) (R4, R6, R8) and ZONE_POWER of another power: done at once in OFF; a stop with cause ORDER from STARTING and ON, which
ends within the event where every path is silent, with the order then DONE; joining the pending off-orders in STOPPING, where
restart-pending clears. Every pending on-order ends SUPERSEDED with the power state STOPPING, the programme state and the cause, and a
source change in progress DONE (R12). That the cause recorded in STOPPING is ORDER is log 19; that off is code 1, and 255 the code of no
stop cause, is log 9. -/
def Obligations.ZonePowerOffOrder : Prop :=
  (∀ (s : State) (h : OrderHead), s.accepts (.zonePower h 1) →
    let i := Instr.zonePower h 1
    let z := zoneOf h.target
    let x := s.chip.zones[z]
    match x.power with
    | .off => Completes i s h false
        [.num 0, .num (codeOf Programme.all (s.chip.programmeOf z)), .num (optCode (codeOf StopCause.all) x.stopCause)] s.chip
    | .starting | .on =>
        (s.slotFree h → s.chip.noRunIn z → ∀ k ∈ x.onOrders, k ≠ h.ticket → Ends i s k .superseded false false
          [.num 3, .num (codeOf Programme.all (s.chip.programmeOf z)), .num 0]) ∧
        (s.slotFree h → s.chip.noRunIn z → ∀ k, x.switchOrder = some k → k ∉ x.onOrders → k ≠ h.ticket →
          Ends i s k .ok false false []) ∧
        (s.slotFree h → s.chip.noRunIn z → h.ticket ∉ x.onOrders → x.switchOrder ≠ some h.ticket →
          s.chip.tunerOrderOther h.ticket → s.chip.zoneSilent z = true →
          ∃ t, exec i s = .next t ∧ s.shows t (doneEnd h false [.num 0, .num 0, .num 0])) ∧
        Does i s fun t => t.kept = (s.chip.took h.ticket).kept ∧ t.zones[z].stopCause = some .order ∧
          (s.chip.zoneSilent z = false → t.zones[z].power = .stopping ∧ t.zones[z].onOrders = [] ∧
            t.zones[z].offOrders = x.offOrders ++ [h.ticket] ∧ t.zones[z].switchOrder = none ∧ t.zones[z].settleTimer = none ∧
            t.sbb.idle[z].timer = none ∧ z ∉ t.waitQueue) ∧
          (s.chip.zoneSilent z = true → x.restart = false → t.zones[z].power = .off ∧ t.zones[z].binding = none ∧
            t.zones[z].onOrders = [] ∧ t.zones[z].offOrders = [])
    | .stopping => h.ticket ∉ x.onOrders →
      (s.slotFree h → x.restart = true → ∀ k ∈ x.onOrders, Ends i s k .superseded false false
        [.num 3, .num (codeOf Programme.all (s.chip.programmeOf z)), .num 0]) ∧
      Accepts i s h fun t =>
        let c := if x.restart = true then s.chip.dropOrders x.onOrders else s.chip
        t.core = (((c.updZone z fun y =>
          { y with stopCause := some .order, restart := false, onOrders := if x.restart = true then [] else x.onOrders,
                   offOrders := x.offOrders ++ [h.ticket] }).withFlight .zonePower h).took h.ticket).core) ∧
  ∀ (s : State) (h : OrderHead) (power : Int), power ≠ 0 → power ≠ 1 → s.accepts (.zonePower h power) →
    Refuses (.zonePower h power) s h .badParam

/-- ZONE_SOURCE (R12): the index is always stored; done at once in OFF and STOPPING and with the source bound already; in STARTING the new
source is bound at once and the order is done; in ON the SOURCE_SWITCH hold is placed, the new source is bound once it is silent, with the
order done, and a later order takes the place of the one whose ramp is under way, which ends SUPERSEDED. -/
def Obligations.ZoneSourceOrder : Prop :=
  ∀ (s : State) (h : OrderHead) (source : Int), s.accepts (.zoneSource h source) →
    let i := Instr.zoneSource h source
    let z := zoneOf h.target
    let x := s.chip.zones[z]
    if source < 0 ∨ 15 < source then Refuses i s h .badParam
    else
      let n : SourceId := Fin.ofNat 16 source.toNat
      let set := s.chip.updZone z fun y => { y with selected := n }
      let done : Prop := s.slotFree h → s.chip.tunerOrderOther h.ticket → s.chip.noRunIn z →
        ∃ t, exec i s = .next t ∧ s.shows t (doneEnd h false [])
      match x.power, x.switchOrder with
      | .off, _ | .stopping, _ => Completes i s h false [] set
      | .starting, _ => done ∧ Does i s fun t =>
          t.settled = ((set.updZone z fun y => { y with binding := some n }).took h.ticket).settled
      | .on, some e => e ≠ h.ticket → (x.binding = some n ∨ s.chip.noRunIn z) →
        (s.slotFree h → Ends i s e .superseded false false []) ∧ Accepts i s h fun t =>
          t.core = ((((set.dropOrder e).updZone z fun y => { y with switchOrder := some h.ticket }).withFlight
            .zoneSource h).took h.ticket).core
      | .on, none =>
        if x.binding = some n then Completes i s h false [] set
        else Hold.sourceSwitch ∉ s.chip.ctxs[z].holds →
          if s.chip.holdSilent z .sourceSwitch = true then
            done ∧ Does i s fun t => t.settled = ((set.updZone z fun y => { y with binding := some n }).took h.ticket).settled
          else s.chip.noRunIn z → Accepts i s h fun t =>
            t.apart = ((((set.updZone z fun y => { y with switchOrder := some h.ticket }).updCtx z fun y =>
              { y with holds := y.holds ++ [.sourceSwitch] }).withFlight .zoneSource h).took h.ticket).apart

/-! ### What intake does with an order -/

/-- An order command that intake does not take changes nothing: intake is closed, its ticket is 0 or lies below NT (R189), or an order in
flight has its ticket (log 3). WIN's own refusals of the order with ticket NT (R189 step 4): BAD_TARGET for a target index outside the
kind's, BUSY with 32 orders in flight. An order that is posted above NT is taken behind a gap, which counts once in ORDER_GAP (R190,
log 3). -/
def Obligations.IntakeOfOrders : Prop :=
  (∀ (s : State) (i : Instr) (p : Posting), posting i = some p → s.chip.takesOrder p.head.ticket = false →
    exec i s = .next s) ∧
  (∀ (s : State) (i : Instr) (p : Posting), posting i = some p →
    (s.chip.takesOrder p.head.ticket = true ↔ s.chip.intakeOpen = true ∧ p.head.ticket ≠ 0 ∧
      (p.head.ticket - s.chip.win.nextTicket).toNat < 2147483648 ∧ ∀ e ∈ s.chip.win.inFlight, e.ticket ≠ p.head.ticket)) ∧
  ∀ (s : State) (i : Instr) (p : Posting), posting i = some p → s.chip.takesOrder p.head.ticket = true →
    (p.head.ticket = s.chip.win.nextTicket →
      (p.kind.targetOk p.head.target.toNat = false → Refuses i s p.head .badTarget) ∧
      (p.kind.targetOk p.head.target.toNat = true → s.chip.ordersFull = true → Refuses i s p.head .busy)) ∧
    ∃ t, exec i s = .next t ∧ t.pending = s.pending ∧
      t.chip.win.nextTicket = (if p.head.ticket = 0xFFFFFFFF then 1 else p.head.ticket + 1) ∧
      t.chip.win.orderGap = s.chip.win.orderGap + if p.head.ticket = s.chip.win.nextTicket then 0 else 1

/-! ### The machine -/

/-- A step takes the command at the front of the queue and runs it on the rest. With no command waiting a step is one render sample of
time (log 1): the clock moves on by 512 meter ticks, running settle periods get shorter, and every path's gain moves as R85 gives; a
path that is leaving is deleted at silence (R81). -/
def Obligations.Steps : Prop :=
  ((∀ (c : Instr) (s : State), step { s with pending := c :: s.pending } = exec c s) ∧
  ∀ (c : Instr) (rest : List Instr) (s : State), s.pending = c :: rest → step s = exec c { s with pending := rest }) ∧
  ∀ s : State, s.pending = [] →
    let move (q : Path) : Path :=
      let goal := match q.target with
        | .silent => -9600
        | .gain g => 48 * g
      let d : Int := if q.fast then 4 else 1
      if goal - d ≤ q.applied ∧ q.applied ≤ goal + d then { q with applied := goal, fastHold := false }
      else { q with applied := if q.applied < goal then q.applied + d else q.applied - d }
    ∃ t, step s = .next t ∧ t.pending = [] ∧ t.dram = s.dram ∧ t.chip.win = s.chip.win ∧
      t.chip.settled = s.chip.settled ∧ t.chip.clock = s.chip.clock + 512 ∧
      (∀ (z : ZoneId) (n : Nat), s.chip.zones[z].settleTimer = some n → t.chip.zones[z].settleTimer = some (n - 1)) ∧
      ∀ z : ZoneId, t.chip.ctxs[z].paths =
        (s.chip.ctxs[z].paths.map move).filter fun q => !(q.leaving && decide (q.applied ≤ -9600))

/-- What reset leaves (R2, R62, R111, R125, R140, R160, R165, R174, R186, R188), and that it has the invariants; which kind of start
reset stands for is log 13. -/
def Obligations.ResetValues : Prop :=
  (let c := State.reset.chip
  State.reset.pending = [] ∧
  c.sbb.power = .standby ∧ c.pwrReq = false ∧ (∀ n : Fin 8, c.sbb.table[n] = none) ∧ c.sbb.window = 25 ∧
  c.sbb.wakeInEnable = true ∧ c.sbb.wakeInHigh = false ∧ c.sbb.wakeLock = false ∧ c.sbb.wakeCause = none ∧
  c.sbb.lastMatch = none ∧ c.sbb.wakeSource = none ∧ (∀ z : ZoneId, c.sbb.idle[z] = { count := 0, seconds := false, timer := none }) ∧
  (∀ n : Fin 4, c.sbb.indicators[n].function = .manual ∧ c.sbb.indicators[n].manual = .off) ∧
  (∀ n : Fin 8, c.sbb.history[n] = false) ∧ c.sbb.historyValid = false ∧ c.sbb.resume = none ∧
  c.win.partState = .ready ∧ c.readControl = 0 ∧ c.win.windowBase = 0 ∧ c.win.post = 0 ∧ c.readNews = 0 ∧ c.win.nextTicket = 1 ∧
  c.win.header = [1, 0, 0, 0, 0] ∧ c.win.inFlight = [] ∧
  (∀ z : ZoneId, c.zones[z].power = .off ∧ c.zones[z].selected = 8 ∧ c.zones[z].binding = none ∧ c.zones[z].volume = -80 ∧
    c.zones[z].muted = false ∧ c.zones[z].lift = 0 ∧ c.ctxs[z].layout = [(.fl, .large), (.fr, .large)] ∧ c.ctxs[z].muteMap = 0) ∧
  (∀ o : OutletId, c.outlets[o].zone = none ∧ c.outlets[o].protection = .normal ∧ c.outlets[o].ceiling = 30 ∧
    c.outlets[o].relay = false ∧ c.outlets[o].trim = 0 ∧ c.outlets[o].distance = 0) ∧
  (∀ e : EngineId, c.engines[e].state = .free) ∧ c.waitQueue = [] ∧ (∀ m : MeterId, c.imu.meters[m].state = .free) ∧
  c.tuner.state = .idle ∧ c.tuner.sFm = 28 ∧ c.tuner.sAm = 36 ∧ c.tuner.station = { band := .fm, freq := 87500, mode := .auto } ∧
  (∀ n : Fin 40, c.tuner.presets[n] = none) ∧ c.test.mode = .off ∧ c.test.level = -20 ∧ c.cal.run = .idle) ∧
  State.reset.memoryWf ∧ State.reset.chip.windowSane ∧ State.reset.chip.heldWhenDown ∧ State.reset.chip.relaysSafe ∧
    State.reset.chip.followed ∧ State.reset.chip.signsFollow ∧ State.reset.chip.underCeilings ∧ State.reset.chip.recordsAgree ∧
    State.reset.chip.poolFits

/-- Every command answers a next state and leaves the waiting commands alone; and but for a stream's set-up and fill mark, what runs
intake, whose orders may set up a stream, and a failed write that takes back what the event just past wrote behind it, no command
changes a byte outside the header, the slate and the pages. -/
def Obligations.EveryCommandAnswers : Prop :=
  ∀ (i : Instr) (s : State), ∃ t, exec i s = .next t ∧ t.pending = s.pending ∧
    match i with
    | .streamSetup .. | .streamFillMarkRead _ | .post _ | .controlRunSet | .busError (.intakeRead ..)
    | .busError (.duplicateWrite ..) | .busError (.blockRead ..) | .busError (.intakeWrite ..) | .busError (.written _) => True
    | _ => ∀ a, s.chip.outside a → t.dram.read a = s.dram.read a

/-- While the main domain is held, every command but those of the Standby Block, the supplies and the amplifier lines changes
nothing: the held blocks react to none of their commands, which is the model's reading of R174 (log 42). -/
def Obligations.HeldMainDomainIgnores : Prop :=
  ∀ (s : State) (i : Instr), s.chip.mainUp = false →
    match i with
    | .backupStart | .coldStart | .mainGoodRise | .mainGoodFall | .supplyTimeout | .sleepCountdownExpiry | .historySample
    | .irFrame _ | .controlLineFrame _ | .wakeArmedExpiry _ | .wakeInAssertion | .indicatorBlinkToggle _
    | .overcurrentAsserted _ | .overcurrentCleared _ | .temperatureWarningChange _ _ | .tsdAsserted _ | .tsdCleared _
    | .dcfAsserted _ | .dcfCleared _ => True
    | _ => exec i s = .next s

/-- The slot that the host fills for a well-formed order reads back as that order (12 section 12.6); the places of flags and lists in it
are log 10. -/
def Obligations.SlotReadsBack : Prop :=
  ∀ (s : State) (i : Instr) (p : Posting), i.wellFormed = true → posting i = some p →
    readSlot p.head.slot ((s.fillSlot p).slotBytes p.head.slot) = some i

/-! ### Invariants -/

/-- Every step keeps the canonical form of the memory that the window lies in (strictly rising addresses, no listed 0), which is the
model's own representation of it (log 5), and of the copy of the memory before the last event's writes (log 14). -/
def Obligations.MemoryStaysCanonical : Prop :=
  ∀ s t : State, s.memoryWf → step s = .next t → t.memoryWf

/-- Every step keeps the window at a multiple of 64 KiB (R186), and its size in range while it is served (R187). -/
def Obligations.WindowStaysSane : Prop :=
  ∀ s t : State, s.chip.windowSane → step s = .next t → t.chip.windowSane

/-- The wake lock, once set, stays set in every step but a cold start or a backup start, and the wake pattern table with its window
and its WAKE_IN settings then stays as it is, but for the armed fields (R180). -/
def Obligations.WakeLockHolds : Prop :=
  ∀ s t : State, s.chip.sbb.wakeLock = true →
    (∀ rest, s.pending ≠ .coldStart :: rest ∧ s.pending ≠ .backupStart :: rest) → step s = .next t →
    t.chip.sbb.wakeLock = true ∧ t.chip.sbb.window = s.chip.sbb.window ∧
    t.chip.sbb.wakeInEnable = s.chip.sbb.wakeInEnable ∧ t.chip.sbb.wakeInHigh = s.chip.sbb.wakeInHigh ∧
    ∀ n : Fin 8, t.chip.sbb.table[n].map (fun e => { e with armed := none }) =
      s.chip.sbb.table[n].map fun e => { e with armed := none }

/-- Every step keeps every main-domain block in its main power-up state while MAIN_GOOD is low or the power state is STANDBY
(R174), and keeps records that agree agreeing: an IDLE tuner has no order in flight (R139, R146), the test generator is OFF exactly
when it has no zone (R160, R164), a line-level outlet is NORMAL (R109, R120 to R123), a FREE engine is empty and another has consumers
bound to its source, the wait queue holds no ZM, each zone at most once, no consumer, and no zone whose source is decoded (R44, R53). -/
def Obligations.MainDomainStaysHeld : Prop :=
  (∀ s t : State, s.chip.heldWhenDown → step s = .next t → t.chip.heldWhenDown) ∧
  ∀ s t : State, s.chip.recordsAgree → step s = .next t → t.chip.recordsAgree

/-- Every step keeps every closed relay at a serving outlet of a zone that is ON or STOPPING (R119), and keeps the claims of the four
zones on the delay pool, as the zones' lines and pending grants make them, at 2048 blocks at most (R94). -/
def Obligations.RelaysStaySafe : Prop :=
  (∀ s t : State, s.chip.heldWhenDown → s.chip.relaysSafe → step s = .next t → t.chip.relaysSafe) ∧
  ∀ s t : State, s.chip.heldWhenDown → s.chip.poolFits → step s = .next t → t.chip.poolFits

/-- Every step leaves standing as it follows what follows from the rest of the state: programme states (R13), offers (R41), triggers
(R125), targets (R83), LIMITED (R84), and the route tables: in a STARTING or ON zone the paths that are not leaving are the routes that
a resolution of the present channels, objects, outlets and layout gives, the resolution set shown and DROPPED_CHANNEL go with it, and an
OFF zone has no path (R66 to R71, R79, R80). What a resolution makes of a channel or an object is `LayoutLoadOrder`. So do announcement
states (R16), held idle timers (R182) and the modes that the indicators show (R184). At the end of an event, behind its own effect and its
work, an announcement that no longer plays in an ON zone goes from ACTIVE to HOLD, for 500 ms, and from READY stays READY (R16); a line
that enters a mode goes high, but for OFF, and a blink starts with 0.5 s, and a line that stays in its mode stays as it is (R184).
What they follow as, in every part: a programme state is the first row of R13's table that holds, where the engine table agrees with itself
(`MainDomainStaysHeld`); an offer is the first supported format in rank order that no check of R41 skips, PCM2 where there is none, and its
reason that of the first supported format, an engine being obtainable by the four steps of R42; a target is the first row of R83's table
that holds, with the gain of R82, or SILENT in a soft reset that has begun (R81); a trigger is asserted while a zone it names, or one that
has selected its source, is not OFF (R125), since a zone's relays open in the event that makes it OFF (R8). -/
def Obligations.FollowingStateFollows : Prop :=
  (∀ c : Chip, c.enginesAgree → ∀ z : ZoneId, c.programmeOf z = match c.zones[z].binding with
    | none => .none
    | some s =>
      let x := c.sources[s]
      let serves (p : EngineState) : Prop := ∃ e : EngineId, z ∈ c.engines[e].consumers ∧ c.engines[e].state = p
      if s = 12 ∧ c.tuner.state ≠ .listening then .tunerSettling
      else if x.decode = .failed then .noProgramme
      else if x.state = .noSignal ∨ x.state = .unsupported then .noProgramme
      else if x.state = .acquiring then .acquiring
      else if x.state = .stalled then .stalled
      else if x.format = some .pcm2 ∨ x.format = some .pcm8 then .playing
      else if z ∈ c.waitQueue then .waitEngine
      else if serves .starting ∨ serves .resync then .startingDecode
      else if serves .decoding then .playing
      else .noProgramme) ∧
  (∀ (c : Chip) (s : SourceId),
    let x := c.sources[s]
    let p := x.profile
    let rank : Format → Nat := fun | .obj => 5 | .hrs => 4 | .sur => 3 | .pcm8 => 2 | .pcm2 => 1
    let need : Format → Nat := fun | .obj => 4 | .hrs => 3 | .pcm8 => 2 | .sur => 1 | .pcm2 => 1
    let eligible (f : Format) (e : EngineId) : Prop := f = .obj → e = 0
    let obtainable (f : Format) : Prop :=
      (∃ e : EngineId, c.engines[e].source = some s) ∨
      (∃ e : EngineId, eligible f e ∧ c.engines[e].state = .free) ∨
      (f = .obj ∧ c.engines[(1 : EngineId)].state = .free ∧ c.engines[(0 : EngineId)].state ≠ .free ∧
        c.engines[(0 : EngineId)].source ≠ some s ∧ c.engines[(0 : EngineId)].format ≠ some .obj) ∨
      (c.zones[(0 : ZoneId)].binding = some s ∧ ∃ e : EngineId, eligible f e ∧ 0 ∉ c.engines[e].consumers)
    let skipped (f : Format) : Option OfferReason :=
      if (if p.carriageValid = true then p.carriageClass else 1) < need f then some .limitCarriage
      else if 3 ≤ rank f ∧ x.preferPcm = true then some .policyPcm
      else if 3 ≤ rank f ∧ ¬ obtainable f then some .limitEngine
      else none
    let supported := ([.obj, .hrs, .sur, .pcm8, .pcm2] : List Format).filter fun f => p.supported.getLsbD (rank f - 1)
    c.offerOf s = if p.formatsValid = true then
        ((supported.find? fun f => (skipped f).isNone).getD .pcm2, (supported.head?.bind skipped).getD .none)
      else (.pcm2, .profileInvalid)) ∧
  (∀ (c : Chip) (z : ZoneId) (q : Path),
    let x := c.zones[z]
    let programme : Prop := q.id.kind = .channel ∨ q.id.kind = .object ∨ q.id.kind = .bass
    let g (k : Int) : Int :=
      if programme then
        x.volume + c.outlets[q.id.outlet].trim + k + (if q.id.origin = .pos .c then (x.lift : Int) else 0) +
          (if x.annState = .active ∨ x.annState = .hold then x.ann.duck else 0)
      else x.volume + x.ann.level + c.outlets[q.id.outlet].trim + k
    let ceiling := c.outlets[q.id.outlet].ceiling
    c.targetOf z q =
      if q.leaving = true ∨ x.power ≠ .on ∨ x.muted = true ∨ programme ∧ x.programme ≠ .playing ∨
          Hold.regrant ∈ c.ctxs[z].holds ∨ programme ∧ c.ctxs[z].holds ≠ [] ∨ c.win.softReset = true then (.silent, false)
      else match q.coeff with
        | .off => (.silent, false)
        | .hdb k =>
          if g k ≤ -200 then (.silent, false) else if ceiling < g k then (.gain ceiling, true) else (.gain (g k), false)) ∧
  (∀ (c : Chip) (b : TriggerBinding), c.triggerAsserted b = true ↔ match b with
    | .none => False
    | .zone z => c.zones[z].power ≠ .off
    | .source n => ∃ z : ZoneId, c.zones[z].power ≠ .off ∧ c.zones[z].selected = n) ∧
  (∀ s t : State, s.chip.heldWhenDown → s.chip.followed → step s = .next t → t.chip.followed) ∧
  (∀ s t : State, s.chip.heldWhenDown → s.chip.signsFollow → step s = .next t → t.chip.signsFollow) ∧
  ∀ (s : State) (f : Chip → Chip),
    let c := (f s.chip.fresh).work
    let t := (s.run f).chip
    (∀ z : ZoneId, c.mainUp = true → t.zones[z].annState = .hold ∨ t.zones[z].annState = .ready ∧ t.zones[z].power = .on →
      (t.zones[z].annState = .hold ↔ c.zones[z].annState = .active ∨ c.zones[z].annState = .hold) ∧
      (t.zones[z].annState = .hold → t.zones[z].annHoldTimer =
        if c.zones[z].annState = .hold then c.zones[z].annHoldTimer else some 24000)) ∧
    ∀ n : Fin 4,
      let i := c.sbb.indicators[n]
      let j := t.sbb.indicators[n]
      if j.shown = i.shown then j = i
      else j = { i with shown := j.shown, level := decide (j.shown ≠ .off),
                        timer := if j.shown = .blinkFast ∨ j.shown = .blinkSlow then some 24000 else none }

/-- Every step keeps the ceilings as the temperature levels give them (R115) and every applied gain at or below its outlet's ceiling
(R86). -/
def Obligations.GainsStayUnderCeilings : Prop :=
  ∀ s t : State, s.chip.heldWhenDown → s.chip.followed → s.chip.underCeilings → step s = .next t → t.chip.underCeilings

/-! ### Registers, intake, reset and window faults (12) -/

/-- The register writes that run nothing (R186, R193, R194), while the main domain is up: RUN = 0 halts a RUNNING part and nothing
else, IRQ_EN is stored, NEWS bits written as 1 clear, WINDOW_BASE is taken without its low 16 bits in READY and WINDOW_FAULT, a write
of another register by REGISTER_WRITE has no effect (log 27), and POST is stored where intake does not run. IRQ follows IRQ_EN and
NEWS. Such a write leaves no write into the window behind it that could still fail (log 14). -/
def Obligations.RegisterWrites : Prop :=
  let set (s : State) (f : Win → Win) : State := { s with chip := s.chip.updWin f, last := none }
  (∀ s : State, s.chip.mainUp = true → Does .controlRunClear s fun t =>
    t.core = (s.chip.updWin fun w => { w with partState := if w.partState = .running then .halted else w.partState }).core) ∧
  (∀ (s : State) (enable : Bool), s.chip.mainUp = true →
    exec (.controlIrqEn enable) s = .next (set s fun w => { w with irqEn := enable })) ∧
  (∀ (s : State) (mask : Word), s.chip.mainUp = true → ∃ news : BitVec 14,
    (∀ n < 14, news.getLsbD n = (s.chip.win.news.getLsbD n && !mask.getLsbD n)) ∧
    exec (.news mask) s = .next (set s fun w => { w with news := news })) ∧
  (∀ (s : State) (offset : Nat) (value : Word), s.chip.mainUp = true →
    exec (.registerWrite offset value) s = .next (if offset = 4 then set s fun w =>
      { w with windowBase := if w.partState = .ready ∨ w.partState = .windowFault then value &&& 0xFFFF0000 else w.windowBase }
      else s)) ∧
  (∀ (s : State) (ticket : Word), s.chip.mainUp = true → s.chip.intakeOpen = false →
    exec (.post ticket) s = .next (set s fun w => { w with post := ticket })) ∧
  ∀ s : State, s.chip.irq = true ↔ s.chip.win.irqEn = true ∧ s.chip.win.news ≠ 0

/-- RUN = 1 (R186, R187), where NT lies above POST, so that intake takes nothing: a size outside 64 to 4096 KiB is a WINDOW_FAULT
without a write; a start sets every NEWS bit, writes NT and the counters into the header and publishes every page; HALTED resumes;
in RUNNING there is no effect. Publication by any event while the window is served (R192, R193): a page whose mirrored content the event
changes, or whose publication a rule asks for, stands in the window with header and content as they are after the event, its revision
advanced by 2, even where it was even, and its NEWS bit set; another page keeps its revision. What a page mirrors is its content without the
fields that do not republish it (`Chip.pageContent`); that a page is published once, at the end of its event, is log 6. The end of an order
that the event writes into its slot sets NEWS bit 0. The zone pages P1 to P4, the source page P5 and the outlet page P6, field by field (section
12.6); the codes are log 9; that unused entries of a position list and the stream fields of a source that is no stream are 0, what a
line-level outlet shows as its relay, and how polarity and drive stand in their byte, are log 7. That a content beyond 1016 bytes is cut
off at its end is log 8. -/
def Obligations.RunWrites : Prop :=
  let bit (b : Bool) : Int := if b then 1 else 0
  let part (c : Chip) (p : PageId) (k n : Nat) : List Byte := ((c.pageContent true p).drop (k - 8)).take n
  (∀ (s : State) (f : Chip → Chip) (p : PageId), (s.chip.event f).windowUp = true →
    let c := s.chip.event f
    let t := s.run f
    if t.chip.pageContent false p ≠ s.chip.pageContent false p ∨ p ∈ c.ev.dirty then
      let r := c.win.revisions[p] + 2
      let content := (t.chip.pageContent true p).take 1016
      t.chip.win.revisions[p] = r ∧ (c.win.revisions[p].getLsbD 0 = false → r.getLsbD 0 = false) ∧
      t.chip.win.news.getLsbD p.val = true ∧
      t.dram.bytes (c.base + 8192 + 1024 * p.val) 1024 =
        le32 r.toNat ++ le16 p.val ++ le16 content.length ++ content ++ List.replicate (1016 - content.length) 0
    else t.chip.win.revisions[p] = c.win.revisions[p]) ∧
  (∀ (s : State) (f : Chip → Chip) (n : Fin 32), (s.chip.event f).windowUp = true → (s.chip.event f).base = s.chip.base →
    (∀ m ∈ (s.chip.event f).ev.marks, windowEnd ≤ m.1) →
    let b := (s.run f).dram.read (s.chip.slotAt n)
    b = slotDone ∨ b = slotRefused → s.dram.read (s.chip.slotAt n) ≠ b → (s.run f).chip.win.news.getLsbD 0 = true) ∧
  (∀ (c : Chip) (z : ZoneId), c.ctxs[z].layout.length ≤ 16 →
    let x := c.zones[z]
    let y := c.ctxs[z]
    let a := c.aligns[z]
    let at_ (k n : Nat) : List Byte := part c (Fin.ofNat 14 (z.val + 1)) k n
    let set (q : ParamSet) : List Byte := [byteOf q.crossover, byteOf q.lfe, byteOf (bit q.toFronts)]
    at_ 8 8 = [byteOf (codeOf Power.all x.power), byteOf (codeOf Programme.all x.programme), byteOf x.selected.val,
      byteOf (match x.binding with | some n => n.val | none => 255), byteOf (bit x.restart),
      byteOf (match x.stopCause with | some k => codeOf StopCause.all k | none => 255), byteOf x.onOrders.length,
      byteOf x.offOrders.length] ∧
    at_ 16 2 = le16 x.volume ∧
    at_ 18 10 = [byteOf (bit x.muted), byteOf x.lift, byteOf (bit x.ann.enable), byteOf x.ann.source.val, byteOf x.ann.duck,
      byteOf (codeOf AnnRoute.routes x.ann.route)] ++ le16 x.ann.level ++
      [byteOf (codeOf AnnState.all x.annState), byteOf (bit x.signalPresent)] ∧
    at_ 28 4 = le16 x.videoLatency ++ le16 x.userOffset ∧
    at_ 32 4 = [byteOf (bit a.lipsyncShort + 2 * bit a.alignDropped + 4 * bit a.lateAudio + 8 * bit y.noLfe + 16 * bit x.dropped +
      32 * bit x.limited), byteOf (bit y.useReduced), byteOf y.layout.length, byteOf (bit a.pending)] ∧
    at_ 36 8 = set y.full ++ set y.reduced ++ le16 a.dMax ∧
    at_ 44 8 = le32 y.resolution.toNat ++ le32 y.muteMap.toNat ∧
    at_ 52 20 = le16 a.lDec ++ le16 ((a.lip : Int) - a.granted) ++ le32 a.requested ++ le32 a.lip ++ le32 a.granted ++
      le16 (c.claim z) ++ le16 (c.held z) ∧
    (∀ k < 16, at_ (72 + 2 * k) 2 = match y.layout[k]? with
      | some e => [byteOf (Position.all.idxOf e.1), byteOf (if e.2 = .small then 1 else 0)]
      | none => [0, 0]) ∧
    ∀ k < 24, at_ (104 + 8 * k) 8 = match (allOutlets.filter fun o => c.outlets[o].zone == some z)[k]? with
      | some o =>
        let d : Nat := (c.outlets[o].line.map Line.delay).getD 0
        [byteOf o.val, byteOf (bit c.outlets[o].line.isSome)] ++
          le16 (((a.grant.find? fun e => e.outlet == o).map GrantEntry.distance).getD 0 : Nat) ++ le16 d ++ le16 ((d + 63) / 64 : Nat)
      | none => [0xFF, 0, 0, 0, 0, 0, 0, 0]) ∧
  (∀ (c : Chip) (n : SourceId),
    let x := c.sources[n]
    let p := x.profile
    let at_ (k len : Nat) : List Byte := part c 5 (8 + 48 * n.val + k) len
    at_ 0 8 = [byteOf (codeOf SrcState.all x.state), byteOf (match x.phase with | some k => codeOf Phase.all k | none => 255),
      byteOf (match x.reason with | some k => codeOf Phase.all k | none => 255),
      byteOf (match x.format with | some f => codeOf Format.all f | none => 255), byteOf x.detail, byteOf x.lanes,
      byteOf (bit x.signalPresent), byteOf (codeOf Decode.all x.decode)] ∧
    at_ 8 4 = le32 (match x.rate with | some r => r.hz | none => 0) ∧
    at_ 12 6 = [byteOf x.failCount, byteOf (bit x.preferPcm + 2 * bit x.enable), byteOf (codeOf Format.all x.offer),
      byteOf (codeOf OfferReason.all x.offerReason), byteOf (bit x.activeMismatch), byteOf (bit x.retryTimer.isSome)] ∧
    at_ 18 5 = [byteOf (bit p.formatsValid), byteOf p.supported.toNat,
      byteOf (match p.active with | some f => codeOf Format.all f | none => 255), byteOf (bit p.carriageValid),
      byteOf p.carriageClass] ∧
    at_ 24 20 = if n = 13 ∨ n = 14 then
        let y := c.streams[(if n = 13 then 0 else 1 : StreamId)]
        le32 y.offset ++ le32 y.size ++ [byteOf (codeOf StreamFormat.all y.format), byteOf (if y.rate = .r44 then 0 else 1),
          byteOf (bit y.overrun), byteOf (bit y.stopped)] ++ le32 y.fillMark.toNat ++ le32 y.drain.toNat
      else List.replicate 20 0) ∧
  (∀ (c : Chip) (o : OutletId),
    let x := c.outlets[o]
    let speaker : Bool := decide (o.val < 16)
    let at_ (k len : Nat) : List Byte := part c 6 (8 + 40 * o.val + k) len
    let assigned (a : Option Assignment) : List Byte := match a with
      | some a => [byteOf a.zone.val, byteOf (Position.all.idxOf a.position)]
      | none => [255, 255]
    at_ 0 10 = [byteOf (bit (!speaker)), byteOf (if speaker then (o.val / 4 : Nat) else 255)] ++ assigned x.primary ++
      assigned x.alternate ++ [byteOf (match x.zone with | some z => z.val | none => 255), byteOf (codeOf Placement.all x.placement),
        byteOf (bit x.engaged), byteOf (bit x.unused)] ∧
    at_ 10 6 = [byteOf x.trim, byteOf (codeOf Protection.all x.protection),
      byteOf (match x.cause with | some k => codeOf TripCause.all k | none => 255), byteOf x.history.length,
      byteOf (if speaker then bit x.relay else 255), byteOf x.ceiling] ∧
    at_ 16 2 = le16 x.distance ∧ at_ 18 1 = [byteOf (bit x.pendingAssign.isSome)] ∧
    at_ 20 4 = le32 (match x.pendingAssign with | some t => t.toNat | none => 0) ∧
    (∀ k < 3, at_ (24 + 4 * k) 4 = le32 (x.history[k]?.getD 0 : Nat)) ∧ at_ 36 1 = [byteOf (bit x.retryTimer.isSome)]) ∧
  (∀ (c : Chip) (g : GroupId), part c 6 (968 + 4 * g.val) 3 =
    [byteOf c.groups[g].w.val, byteOf (bit c.groups[g].tsd), byteOf (bit c.groups[g].dcf)]) ∧
  (∀ (c : Chip) (n : Fin 4),
    let t := c.triggers[n]
    part c 6 (984 + 4 * n.val) 4 = (match t.binding with
      | .none => [0, 255]
      | .zone z => [1, byteOf z.val]
      | .source k => [2, byteOf k.val]) ++ [byteOf (bit t.activeLow + 2 * bit t.openDrain), byteOf (bit t.asserted)]) ∧
  ∀ s : State, s.chip.mainUp = true → s.chip.win.softReset = false →
    2147483648 ≤ (s.chip.win.post - s.chip.win.nextTicket).toNat →
    let size := (s.dram.word s.chip.base).toNat
    match s.chip.win.partState with
    | .running => exec .controlRunSet s = .next s
    | .halted => Does .controlRunSet s fun t =>
        t.core = (s.chip.updWin fun w => { w with partState := .running, lastPost := w.post }).core
    | .ready | .windowFault =>
      if size < 64 ∨ 4096 < size then
        ∃ t, exec .controlRunSet s = .next t ∧ t.pending = s.pending ∧ t.dram = s.dram ∧
          t.chip.core = (s.chip.updWin fun w => { w with partState := .windowFault }).core
      else ∃ t, exec .controlRunSet s = .next t ∧ t.pending = s.pending ∧
        (∀ a, s.chip.outside a → t.dram.read a = s.dram.read a) ∧
        t.chip.core = (s.chip.updWin fun w =>
          { w with partState := .running, windowKiB := size, lastPost := w.post }).core ∧
        t.chip.win.news = 0x3FFF ∧
        (∀ p : PageId, t.chip.win.revisions[p] = 2) ∧
        (∀ p : PageId, t.dram.word (s.chip.base + 8192 + 1024 * p.val) = t.chip.win.revisions[p]) ∧
        t.dram.word (s.chip.base + 4) = s.chip.win.nextTicket ∧ t.dram.word (s.chip.base + 8) = s.chip.win.orderGap ∧
        t.dram.word (s.chip.base + 12) = s.chip.win.orphaned ∧ t.dram.word (s.chip.base + 16) = s.chip.win.duplicate ∧
        t.dram.word (s.chip.base + 20) = s.chip.win.softResetCount

/-- Intake (R189, R190). A write of POST, and one of RUN that starts or resumes the part, begin it: the POST is the last POST value taken,
and then turn after turn is made until none is due, that is until NT lies above POST. A missing ticket counts once in ORDER_GAP and NT
moves on to the nearest posted ticket above it, or past POST; the lowest slot of ticket NT is the order, taken as the order's own command
is; the further ones are refused with DUPLICATE_TICKET, and a slot with a kind code of no order kind with BAD_KIND. That each turn is an
event of its own is log 4. -/
def Obligations.IntakeTurns : Prop :=
  let begins (i : Instr) (start : IntakeStart) (s : State) (c : Chip) : Prop :=
    ∃ u t n, s.beginIntake start = some u ∧ u.pending = s.pending ∧ (∀ m : Fin 32, u.slotBytes m = s.slotBytes m) ∧
      (∀ a, s.chip.outside a → u.dram.read a = s.dram.read a) ∧ u.chip.core = c.core ∧
      n ≤ 66 ∧ u.turns n t ∧ t.intakeTurn = none ∧ exec i s = .next t
  (∀ (s : State) (ticket : Word), s.chip.intakeOpen = true → begins (.post ticket) (.post ticket) s
    (s.chip.updWin fun w => { w with post := ticket, lastPost := ticket })) ∧
  (∀ s : State, s.chip.mainUp = true → s.chip.win.softReset = false → s.chip.win.partState = .halted → begins .controlRunSet .run s
    (s.chip.updWin fun w => { w with partState := .running, lastPost := w.post })) ∧
  (∀ s : State, s.chip.mainUp = true → s.chip.win.softReset = false →
    (s.chip.win.partState = .ready ∨ s.chip.win.partState = .windowFault) →
    let size := (s.dram.word s.chip.base).toNat
    64 ≤ size → size ≤ 4096 → begins .controlRunSet .run s
      (s.chip.updWin fun w => { w with partState := .running, windowKiB := size, lastPost := w.post })) ∧
  (∀ s : State, s.intakeTurn = none ↔ ¬ s.turnDue) ∧
  (∀ s : State, s.turnDue →
    let nt := s.chip.win.nextTicket
    let posted (u : Word) : Prop := ∃ n : Fin 32, s.dram.read (s.chip.slotAt n) = slotPosted ∧ s.dram.word (s.chip.slotAt n + 4) = u
    let between (u : Word) : Prop := posted u ∧ u ≠ 0 ∧ u ≠ nt ∧ (u - nt).toNat ≤ (s.chip.win.post - nt).toNat
    ¬ posted nt →
    ∃ t, s.intakeTurn = some t ∧ t.pending = s.pending ∧ (∀ n : Fin 32, t.slotBytes n = s.slotBytes n) ∧
      t.chip.core = (s.chip.updWin fun w =>
        { w with orderGap := w.orderGap + 1, nextTicket := t.chip.win.nextTicket }).core ∧
      ((∃ u, between u) → between t.chip.win.nextTicket ∧
        ∀ u, between u → (t.chip.win.nextTicket - nt).toNat ≤ (u - nt).toNat) ∧
      ((¬ ∃ u, between u) → t.chip.win.nextTicket = if s.chip.win.post = 0xFFFFFFFF then 1 else s.chip.win.post + 1)) ∧
  (∀ (s : State) (i : Instr) (p : Posting), s.memoryWf → i.wellFormed = true → posting i = some p →
    s.chip.takesOrder p.head.ticket = true → s.turnDue → p.head.ticket = s.chip.win.nextTicket →
    s.dram.bytes (s.chip.slotAt p.head.slot) p.bytes.length = p.bytes → s.candidates = [p.head.slot] →
    ∃ t, exec i s = .next t ∧ s.intakeTurn = some t) ∧
  (∀ (s : State) (n : Fin 32), s.turnDue → s.candidates = [n] →
    let kind := (s.dram.read (s.chip.slotAt n + 1)).toNat
    kind = 0 ∨ 36 < kind → ∃ t, s.intakeTurn = some t ∧ t.pending = s.pending ∧
      (∀ a, s.chip.outside a → t.dram.read a = s.dram.read a) ∧ t.chip.core = (s.chip.took s.chip.win.nextTicket).core ∧
      s.shows t { duplicateEnd s.chip.win.nextTicket n with code := .badKind }) ∧
  ∀ (s : State) (n : Fin 32) (others : List (Fin 32)), s.turnDue → s.candidates = n :: others → s.chip.win.inFlight = [] →
    ∃ t, s.intakeTurn = some t ∧ t.pending = s.pending ∧
      t.chip.win.nextTicket = (if s.chip.win.nextTicket = 0xFFFFFFFF then 1 else s.chip.win.nextTicket + 1) ∧
      t.chip.win.duplicate = s.chip.win.duplicate + BitVec.ofNat 32 others.length ∧
      ∀ m ∈ others, s.shows t (duplicateEnd s.chip.win.nextTicket m)

/-- Soft reset (R196, R164): the write ends a running test, at once (log 29) and keeping its level (log 40), and sets SOFT_RESET; when it
takes effect, the registers are as after a main power-up but for WINDOW_BASE and SOFT_RESET_COUNT, every zone is OFF, the Standby Block
keeps its settings and its power state, and nothing is written into the window. -/
def Obligations.SoftReset : Prop :=
  (∀ s : State, s.chip.mainUp = true → Does .controlSoftReset s fun t =>
    let c := s.chip.updWin fun w => { w with softReset := true }
    t.core = (match s.chip.test.zone with
      | none => c
      | some z => (c.updTest fun x => { TestRec.initial with level := x.level }).updCtx z fun y =>
          { y with holds := y.holds.filter fun k => k ≠ Hold.test }).core) ∧
  ∀ s : State, s.chip.mainUp = true → s.chip.win.softReset = true →
    ∃ t, exec .softResetTakesEffect s = .next t ∧ t.pending = s.pending ∧ t.dram = s.dram ∧
      t.chip.win = { Win.initial with windowBase := s.chip.win.windowBase, softResetCount := s.chip.win.softResetCount + 1 } ∧
      t.chip.sbb.kept = s.chip.sbb.kept ∧ t.chip.sbb.power = s.chip.sbb.power ∧
      (∀ z : ZoneId, t.chip.sbb.idle[z].timer = none) ∧
      (∀ z : ZoneId, t.chip.zones[z].steady = Zone.initial.steady ∧ t.chip.ctxs[z].kept = Ctx.initial.kept) ∧
      (∀ e : EngineId, t.chip.engines[e] = Engine.initial) ∧ t.chip.tuner = Tuner.initial ∧ t.chip.cal = CalRec.initial ∧
      t.chip.imu = Imu.initial ∧
      ∀ o : OutletId, t.chip.outlets[o].zone = none ∧ t.chip.outlets[o].protection = match groupOf o with
        | none => .normal
        | some g => if s.chip.pins.dcf[g] then .latched else if s.chip.pins.tsd[g] then .tripped
          else if s.chip.pins.w[g] = 0 then .normal else .derated

/-- Bus errors (R187, R189, R192, R195): the part is in WINDOW_FAULT, the orders in flight will end without a write, MEASURE orders lose
their meters, the streams that are set up are STALLED. Of a stream access and of a slot read of intake nothing is written and NT stays. Of
the refusal of a further candidate for ticket NT the refusals before it stand, its end is ORPHANED and NT stays. Of a data block read NT has
moved on past the order, and its result is ORPHANED. A failed write of a turn of intake leaves the turn taken, with NT moved on. A failed
write of an event, whichever it is, takes back itself and what stood behind it: the results before it stand, a failed result and those behind
it are ORPHANED, an order whose ACCEPTED failed is in flight, a page is left odd. A drain mark is written before the results (R34): where it
fails, every result is ORPHANED, and where a result fails, the mark stands. Further candidates are refused before either (R189). That NT
moves on past a refusal of WIN's own (BAD_KIND, BAD_TARGET, a full list) whose write fails is log 61. The rest of the order of an event's
writes is the model's choice (log 14), and which access failed is the command's operand; the mark of an order that ends without a write is
log 37. -/
def Obligations.BusErrors : Prop :=
  (∀ s : State, s.chip.mainUp = true → s.chip.windowUp = false → ∃ t, exec (.busError .headerRead) s = .next t ∧
    t.pending = s.pending ∧ t.dram = s.dram ∧
    t.chip.core = (s.chip.updWin fun w => { w with partState := .windowFault }).core) ∧
  (∀ (s : State) (m : StreamId), s.chip.mainUp = true → s.chip.windowUp = true → s.chip.streams[m].stopped = false →
    s.chip.streams[m].frozen = false → ∃ t, exec (.busError (.stream m)) s = .next t ∧ s.faults t ∧ t.dram = s.dram) ∧
  (∀ (s u v : State) (start : IntakeStart) (n : Nat), s.beginIntake start = some u → u.turns n v → v.turnDue →
    (∃ t, exec (.busError (.intakeRead start n)) s = .next t ∧ v.faults t ∧ t.dram = v.dram) ∧
    (∀ (k j : Fin 32) (l rest : List (Fin 32)), v.candidates = k :: (l ++ j :: rest) → v.chip.win.inFlight = [] →
      ∃ t, exec (.busError (.duplicateWrite start n j)) s = .next t ∧ v.faults t ∧
        t.chip.win.duplicate = v.chip.win.duplicate + BitVec.ofNat 32 l.length ∧
        t.chip.win.orphaned = v.chip.win.orphaned + 1 ∧
        (∀ m ∈ l, v.shows t (duplicateEnd v.chip.win.nextTicket m)) ∧ t.slotBytes j = v.slotBytes j ∧ t.slotBytes k = v.slotBytes k) ∧
    (∀ (i : Instr) (p : Posting), posting i = some p → i.wellFormed = true → v.memoryWf →
      p.head.ticket = v.chip.win.nextTicket → v.candidates = [p.head.slot] →
      v.dram.bytes (v.chip.slotAt p.head.slot) p.bytes.length = p.bytes →
      p.kind = .layoutLoad ∨ p.kind = .wakeTable → p.kind.targetOk p.head.target.toNat = true → v.chip.win.inFlight = [] →
      ∃ t, exec (.busError (.blockRead start n)) s = .next t ∧
        State.faults { v with chip := v.chip.took p.head.ticket } t ∧ t.chip.win.orphaned = v.chip.win.orphaned + 1 ∧
        t.chip.sbb.table = v.chip.sbb.table) ∧
    ∀ (r : State) (x : Written) (w : EventWrite), v.intakeTurn = some r → r.last = some x → r.chip.mainUp = true →
      r.chip.windowUp = true → x.made r.chip w →
      ∃ t, exec (.busError (.intakeWrite start n w)) s = .next t ∧ r.faults t ∧ exec (.busError (.written w)) r = .next t) ∧
  (∀ (s u : State) (start : IntakeStart) (x : Written) (w : EventWrite), s.beginIntake start = some u → u.last = some x →
    u.chip.mainUp = true → u.chip.windowUp = true → x.made u.chip w →
    ∃ t, exec (.busError (.openingWrite start w)) s = .next t ∧ u.faults t ∧ exec (.busError (.written w)) u = .next t) ∧
  ∀ (s : State) (x : Written), s.chip.mainUp = true → s.chip.windowUp = true → s.last = some x →
    (∀ w : EventWrite, ¬ x.made s.chip w → exec (.busError (.written w)) s = .next s) ∧
    (∀ w : EventWrite, x.made s.chip w → ∃ t, exec (.busError (.written w)) s = .next t ∧ s.faults t) ∧
    let holds (e : OrderEnd) : Prop := e.lost = false ∧ x.dram.read (s.chip.slotAt e.slot) = e.expects ∧
      x.dram.word (s.chip.slotAt e.slot + 4) = e.ticket
    let result (e : OrderEnd) : Prop := e.code ≠ .duplicateTicket
    let out : Prop := ∀ p ∈ x.marks, windowEnd ≤ p.1
    (∀ (m : StreamId) (w : Word) (rest : List (Nat × Word)), s.chip.streams[m].stopped = false →
      x.marks = (s.chip.streams[m].offset - 4, w) :: rest → (∀ e ∈ x.ends, result e) → s.chip.win.inFlight = [] →
      ∃ t, exec (.busError (.written (.mark m))) s = .next t ∧ t.dram = x.dram ∧
        t.chip.win.orphaned = x.orphaned + BitVec.ofNat 32 x.ends.length) ∧
    (∀ (a : Nat) (w : Word) (e : OrderEnd) (rest : List OrderEnd), x.marks = [(a, w)] → x.ends = e :: rest →
      (∀ d ∈ x.ends, result d) → s.chip.win.inFlight = [] →
      ∃ t, exec (.busError (.written (.result e.ticket))) s = .next t ∧
        t.dram = x.dram.write (s.chip.base + a) (le32Word w) ∧
        t.chip.win.orphaned = x.orphaned + BitVec.ofNat 32 (rest.length + 1)) ∧
    (∀ (e : OrderEnd) (rest : List OrderEnd), x.ends = e :: rest → (∀ d ∈ x.ends, result d) → x.marks = [] →
      s.chip.win.inFlight = [] →
      ∃ t, exec (.busError (.written (.result e.ticket))) s = .next t ∧ t.dram = x.dram ∧
        t.chip.win.orphaned = x.orphaned + BitVec.ofNat 32 (rest.length + 1)) ∧
    (∀ (d e : OrderEnd) (rest : List OrderEnd), x.ends = d :: e :: rest → d.ticket ≠ e.ticket → (∀ y ∈ e :: rest, result y) →
      holds d → out → s.chip.win.inFlight = [] →
      ∃ t, exec (.busError (.written (.result e.ticket))) s = .next t ∧ s.shows t d ∧
        t.chip.win.orphaned = x.orphaned + BitVec.ofNat 32 (rest.length + 1)) ∧
    (∀ (e : InFlight) (rest : List InFlight), x.ends = [] → x.fresh = e :: rest → x.marks = [] →
      ∃ t, exec (.busError (.written (.accepted e.ticket))) s = .next t ∧ t.dram = x.dram) ∧
    (∀ (d : OrderEnd) (e : InFlight) (rest : List InFlight), x.ends = [d] → x.fresh = e :: rest → d.slot ≠ e.slot → holds d → out →
      ∃ t, exec (.busError (.written (.accepted e.ticket))) s = .next t ∧ s.shows t d ∧
        t.dram.bytes (s.chip.slotAt e.slot) 128 = x.dram.bytes (s.chip.slotAt e.slot) 128) ∧
    (x.ends = [] → x.fresh = [] → x.marks = [] → x.header = true →
      ∃ t, exec (.busError (.written .header)) s = .next t ∧ t.dram = x.dram) ∧
    ∀ (p : PageId) (rest : List PageId), x.marks = [] → x.pages = p :: rest →
      ∃ t, exec (.busError (.written (.page p))) s = .next t ∧ t.chip.win.revisions[p] = x.revisions[p] + 1 ∧
        t.dram.word (s.chip.base + 8192 + 1024 * p.val) = x.revisions[p] + 1 ∧
        ∀ a, s.chip.base + 8192 ≤ a → (a < s.chip.base + 8192 + 1024 * p.val ∨ s.chip.base + 8192 + 1024 * p.val + 4 ≤ a) →
          t.dram.read a = x.dram.read a

/-! ### Supplies and the Standby Block (11) -/

/-- A backup start and a cold start (R174, R183): the always-on state at its cold-start values, the backup domain at its own or kept,
the main domain held, and then the resume decision, which wakes the part with cause RESUME. Nothing is written into the window. That a
backup start sets the always-on state too is log 28. -/
def Obligations.Starts : Prop :=
  (∀ s : State, ∃ t, exec .backupStart s = .next t ∧ t.pending = s.pending ∧ t.dram = s.dram ∧
    t.chip.sbb.core = Standby.initial.core ∧ t.chip.mainHeld = t.chip ∧ t.chip.pins = s.chip.pins) ∧
  ∀ s : State, let b := { Standby.initial with
      history := s.chip.sbb.history, historyValid := s.chip.sbb.historyValid, resume := s.chip.sbb.resume }
    ∃ t, exec .coldStart s = .next t ∧ t.pending = s.pending ∧ t.dram = s.dram ∧ t.chip.pins = s.chip.pins ∧
      if s.chip.sbb.historyValid = true ∧ ∃ k, s.chip.sbb.resume = some k ∧ s.chip.sbb.history[k] = true then
        if s.chip.pins.mainGood = true then
          t.chip.sbb.core = ({ b with power := .active, wakeCause := some .resume, historyTimer := some 24000 } : Standby).core ∧
            t.chip.win = Win.initial ∧ t.chip.powerUpAt = s.chip.clock
        else t.chip.sbb.core = ({ b with power := .active, wakeCause := some .resume, supplyTimer := some 48000 } : Standby).core ∧
            t.chip.mainHeld = t.chip
      else t.chip.sbb.core = b.core ∧ t.chip.mainHeld = t.chip

/-- Main supplies (R174, R175, R177, R183): a rise of MAIN_GOOD during a wake is the main power-up, with a stored wake source applied
to ZM and the fault lines read (R111); at other times it is only a line; a fall, the supply timer's expiry and the countdown's expiry
end in STANDBY with a final history sample, the main domain held. That the sample at a fall and at a supply timeout is OFF is log
23. -/
def Obligations.MainSupplies : Prop :=
  (∀ s : State, s.chip.pins.mainGood = true → exec .mainGoodRise s = .next s) ∧
  (∀ s : State, s.chip.pins.mainGood = false → s.chip.heldWhenDown →
    ∃ t, exec .mainGoodRise s = .next t ∧ t.pending = s.pending ∧ t.dram = s.dram ∧
    t.chip.pins = { s.chip.pins with mainGood := true } ∧
    if s.chip.sbb.power = .active ∧ s.chip.sbb.supplyTimer.isSome = true then
      t.chip.win = Win.initial ∧
      t.chip.sbb.core = ({ s.chip.sbb with wakeSource := none, supplyTimer := none, historyTimer := some 24000 } : Standby).core ∧
      t.chip.powerUpAt = s.chip.clock ∧
      (∀ z : ZoneId, t.chip.zones[z].steady =
        (if z = 0 then { Zone.initial with selected := s.chip.sbb.wakeSource.getD 8 } else Zone.initial).steady) ∧
      ∀ o : OutletId, t.chip.outlets[o].zone = none ∧ t.chip.outlets[o].protection = match groupOf o with
        | none => .normal
        | some g => if s.chip.pins.dcf[g] then .latched else if s.chip.pins.tsd[g] then .tripped
          else if s.chip.pins.w[g] = 0 then .normal else .derated
    else t.chip.sbb.core = s.chip.sbb.core ∧ t.chip.mainHeld = t.chip) ∧
  (∀ s : State, s.chip.pins.mainGood = false → exec .mainGoodFall s = .next s) ∧
  let down (x : Standby) (on : Bool) (t : State) : Prop :=
    t.chip.sbb.power = .standby ∧ t.chip.mainHeld = t.chip ∧ t.chip.sbb.historyValid = true ∧
    t.chip.sbb.history[0] = on ∧ (∀ n : Fin 7, t.chip.sbb.history[n.succ] = x.history[n.castSucc]) ∧
    t.chip.sbb.sleepTimer = none ∧ t.chip.sbb.supplyTimer = none ∧ t.chip.sbb.historyTimer = none ∧
    (∀ z : ZoneId, t.chip.sbb.idle[z].timer = none) ∧ t.chip.sbb.wakeCause = x.wakeCause ∧ t.chip.sbb.wakeSource = x.wakeSource
  (∀ s : State, s.chip.pins.mainGood = true → s.chip.sbb.power ≠ .standby →
    ∃ t, exec .mainGoodFall s = .next t ∧ t.pending = s.pending ∧ t.chip.pins = { s.chip.pins with mainGood := false } ∧
      down s.chip.sbb false t) ∧
  (∀ s : State, s.chip.sbb.supplyTimer.isSome = true →
    ∃ t, exec .supplyTimeout s = .next t ∧ t.pending = s.pending ∧ t.dram = s.dram ∧ t.chip.pins = s.chip.pins ∧
      down s.chip.sbb false t) ∧
  ∀ s : State, s.chip.sbb.sleepTimer.isSome = true →
    ∃ t, exec .sleepCountdownExpiry s = .next t ∧ t.pending = s.pending ∧ t.chip.pins = s.chip.pins ∧
      down s.chip.sbb (decide (s.chip.zones[(0 : ZoneId)].power = .on)) t

/-- A decoded frame (R175, R177, R180, R181): the lowest-numbered complete entry is the match; it disarms the table, is recorded as
the last match, and wakes the part in STANDBY or cancels a countdown, but for REPORT; without one, the matching double entries are
armed with the frame's start. A malformed frame changes nothing. When a frame began is log 17. An IR frame of nominal lengths decodes
to its bytes, also behind a malformed frame, and a repeat frame to none (R178). Bytes on the control line may stand apart by less than
3 ms (R179). -/
def Obligations.WakeFrames : Prop :=
  let frame (i : Instr) (line : WakeLine) (s : State) (bytes : List Byte) (start : Int) : Prop :=
    let x := s.chip.sbb
    let fits (e : WakeEntry) : Bool := e.line == line && e.bytes.length == bytes.length &&
      (List.range bytes.length).all fun k => e.bytes.getD k 0 == 0 || e.bytes.getD k 0 == bytes.getD k 0
    let full (e : WakeEntry) : Bool := fits e &&
      (!e.double || e.armed.any fun a => decide (start - a < x.window * 20 * 24576))
    let set (f : WakeEntry → WakeEntry) : Standby := { x with table := x.table.map fun e => e.map f }
    let clear (n : Fin 8) : Standby := { set fun e => { e with armed := none } with lastMatch := some (.entry n) }
    (∀ n : Fin 8, (∀ e, x.table[n] = some e → full e = true →
        (∀ k : Fin 8, k < n → x.table[k].any full = false) →
        let report : Prop := Does i s fun t => t.core = (s.chip.updSbb fun _ => clear n).core
        let wakes (source : Option SourceId) : Prop :=
          match x.power with
          | .standby => s.chip.heldWhenDown → Does i s fun t =>
              t.sbb.kept = ({ clear n with power := .active, wakeCause := some (.pattern n), wakeSource :=
                if s.chip.pins.mainGood then none else source } : Standby).kept ∧
              (s.chip.pins.mainGood = true → t.win = Win.initial ∧ t.zones[(0 : ZoneId)].selected = source.getD 8) ∧
              (s.chip.pins.mainGood = false → t.sbb.supplyTimer = some 48000)
          | .active => report
          | .sleepPending => Does i s fun t => t.core = (s.chip.updSbb fun _ =>
              { clear n with power := .active, sleepTimer := none }).core
        match e.action with
        | .report => report
        | .wake => wakes none
        | .wakeWithSource n => wakes (some n))) ∧
    ((∀ n : Fin 8, x.table[n].any full = false) → Does i s fun t =>
      t.core = (s.chip.updSbb fun _ => set fun e => if fits e && e.double then { e with armed := some start } else e).core)
  (∀ (s : State) (l : List Nat), match irDecode l with
    | none => Does (.irFrame l) s fun t => t.core = s.chip.core
    | some (bytes, f) => frame (.irFrame l) .ir s bytes (s.chip.clock - ((f.dropLast.sum + 6000) * 24576 / 1000 : Nat))) ∧
  (∀ (s : State) (l : List ControlByte),
    if l ≠ [] ∧ l.length ≤ 4 ∧ ∀ b ∈ l, b.stop = true then
      frame (.controlLineFrame l) .control s (l.map ControlByte.value)
        (s.chip.clock - ((l.length * 1042 + (l.dropLast.map ControlByte.gap).sum + 3000) * 24576 / 1000 : Nat))
    else Does (.controlLineFrame l) s fun t => t.core = s.chip.core) ∧
  let nominal (bytes : List Byte) : List Nat := [4800, 2400] ++
    bytes.flatMap (fun b => (List.range 8).flatMap fun k => [600, if b.getLsbD k then 1800 else 600]) ++ [600, 6000]
  (∀ bytes : List Byte, bytes ≠ [] → bytes.length ≤ 4 → irDecode (nominal bytes) = some (bytes, nominal bytes) ∧
    (∀ mark space : Nat, 5760 < mark → irDecode ([mark, space] ++ nominal bytes) = some (bytes, nominal bytes)) ∧
    ∀ mark space : Nat, 900 ≤ mark → mark < 3840 →
      irDecode ([4800, 2400, mark, space] ++ nominal bytes) = some (bytes, nominal bytes)) ∧
  irDecode [4800, 1200, 600, 6000] = some ([], [4800, 1200, 600, 6000])

/-- WAKE_IN (R179), the clearing of an armed field (R181), history samples (R183), idle expiry (R182) and a blink (R184). What restarts idle
timers (R182): an order of a zone-targeted kind, whatever its result, the timer of its zone, which then stands at the full setting while the
zone is ON; a decoded frame and an assertion of WAKE_IN in ACTIVE and SLEEP_PENDING, every running one. What holds them is
`FollowingStateFollows`. The time that a timer still needs passes at its expiry, before what the expiry does (log 2). -/
def Obligations.StandbyEvents : Prop :=
  let restarts (i : Instr) (s : State) : Prop :=
    s.chip.sbb.power ≠ .standby → Does i s fun t =>
      ∀ z : ZoneId, s.chip.sbb.idle[z].timer.isSome = true → t.sbb.idle[z].timer = s.chip.sbb.idle[z].full
  (∀ (s : State) (l : List Nat), (irDecode l).isSome = true → restarts (.irFrame l) s) ∧
  (∀ (s : State) (l : List ControlByte), l ≠ [] → l.length ≤ 4 → (∀ b ∈ l, b.stop = true) → restarts (.controlLineFrame l) s) ∧
  (∀ s : State, s.chip.sbb.wakeInEnable = true → restarts .wakeInAssertion s) ∧
  (∀ (s : State) (i : Instr) (p : Posting), posting i = some p → s.chip.takesOrder p.head.ticket = true →
    p.head.ticket = s.chip.win.nextTicket → p.head.target.toNat ≤ 3 → s.chip.claimQueued .cal = false →
    p.kind ∈ [OrderKind.zonePower, .zoneSource, .announce, .layoutLoad, .positionMute, .volume, .mute, .dialogueLift, .lipsync,
      .calibrate, .idleSet, .idleExpire] →
    let z := zoneOf p.head.target
    s.chip.zones[z].power = .on → s.chip.sbb.idle[z].timer.isSome = true → ∃ t, exec i s = .next t ∧
      (t.chip.zones[z].power = .on → t.chip.sbb.idle[z].timer = t.chip.sbb.idle[z].full)) ∧
  (∀ s : State, if s.chip.sbb.wakeInEnable = true then
      match s.chip.sbb.power with
      | .standby => s.chip.heldWhenDown → Does .wakeInAssertion s fun t =>
          t.sbb.kept = ({ s.chip.sbb with power := .active, wakeCause := some .line, wakeSource := none } : Standby).kept ∧
          (s.chip.pins.mainGood = true → t.win = Win.initial) ∧ (s.chip.pins.mainGood = false → t.sbb.supplyTimer = some 48000)
      | .active | .sleepPending => Does .wakeInAssertion s fun t =>
          t.core = (s.chip.updSbb fun x => { x with lastMatch := some .line }).core
    else Does .wakeInAssertion s fun t => t.core = s.chip.core) ∧
  (∀ (s : State) (n : Fin 8), Does (.wakeArmedExpiry n) s fun t => t.kept = (s.chip.updSbb fun x =>
    { x with table := x.table.set n (x.table[n].map fun e => { e with armed := none }) }).kept) ∧
  (∀ s : State, s.chip.sbb.historyTimer.isSome = true → Does .historySample s fun t =>
    t.settled = (s.chip.updSbb fun x =>
      { x with history := Vector.ofFn fun n => if n = 0 then decide (s.chip.zones[(0 : ZoneId)].power = .on) else x.history[n - 1],
               historyValid := true }).settled ∧ t.sbb.historyTimer = some 24000) ∧
  (∀ (s : State) (z : ZoneId), s.chip.mainUp = true → s.chip.sbb.idle[z].timer.isSome = true → s.chip.idleHeld z = false →
    Does (.idleTimerExpiry z) s fun t => t.kept = s.chip.kept ∧
      (s.chip.zones[z].power ≠ .off → t.zones[z].stopCause = some .idle) ∧
      (s.chip.zones[z].power = .on → (s.chip.passTimer s.chip.sbb.idle[z].timer).zoneSilent z = false →
        t.zones[z].power = .stopping)) ∧
  ∀ (s : State) (n : Fin 4), s.chip.sbb.indicators[n].timer.isSome = true →
    Does (.indicatorBlinkToggle n) s fun t => t.settled = s.chip.settled ∧
      (s.chip.sbb.indicators[n].function = .manual → s.chip.sbb.indicators[n].shown = s.chip.sbb.indicators[n].manual →
        t.sbb.indicators[n].level = !s.chip.sbb.indicators[n].level ∧
        t.sbb.indicators[n].timer =
          some (if s.chip.sbb.indicators[n].level = true ∧ s.chip.sbb.indicators[n].shown = .blinkSlow then 72000 else 24000))

/-! ### Events of zones, sources, streams and engines (01, 02, 03) -/

/-- The expiry of the settle period (R5 step 7), the end of a stop's ramp (R8, R9), with the zone's pending orders DONE and their three
values (R4, R6), with the release of the zone's delay lines and grant (R106), and, where it leaves every zone OFF in ACTIVE, the entry to
SLEEP_PENDING with its countdown of 2 s (R176); the silent SOURCE_SWITCH hold, with the source change's order DONE (R12), the expiry of an
announcement's hold (R16), a zone's signal and its window (R18). -/
def Obligations.ZoneEvents : Prop :=
  ∀ (s : State) (z : ZoneId), s.chip.mainUp = true →
    let x := s.chip.zones[z]
    let bound := x.binding
    (x.settleTimer.isSome = true → Does (.zoneSettleExpiry z) s fun t =>
      t.settled = (s.chip.updZone z fun y => { y with power := .on, settleTimer := none, onOrders := [] }).settled ∧
        t.sbb.idle[z].timer = s.chip.sbb.idle[z].full) ∧
    (x.settleTimer.isSome = true → ∀ k ∈ x.onOrders, Ends (.zoneSettleExpiry z) s k .ok false false
      [.num 2, .num (codeOf Programme.all (s.chip.programmeOf z)), .num (optCode (codeOf StopCause.all) x.stopCause)]) ∧
    (x.power = .stopping → ∀ k ∈ x.offOrders, s.chip.tunerOrderOther k → Ends (.zoneStopRampEnd z) s k .ok false false
      [.num 0, .num 0, .num (optCode (codeOf StopCause.all) x.stopCause)]) ∧
    (Hold.sourceSwitch ∈ s.chip.ctxs[z].holds → ∀ k, x.switchOrder = some k → s.chip.tunerOrderOther k →
      Ends (.sourceSwitchHoldSilent z) s k .ok false false []) ∧
    (x.power = .stopping → Does (.zoneStopRampEnd z) s fun t => t.kept = s.chip.kept ∧ t.zones[z].offOrders = [] ∧
      (x.restart = false → t.zones[z].power = .off ∧ t.zones[z].binding = none ∧ t.zones[z].programme = .none ∧
        t.ctxs[z].holds = [] ∧ t.ctxs[z].paths = [] ∧ t.zones[z].limited = false ∧
        t.aligns[z].pending = false ∧ t.aligns[z].grant = [] ∧ t.aligns[z].demand = 0 ∧ t.aligns[z].short = false ∧
        ∀ o : OutletId, t.outlets[o].zone = some z → t.outlets[o].line = none) ∧
      (x.restart = false → s.chip.sbb.power = .active → (∀ y : ZoneId, y ≠ z → s.chip.zones[y].power = .off) →
        t.sbb.power = .sleepPending ∧ t.sbb.sleepTimer = some 96000) ∧
      (x.restart = true → t.zones[z].power = .starting ∧ t.zones[z].binding = some x.selected ∧ t.zones[z].restart = false ∧
        t.zones[z].onOrders = x.onOrders)) ∧
    (Hold.sourceSwitch ∈ s.chip.ctxs[z].holds → Does (.sourceSwitchHoldSilent z) s fun t =>
      t.settled = (s.chip.updZone z fun y => { y with binding := some y.selected, switchOrder := none }).settled) ∧
    (x.annHoldTimer.isSome = true → Does (.announceHoldExpiry z) s fun t =>
      t.settled = s.chip.settled ∧ t.zones[z].annState ≠ .hold ∧ t.zones[z].annHoldTimer = none) ∧
    (bound.isSome = true → Does (.zoneSignalDetect z) s fun t =>
      t.core = (s.chip.updZone z fun y => { y with signalWindow := some 48000 }).core ∧
        (x.programme = .playing → s.chip.programmeOf z = .playing → t.zones[z].signalPresent = true)) ∧
    (x.signalWindow.isSome = true → Does (.zoneSignalWindowExpiry z) s fun t =>
      t.settled = s.chip.settled ∧ t.zones[z].signalPresent = false ∧ t.zones[z].signalWindow = none)

/-- A source's signal and its window (R33); the first word-clock edge and a refused claim, with the claim for a rate measurement of 4096
periods (R23); clock loss with everything of R26 cleared; the periodic check, with its claim where a meter is FREE, which never waits
(R27); the silent FORMAT_CHANGE hold (R29); the retry of a decode: the failure is over, and every zone bound to a source that carries a
compressed format is a consumer of the engine that decodes it, or queued (R31). A port of these is a clocked port. That the first
word-clock edge reaches no meter, so that the meter just given stays ARMED and at a port with a signal nothing changes, is log 59. -/
def Obligations.SourceEvents : Prop :=
  ∀ (s : State) (n : SourceId), s.chip.mainUp = true →
    let x := s.chip.sources[n]
    let port := n.val ≤ 7 ∨ n.val = 15
    let measures (h : Holder) (t : Chip) : Prop := ∀ m : MeterId, s.chip.freeMeter = some m →
      let y := t.imu.meters[m]
      y.state = .armed ∧ y.holder = some h ∧ y.edgeA = { source := .portWclk n, rising := true } ∧
        y.edgeB = { source := .portWclk n, rising := true } ∧ y.bCount = 4096 ∧ y.ordered = true ∧ y.limit = 200
    let claims (h : Holder) (t : Chip) : Prop :=
      if s.chip.refusesClaim h true then t.imu.queue = s.chip.imu.queue
      else measures h t ∧ (s.chip.freeMeter = none → t.imu.queue.map Claim.holder = s.chip.imu.queue.map Claim.holder ++ [h])
    (s.chip.sourceSounds n = true → Does (.sourceSignalDetect n) s fun t =>
      t.core = s.chip.core ∧ t.sources[n].signalPresent = true ∧ t.sources[n].signalWindow = some 48000) ∧
    (x.signalWindow.isSome = true → Does (.sourceSignalWindowExpiry n) s fun t =>
      t.settled = s.chip.settled ∧ t.sources[n].signalPresent = false ∧ t.sources[n].signalWindow = none) ∧
    (port → x.state = .noSignal → Does (.portWclkFirstEdge n) s fun t =>
      t.kept = (s.chip.updSource n fun y => { y with state := .acquiring, phase := some .rate }).kept ∧
        t.sources[n].claimRetry = (if s.chip.refusesClaim (.sfeRate n) true then some 4800 else none) ∧ claims (.sfeRate n) t) ∧
    (port → x.state ≠ .noSignal → Does (.portWclkFirstEdge n) s fun t => t.core = s.chip.core) ∧
    (x.claimRetry.isSome = true → Does (.claimRetryExpiry n) s fun t => t.kept = s.chip.kept ∧
      t.sources[n].claimRetry = (if s.chip.refusesClaim (.sfeRate n) true then some 4800 else none) ∧ claims (.sfeRate n) t) ∧
    (port → Does (.clockLoss n) s fun t => t.kept = (s.chip.updSource n fun y =>
      { y with state := .noSignal, phase := none, reason := none, rate := none, format := none, detail := 0, lanes := 0,
               failCount := 0, frameLayout := 0 }).kept ∧ t.sources[n].checkTimer = none ∧ t.sources[n].retryTimer = none ∧
        t.sources[n].claimRetry = none ∧ t.sources[n].decode = .none ∧ t.sources[n].signalPresent = false ∧
        t.sources[n].signalWindow = none) ∧
    (x.checkTimer.isSome = true → Does (.periodicCheckDue n) s fun t =>
      t.kept = s.chip.kept ∧ t.sources[n].checkTimer = some 480000 ∧ t.imu.queue = s.chip.imu.queue ∧
        if s.chip.refusesClaim (.sfeCheck n) false then t.imu.meters.map Meter.holder = s.chip.imu.meters.map Meter.holder
        else measures (.sfeCheck n) t) ∧
    (∀ z : ZoneId, Hold.formatChange ∈ s.chip.ctxs[z].holds → Does (.formatChangeHoldSilent z) s fun t =>
      t.settled = s.chip.settled ∧ Hold.formatChange ∉ t.ctxs[z].holds) ∧
    (x.retryTimer.isSome = true → Does (.decodeRetryExpiry n) s fun t =>
      t.kept = s.chip.kept ∧ t.sources[n].retryTimer = none ∧
        if x.carries = none then t.sources[n].decode = x.decode
        else t.sources[n].decode ≠ .failed ∧
          (s.chip.engineOf n = none → (t.engineOf n).isSome = true → t.sources[n].decode = .engaged) ∧
          ∀ z : ZoneId, s.chip.zones[z].binding = some n →
            (∃ e : EngineId, t.engines[e].source = some n ∧ z ∈ t.engines[e].consumers) ∨ z ∈ t.waitQueue)

/-- Format detection (R25, R28, R29): a preamble locks a detecting source in its format, changes the format of a LOCKED one, and a code
of no format accepted takes either to UNSUPPORTED; 8192 periods without one lock PCM, or end a bitstream; a link port's frame status
is stored and changes a PCM format. That the end of the count of periods is a command, without effect elsewhere, is log 32; that no
active lane is PCM2 is log 46. -/
def Obligations.FormatEvents : Prop :=
  ∀ (s : State) (n : SourceId), s.chip.mainUp = true → s.chip.watched n = true →
    let x := s.chip.sources[n]
    let detecting := x.state = .acquiring ∧ x.phase = some .format ∨ x.state = .unsupported ∧ x.reason = some .format
    let lock (f : Format) (detail : Nat) : Chip := s.chip.updSource n fun y =>
      { y with state := .locked, phase := none, reason := none, format := some f, detail := detail }
    let change (f : Format) (detail : Nat) : Chip := s.chip.updSource n fun y =>
      { y with format := some f, detail := detail, failCount := 0 }
    let pcm : Format × Nat := if n.val ≤ 5 ∧ 1 < x.lanes then (.pcm8, x.frameLayout) else (.pcm2, 0)
    (∀ code : Nat, Does (.preamble n code) s fun t => t.kept = Chip.kept (
      match (Format.ofPreamble code).filter (acceptsFormat n) with
      | some f => if detecting then lock f 0 else if x.state = .locked ∧ x.format ≠ some f then change f 0 else s.chip
      | none =>
        if x.state = .acquiring ∧ x.phase = some .format then s.chip.updSource n fun y =>
          { y with state := .unsupported, phase := none, reason := some .format, format := none, detail := 0 }
        else if x.state = .locked then s.chip.updSource n fun y =>
          { y with state := .unsupported, phase := none, reason := some .format, format := none, detail := 0, failCount := 0 }
        else s.chip)) ∧
    (Does (.noPreambleCountExpiry n) s fun t => t.kept = Chip.kept (
      if detecting then lock pcm.1 pcm.2
      else if x.state = .locked ∧ (x.format = some .obj ∨ x.format = some .hrs ∨ x.format = some .sur) then change pcm.1 pcm.2
      else s.chip)) ∧
    ∀ lanes layout : Nat, n.val ≤ 5 → x.state ≠ .noSignal →
      let now : Format × Nat := if 1 < lanes then (.pcm8, layout) else (.pcm2, 0)
      Does (.portFrameStatusChange n lanes layout) s fun t =>
        t.kept = ((if x.state = .locked ∧ (x.format = some .pcm8 ∨ x.format = some .pcm2) ∧ (x.format ≠ some now.1 ∨ x.detail ≠ now.2)
          then change now.1 now.2 else s.chip).updSource n fun y => { y with lanes := lanes, frameLayout := layout }).kept

/-- A fill mark read (R35, R36, R37): it is due while the source is STALLED, and while the stream drains with less than 512 bytes in its
FIFO, and comes again 1 ms later; where none is due nothing changes. An overrun stalls the source and drops what waits; otherwise waiting
bytes are fetched as far as they fit, for a STALLED source only with a quarter of the buffer waiting; the drain mark in the window
follows, and beside the window's own areas nothing else changes. A stream that plays with nothing waiting has underrun and stalls. That
the bytes are fetched at the command, and that a STALLED stream fetches nothing below a quarter, is the model's (log 33), as is the time
that passes to the read (log 2); the fill mark stands 8, the drain mark 4 bytes below the buffer (R34). -/
def Obligations.StreamEvents : Prop :=
  (∀ (s : State) (m : StreamId), s.chip.mainUp = true → 32776 ≤ s.chip.streams[m].offset →
    let c := s.chip.passTimer s.chip.streams[m].readTimer
    let x := c.streams[m]
    let state := s.chip.sources[streamSource m].state
    if ¬ (s.chip.windowUp = true ∧ x.stopped = false ∧ x.frozen = false ∧
        (state = .stalled ∨ (state = .locked ∨ state = .acquiring ∨ state = .unsupported) ∧ x.fifo.length < 512)) then
      Does (.streamFillMarkRead m) s fun t => t.core = s.chip.core
    else
    let fill := s.dram.word (s.chip.base + x.offset - 8)
    let waiting := (fill - x.drain).toNat
    let n := min waiting (1024 - x.fifo.length)
    let mark := s.chip.base + x.offset - 4
    ∃ t, exec (.streamFillMarkRead m) s = .next t ∧ t.pending = s.pending ∧
      (∀ a, s.chip.outside a → (a < mark ∨ mark + 4 ≤ a) → t.dram.read a = s.dram.read a) ∧
      t.chip.streams[m].fillMark = fill ∧
      if x.size < waiting then
        t.chip.streams[m].overrun = true ∧ t.chip.streams[m].drain = fill ∧ t.chip.streams[m].fifo = [] ∧
          t.chip.streams[m].readPos = (x.readPos + waiting) % x.size ∧
          t.chip.sources[streamSource m].state = .stalled ∧ t.dram.word mark = fill
      else if s.chip.sources[streamSource m].state = .stalled ∧ 4 * waiting < x.size then
        t.chip.core = (c.updStream m fun y => { y with fillMark := fill, readTimer := some 48 }).core ∧
          t.dram.word mark = s.dram.word mark
      else
        t.chip.streams[m].fifo = x.fifo ++ (List.range n).map (fun k =>
          s.dram.read (s.chip.base + x.offset + (x.readPos + k) % x.size)) ∧
          t.chip.streams[m].drain = x.drain + BitVec.ofNat 32 n ∧ t.chip.streams[m].readPos = (x.readPos + n) % x.size ∧
          t.dram.word mark = x.drain + BitVec.ofNat 32 n ∧
          (s.chip.sources[streamSource m].state = .stalled →
            if s.chip.sources[streamSource m].format.isSome = true then t.chip.sources[streamSource m].state = .locked
            else t.chip.sources[streamSource m].state = .acquiring ∧ t.chip.sources[streamSource m].phase = some .format) ∧
          t.chip.streams[m].readTimer = if x.fifo.length + n < 512 then some 48 else none) ∧
  ∀ (s : State) (m : StreamId), s.chip.mainUp = true → s.chip.streamDrains m = true →
    Does (.streamUnderrun m) s fun t => t.kept = Chip.kept (
      if s.chip.streams[m].fillMark = s.chip.streams[m].drain then s.chip.updSource (streamSource m) fun y =>
        { y with state := .stalled, phase := none, reason := none }
      else s.chip) ∧ t.streams[m].fifo = []

/-- A frame at an engine whose source is not STALLED (R47, R56, R57): two good ones in a row bring it to DECODING, eight bad ones in a
row from there to RESYNC; in DECODING the output stands at its full factor from the start, in RESYNC at none. Of two descriptions of one
object the first counts (log 35), and a level outside 0 to −160 is held as a free value (log 48). The expiry of the phase timer is a start
failure: the source fails, the engine becomes FREE and serves the queue (R31, R53 to R55, R58). A request of a zone for a source that locks
in a compressed format (R49 to R52): OBJ goes to DE0, if need be by migrating what DE0 decodes to a FREE DE1; another format goes to DE1,
then to DE0; with no engine to be had, ZM takes one by preemption, and any other zone waits at the tail of the queue. -/
def Obligations.EngineEvents : Prop :=
  (∀ (s : State) (e : EngineId), s.chip.mainUp = true → s.chip.engines[e].state ≠ .free →
    s.chip.sourceStalled s.chip.engines[e].source = false →
    let x := s.chip.engines[e]
    (∀ (passes : Bool) (objects : List ObjDesc), Does (.bitstreamFrame e passes objects) s fun t =>
      let good := passes && (x.format != some .obj || objects.all fun d => decide (d.azimuth ≤ 359) && decide (d.elevation ≤ 1))
      let list := if x.format = some .obj then objectList objects else []
      let y : Engine :=
        if good then
          if x.state = .decoding then { x with badRun := 0, objects := list }
          else if x.goodRun = 0 then { x with goodRun := 1, objects := list }
          else { x with state := .decoding, goodRun := 0, badRun := 0, phaseTimer := none, objects := list, sound := 96 }
        else
          let bad := min 255 (x.badRun + 1)
          if x.state ≠ .decoding then { x with goodRun := 0, badRun := bad }
          else if bad < 8 then { x with badRun := bad }
          else { x with state := .resync, goodRun := 0, badRun := bad, phaseTimer := some 24000, objects := [], sound := 0 }
      let c := s.chip.updEngine e fun _ => y
      t.core = (match x.source with
        | some n =>
          if y.state = EngineState.decoding ∧ x.state ≠ EngineState.decoding then c.updSource n fun q => { q with failCount := 0 }
          else c
        | none => c).core) ∧
    ∀ n, x.source = some n → x.phaseTimer.isSome = true → Does (.phaseTimerExpiry e) s fun t =>
      t.kept = (s.chip.updSource n fun q => { q with failCount := min 4 (q.failCount + 1) }).kept ∧
        t.sources[n].decode = .failed ∧
        t.sources[n].retryTimer = (if s.chip.sources[n].failCount + 1 ≤ 3 then some 96000 else none) ∧
        t.engines[e].source ≠ some n ∧ t.sources[n].signalPresent = false ∧
        (s.chip.waitQueue = [] → t.engines[e] = Engine.initial ∧ t.waitQueue = []) ∧
        ∀ (z : ZoneId) (rest : List ZoneId) (k : SourceId) (f : Format), s.chip.waitQueue = z :: rest →
          s.chip.zones[z].binding = some k → k ≠ n → s.chip.sources[k].carries = some f → s.chip.sources[k].decode ≠ .failed →
          f.eligible e = true →
          t.engines[e].state = .starting ∧ t.engines[e].source = some k ∧ t.engines[e].format = some f ∧
            z ∈ t.engines[e].consumers ∧ z ∉ t.waitQueue ∧ t.sources[k].decode = .engaged) ∧
  ∀ (s : State) (n : SourceId) (z : ZoneId) (code : Nat) (f : Format), s.chip.mainUp = true → s.chip.watched n = true →
    s.chip.sources[n].detecting = true → Format.ofPreamble code = some f → acceptsFormat n f = true →
    s.chip.boundZones n = [z] → s.chip.sources[n].decode = .none → s.chip.engineOf n = none →
    let d0 := s.chip.engines[(0 : EngineId)]
    let d1 := s.chip.engines[(1 : EngineId)]
    let starts (t : Chip) (e : EngineId) (k : SourceId) (g : Format) (l : List ZoneId) : Prop :=
      t.engines[e] = { state := .starting, source := some k, format := some g, latency := g.latency, consumers := l, goodRun := 0,
                       badRun := 0, phaseTimer := some 24000, objects := [], sound := 0 }
    let takes (t : Chip) (e : EngineId) : Prop := starts t e n f [z] ∧ z ∉ t.waitQueue ∧ t.sources[n].decode = .engaged
    let preempts (t : Chip) (e : EngineId) : Prop := takes t e ∧
      (∀ y ∈ s.chip.engines[e].consumers, y ≠ z → y ∈ t.waitQueue) ∧
      ∀ k, s.chip.engines[e].source = some k → t.sources[k].decode = .none
    let waits (t : Chip) : Prop := t.engines = s.chip.engines ∧
      t.waitQueue = if z ∈ s.chip.waitQueue then s.chip.waitQueue else s.chip.waitQueue ++ [z]
    Does (.preamble n code) s fun t =>
      if f = .obj then
        if d0.state = .free then takes t 0 ∧ t.engines[(1 : EngineId)] = d1
        else if d1.state = .free ∧ d0.format ≠ some .obj then takes t 0 ∧
          ∀ k g, d0.source = some k → d0.format = some g → starts t 1 k g d0.consumers
        else if z = 0 then preempts t 0 ∧ t.engines[(1 : EngineId)] = d1
        else waits t
      else if d1.state = .free then takes t 1 ∧ t.engines[(0 : EngineId)] = d0
      else if d0.state = .free then takes t 0 ∧ t.engines[(1 : EngineId)] = d1
      else if z = 0 then preempts t 1 ∧ t.engines[(0 : EngineId)] = d0
      else waits t

/-! ### Events of levels, outlets, meters, the tuner, tests and calibration (05 to 10) -/

/-- The end of a path's ramp (R81, R85): every path of that identity stands at its goal, and one that was leaving is gone; the time that
the ramp still needed has passed (log 2). The silent REGRANT hold (R103, R105): with a grant pending, it is no longer, the hold is lifted,
every granted outlet has its line at the granted delay, built empty where the delay is new, and no other line changes its delay; where
the switch leaves blocks to a zone that is short, a round follows, which is not said here. The end of a withdrawal whose outlet is
silent or no longer serving (R113, R114, R117, R118): a lent outlet is placed in its alternate zone, or stays at home where that zone has
stopped; a reassigned one is placed in its new alternate zone if that is STARTING or ON, else in its new primary zone, else in none, and its
OUTLET_ASSIGN ends DONE. -/
def Obligations.RampAndWithdrawalEvents : Prop :=
  (∀ (s : State) (z : ZoneId) (id : PathId) (q : Path), s.chip.mainUp = true →
    s.chip.ctxs[z].paths.find? (fun q => q.id == id) = some q →
    let d := (q.goal - q.applied).natAbs
    Does (.pathRampEnd z id) s fun t =>
      t.settled = s.chip.settled ∧ t.clock = s.chip.clock + 512 * (if q.fast then (d + 3) / 4 else d) ∧
        (s.chip.followed → s.chip.underCeilings → (∀ p ∈ s.chip.ctxs[z].paths, p.id = id → p = q) →
          ∀ p ∈ t.ctxs[z].paths, p.id = id → p.applied = q.goal ∧ (q.leaving = true → p.leaving = false))) ∧
  (∀ (s : State) (z : ZoneId), s.chip.mainUp = true → Hold.regrant ∈ s.chip.ctxs[z].holds →
    let a := s.chip.aligns[z]
    Does (.regrantHoldSilent z) s fun t => t.settled = s.chip.settled ∧
      (a.pending = true → (a.grant.map GrantEntry.outlet).Nodup → (∀ y : ZoneId, s.chip.aligns[y].short = false) →
        t.aligns[z] = { a with pending := false } ∧ Hold.regrant ∉ t.ctxs[z].holds ∧
        (∀ e ∈ a.grant, ∃ l, t.outlets[e.outlet].line = some l ∧ l.delay = e.delay ∧
          ((s.chip.outlets[e.outlet].line.map Line.delay ≠ some e.delay) → l.age = 0)) ∧
        ∀ o : OutletId, o ∉ a.grant.map GrantEntry.outlet →
          t.outlets[o].line.map Line.delay = s.chip.outlets[o].line.map Line.delay)) ∧
  ∀ (s : State) (o : OutletId), s.chip.mainUp = true →
    s.chip.outletSilent o = true ∨ s.chip.outlets[o].protection.serving = false →
    let x := s.chip.outlets[o]
    match x.placement with
    | .lending => Does (.withdrawalEnd o) s fun t => t.kept = s.chip.kept ∧
        ((∀ a, x.alternate = some a → s.chip.started a.zone = true →
            t.outlets[o].zone = some a.zone ∧ t.outlets[o].placement = .lent ∧ t.outlets[o].engaged = true) ∧
          ((∀ a, x.alternate = some a → s.chip.started a.zone = false) →
            t.outlets[o].zone = x.zone ∧ t.outlets[o].placement = .home))
    | .reassigning =>
      let lent := x.alternate.any fun a => s.chip.started a.zone
      let place := if lent then x.alternate else x.primary
      let y : Outlet := { x with
        zone := place.map Assignment.zone
        placement := if lent then .lent else .home
        engaged := place.any fun a => s.chip.started a.zone
        pendingAssign := none }
      (Does (.withdrawalEnd o) s fun t => t.kept = s.chip.kept ∧ t.outlets[o].zone = y.zone ∧
        t.outlets[o].placement = y.placement ∧ t.outlets[o].engaged = y.engaged ∧ t.outlets[o].pendingAssign = none) ∧
      ∀ ticket, x.pendingAssign = some ticket → Ends (.withdrawalEnd o) s ticket .ok false false y.assignValues
    | .home | .lent => Does (.withdrawalEnd o) s fun t => t.core = s.chip.core

/-- Protection of one outlet: an over-current trip, latching at the third in the history (R120); the check at the retry (R121); the
expiry of a history entry (R109); a cleared line. A latch that leaves a STARTING or ON zone with no outlet that is not LATCHED stops the
zone with cause FAULT, and every other zone keeps its power state and its stop cause (R10). A trip's time is in milliseconds since the main
power-up (R109); at a retry's check the time that the retry timer still needed has passed (log 2). A run in another zone that goes on to
its next outlet lets a meter tick pass in the event, in which the zone may find silence (log 36). -/
def Obligations.OutletProtectionEvents : Prop :=
  let lastOf (s : State) (o : OutletId) (z : ZoneId) : Prop :=
    s.chip.outlets[o].zone = some z ∧ (s.chip.zones[z].power = .starting ∨ s.chip.zones[z].power = .on) ∧
      ∀ k : OutletId, k ≠ o → s.chip.outlets[k].zone = some z → s.chip.outlets[k].protection = .latched
  (∀ (s : State) (o : SpeakerId), s.chip.mainUp = true →
    let n := speakerOutlet o
    let x := s.chip.outlets[n]
    let c : Chip := { s.chip with pins := { s.chip.pins with oc := s.chip.pins.oc.set o true } }
    if x.protection = .normal ∨ x.protection = .derated then
      Does (.overcurrentAsserted o) s fun t => t.kept = (c.updOutlet n fun y =>
        { y with protection := if 2 ≤ x.history.length then .latched else .tripped, cause := some .overcurrent,
                 history := x.history ++ [(s.chip.clock - s.chip.powerUpAt) / 24576] }).kept ∧ t.outlets[n].relay = false ∧
        (s.chip.cal.run = .idle → t.outlets[n].retryTimer = if 2 ≤ x.history.length then none else some 96000) ∧
        ∀ z : ZoneId,
          (2 ≤ x.history.length ∧ lastOf s n z → t.zones[z].stopCause = some .fault ∧
            (s.chip.cal.run = .idle ∨ s.chip.cal.zone = some z → s.chip.zoneSilent z = false → t.zones[z].power = .stopping)) ∧
          (¬ (2 ≤ x.history.length ∧ lastOf s n z) →
            t.zones[z].power = s.chip.zones[z].power ∧ t.zones[z].stopCause = s.chip.zones[z].stopCause)
    else Does (.overcurrentAsserted o) s fun t => t.core = c.core) ∧
  (∀ (s : State) (o : SpeakerId), exec (.overcurrentCleared o) s =
    .next { s with chip := { s.chip with pins := { s.chip.pins with oc := s.chip.pins.oc.set o false } } }) ∧
  (∀ (s : State) (o : OutletId) (g : GroupId) (r : Nat), s.chip.mainUp = true → groupOf o = some g →
    s.chip.outlets[o].retryTimer = some r →
    let y := s.chip.groups[g]
    Does (.tripRetryExpiry o) s fun t => (∀ z : ZoneId, lastOf s o z → s.chip.outlets[o].protection ≠ .latched →
      y.dcf = true ∨ s.chip.overcurrentLine o = true ∧ 2 ≤ s.chip.outlets[o].history.length →
      t.zones[z].stopCause = some .fault) ∧ t.kept = (s.chip.updOutlet o fun x =>
      if y.dcf = true then { x with protection := .latched, cause := some .dc }
      else if s.chip.overcurrentLine o = true then
        { x with protection := if 2 ≤ x.history.length then .latched else .tripped, cause := some .overcurrent,
                 history := x.history ++ [(s.chip.clock + 512 * r - s.chip.powerUpAt) / 24576] }
      else if y.tsd = true ∨ 2 ≤ y.w.val then { x with protection := .tripped, cause := some .thermal }
      else { x with protection := if y.w = 0 then .normal else .derated, cause := none }).kept) ∧
  ∀ (s : State) (o : OutletId), s.chip.mainUp = true → Does (.tripHistoryExpiry o) s fun t =>
    t.kept = (s.chip.updOutlet o fun x => { x with history := x.history.tail }).kept

/-- Lines of a group (R115, R121, R122, R123): the ceilings and the serving states by the temperature level; a shutdown trips every outlet
that is not LATCHED, and ends with TSD clear and w at most 1 by the check of each; a DC fault latches every outlet; no other outlet changes.
A STARTING or ON zone whose every outlet is then LATCHED, one of them by the DC fault, stops with cause FAULT (R10), and every other zone
keeps its power state and its stop cause. That while the main domain is held only the line changes is the model's reading of R174 (log 42).
-/
def Obligations.GroupLineEvents : Prop :=
  ∀ (s : State) (g : GroupId),
    let p := s.chip.pins
    let line (i : Instr) (p : Pins) : Prop :=
      s.chip.mainUp = false → s.chip.heldWhenDown → Does i s fun t => t.core = { s.chip with pins := p }.core
    let others (t : Chip) : Prop := ∀ o, groupOf o ≠ some g → t.outlets[o].kept = s.chip.outlets[o].kept
    let check (w : Fin 4) (o : OutletId) (t : Chip) : Prop :=
      let x := s.chip.outlets[o]
      s.chip.groups[g].dcf = false → s.chip.overcurrentLine o = false → x.protection = .tripped → x.cause = some .thermal →
        t.outlets[o].cause = none ∧ t.outlets[o].protection = if w = 0 then .normal else .derated
    (∀ w, line (.temperatureWarningChange g w) { p with w := p.w.set g w }) ∧
    line (.tsdAsserted g) { p with tsd := p.tsd.set g true } ∧ line (.tsdCleared g) { p with tsd := p.tsd.set g false } ∧
    line (.dcfAsserted g) { p with dcf := p.dcf.set g true } ∧ line (.dcfCleared g) { p with dcf := p.dcf.set g false } ∧
    (s.chip.mainUp = true →
      (∀ w : Fin 4, Does (.temperatureWarningChange g w) s fun t =>
        t.groups = s.chip.groups.set g { s.chip.groups[g] with w := w } ∧ t.pins = { p with w := p.w.set g w } ∧ others t ∧
        ∀ o, groupOf o = some g → t.outlets[o].ceiling = 30 - 6 * (w.val : Int) ∧
          (s.chip.outlets[o].protection.serving = true → t.outlets[o].protection = if w = 0 then .normal else .derated) ∧
          (s.chip.groups[g].tsd = false → w.val ≤ 1 → check w o t) ∧
          (s.chip.outlets[o].protection = .latched → t.outlets[o].protection = .latched)) ∧
      (Does (.tsdAsserted g) s fun t => t.groups = s.chip.groups.set g { s.chip.groups[g] with tsd := true } ∧ others t ∧
        ∀ o, groupOf o = some g → t.outlets[o].kept =
          (if s.chip.outlets[o].protection = .latched then s.chip.outlets[o]
           else { s.chip.outlets[o] with protection := .tripped, cause := some .thermal }).kept) ∧
      (Does (.tsdCleared g) s fun t => t.groups = s.chip.groups.set g { s.chip.groups[g] with tsd := false } ∧ others t ∧
        ∀ o, groupOf o = some g → (s.chip.groups[g].w.val ≤ 1 → check s.chip.groups[g].w o t) ∧
          (2 ≤ s.chip.groups[g].w.val → t.outlets[o].kept = s.chip.outlets[o].kept)) ∧
      (Does (.dcfAsserted g) s fun t => t.groups = s.chip.groups.set g { s.chip.groups[g] with dcf := true } ∧ others t ∧
        (∀ o, groupOf o = some g →
          t.outlets[o].kept = { s.chip.outlets[o] with protection := .latched, cause := some .dc }.kept) ∧
        ∀ z : ZoneId,
          let loses : Prop := (s.chip.zones[z].power = .starting ∨ s.chip.zones[z].power = .on) ∧
            (∃ o, groupOf o = some g ∧ s.chip.outlets[o].zone = some z ∧ s.chip.outlets[o].protection ≠ .latched) ∧
            ∀ o : OutletId, s.chip.outlets[o].zone = some z → groupOf o = some g ∨ s.chip.outlets[o].protection = .latched
          (loses → t.zones[z].stopCause = some .fault ∧
            (s.chip.cal.run = .idle ∨ s.chip.cal.zone = some z → s.chip.zoneSilent z = false → t.zones[z].power = .stopping)) ∧
          (¬ loses → t.zones[z].power = s.chip.zones[z].power ∧ t.zones[z].stopCause = s.chip.zones[z].stopCause)) ∧
      Does (.dcfCleared g) s fun t => t.core = (Chip.updGroup { s.chip with pins := { p with dcf := p.dcf.set g false } } g
        fun y => { y with dcf := false }).core)

/-- Edges and limits (R128, R130, R131, R135): an edge that closes no meter opens or counts on each meter that it qualifies for; an edge or a
limit that ends the MEASURE of a meter releases the meter, and the order is no longer in flight: it has ended DONE with the meter, its count
and the first edge, or with TIMING_FAIL and what the meter has seen; that TIMING_FAIL does not show CLAMPED is the model's choice (log 51).
The released meter goes to the claim at the head of the queue, armed with that claim's arming, an ORDER edge firing then, and is FREE where
no claim waits (R132, R134); the closing edge does not count for the new arming (log 75). The calibration run that is given it is MUTING
where its hold is not silent at once (R167). The close of an acquisition's meter classes the rate: the port goes on to its format, or is
UNSUPPORTED as at the limit (R24). The close of a check's meter, and its limit, leave the port as it is, send it to NO_SIGNAL with what R26
clears, or from UNSUPPORTED(RATE) on to its format (R27). The close of the calibration's meter adds its ticks and counts the burst, its limit
adds nothing, and the run keeps the meter (R168). The ticks up to the edge, or to the limit, pass first (log 2), and a meter that comes to
its limit with the edge still takes the edge (log 41). That the elapsed time of a meter in DONE or OVER stands still is log 64. -/
def Obligations.MeterEvents : Prop :=
  let pass (dt : Nat) (x : Meter) : Meter :=
    if x.state = .armed ∨ x.state = .opened then
      let d := min dt (x.limit * 24576 - x.elapsed)
      { x with elapsed := x.elapsed + d, ticks := if x.state = .opened ∧ x.aSeen ≠ x.bSeen then x.ticks + d else x.ticks }
    else x
  let runNext (s : State) : Prop := s.chip.imu.queue.head?.map Claim.holder = some .cal
  let noReport (s : State) (dt : Nat) : Prop :=
    runNext s → ∀ z, s.chip.cal.zone = some z → (s.chip.passTicks dt).holdSilent z .calibration = false
  let toRun (s : State) (m : MeterId) (t : Chip) : Prop := runNext s → t.cal.run = .muting ∧ t.cal.meter = some m
  let classed (p : SourceId) (k : Nat) : Option Rate :=
    (nominalRates p).find? fun r => decide (200 * ((4096 * 24576000 : Int) - r.hz * k).natAbs ≤ r.hz * k)
  let acquired (r : Option Rate) (x : Source) : Source := match r with
    | some r => { x with state := .acquiring, phase := some .format, reason := none, rate := some r }
    | none => { x with state := .unsupported, phase := none, reason := some .rate, format := none, detail := 0 }
  let checked (r : Option Rate) (x : Source) : Source :=
    if x.state = .unsupported ∧ x.reason = some .rate then (if r.isSome then acquired r x else x)
    else if (x.state = .locked ∨ x.state = .unsupported) ∧ (r = none ∨ r ≠ x.rate) then
      { x with state := .noSignal, phase := none, reason := none, rate := none, format := none, detail := 0, lanes := 0,
               failCount := 0, frameLayout := 0 }
    else x
  (∀ (s : State) (after : Nat) (e : Edge), s.chip.mainUp = true → e.fromOutside = true →
    let closes (x : Meter) : Bool := x.state == .opened &&
      if x.firstA = some true then x.edgeB == e && decide (x.bCount ≤ x.bEdges + 1) else x.edgeA == e
    let take (x : Meter) : Meter :=
      if x.state = .armed ∧ x.edgeA = e then { x with state := .opened, aSeen := true, firstA := some true }
      else if x.state = .armed ∧ x.edgeB = e ∧ x.ordered = false then
        { x with state := .opened, bSeen := true, firstA := some false }
      else if x.state = .opened ∧ x.firstA = some true ∧ x.edgeB = e then { x with bEdges := x.bEdges + 1 }
      else x
    let imu : Imu := { s.chip.imu with meters := s.chip.imu.meters.map fun x => take (pass after x) }
    ((∀ m : MeterId, closes s.chip.imu.meters[m] = false) → Does (.meterEdge after e) s fun t =>
      t.settled = s.chip.settled ∧ t.imu = imu) ∧
    ∀ m : MeterId, closes s.chip.imu.meters[m] = true → (∀ k : MeterId, k ≠ m → closes s.chip.imu.meters[k] = false) →
      let k := (pass after s.chip.imu.meters[m]).ticks
      match s.chip.imu.meters[m].holder with
      | some (.win ticket) => noReport s after → (s.chip.win.inFlight.map InFlight.ticket).Nodup →
          Does (.meterEdge after e) s fun t => t.settled = s.chip.settled ∧ t.imu = imu.releasing m ∧ toRun s m t ∧
            (∀ f ∈ t.win.inFlight, f.ticket ≠ ticket) ∧
            Ends (.meterEdge after e) s ticket .ok s.chip.imu.meters[m].clamped false
              [.num m.val, .num k, .num (if s.chip.imu.meters[m].firstA = some true then 0 else 1)]
      | some (.sfeRate p) => Does (.meterEdge after e) s fun t =>
          t.kept = (s.chip.updSource p (acquired (classed p k))).kept
      | some (.sfeCheck p) => Does (.meterEdge after e) s fun t =>
          t.kept = (s.chip.updSource p (checked (classed p k))).kept
      | some .cal => s.chip.cal.run = .measuring → Does (.meterEdge after e) s fun t => t.settled = s.chip.settled ∧
          t.cal.tickSum = s.chip.cal.tickSum + k ∧ t.cal.valid = s.chip.cal.valid + 1 ∧ t.cal.results = s.chip.cal.results ∧
          t.imu.meters[m].state = .done ∧ t.imu.meters[m].holder = some .cal
      | none => Does (.meterEdge after e) s fun t => t.settled = s.chip.settled ∧ t.imu.meters[m].state = .done) ∧
  ∀ (s : State) (m : MeterId), s.chip.mainUp = true → s.chip.imu.meters[m].state = .armed ∨ s.chip.imu.meters[m].state = .opened →
    match s.chip.imu.meters[m].holder with
    | some (.win ticket) =>
        let x := s.chip.imu.meters[m]
        let left := x.limit * 24576 - x.elapsed
        noReport s left → (s.chip.win.inFlight.map InFlight.ticket).Nodup →
        (Does (.meterLimitExpiry m) s fun t => t.settled = s.chip.settled ∧
          t.imu = ({ s.chip.imu with meters := s.chip.imu.meters.map (pass left) } : Imu).releasing m ∧ toRun s m t ∧
          ∀ f ∈ t.win.inFlight, f.ticket ≠ ticket) ∧
        Ends (.meterLimitExpiry m) s ticket .timingFail false false
          [.num m.val, .num (boolCode x.aSeen), .num (boolCode x.bSeen), .num x.bEdges,
           .num (if x.state = .opened ∧ x.aSeen ≠ x.bSeen then x.ticks + (x.limit * 24576 - x.elapsed) else x.ticks : Nat)]
    | some (.sfeRate p) => s.chip.meterOf (.sfeRate p) = some m → Does (.meterLimitExpiry m) s fun t =>
        t.kept = (s.chip.updSource p (acquired none)).kept
    | some (.sfeCheck p) => Does (.meterLimitExpiry m) s fun t => t.kept = (s.chip.updSource p (checked none)).kept
    | some .cal => Does (.meterLimitExpiry m) s fun t => t.settled = s.chip.settled ∧ t.imu.meters[m].state = .over ∧
        t.imu.meters[m].holder = some .cal ∧ t.cal.tickSum = s.chip.cal.tickSum ∧ t.cal.valid = s.chip.cal.valid
    | none => Does (.meterLimitExpiry m) s fun t => t.settled = s.chip.settled ∧ t.imu.meters[m].state = .over

/-- The tuner's timers with what its front end reads (R143 to R145, R147, R149, R153): the settle ends in LISTENING with its order;
a measurement is taken every 100 ms; a seek stops on a frequency that passes, steps on, or settles at its start; a scan enters what
passes, or merges it into the previous entry one step below where it is stronger, and steps on, or goes back to its return station. The
order ends with the station and the measurement, a SEEK that has found nothing with NOT_FOUND, and a scan with its two counts, and LIST_FULL
where the list was full. In LISTENING T carries M + (b/16) × S and M − (b/16) × S on FM, and on AM the one demodulated programme on both
channels (R144). -/
def Obligations.TunerEvents : Prop :=
  ∀ (s : State) (r : Reception), s.chip.mainUp = true → r.wellFormed = true →
    let x := s.chip.tuner
    let fm := x.station.band = .fm
    let q := if fm then r.multipath else 0
    let pilot := if fm then r.pilot else false
    let blend : Nat := if 12 ≤ q ∨ x.station.mode = .mono ∨ pilot = false ∨ ¬ fm then 0 else min 16 ((r.level - 20) * 16 / 20)
    let values (st : Station) : List ResultValue :=
      [.num (codeOf Band.all st.band), .num st.freq, .num (codeOf Mode.all st.mode), .num r.level, .num q, .num (boolCode pilot), .num blend]
    let measured (t : Chip) : Prop := t.tuner.level = r.level ∧ t.tuner.multipath = q ∧ t.tuner.pilot = pilot
    let followed (t : Chip) : Prop := measured t ∧
      t.tuner.blend = blend ∧
      t.tuner.softMute = (if r.level < 10 then min 20 (2 * (10 - r.level)) else 0)
    let passes := if fm then x.sFm ≤ r.level ∧ q ≤ 8 else x.sAm ≤ r.level
    let g := bandGrid x.region x.station.band
    let dwell := if fm then 960 else 1920
    (x.state = .listening → ∀ left right : ℚ, x.stereo left right = if fm then
        ((left + right) / 2 + (x.blend : ℚ) / 16 * ((left - right) / 2), (left + right) / 2 - (x.blend : ℚ) / 16 * ((left - right) / 2))
      else (left, left)) ∧
    (x.state = .tuning → Does (.tunerSettleExpiry r) s fun t => t.settled = s.chip.settled ∧ followed t ∧
      t.tuner.state = .listening ∧ t.tuner.order = none ∧ t.tuner.measTimer = some 4800) ∧
    (x.state = .tuning → ∀ o, x.order = some o → if o.kind = .seek then
        Ends (.tunerSettleExpiry r) s o.ticket .notFound false false (values x.station)
      else Ends (.tunerSettleExpiry r) s o.ticket .ok o.clamped false (values x.station)) ∧
    (∀ up start f o, x.state = .seeking → x.seek = some (up, start) → x.step = some f → x.order = some o → passes →
      Ends (.seekDwellEnd r) s o.ticket .ok false false (values { x.station with freq := f })) ∧
    (x.state = .listening → Does (.tunerMeasurementDue r) s fun t => t.settled = s.chip.settled ∧ followed t ∧
      t.tuner.state = .listening ∧ t.tuner.ds = x.ds ∧ t.tuner.measTimer = some 4800) ∧
    (∀ up start f, x.state = .seeking → x.seek = some (up, start) → x.step = some f → Does (.seekDwellEnd r) s fun t =>
      let next := if up then (if f = g.2.1 then g.1 else f + g.2.2) else if f = g.1 then g.2.1 else f - g.2.2
      if passes then followed t ∧ t.tuner.state = .listening ∧ t.tuner.station = { x.station with freq := f } ∧
        t.tuner.seek = none ∧ t.tuner.step = none ∧ t.tuner.order = none
      else if next = start then measured t ∧ t.tuner.state = .tuning ∧ t.tuner.station = x.station ∧ t.tuner.order = x.order ∧
        t.tuner.seek = none ∧ t.tuner.step = none ∧ t.tuner.timer = some (if fm then 1920 else 2880)
      else measured t ∧ t.tuner.state = .seeking ∧ t.tuner.step = some next ∧ t.tuner.timer = some dwell) ∧
    ∀ f, x.state = .scanning → x.step = some f → Does (.scanDwellEnd r) s fun t =>
      let old := (x.stations.find? fun e => decide (e.band = x.station.band ∧ some e.freq = x.prevEntry)).filter fun e =>
        decide (f = e.freq + g.2.2)
      let near := old.isSome
      let entry : ListEntry := { band := x.station.band, freq := f, level := r.level, multipath := q, pilot := pilot, name := none }
      (¬ passes → t.tuner.stations = x.stations) ∧
      (passes → near = false → x.stations.length < 64 → entry ∈ t.tuner.stations ∧
        t.tuner.stations.length = x.stations.length + 1) ∧
      (∀ e, passes → old = some e → t.tuner.stations = if e.level < r.level then
        x.stations.map fun y => if y = e then entry else y else x.stations) ∧
      if (passes ∧ near = false ∧ 64 ≤ x.stations.length) ∨ g.2.1 ≤ f then
        (∀ o, x.order = some o → Ends (.scanDwellEnd r) s o.ticket .ok false
          (decide (passes ∧ near = false ∧ 64 ≤ x.stations.length))
          [.num t.tuner.stations.length, .num (t.tuner.stations.filter fun e => some e.band == x.scanBand).length]) ∧
        t.tuner.order = none ∧ t.tuner.station = x.ret.getD x.station ∧
          t.tuner.state = if s.chip.tunerBound = true then .tuning else .idle
      else t.tuner.state = .scanning ∧ t.tuner.step = some (f + g.2.2) ∧
        t.tuner.station = { x.station with freq := f + g.2.2 } ∧ t.tuner.timer = some dwell

/-- Groups of the data service (R157 to R159), which runs while LISTENING on FM: an identity is kept, and another one clears everything;
a name is accepted on two equal readings in a row. A text is complete where the lowest segment k with the end marker and the segments
before it are all present, with the characters before the marker as its length, or with 64 where all sixteen segments are present without
a marker; in every other case it is not complete, and its length is then 0, which is log 38; a changed flip clears it first. Elsewhere a
group has no effect, and nowhere one with an error that the decoder cannot correct, which comes without its content. That a name takes its
characters as they are, also outside 0x20 to 0x7E, is log 76. -/
def Obligations.DataGroups : Prop :=
  ∀ s : State, s.chip.mainUp = true →
    let x := s.chip.tuner
    let d := x.ds
    let runs := x.state = .listening ∧ x.station.band = .fm
    (∀ i, i = .idGroup none ∨ (∃ n, i = .nameGroup n none) ∨ (∃ n b, i = .textGroup n b none) → Does i s fun t => t.core = s.chip.core) ∧
    (¬ runs → ∀ i, (∃ v, i = .idGroup v) ∨ (∃ n v, i = .nameGroup n v) ∨ (∃ n b v, i = .textGroup n b v) →
      Does i s fun t => t.core = s.chip.core) ∧
    (runs → (∀ v, Does (.idGroup (some v)) s fun t => t.core = (s.chip.updTuner fun x => { x with
        ds := if d.identity = none then { d with identity := some v } else if d.identity = some v then d
        else { DataService.initial with identity := some v } }).core) ∧
      (∀ (n : Fin 4) (v : Vector Byte 2), Does (.nameGroup n (some v)) s fun t =>
        let segs := d.nameSegs.set n (some v)
        if ∃ k : Fin 4, segs[k] = none then
          t.core = (s.chip.updTuner fun x => { x with ds := { d with nameSegs := segs } }).core
        else
          let name : Vector Byte 8 := Vector.ofFn fun j => (segs[j.val / 2].getD (Vector.replicate 2 0))[j.val % 2]
          if d.lastReading = some name then t.tuner.ds.accepted = some name ∧
            t.tuner.ds.nameSegs = Vector.replicate 4 none ∧
            (d.accepted ≠ some name → ∀ e ∈ t.tuner.stations, e.band = .fm → e.freq = x.station.freq → e.name = some name)
          else t.tuner.ds = { d with nameSegs := Vector.replicate 4 none, lastReading := some name }) ∧
      ∀ (n : Fin 16) (flip : Bool) (v : Vector Byte 4), Does (.textGroup n flip (some v)) s fun t =>
        t.settled = s.chip.settled ∧ t.tuner.ds.flip = some flip ∧
        t.tuner.ds.textSegs = (if d.flip = some (!flip) then Vector.replicate 16 none else d.textSegs).set n (some v) ∧
        let segs := t.tuner.ds.textSegs
        let marks (k : Fin 16) : Bool := segs[k].any fun v => v.toList.contains 0x0D
        let ends (k : Fin 16) : Prop := marks k = true ∧ ∀ j : Fin 16, j < k → segs[j].isSome = true ∧ marks j = false
        let full : Prop := ∀ k : Fin 16, segs[k].isSome = true ∧ marks k = false
        (∀ (k : Fin 16) (w : Vector Byte 4) (m : Fin 4), ends k → segs[k] = some w → w[m] = 0x0D →
          (∀ j : Fin 4, j < m → w[j] ≠ 0x0D) → t.tuner.ds.textComplete = true ∧ t.tuner.ds.textLength = 4 * k.val + m.val) ∧
        (full → t.tuner.ds.textComplete = true ∧ t.tuner.ds.textLength = 64) ∧
        ((¬ ∃ k, ends k) → ¬ full → t.tuner.ds.textComplete = false ∧ t.tuner.ds.textLength = 0))

/-- The test generator's times (R161, R163): the silent TEST hold starts the signal; a SOUNDING step ends in a GAP of 250 ms; a GAP ends in
the next active position, or in another GAP where the zone has none. A calibration run (R167 to R171): with its hold silent it measures the
first outlet, from a burst of 5 ms on; each burst's 300 ms, counted from a meter tick before the burst, end in the next burst or in the
level step of 500 ms; the level step's end records status, level, and, where the status is OK, distance and trim, and the next outlet's
first burst begins, with the counts at 0; one that is tripped or latched is recorded FAULT without a burst, one that is no longer engaged in
the zone ABSENT (R170; that FAULT comes first is log 69). An outlet being measured that trips or latches is recorded FAULT, whatever the
cause, one that an OUTLET_ASSIGN withdraws ABSENT, with the valid count and without values, and the run moves on (R170). Behind the last
outlet the run is complete (R171): its meter is released, its hold lifted, with APPLY the trims and distances of the outlets in status OK
are theirs, the run is IDLE, and its order is DONE with the count of each status and the APPLY flag (log 68). A run is aborted (R172) by a
stop of its zone, also the one that the last outlet's latch brings (R10), a ZONE_SOURCE for it to another source in ON, STANDBY_NOW, and the
entry to STANDBY, which also ends with the main domain held; CAL_ABORT is `CalibrationOrders`. That a walk's first step counts from the
start of the signal is log 26; that a walk whose last position is gone goes on from the head of the list is log 55; that the tick before a
burst passes within the event, and with it perhaps a sample of the step timer, is log 36; that the run record names no zone behind a run is
log 66, that an ABORTED CALIBRATE does not show CLAMPED is log 67, and that the comparison and the trim take the level in tenths is log 70. -/
def Obligations.TestAndCalibrationEvents : Prop :=
  (∀ (s : State) (z : ZoneId), s.chip.mainUp = true → s.chip.test.zone = some z →
    let x := s.chip.test
    (x.started = false → Hold.test ∈ s.chip.ctxs[z].holds → Does .testHoldSilent s fun t =>
      t.settled = s.chip.settled ∧ t.test.started = true ∧ (x.phase = some .sounding → t.test.timer = some 96000)) ∧
    (x.phase = some .sounding → x.timer.isSome = true → Does .walkSoundingEnd s fun t =>
      t.settled = s.chip.settled ∧ t.test.phase = some .gap ∧ t.test.outlet = none ∧ t.test.timer = some 12000 ∧
        t.test.last = x.last) ∧
    (x.phase = some .gap → x.timer.isSome = true → Does .walkGapEnd s fun t =>
      let list := s.chip.ctxs[z].layout.map Prod.fst
      let ahead := match x.last with
        | some p => if p ∈ list then list.drop (list.idxOf p + 1) else []
        | none => []
      t.settled = s.chip.settled ∧ match (ahead ++ list).find? fun p => (s.chip.activeAt z p).isSome with
        | some p => t.test.phase = some .sounding ∧ t.test.outlet = s.chip.activeAt z p ∧ t.test.last = some p ∧
            t.test.timer = if x.started = true then some 96000 else none
        | none => t.test.phase = some .gap ∧ t.test.outlet = none ∧ t.test.timer = some 12000)) ∧
  (∀ s : State, s.chip.mainUp = true → s.chip.cal.run ≠ .idle →
    let x := s.chip.cal
    let aborts (i : Instr) : Prop := ∃ t, exec i s = .next t ∧ s.abortsRun t
    let leaves (i : Instr) : Prop := ∃ t, exec i s = .next t ∧ t.chip.cal = CalRec.initial ∧
      ∀ ticket, x.ticket = some ticket → s.chip.meterOf (.win ticket) = none → s.ended t ticket .aborted false false
        (runCounts (x.results.map fun e => if e.status = .pending then { e with status := .notMeasured } else e))
    (∀ h : OrderHead, s.accepts (.zonePower h 1) → x.zone = some (zoneOf h.target) → s.chip.started (zoneOf h.target) = true →
      s.slotFree h → aborts (.zonePower h 1)) ∧
    (∀ h : OrderHead, s.accepts (.idleExpire h) → x.zone = some (zoneOf h.target) → s.chip.zones[zoneOf h.target].power = .on →
      s.slotFree h → aborts (.idleExpire h)) ∧
    (∀ (h : OrderHead) (n : SourceId), s.accepts (.zoneSource h n.val) → x.zone = some (zoneOf h.target) →
      s.chip.zones[zoneOf h.target].power = .on → s.chip.zones[zoneOf h.target].binding ≠ some n → s.slotFree h →
      aborts (.zoneSource h n.val)) ∧
    (∀ h : OrderHead, s.accepts (.standbyNow h) → s.chip.sbb.power = .active → s.slotFree h → aborts (.standbyNow h)) ∧
    (∀ (n : SpeakerId) (z : ZoneId), let o := speakerOutlet n
      x.zone = some z → s.chip.started z = true → s.chip.outlets[o].zone = some z → s.chip.outlets[o].protection.serving = true →
      2 ≤ s.chip.outlets[o].history.length →
      (∀ k, k ≠ o → s.chip.outlets[k].zone = some z → s.chip.outlets[k].protection = .latched) → aborts (.overcurrentAsserted n)) ∧
    leaves .mainGoodFall ∧ (s.chip.sbb.sleepTimer.isSome = true → leaves .sleepCountdownExpiry)) ∧
  ∀ s : State, s.chip.mainUp = true → s.chip.claimQueued .cal = false →
    let x := s.chip.cal
    let measurable (o : OutletId) : Prop :=
      s.chip.outlets[o].protection.serving = true ∧ s.chip.outlets[o].zone = x.zone ∧ s.chip.outlets[o].engaged = true
    let lost (e : CalEntry) (status : CalStatus) (valid : Nat) : CalEntry :=
      { e with status := status, valid := valid, level := none, distance := none, trim := none }
    let bursts (t : Chip) (k : Nat) (o : OutletId) : Prop :=
      t.cal.run = .measuring ∧ t.cal.place = some { index := k, step := .timing, burst := 1 } ∧ t.cal.tickSum = 0 ∧ t.cal.valid = 0 ∧
        t.cal.burst = some o ∧ t.cal.burstTimer = some 240 ∧ (t.cal.stepTimer = some 14400 ∨ t.cal.stepTimer = some 14399)
    let others (o : OutletId) (P : OutletId → Prop) : Prop :=
      ∃ k, k ≠ o ∧ P k ∧ s.chip.outlets[k].zone = s.chip.outlets[o].zone ∧ s.chip.outlets[k].protection ≠ .latched
    let movesOn (t : Chip) (k : Nat) (o : OutletId) : Prop :=
      ∀ n, x.outlets[k + 1]? = some n → n ≠ o → measurable n → bursts t (k + 1) n
    (∀ (p : CalPlace) (n : SpeakerId) (e : CalEntry), x.run = .measuring → x.place = some p →
      x.outlets[p.index]? = some (speakerOutlet n) → x.results[p.index]? = some e →
      s.chip.outlets[speakerOutlet n].protection.serving = true →
      s.chip.outlets[speakerOutlet n].history.length < 2 ∨ others (speakerOutlet n) (fun _ => True) →
      Does (.overcurrentAsserted n) s fun t => t.cal.results[p.index]? = some (lost e .fault x.valid) ∧
        movesOn t p.index (speakerOutlet n)) ∧
    (∀ (p : CalPlace) (o : OutletId) (g : GroupId) (e : CalEntry), x.run = .measuring → x.place = some p →
      x.outlets[p.index]? = some o → x.results[p.index]? = some e → s.chip.outlets[o].protection.serving = true →
      groupOf o = some g → s.chip.outlets[o].zone = x.zone →
      Does (.tsdAsserted g) s (fun t => t.cal.results[p.index]? = some (lost e .fault x.valid)) ∧
      (others o (fun k => groupOf k ≠ some g) →
        Does (.dcfAsserted g) s fun t => t.cal.results[p.index]? = some (lost e .fault x.valid))) ∧
    (∀ (p : CalPlace) (e : CalEntry) (h : OrderHead) (pz pp az ap : Int) (a b : Option Assignment),
      let o := outletOf h.target
      x.run = .measuring → x.place = some p → x.outlets[p.index]? = some o → x.results[p.index]? = some e →
      s.accepts (.outletAssign h pz pp az ap) → assignmentParam pz pp = some a → assignmentParam az ap = some b →
      s.chip.assignRefusal o a b = none → s.chip.outlets[o].primary ≠ a ∨ s.chip.outlets[o].alternate ≠ b →
      (∃ z, s.chip.outlets[o].zone = some z ∧ s.chip.zones[z].power ≠ .off) →
      Does (.outletAssign h pz pp az ap) s fun t => t.cal.results[p.index]? = some (lost e .absent x.valid) ∧
        movesOn t p.index o) ∧
    (∀ z o rest, x.zone = some z → x.run = .muting → Hold.calibration ∈ s.chip.ctxs[z].holds → x.outlets = o :: rest →
      s.chip.outlets[o].protection.serving = true → s.chip.outlets[o].zone = some z → s.chip.outlets[o].engaged = true →
      Does .calibrationHoldSilent s fun t => t.settled = s.chip.settled ∧ t.cal.run = .measuring ∧
        t.cal.place = some { index := 0, step := .timing, burst := 1 } ∧ t.cal.burst = some o ∧ t.cal.burstTimer = some 240 ∧
        (t.cal.stepTimer = some 14400 ∨ t.cal.stepTimer = some 14399)) ∧
    (∀ o, x.burst = some o → Does .calBurstEnd s fun t =>
      t.settled = s.chip.settled ∧ t.cal.burst = none ∧ t.cal.burstTimer = none ∧ t.cal.run = x.run) ∧
    ∀ (p : CalPlace) (o : OutletId), x.run = .measuring → x.place = some p → x.outlets[p.index]? = some o →
      (p.step = .timing → Does .calTimingStepExpiry s fun t => t.settled = s.chip.settled ∧
        if p.burst < x.bursts then
          t.cal.place = some { p with burst := p.burst + 1 } ∧ t.cal.burst = some o ∧
            (t.cal.stepTimer = some 14400 ∨ t.cal.stepTimer = some 14399)
        else t.cal.place = some { p with step := .level } ∧ t.cal.stepTimer = some 24000) ∧
      ∀ (level : Int) (e : CalEntry), p.step = .level → x.results[p.index]? = some e →
        (x.outlets.length = p.index + 1 → ∃ t, exec (.calLevelStepExpiry level) s = .next t ∧ s.completesRun t) ∧
        (∀ n, x.outlets[p.index + 1]? = some n → measurable n →
          Does (.calLevelStepExpiry level) s fun t => bursts t (p.index + 1) n) ∧
        (∀ n e', x.outlets[p.index + 1]? = some n → x.results[p.index + 1]? = some e' → ¬ measurable n →
          Does (.calLevelStepExpiry level) s fun t => t.cal.results[p.index + 1]? =
            some (lost e' (if s.chip.outlets[n].protection.serving then .absent else .fault) 0)) ∧
        Does (.calLevelStepExpiry level) s fun t => t.kept = s.chip.kept ∧
          let mean : Int := x.tickSum / x.valid
          let status : CalStatus :=
            if level < -700 then .noResponse else if x.valid < (x.bursts + 1) / 2 then .timingFail else .ok
          let distance : Int := (2 * ((mean - 18432) * 343) + 245760) / 491520
          let trim : Int := (2 * (10 * x.target - level) + 5) / 10
          t.cal.results[p.index]? = some
            { e with status := status, valid := x.valid, level := some level,
                     distance := if status = .ok then some (max 0 (min 1800 distance)).toNat else none,
                     trim := if status = .ok then some (max (-24) (min 24 trim)) else none }


/-! ### Formulas (04, 05) -/

/-- The multiplier of an applied gain (R89): 10^(a/40) of the gain a in hdB to the nearest multiple of 2^−24, halves up, below 16; 0 at
−200 and below; at most 5.623 up to +30 hdB; it acts on a path's signal behind its filter; and the rule's own table. The applied gain
is in 1/48 hdB. -/
def Obligations.Multipliers : Prop :=
  (∀ a : Int, -9600 < a → a ≤ 2311 → (multiplier a : ℤ) = ⌊(2 : ℝ) ^ 24 * (10 : ℝ) ^ ((a : ℝ) / 1920) + 1 / 2⌋) ∧
  (∀ a : Int, multiplier a < 2 ^ 28) ∧ (∀ a : Int, a ≤ -9600 → multiplier a = 0) ∧
  (∀ a : Int, a ≤ 48 * 30 → multiplier a ≤ 94345219) ∧
  (∀ (y : Ctx) (q : Path) (x : PathId → ℚ), y.paths = [q] →
    y.sumInto q.id.outlet x = x q.id * (multiplier q.applied : ℚ) / 2 ^ 24) ∧
  multiplier (48 * 30) = 94345219 ∧ multiplier (48 * 24) = 66791300 ∧ multiplier 0 = 16777216 ∧
  multiplier (48 * -6) = 11877359 ∧ multiplier (48 * -50) = 943452 ∧ multiplier (48 * -199) = 178 ∧ multiplier (48 * -200) = 0

/-- The pan table (R74): the gains of p1 and p2 for each k, in whole hdB, are 20·log10 of the cosine and of the sine of k times 5.625
degrees, converted to hdB and rounded to the nearest; a factor of zero is OFF. -/
def Obligations.PanTable : Prop :=
  (List.range 17).map (fun k => (panGain k, panGain (16 - k))) =
    [(some 0, none), (some 0, some (-40)), (some 0, some (-28)), (some (-1), some (-21)), (some (-1), some (-17)),
     (some (-2), some (-13)), (some (-3), some (-10)), (some (-4), some (-8)), (some (-6), some (-6)), (some (-8), some (-4)),
     (some (-10), some (-3)), (some (-13), some (-2)), (some (-17), some (-1)), (some (-21), some (-1)), (some (-28), some 0),
     (some (-40), some 0), (none, some 0)] ∧
  (∀ k : Nat, k < 16 → ∃ g : Int, panGain k = some g ∧
    |40 * Real.logb 10 (Real.cos (k * (Real.pi / 32))) - g| ≤ 1 / 2) ∧
  (∀ k : Nat, 0 < k → k ≤ 16 → ∃ g : Int, panGain (16 - k) = some g ∧
    |40 * Real.logb 10 (Real.sin (k * (Real.pi / 32))) - g| ≤ 1 / 2)
end

