-- ==== Sys2Proof/Laws/Mem.lean ====
section
/-! SUPPORT. Laws of the window memory: what a byte reads as after a write, and the canonical form. -/

namespace Sys2Proof.Machine

theorem Mem.read_append (m n : Mem) (x : Nat) :
    Mem.read (m ++ n) x = if ∃ c ∈ m, c.1 = x then Mem.read m x else Mem.read n x := by
  induction m with
  | nil => simp
  | cons c m ih =>
    obtain ⟨b, v⟩ := c
    by_cases h : b = x
    · simp [Mem.read, h]
    · simp [Mem.read, h, ih]

theorem Mem.read_of_absent (m : Mem) (x : Nat) (h : ∀ c ∈ m, c.1 ≠ x) : Mem.read m x = 0 := by
  induction m with
  | nil => rfl
  | cons c m ih =>
    obtain ⟨b, v⟩ := c
    have hb : b ≠ x := h (b, v) (by simp)
    simp [Mem.read, hb]
    exact ih fun c hc => h c (by simp [hc])

theorem Mem.read_filter (m : Mem) (p : Nat → Bool) (x : Nat) :
    Mem.read (m.filter fun c => p c.1) x = if p x then Mem.read m x else 0 := by
  induction m with
  | nil => simp [Mem.read]
  | cons c m ih =>
    obtain ⟨b, v⟩ := c
    by_cases hb : p b = true
    · simp only [List.filter_cons, hb, if_true, Mem.read]
      by_cases h : b = x
      · subst h; simp [hb]
      · simp [h, ih]
    · have hb' : p b = false := by simpa using hb
      simp only [List.filter_cons, hb', Mem.read]
      by_cases h : b = x
      · subst h; simp [hb', ih]
      · simp [h, ih]

theorem Mem.cells_bounds (a : Nat) (bs : List Byte) : ∀ c ∈ Mem.cells a bs, a ≤ c.1 ∧ c.1 < a + bs.length ∧ c.2 ≠ 0 := by
  induction bs generalizing a with
  | nil => simp [Mem.cells]
  | cons b bs ih =>
    intro c hc
    unfold Mem.cells at hc
    split at hc
    · obtain ⟨h1, h2, h3⟩ := ih (a + 1) c hc
      simp only [List.length_cons]
      exact ⟨by omega, by omega, h3⟩
    · rename_i hb
      rcases List.mem_cons.mp hc with rfl | hc
      · exact ⟨le_refl _, by simp, hb⟩
      · obtain ⟨h1, h2, h3⟩ := ih (a + 1) c hc
        simp only [List.length_cons]
        exact ⟨by omega, by omega, h3⟩

theorem Mem.read_cells (a : Nat) (bs : List Byte) (i : Nat) : Mem.read (Mem.cells a bs) (a + i) = bs[i]?.getD 0 := by
  induction bs generalizing a i with
  | nil => simp [Mem.cells, Mem.read]
  | cons b bs ih =>
    unfold Mem.cells
    cases i with
    | zero =>
      split
      · rename_i hb
        rw [Mem.read_of_absent]
        · simp [hb]
        · intro c hc
          have := Mem.cells_bounds _ _ c hc
          omega
      · simp [Mem.read]
    | succ i =>
      have e : a + (i + 1) = a + 1 + i := by omega
      split
      · rw [e, ih]; simp
      · have : a ≠ a + (i + 1) := by omega
        rw [Mem.read, if_neg this, e, ih]
        simp

/-- What a byte reads as after a write. -/
theorem Mem.read_write (m : Mem) (a : Nat) (bs : List Byte) (x : Nat) :
    (m.write a bs).read x = if a ≤ x ∧ x < a + bs.length then bs[x - a]?.getD 0 else m.read x := by
  unfold Mem.write
  rw [Mem.read_append, Mem.read_append]
  have hl := Mem.read_filter m (fun y => decide (y < a)) x
  have hr := Mem.read_filter m (fun y => decide (a + bs.length ≤ y)) x
  by_cases h1 : x < a
  · have hc : ¬ (a ≤ x ∧ x < a + bs.length) := by omega
    rw [if_neg hc]
    by_cases hm : ∃ c ∈ m.filter (fun c => decide (c.1 < a)), c.1 = x
    · have hm' : ∃ c ∈ m.filter (fun c => decide (c.1 < a)) ++ Mem.cells a bs, c.1 = x := by
        obtain ⟨c, hc, e⟩ := hm; exact ⟨c, by simp [List.mem_append, hc], e⟩
      rw [if_pos hm', if_pos hm, hl]; simp [h1]
    · have ha : Mem.read m x = 0 := by
        apply Mem.read_of_absent
        intro c hc e
        exact hm ⟨c, by simp [List.mem_filter, hc]; omega, e⟩
      have hm' : ¬ ∃ c ∈ m.filter (fun c => decide (c.1 < a)) ++ Mem.cells a bs, c.1 = x := by
        rintro ⟨c, hc, e⟩
        rcases List.mem_append.mp hc with hc | hc
        · exact hm ⟨c, hc, e⟩
        · have := Mem.cells_bounds _ _ c hc; omega
      rw [if_neg hm', hr, ha]; simp
  · by_cases h2 : x < a + bs.length
    · have hc : a ≤ x ∧ x < a + bs.length := ⟨by omega, h2⟩
      rw [if_pos hc]
      have hm : ¬ ∃ c ∈ m.filter (fun c => decide (c.1 < a)), c.1 = x := by
        rintro ⟨c, hc, e⟩
        have := (List.mem_filter.mp hc).2
        simp at this; omega
      have hx : x = a + (x - a) := by omega
      have hread : Mem.read (Mem.cells a bs) x = bs[x - a]?.getD 0 := by
        conv => lhs; rw [hx]
        exact Mem.read_cells a bs (x - a)
      by_cases hcell : ∃ c ∈ Mem.cells a bs, c.1 = x
      · have hm' : ∃ c ∈ m.filter (fun c => decide (c.1 < a)) ++ Mem.cells a bs, c.1 = x := by
          obtain ⟨c, hc, e⟩ := hcell; exact ⟨c, by simp [hc], e⟩
        rw [if_pos hm', if_neg hm, hread]
      · have hm' : ¬ ∃ c ∈ m.filter (fun c => decide (c.1 < a)) ++ Mem.cells a bs, c.1 = x := by
          rintro ⟨c, hc, e⟩
          rcases List.mem_append.mp hc with hc | hc
          · exact hm ⟨c, hc, e⟩
          · exact hcell ⟨c, hc, e⟩
        rw [if_neg hm', hr]
        have : Mem.read (Mem.cells a bs) x = 0 := Mem.read_of_absent _ _ fun c hc e => hcell ⟨c, hc, e⟩
        rw [← hread, this]
        simp; omega
    · have hc : ¬ (a ≤ x ∧ x < a + bs.length) := by omega
      rw [if_neg hc]
      have hm' : ¬ ∃ c ∈ m.filter (fun c => decide (c.1 < a)) ++ Mem.cells a bs, c.1 = x := by
        rintro ⟨c, hc, e⟩
        rcases List.mem_append.mp hc with hc | hc
        · have := (List.mem_filter.mp hc).2
          simp at this; omega
        · have := Mem.cells_bounds _ _ c hc; omega
      rw [if_neg hm', hr]
      simp; omega

/-- A byte outside the written ones reads as before. -/
theorem Mem.read_write_outside (m : Mem) (a : Nat) (bs : List Byte) (x : Nat) (h : x < a ∨ a + bs.length ≤ x) :
    (m.write a bs).read x = m.read x := by
  rw [Mem.read_write, if_neg (by omega)]

/-- A written byte reads as written. -/
theorem Mem.read_write_at (m : Mem) (a : Nat) (bs : List Byte) (i : Nat) (h : i < bs.length) :
    (m.write a bs).read (a + i) = bs[i] := by
  rw [Mem.read_write, if_pos ⟨by omega, by omega⟩]
  simp [h]

theorem Mem.cells_sorted (a : Nat) (bs : List Byte) : (Mem.cells a bs).Pairwise fun c d => c.1 < d.1 := by
  induction bs generalizing a with
  | nil => simp [Mem.cells]
  | cons b bs ih =>
    unfold Mem.cells
    split
    · exact ih (a + 1)
    · refine List.pairwise_cons.mpr ⟨fun c hc => ?_, ih (a + 1)⟩
      have := Mem.cells_bounds _ _ c hc
      simp; omega

/-- A write keeps the canonical form. -/
theorem Mem.wf_write (m : Mem) (a : Nat) (bs : List Byte) (h : Mem.wf m) : Mem.wf (m.write a bs) := by
  obtain ⟨hs, hz⟩ := h
  refine ⟨?_, ?_⟩
  · unfold Mem.write
    refine List.pairwise_append.mpr ⟨List.pairwise_append.mpr ⟨hs.sublist List.filter_sublist, Mem.cells_sorted a bs, ?_⟩,
      hs.sublist List.filter_sublist, ?_⟩
    · intro c hc d hd
      have h1 := (List.mem_filter.mp hc).2
      have h2 := Mem.cells_bounds _ _ d hd
      simp at h1; omega
    · intro c hc d hd
      have h2 := (List.mem_filter.mp hd).2
      simp at h2
      rcases List.mem_append.mp hc with hc | hc
      · have h1 := (List.mem_filter.mp hc).2
        simp at h1; omega
      · have h1 := Mem.cells_bounds _ _ c hc
        omega
  · intro c hc
    unfold Mem.write at hc
    rcases List.mem_append.mp hc with hc | hc
    · rcases List.mem_append.mp hc with hc | hc
      · exact hz c (List.mem_filter.mp hc).1
      · exact (Mem.cells_bounds _ _ c hc).2.2
    · exact hz c (List.mem_filter.mp hc).1

/-- The memory at reset is in its canonical form. -/
theorem Mem.wf_nil : Mem.wf [] := ⟨List.Pairwise.nil, by simp⟩

/-- Equal readings mean equal memories in canonical form: a byte is listed exactly where it does not read 0. -/
theorem Mem.read_of_mem (m : Mem) (h : Mem.wf m) (c : Host.Cell) (hc : c ∈ m) : Mem.read m c.1 = c.2 := by
  obtain ⟨hs, hz⟩ := h
  induction m with
  | nil => simp at hc
  | cons d m ih =>
    obtain ⟨b, v⟩ := d
    rcases List.mem_cons.mp hc with rfl | hc
    · simp [Mem.read]
    · have hlt := (List.pairwise_cons.mp hs).1 c hc
      have : b ≠ c.1 := by simp at hlt; omega
      simp only [Mem.read, this, if_false]
      exact ih hc (List.pairwise_cons.mp hs).2 fun e he => hz e (by simp [he])

end Sys2Proof.Machine
end

