-- ==== Sys2Proof/Laws/State.lean ====
section
/-! SUPPORT. What each update of the part leaves and changes: one lemma for each update and field. -/

namespace Sys2Proof.Machine

section

variable (c : Chip)

@[simp] theorem Chip.updZone_win (z : ZoneId) (f : Zone → Zone) : (c.updZone z f).win = c.win := rfl
@[simp] theorem Chip.updZone_ctxs (z : ZoneId) (f : Zone → Zone) : (c.updZone z f).ctxs = c.ctxs := rfl
@[simp] theorem Chip.updZone_aligns (z : ZoneId) (f : Zone → Zone) : (c.updZone z f).aligns = c.aligns := rfl
@[simp] theorem Chip.updZone_sources (z : ZoneId) (f : Zone → Zone) : (c.updZone z f).sources = c.sources := rfl
@[simp] theorem Chip.updZone_streams (z : ZoneId) (f : Zone → Zone) : (c.updZone z f).streams = c.streams := rfl
@[simp] theorem Chip.updZone_engines (z : ZoneId) (f : Zone → Zone) : (c.updZone z f).engines = c.engines := rfl
@[simp] theorem Chip.updZone_waitQueue (z : ZoneId) (f : Zone → Zone) : (c.updZone z f).waitQueue = c.waitQueue := rfl
@[simp] theorem Chip.updZone_outlets (z : ZoneId) (f : Zone → Zone) : (c.updZone z f).outlets = c.outlets := rfl
@[simp] theorem Chip.updZone_groups (z : ZoneId) (f : Zone → Zone) : (c.updZone z f).groups = c.groups := rfl
@[simp] theorem Chip.updZone_triggers (z : ZoneId) (f : Zone → Zone) : (c.updZone z f).triggers = c.triggers := rfl
@[simp] theorem Chip.updZone_imu (z : ZoneId) (f : Zone → Zone) : (c.updZone z f).imu = c.imu := rfl
@[simp] theorem Chip.updZone_tuner (z : ZoneId) (f : Zone → Zone) : (c.updZone z f).tuner = c.tuner := rfl
@[simp] theorem Chip.updZone_test (z : ZoneId) (f : Zone → Zone) : (c.updZone z f).test = c.test := rfl
@[simp] theorem Chip.updZone_cal (z : ZoneId) (f : Zone → Zone) : (c.updZone z f).cal = c.cal := rfl
@[simp] theorem Chip.updZone_sbb (z : ZoneId) (f : Zone → Zone) : (c.updZone z f).sbb = c.sbb := rfl
@[simp] theorem Chip.updZone_pins (z : ZoneId) (f : Zone → Zone) : (c.updZone z f).pins = c.pins := rfl
@[simp] theorem Chip.updZone_clock (z : ZoneId) (f : Zone → Zone) : (c.updZone z f).clock = c.clock := rfl
@[simp] theorem Chip.updZone_powerUpAt (z : ZoneId) (f : Zone → Zone) : (c.updZone z f).powerUpAt = c.powerUpAt := rfl
@[simp] theorem Chip.updZone_ev (z : ZoneId) (f : Zone → Zone) : (c.updZone z f).ev = c.ev := rfl
@[simp] theorem Chip.updZone_zones (z : ZoneId) (f : Zone → Zone) : (c.updZone z f).zones = c.zones.set z (f c.zones[z]) := rfl

@[simp] theorem Chip.updCtx_win (z : ZoneId) (f : Ctx → Ctx) : (c.updCtx z f).win = c.win := rfl
@[simp] theorem Chip.updCtx_zones (z : ZoneId) (f : Ctx → Ctx) : (c.updCtx z f).zones = c.zones := rfl
@[simp] theorem Chip.updCtx_aligns (z : ZoneId) (f : Ctx → Ctx) : (c.updCtx z f).aligns = c.aligns := rfl
@[simp] theorem Chip.updCtx_sources (z : ZoneId) (f : Ctx → Ctx) : (c.updCtx z f).sources = c.sources := rfl
@[simp] theorem Chip.updCtx_streams (z : ZoneId) (f : Ctx → Ctx) : (c.updCtx z f).streams = c.streams := rfl
@[simp] theorem Chip.updCtx_engines (z : ZoneId) (f : Ctx → Ctx) : (c.updCtx z f).engines = c.engines := rfl
@[simp] theorem Chip.updCtx_waitQueue (z : ZoneId) (f : Ctx → Ctx) : (c.updCtx z f).waitQueue = c.waitQueue := rfl
@[simp] theorem Chip.updCtx_outlets (z : ZoneId) (f : Ctx → Ctx) : (c.updCtx z f).outlets = c.outlets := rfl
@[simp] theorem Chip.updCtx_groups (z : ZoneId) (f : Ctx → Ctx) : (c.updCtx z f).groups = c.groups := rfl
@[simp] theorem Chip.updCtx_triggers (z : ZoneId) (f : Ctx → Ctx) : (c.updCtx z f).triggers = c.triggers := rfl
@[simp] theorem Chip.updCtx_imu (z : ZoneId) (f : Ctx → Ctx) : (c.updCtx z f).imu = c.imu := rfl
@[simp] theorem Chip.updCtx_tuner (z : ZoneId) (f : Ctx → Ctx) : (c.updCtx z f).tuner = c.tuner := rfl
@[simp] theorem Chip.updCtx_test (z : ZoneId) (f : Ctx → Ctx) : (c.updCtx z f).test = c.test := rfl
@[simp] theorem Chip.updCtx_cal (z : ZoneId) (f : Ctx → Ctx) : (c.updCtx z f).cal = c.cal := rfl
@[simp] theorem Chip.updCtx_sbb (z : ZoneId) (f : Ctx → Ctx) : (c.updCtx z f).sbb = c.sbb := rfl
@[simp] theorem Chip.updCtx_pins (z : ZoneId) (f : Ctx → Ctx) : (c.updCtx z f).pins = c.pins := rfl
@[simp] theorem Chip.updCtx_clock (z : ZoneId) (f : Ctx → Ctx) : (c.updCtx z f).clock = c.clock := rfl
@[simp] theorem Chip.updCtx_powerUpAt (z : ZoneId) (f : Ctx → Ctx) : (c.updCtx z f).powerUpAt = c.powerUpAt := rfl
@[simp] theorem Chip.updCtx_ev (z : ZoneId) (f : Ctx → Ctx) : (c.updCtx z f).ev = c.ev := rfl
@[simp] theorem Chip.updCtx_ctxs (z : ZoneId) (f : Ctx → Ctx) : (c.updCtx z f).ctxs = c.ctxs.set z (f c.ctxs[z]) := rfl

@[simp] theorem Chip.updAlign_win (z : ZoneId) (f : Align → Align) : (c.updAlign z f).win = c.win := rfl
@[simp] theorem Chip.updAlign_zones (z : ZoneId) (f : Align → Align) : (c.updAlign z f).zones = c.zones := rfl
@[simp] theorem Chip.updAlign_ctxs (z : ZoneId) (f : Align → Align) : (c.updAlign z f).ctxs = c.ctxs := rfl
@[simp] theorem Chip.updAlign_sources (z : ZoneId) (f : Align → Align) : (c.updAlign z f).sources = c.sources := rfl
@[simp] theorem Chip.updAlign_streams (z : ZoneId) (f : Align → Align) : (c.updAlign z f).streams = c.streams := rfl
@[simp] theorem Chip.updAlign_engines (z : ZoneId) (f : Align → Align) : (c.updAlign z f).engines = c.engines := rfl
@[simp] theorem Chip.updAlign_waitQueue (z : ZoneId) (f : Align → Align) : (c.updAlign z f).waitQueue = c.waitQueue := rfl
@[simp] theorem Chip.updAlign_outlets (z : ZoneId) (f : Align → Align) : (c.updAlign z f).outlets = c.outlets := rfl
@[simp] theorem Chip.updAlign_groups (z : ZoneId) (f : Align → Align) : (c.updAlign z f).groups = c.groups := rfl
@[simp] theorem Chip.updAlign_triggers (z : ZoneId) (f : Align → Align) : (c.updAlign z f).triggers = c.triggers := rfl
@[simp] theorem Chip.updAlign_imu (z : ZoneId) (f : Align → Align) : (c.updAlign z f).imu = c.imu := rfl
@[simp] theorem Chip.updAlign_tuner (z : ZoneId) (f : Align → Align) : (c.updAlign z f).tuner = c.tuner := rfl
@[simp] theorem Chip.updAlign_test (z : ZoneId) (f : Align → Align) : (c.updAlign z f).test = c.test := rfl
@[simp] theorem Chip.updAlign_cal (z : ZoneId) (f : Align → Align) : (c.updAlign z f).cal = c.cal := rfl
@[simp] theorem Chip.updAlign_sbb (z : ZoneId) (f : Align → Align) : (c.updAlign z f).sbb = c.sbb := rfl
@[simp] theorem Chip.updAlign_pins (z : ZoneId) (f : Align → Align) : (c.updAlign z f).pins = c.pins := rfl
@[simp] theorem Chip.updAlign_clock (z : ZoneId) (f : Align → Align) : (c.updAlign z f).clock = c.clock := rfl
@[simp] theorem Chip.updAlign_powerUpAt (z : ZoneId) (f : Align → Align) : (c.updAlign z f).powerUpAt = c.powerUpAt := rfl
@[simp] theorem Chip.updAlign_ev (z : ZoneId) (f : Align → Align) : (c.updAlign z f).ev = c.ev := rfl
@[simp] theorem Chip.updAlign_aligns (z : ZoneId) (f : Align → Align) : (c.updAlign z f).aligns = c.aligns.set z (f c.aligns[z]) := rfl

@[simp] theorem Chip.updSource_win (s : SourceId) (f : Source → Source) : (c.updSource s f).win = c.win := rfl
@[simp] theorem Chip.updSource_zones (s : SourceId) (f : Source → Source) : (c.updSource s f).zones = c.zones := rfl
@[simp] theorem Chip.updSource_ctxs (s : SourceId) (f : Source → Source) : (c.updSource s f).ctxs = c.ctxs := rfl
@[simp] theorem Chip.updSource_aligns (s : SourceId) (f : Source → Source) : (c.updSource s f).aligns = c.aligns := rfl
@[simp] theorem Chip.updSource_streams (s : SourceId) (f : Source → Source) : (c.updSource s f).streams = c.streams := rfl
@[simp] theorem Chip.updSource_engines (s : SourceId) (f : Source → Source) : (c.updSource s f).engines = c.engines := rfl
@[simp] theorem Chip.updSource_waitQueue (s : SourceId) (f : Source → Source) : (c.updSource s f).waitQueue = c.waitQueue := rfl
@[simp] theorem Chip.updSource_outlets (s : SourceId) (f : Source → Source) : (c.updSource s f).outlets = c.outlets := rfl
@[simp] theorem Chip.updSource_groups (s : SourceId) (f : Source → Source) : (c.updSource s f).groups = c.groups := rfl
@[simp] theorem Chip.updSource_triggers (s : SourceId) (f : Source → Source) : (c.updSource s f).triggers = c.triggers := rfl
@[simp] theorem Chip.updSource_imu (s : SourceId) (f : Source → Source) : (c.updSource s f).imu = c.imu := rfl
@[simp] theorem Chip.updSource_tuner (s : SourceId) (f : Source → Source) : (c.updSource s f).tuner = c.tuner := rfl
@[simp] theorem Chip.updSource_test (s : SourceId) (f : Source → Source) : (c.updSource s f).test = c.test := rfl
@[simp] theorem Chip.updSource_cal (s : SourceId) (f : Source → Source) : (c.updSource s f).cal = c.cal := rfl
@[simp] theorem Chip.updSource_sbb (s : SourceId) (f : Source → Source) : (c.updSource s f).sbb = c.sbb := rfl
@[simp] theorem Chip.updSource_pins (s : SourceId) (f : Source → Source) : (c.updSource s f).pins = c.pins := rfl
@[simp] theorem Chip.updSource_clock (s : SourceId) (f : Source → Source) : (c.updSource s f).clock = c.clock := rfl
@[simp] theorem Chip.updSource_powerUpAt (s : SourceId) (f : Source → Source) : (c.updSource s f).powerUpAt = c.powerUpAt := rfl
@[simp] theorem Chip.updSource_ev (s : SourceId) (f : Source → Source) : (c.updSource s f).ev = c.ev := rfl
@[simp] theorem Chip.updSource_sources (s : SourceId) (f : Source → Source) : (c.updSource s f).sources = c.sources.set s (f c.sources[s]) := rfl

@[simp] theorem Chip.updStream_win (m : StreamId) (f : Stream → Stream) : (c.updStream m f).win = c.win := rfl
@[simp] theorem Chip.updStream_zones (m : StreamId) (f : Stream → Stream) : (c.updStream m f).zones = c.zones := rfl
@[simp] theorem Chip.updStream_ctxs (m : StreamId) (f : Stream → Stream) : (c.updStream m f).ctxs = c.ctxs := rfl
@[simp] theorem Chip.updStream_aligns (m : StreamId) (f : Stream → Stream) : (c.updStream m f).aligns = c.aligns := rfl
@[simp] theorem Chip.updStream_sources (m : StreamId) (f : Stream → Stream) : (c.updStream m f).sources = c.sources := rfl
@[simp] theorem Chip.updStream_engines (m : StreamId) (f : Stream → Stream) : (c.updStream m f).engines = c.engines := rfl
@[simp] theorem Chip.updStream_waitQueue (m : StreamId) (f : Stream → Stream) : (c.updStream m f).waitQueue = c.waitQueue := rfl
@[simp] theorem Chip.updStream_outlets (m : StreamId) (f : Stream → Stream) : (c.updStream m f).outlets = c.outlets := rfl
@[simp] theorem Chip.updStream_groups (m : StreamId) (f : Stream → Stream) : (c.updStream m f).groups = c.groups := rfl
@[simp] theorem Chip.updStream_triggers (m : StreamId) (f : Stream → Stream) : (c.updStream m f).triggers = c.triggers := rfl
@[simp] theorem Chip.updStream_imu (m : StreamId) (f : Stream → Stream) : (c.updStream m f).imu = c.imu := rfl
@[simp] theorem Chip.updStream_tuner (m : StreamId) (f : Stream → Stream) : (c.updStream m f).tuner = c.tuner := rfl
@[simp] theorem Chip.updStream_test (m : StreamId) (f : Stream → Stream) : (c.updStream m f).test = c.test := rfl
@[simp] theorem Chip.updStream_cal (m : StreamId) (f : Stream → Stream) : (c.updStream m f).cal = c.cal := rfl
@[simp] theorem Chip.updStream_sbb (m : StreamId) (f : Stream → Stream) : (c.updStream m f).sbb = c.sbb := rfl
@[simp] theorem Chip.updStream_pins (m : StreamId) (f : Stream → Stream) : (c.updStream m f).pins = c.pins := rfl
@[simp] theorem Chip.updStream_clock (m : StreamId) (f : Stream → Stream) : (c.updStream m f).clock = c.clock := rfl
@[simp] theorem Chip.updStream_powerUpAt (m : StreamId) (f : Stream → Stream) : (c.updStream m f).powerUpAt = c.powerUpAt := rfl
@[simp] theorem Chip.updStream_ev (m : StreamId) (f : Stream → Stream) : (c.updStream m f).ev = c.ev := rfl
@[simp] theorem Chip.updStream_streams (m : StreamId) (f : Stream → Stream) : (c.updStream m f).streams = c.streams.set m (f c.streams[m]) := rfl

@[simp] theorem Chip.updEngine_win (e : EngineId) (f : Engine → Engine) : (c.updEngine e f).win = c.win := rfl
@[simp] theorem Chip.updEngine_zones (e : EngineId) (f : Engine → Engine) : (c.updEngine e f).zones = c.zones := rfl
@[simp] theorem Chip.updEngine_ctxs (e : EngineId) (f : Engine → Engine) : (c.updEngine e f).ctxs = c.ctxs := rfl
@[simp] theorem Chip.updEngine_aligns (e : EngineId) (f : Engine → Engine) : (c.updEngine e f).aligns = c.aligns := rfl
@[simp] theorem Chip.updEngine_sources (e : EngineId) (f : Engine → Engine) : (c.updEngine e f).sources = c.sources := rfl
@[simp] theorem Chip.updEngine_streams (e : EngineId) (f : Engine → Engine) : (c.updEngine e f).streams = c.streams := rfl
@[simp] theorem Chip.updEngine_waitQueue (e : EngineId) (f : Engine → Engine) : (c.updEngine e f).waitQueue = c.waitQueue := rfl
@[simp] theorem Chip.updEngine_outlets (e : EngineId) (f : Engine → Engine) : (c.updEngine e f).outlets = c.outlets := rfl
@[simp] theorem Chip.updEngine_groups (e : EngineId) (f : Engine → Engine) : (c.updEngine e f).groups = c.groups := rfl
@[simp] theorem Chip.updEngine_triggers (e : EngineId) (f : Engine → Engine) : (c.updEngine e f).triggers = c.triggers := rfl
@[simp] theorem Chip.updEngine_imu (e : EngineId) (f : Engine → Engine) : (c.updEngine e f).imu = c.imu := rfl
@[simp] theorem Chip.updEngine_tuner (e : EngineId) (f : Engine → Engine) : (c.updEngine e f).tuner = c.tuner := rfl
@[simp] theorem Chip.updEngine_test (e : EngineId) (f : Engine → Engine) : (c.updEngine e f).test = c.test := rfl
@[simp] theorem Chip.updEngine_cal (e : EngineId) (f : Engine → Engine) : (c.updEngine e f).cal = c.cal := rfl
@[simp] theorem Chip.updEngine_sbb (e : EngineId) (f : Engine → Engine) : (c.updEngine e f).sbb = c.sbb := rfl
@[simp] theorem Chip.updEngine_pins (e : EngineId) (f : Engine → Engine) : (c.updEngine e f).pins = c.pins := rfl
@[simp] theorem Chip.updEngine_clock (e : EngineId) (f : Engine → Engine) : (c.updEngine e f).clock = c.clock := rfl
@[simp] theorem Chip.updEngine_powerUpAt (e : EngineId) (f : Engine → Engine) : (c.updEngine e f).powerUpAt = c.powerUpAt := rfl
@[simp] theorem Chip.updEngine_ev (e : EngineId) (f : Engine → Engine) : (c.updEngine e f).ev = c.ev := rfl
@[simp] theorem Chip.updEngine_engines (e : EngineId) (f : Engine → Engine) : (c.updEngine e f).engines = c.engines.set e (f c.engines[e]) := rfl

@[simp] theorem Chip.updOutlet_win (o : OutletId) (f : Outlet → Outlet) : (c.updOutlet o f).win = c.win := rfl
@[simp] theorem Chip.updOutlet_zones (o : OutletId) (f : Outlet → Outlet) : (c.updOutlet o f).zones = c.zones := rfl
@[simp] theorem Chip.updOutlet_ctxs (o : OutletId) (f : Outlet → Outlet) : (c.updOutlet o f).ctxs = c.ctxs := rfl
@[simp] theorem Chip.updOutlet_aligns (o : OutletId) (f : Outlet → Outlet) : (c.updOutlet o f).aligns = c.aligns := rfl
@[simp] theorem Chip.updOutlet_sources (o : OutletId) (f : Outlet → Outlet) : (c.updOutlet o f).sources = c.sources := rfl
@[simp] theorem Chip.updOutlet_streams (o : OutletId) (f : Outlet → Outlet) : (c.updOutlet o f).streams = c.streams := rfl
@[simp] theorem Chip.updOutlet_engines (o : OutletId) (f : Outlet → Outlet) : (c.updOutlet o f).engines = c.engines := rfl
@[simp] theorem Chip.updOutlet_waitQueue (o : OutletId) (f : Outlet → Outlet) : (c.updOutlet o f).waitQueue = c.waitQueue := rfl
@[simp] theorem Chip.updOutlet_groups (o : OutletId) (f : Outlet → Outlet) : (c.updOutlet o f).groups = c.groups := rfl
@[simp] theorem Chip.updOutlet_triggers (o : OutletId) (f : Outlet → Outlet) : (c.updOutlet o f).triggers = c.triggers := rfl
@[simp] theorem Chip.updOutlet_imu (o : OutletId) (f : Outlet → Outlet) : (c.updOutlet o f).imu = c.imu := rfl
@[simp] theorem Chip.updOutlet_tuner (o : OutletId) (f : Outlet → Outlet) : (c.updOutlet o f).tuner = c.tuner := rfl
@[simp] theorem Chip.updOutlet_test (o : OutletId) (f : Outlet → Outlet) : (c.updOutlet o f).test = c.test := rfl
@[simp] theorem Chip.updOutlet_cal (o : OutletId) (f : Outlet → Outlet) : (c.updOutlet o f).cal = c.cal := rfl
@[simp] theorem Chip.updOutlet_sbb (o : OutletId) (f : Outlet → Outlet) : (c.updOutlet o f).sbb = c.sbb := rfl
@[simp] theorem Chip.updOutlet_pins (o : OutletId) (f : Outlet → Outlet) : (c.updOutlet o f).pins = c.pins := rfl
@[simp] theorem Chip.updOutlet_clock (o : OutletId) (f : Outlet → Outlet) : (c.updOutlet o f).clock = c.clock := rfl
@[simp] theorem Chip.updOutlet_powerUpAt (o : OutletId) (f : Outlet → Outlet) : (c.updOutlet o f).powerUpAt = c.powerUpAt := rfl
@[simp] theorem Chip.updOutlet_ev (o : OutletId) (f : Outlet → Outlet) : (c.updOutlet o f).ev = c.ev := rfl
@[simp] theorem Chip.updOutlet_outlets (o : OutletId) (f : Outlet → Outlet) : (c.updOutlet o f).outlets = c.outlets.set o (f c.outlets[o]) := rfl

@[simp] theorem Chip.updGroup_win (g : GroupId) (f : Group → Group) : (c.updGroup g f).win = c.win := rfl
@[simp] theorem Chip.updGroup_zones (g : GroupId) (f : Group → Group) : (c.updGroup g f).zones = c.zones := rfl
@[simp] theorem Chip.updGroup_ctxs (g : GroupId) (f : Group → Group) : (c.updGroup g f).ctxs = c.ctxs := rfl
@[simp] theorem Chip.updGroup_aligns (g : GroupId) (f : Group → Group) : (c.updGroup g f).aligns = c.aligns := rfl
@[simp] theorem Chip.updGroup_sources (g : GroupId) (f : Group → Group) : (c.updGroup g f).sources = c.sources := rfl
@[simp] theorem Chip.updGroup_streams (g : GroupId) (f : Group → Group) : (c.updGroup g f).streams = c.streams := rfl
@[simp] theorem Chip.updGroup_engines (g : GroupId) (f : Group → Group) : (c.updGroup g f).engines = c.engines := rfl
@[simp] theorem Chip.updGroup_waitQueue (g : GroupId) (f : Group → Group) : (c.updGroup g f).waitQueue = c.waitQueue := rfl
@[simp] theorem Chip.updGroup_outlets (g : GroupId) (f : Group → Group) : (c.updGroup g f).outlets = c.outlets := rfl
@[simp] theorem Chip.updGroup_triggers (g : GroupId) (f : Group → Group) : (c.updGroup g f).triggers = c.triggers := rfl
@[simp] theorem Chip.updGroup_imu (g : GroupId) (f : Group → Group) : (c.updGroup g f).imu = c.imu := rfl
@[simp] theorem Chip.updGroup_tuner (g : GroupId) (f : Group → Group) : (c.updGroup g f).tuner = c.tuner := rfl
@[simp] theorem Chip.updGroup_test (g : GroupId) (f : Group → Group) : (c.updGroup g f).test = c.test := rfl
@[simp] theorem Chip.updGroup_cal (g : GroupId) (f : Group → Group) : (c.updGroup g f).cal = c.cal := rfl
@[simp] theorem Chip.updGroup_sbb (g : GroupId) (f : Group → Group) : (c.updGroup g f).sbb = c.sbb := rfl
@[simp] theorem Chip.updGroup_pins (g : GroupId) (f : Group → Group) : (c.updGroup g f).pins = c.pins := rfl
@[simp] theorem Chip.updGroup_clock (g : GroupId) (f : Group → Group) : (c.updGroup g f).clock = c.clock := rfl
@[simp] theorem Chip.updGroup_powerUpAt (g : GroupId) (f : Group → Group) : (c.updGroup g f).powerUpAt = c.powerUpAt := rfl
@[simp] theorem Chip.updGroup_ev (g : GroupId) (f : Group → Group) : (c.updGroup g f).ev = c.ev := rfl
@[simp] theorem Chip.updGroup_groups (g : GroupId) (f : Group → Group) : (c.updGroup g f).groups = c.groups.set g (f c.groups[g]) := rfl

@[simp] theorem Chip.updTrigger_win (t : Fin 4) (f : Trigger → Trigger) : (c.updTrigger t f).win = c.win := rfl
@[simp] theorem Chip.updTrigger_zones (t : Fin 4) (f : Trigger → Trigger) : (c.updTrigger t f).zones = c.zones := rfl
@[simp] theorem Chip.updTrigger_ctxs (t : Fin 4) (f : Trigger → Trigger) : (c.updTrigger t f).ctxs = c.ctxs := rfl
@[simp] theorem Chip.updTrigger_aligns (t : Fin 4) (f : Trigger → Trigger) : (c.updTrigger t f).aligns = c.aligns := rfl
@[simp] theorem Chip.updTrigger_sources (t : Fin 4) (f : Trigger → Trigger) : (c.updTrigger t f).sources = c.sources := rfl
@[simp] theorem Chip.updTrigger_streams (t : Fin 4) (f : Trigger → Trigger) : (c.updTrigger t f).streams = c.streams := rfl
@[simp] theorem Chip.updTrigger_engines (t : Fin 4) (f : Trigger → Trigger) : (c.updTrigger t f).engines = c.engines := rfl
@[simp] theorem Chip.updTrigger_waitQueue (t : Fin 4) (f : Trigger → Trigger) : (c.updTrigger t f).waitQueue = c.waitQueue := rfl
@[simp] theorem Chip.updTrigger_outlets (t : Fin 4) (f : Trigger → Trigger) : (c.updTrigger t f).outlets = c.outlets := rfl
@[simp] theorem Chip.updTrigger_groups (t : Fin 4) (f : Trigger → Trigger) : (c.updTrigger t f).groups = c.groups := rfl
@[simp] theorem Chip.updTrigger_imu (t : Fin 4) (f : Trigger → Trigger) : (c.updTrigger t f).imu = c.imu := rfl
@[simp] theorem Chip.updTrigger_tuner (t : Fin 4) (f : Trigger → Trigger) : (c.updTrigger t f).tuner = c.tuner := rfl
@[simp] theorem Chip.updTrigger_test (t : Fin 4) (f : Trigger → Trigger) : (c.updTrigger t f).test = c.test := rfl
@[simp] theorem Chip.updTrigger_cal (t : Fin 4) (f : Trigger → Trigger) : (c.updTrigger t f).cal = c.cal := rfl
@[simp] theorem Chip.updTrigger_sbb (t : Fin 4) (f : Trigger → Trigger) : (c.updTrigger t f).sbb = c.sbb := rfl
@[simp] theorem Chip.updTrigger_pins (t : Fin 4) (f : Trigger → Trigger) : (c.updTrigger t f).pins = c.pins := rfl
@[simp] theorem Chip.updTrigger_clock (t : Fin 4) (f : Trigger → Trigger) : (c.updTrigger t f).clock = c.clock := rfl
@[simp] theorem Chip.updTrigger_powerUpAt (t : Fin 4) (f : Trigger → Trigger) : (c.updTrigger t f).powerUpAt = c.powerUpAt := rfl
@[simp] theorem Chip.updTrigger_ev (t : Fin 4) (f : Trigger → Trigger) : (c.updTrigger t f).ev = c.ev := rfl
@[simp] theorem Chip.updTrigger_triggers (t : Fin 4) (f : Trigger → Trigger) :
    (c.updTrigger t f).triggers = c.triggers.set t (f c.triggers[t]) := rfl

@[simp] theorem Chip.updMeter_win (m : MeterId) (f : Meter → Meter) : (c.updMeter m f).win = c.win := rfl
@[simp] theorem Chip.updMeter_zones (m : MeterId) (f : Meter → Meter) : (c.updMeter m f).zones = c.zones := rfl
@[simp] theorem Chip.updMeter_ctxs (m : MeterId) (f : Meter → Meter) : (c.updMeter m f).ctxs = c.ctxs := rfl
@[simp] theorem Chip.updMeter_aligns (m : MeterId) (f : Meter → Meter) : (c.updMeter m f).aligns = c.aligns := rfl
@[simp] theorem Chip.updMeter_sources (m : MeterId) (f : Meter → Meter) : (c.updMeter m f).sources = c.sources := rfl
@[simp] theorem Chip.updMeter_streams (m : MeterId) (f : Meter → Meter) : (c.updMeter m f).streams = c.streams := rfl
@[simp] theorem Chip.updMeter_engines (m : MeterId) (f : Meter → Meter) : (c.updMeter m f).engines = c.engines := rfl
@[simp] theorem Chip.updMeter_waitQueue (m : MeterId) (f : Meter → Meter) : (c.updMeter m f).waitQueue = c.waitQueue := rfl
@[simp] theorem Chip.updMeter_outlets (m : MeterId) (f : Meter → Meter) : (c.updMeter m f).outlets = c.outlets := rfl
@[simp] theorem Chip.updMeter_groups (m : MeterId) (f : Meter → Meter) : (c.updMeter m f).groups = c.groups := rfl
@[simp] theorem Chip.updMeter_triggers (m : MeterId) (f : Meter → Meter) : (c.updMeter m f).triggers = c.triggers := rfl
@[simp] theorem Chip.updMeter_tuner (m : MeterId) (f : Meter → Meter) : (c.updMeter m f).tuner = c.tuner := rfl
@[simp] theorem Chip.updMeter_test (m : MeterId) (f : Meter → Meter) : (c.updMeter m f).test = c.test := rfl
@[simp] theorem Chip.updMeter_cal (m : MeterId) (f : Meter → Meter) : (c.updMeter m f).cal = c.cal := rfl
@[simp] theorem Chip.updMeter_sbb (m : MeterId) (f : Meter → Meter) : (c.updMeter m f).sbb = c.sbb := rfl
@[simp] theorem Chip.updMeter_pins (m : MeterId) (f : Meter → Meter) : (c.updMeter m f).pins = c.pins := rfl
@[simp] theorem Chip.updMeter_clock (m : MeterId) (f : Meter → Meter) : (c.updMeter m f).clock = c.clock := rfl
@[simp] theorem Chip.updMeter_powerUpAt (m : MeterId) (f : Meter → Meter) : (c.updMeter m f).powerUpAt = c.powerUpAt := rfl
@[simp] theorem Chip.updMeter_ev (m : MeterId) (f : Meter → Meter) : (c.updMeter m f).ev = c.ev := rfl
@[simp] theorem Chip.updMeter_imu (m : MeterId) (f : Meter → Meter) :
    (c.updMeter m f).imu = { c.imu with meters := c.imu.meters.set m (f c.imu.meters[m]) } := rfl

@[simp] theorem Chip.updWin_zones (f : Win → Win) : (c.updWin f).zones = c.zones := rfl
@[simp] theorem Chip.updWin_ctxs (f : Win → Win) : (c.updWin f).ctxs = c.ctxs := rfl
@[simp] theorem Chip.updWin_aligns (f : Win → Win) : (c.updWin f).aligns = c.aligns := rfl
@[simp] theorem Chip.updWin_sources (f : Win → Win) : (c.updWin f).sources = c.sources := rfl
@[simp] theorem Chip.updWin_streams (f : Win → Win) : (c.updWin f).streams = c.streams := rfl
@[simp] theorem Chip.updWin_engines (f : Win → Win) : (c.updWin f).engines = c.engines := rfl
@[simp] theorem Chip.updWin_waitQueue (f : Win → Win) : (c.updWin f).waitQueue = c.waitQueue := rfl
@[simp] theorem Chip.updWin_outlets (f : Win → Win) : (c.updWin f).outlets = c.outlets := rfl
@[simp] theorem Chip.updWin_groups (f : Win → Win) : (c.updWin f).groups = c.groups := rfl
@[simp] theorem Chip.updWin_triggers (f : Win → Win) : (c.updWin f).triggers = c.triggers := rfl
@[simp] theorem Chip.updWin_imu (f : Win → Win) : (c.updWin f).imu = c.imu := rfl
@[simp] theorem Chip.updWin_tuner (f : Win → Win) : (c.updWin f).tuner = c.tuner := rfl
@[simp] theorem Chip.updWin_test (f : Win → Win) : (c.updWin f).test = c.test := rfl
@[simp] theorem Chip.updWin_cal (f : Win → Win) : (c.updWin f).cal = c.cal := rfl
@[simp] theorem Chip.updWin_sbb (f : Win → Win) : (c.updWin f).sbb = c.sbb := rfl
@[simp] theorem Chip.updWin_pins (f : Win → Win) : (c.updWin f).pins = c.pins := rfl
@[simp] theorem Chip.updWin_clock (f : Win → Win) : (c.updWin f).clock = c.clock := rfl
@[simp] theorem Chip.updWin_powerUpAt (f : Win → Win) : (c.updWin f).powerUpAt = c.powerUpAt := rfl
@[simp] theorem Chip.updWin_ev (f : Win → Win) : (c.updWin f).ev = c.ev := rfl
@[simp] theorem Chip.updWin_win (f : Win → Win) : (c.updWin f).win = f c.win := rfl

@[simp] theorem Chip.updTuner_win (f : Tuner → Tuner) : (c.updTuner f).win = c.win := rfl
@[simp] theorem Chip.updTuner_zones (f : Tuner → Tuner) : (c.updTuner f).zones = c.zones := rfl
@[simp] theorem Chip.updTuner_ctxs (f : Tuner → Tuner) : (c.updTuner f).ctxs = c.ctxs := rfl
@[simp] theorem Chip.updTuner_aligns (f : Tuner → Tuner) : (c.updTuner f).aligns = c.aligns := rfl
@[simp] theorem Chip.updTuner_sources (f : Tuner → Tuner) : (c.updTuner f).sources = c.sources := rfl
@[simp] theorem Chip.updTuner_streams (f : Tuner → Tuner) : (c.updTuner f).streams = c.streams := rfl
@[simp] theorem Chip.updTuner_engines (f : Tuner → Tuner) : (c.updTuner f).engines = c.engines := rfl
@[simp] theorem Chip.updTuner_waitQueue (f : Tuner → Tuner) : (c.updTuner f).waitQueue = c.waitQueue := rfl
@[simp] theorem Chip.updTuner_outlets (f : Tuner → Tuner) : (c.updTuner f).outlets = c.outlets := rfl
@[simp] theorem Chip.updTuner_groups (f : Tuner → Tuner) : (c.updTuner f).groups = c.groups := rfl
@[simp] theorem Chip.updTuner_triggers (f : Tuner → Tuner) : (c.updTuner f).triggers = c.triggers := rfl
@[simp] theorem Chip.updTuner_imu (f : Tuner → Tuner) : (c.updTuner f).imu = c.imu := rfl
@[simp] theorem Chip.updTuner_test (f : Tuner → Tuner) : (c.updTuner f).test = c.test := rfl
@[simp] theorem Chip.updTuner_cal (f : Tuner → Tuner) : (c.updTuner f).cal = c.cal := rfl
@[simp] theorem Chip.updTuner_sbb (f : Tuner → Tuner) : (c.updTuner f).sbb = c.sbb := rfl
@[simp] theorem Chip.updTuner_pins (f : Tuner → Tuner) : (c.updTuner f).pins = c.pins := rfl
@[simp] theorem Chip.updTuner_clock (f : Tuner → Tuner) : (c.updTuner f).clock = c.clock := rfl
@[simp] theorem Chip.updTuner_powerUpAt (f : Tuner → Tuner) : (c.updTuner f).powerUpAt = c.powerUpAt := rfl
@[simp] theorem Chip.updTuner_ev (f : Tuner → Tuner) : (c.updTuner f).ev = c.ev := rfl
@[simp] theorem Chip.updTuner_tuner (f : Tuner → Tuner) : (c.updTuner f).tuner = f c.tuner := rfl

@[simp] theorem Chip.updTest_win (f : TestRec → TestRec) : (c.updTest f).win = c.win := rfl
@[simp] theorem Chip.updTest_zones (f : TestRec → TestRec) : (c.updTest f).zones = c.zones := rfl
@[simp] theorem Chip.updTest_ctxs (f : TestRec → TestRec) : (c.updTest f).ctxs = c.ctxs := rfl
@[simp] theorem Chip.updTest_aligns (f : TestRec → TestRec) : (c.updTest f).aligns = c.aligns := rfl
@[simp] theorem Chip.updTest_sources (f : TestRec → TestRec) : (c.updTest f).sources = c.sources := rfl
@[simp] theorem Chip.updTest_streams (f : TestRec → TestRec) : (c.updTest f).streams = c.streams := rfl
@[simp] theorem Chip.updTest_engines (f : TestRec → TestRec) : (c.updTest f).engines = c.engines := rfl
@[simp] theorem Chip.updTest_waitQueue (f : TestRec → TestRec) : (c.updTest f).waitQueue = c.waitQueue := rfl
@[simp] theorem Chip.updTest_outlets (f : TestRec → TestRec) : (c.updTest f).outlets = c.outlets := rfl
@[simp] theorem Chip.updTest_groups (f : TestRec → TestRec) : (c.updTest f).groups = c.groups := rfl
@[simp] theorem Chip.updTest_triggers (f : TestRec → TestRec) : (c.updTest f).triggers = c.triggers := rfl
@[simp] theorem Chip.updTest_imu (f : TestRec → TestRec) : (c.updTest f).imu = c.imu := rfl
@[simp] theorem Chip.updTest_tuner (f : TestRec → TestRec) : (c.updTest f).tuner = c.tuner := rfl
@[simp] theorem Chip.updTest_cal (f : TestRec → TestRec) : (c.updTest f).cal = c.cal := rfl
@[simp] theorem Chip.updTest_sbb (f : TestRec → TestRec) : (c.updTest f).sbb = c.sbb := rfl
@[simp] theorem Chip.updTest_pins (f : TestRec → TestRec) : (c.updTest f).pins = c.pins := rfl
@[simp] theorem Chip.updTest_clock (f : TestRec → TestRec) : (c.updTest f).clock = c.clock := rfl
@[simp] theorem Chip.updTest_powerUpAt (f : TestRec → TestRec) : (c.updTest f).powerUpAt = c.powerUpAt := rfl
@[simp] theorem Chip.updTest_ev (f : TestRec → TestRec) : (c.updTest f).ev = c.ev := rfl
@[simp] theorem Chip.updTest_test (f : TestRec → TestRec) : (c.updTest f).test = f c.test := rfl

@[simp] theorem Chip.updCal_win (f : CalRec → CalRec) : (c.updCal f).win = c.win := rfl
@[simp] theorem Chip.updCal_zones (f : CalRec → CalRec) : (c.updCal f).zones = c.zones := rfl
@[simp] theorem Chip.updCal_ctxs (f : CalRec → CalRec) : (c.updCal f).ctxs = c.ctxs := rfl
@[simp] theorem Chip.updCal_aligns (f : CalRec → CalRec) : (c.updCal f).aligns = c.aligns := rfl
@[simp] theorem Chip.updCal_sources (f : CalRec → CalRec) : (c.updCal f).sources = c.sources := rfl
@[simp] theorem Chip.updCal_streams (f : CalRec → CalRec) : (c.updCal f).streams = c.streams := rfl
@[simp] theorem Chip.updCal_engines (f : CalRec → CalRec) : (c.updCal f).engines = c.engines := rfl
@[simp] theorem Chip.updCal_waitQueue (f : CalRec → CalRec) : (c.updCal f).waitQueue = c.waitQueue := rfl
@[simp] theorem Chip.updCal_outlets (f : CalRec → CalRec) : (c.updCal f).outlets = c.outlets := rfl
@[simp] theorem Chip.updCal_groups (f : CalRec → CalRec) : (c.updCal f).groups = c.groups := rfl
@[simp] theorem Chip.updCal_triggers (f : CalRec → CalRec) : (c.updCal f).triggers = c.triggers := rfl
@[simp] theorem Chip.updCal_imu (f : CalRec → CalRec) : (c.updCal f).imu = c.imu := rfl
@[simp] theorem Chip.updCal_tuner (f : CalRec → CalRec) : (c.updCal f).tuner = c.tuner := rfl
@[simp] theorem Chip.updCal_test (f : CalRec → CalRec) : (c.updCal f).test = c.test := rfl
@[simp] theorem Chip.updCal_sbb (f : CalRec → CalRec) : (c.updCal f).sbb = c.sbb := rfl
@[simp] theorem Chip.updCal_pins (f : CalRec → CalRec) : (c.updCal f).pins = c.pins := rfl
@[simp] theorem Chip.updCal_clock (f : CalRec → CalRec) : (c.updCal f).clock = c.clock := rfl
@[simp] theorem Chip.updCal_powerUpAt (f : CalRec → CalRec) : (c.updCal f).powerUpAt = c.powerUpAt := rfl
@[simp] theorem Chip.updCal_ev (f : CalRec → CalRec) : (c.updCal f).ev = c.ev := rfl
@[simp] theorem Chip.updCal_cal (f : CalRec → CalRec) : (c.updCal f).cal = f c.cal := rfl

@[simp] theorem Chip.updSbb_win (f : Standby → Standby) : (c.updSbb f).win = c.win := rfl
@[simp] theorem Chip.updSbb_zones (f : Standby → Standby) : (c.updSbb f).zones = c.zones := rfl
@[simp] theorem Chip.updSbb_ctxs (f : Standby → Standby) : (c.updSbb f).ctxs = c.ctxs := rfl
@[simp] theorem Chip.updSbb_aligns (f : Standby → Standby) : (c.updSbb f).aligns = c.aligns := rfl
@[simp] theorem Chip.updSbb_sources (f : Standby → Standby) : (c.updSbb f).sources = c.sources := rfl
@[simp] theorem Chip.updSbb_streams (f : Standby → Standby) : (c.updSbb f).streams = c.streams := rfl
@[simp] theorem Chip.updSbb_engines (f : Standby → Standby) : (c.updSbb f).engines = c.engines := rfl
@[simp] theorem Chip.updSbb_waitQueue (f : Standby → Standby) : (c.updSbb f).waitQueue = c.waitQueue := rfl
@[simp] theorem Chip.updSbb_outlets (f : Standby → Standby) : (c.updSbb f).outlets = c.outlets := rfl
@[simp] theorem Chip.updSbb_groups (f : Standby → Standby) : (c.updSbb f).groups = c.groups := rfl
@[simp] theorem Chip.updSbb_triggers (f : Standby → Standby) : (c.updSbb f).triggers = c.triggers := rfl
@[simp] theorem Chip.updSbb_imu (f : Standby → Standby) : (c.updSbb f).imu = c.imu := rfl
@[simp] theorem Chip.updSbb_tuner (f : Standby → Standby) : (c.updSbb f).tuner = c.tuner := rfl
@[simp] theorem Chip.updSbb_test (f : Standby → Standby) : (c.updSbb f).test = c.test := rfl
@[simp] theorem Chip.updSbb_cal (f : Standby → Standby) : (c.updSbb f).cal = c.cal := rfl
@[simp] theorem Chip.updSbb_pins (f : Standby → Standby) : (c.updSbb f).pins = c.pins := rfl
@[simp] theorem Chip.updSbb_clock (f : Standby → Standby) : (c.updSbb f).clock = c.clock := rfl
@[simp] theorem Chip.updSbb_powerUpAt (f : Standby → Standby) : (c.updSbb f).powerUpAt = c.powerUpAt := rfl
@[simp] theorem Chip.updSbb_ev (f : Standby → Standby) : (c.updSbb f).ev = c.ev := rfl
@[simp] theorem Chip.updSbb_sbb (f : Standby → Standby) : (c.updSbb f).sbb = f c.sbb := rfl

@[simp] theorem Chip.updIdle_win (z : ZoneId) (f : Idle → Idle) : (c.updIdle z f).win = c.win := rfl
@[simp] theorem Chip.updIdle_zones (z : ZoneId) (f : Idle → Idle) : (c.updIdle z f).zones = c.zones := rfl
@[simp] theorem Chip.updIdle_ctxs (z : ZoneId) (f : Idle → Idle) : (c.updIdle z f).ctxs = c.ctxs := rfl
@[simp] theorem Chip.updIdle_aligns (z : ZoneId) (f : Idle → Idle) : (c.updIdle z f).aligns = c.aligns := rfl
@[simp] theorem Chip.updIdle_sources (z : ZoneId) (f : Idle → Idle) : (c.updIdle z f).sources = c.sources := rfl
@[simp] theorem Chip.updIdle_streams (z : ZoneId) (f : Idle → Idle) : (c.updIdle z f).streams = c.streams := rfl
@[simp] theorem Chip.updIdle_engines (z : ZoneId) (f : Idle → Idle) : (c.updIdle z f).engines = c.engines := rfl
@[simp] theorem Chip.updIdle_waitQueue (z : ZoneId) (f : Idle → Idle) : (c.updIdle z f).waitQueue = c.waitQueue := rfl
@[simp] theorem Chip.updIdle_outlets (z : ZoneId) (f : Idle → Idle) : (c.updIdle z f).outlets = c.outlets := rfl
@[simp] theorem Chip.updIdle_groups (z : ZoneId) (f : Idle → Idle) : (c.updIdle z f).groups = c.groups := rfl
@[simp] theorem Chip.updIdle_triggers (z : ZoneId) (f : Idle → Idle) : (c.updIdle z f).triggers = c.triggers := rfl
@[simp] theorem Chip.updIdle_imu (z : ZoneId) (f : Idle → Idle) : (c.updIdle z f).imu = c.imu := rfl
@[simp] theorem Chip.updIdle_tuner (z : ZoneId) (f : Idle → Idle) : (c.updIdle z f).tuner = c.tuner := rfl
@[simp] theorem Chip.updIdle_test (z : ZoneId) (f : Idle → Idle) : (c.updIdle z f).test = c.test := rfl
@[simp] theorem Chip.updIdle_cal (z : ZoneId) (f : Idle → Idle) : (c.updIdle z f).cal = c.cal := rfl
@[simp] theorem Chip.updIdle_pins (z : ZoneId) (f : Idle → Idle) : (c.updIdle z f).pins = c.pins := rfl
@[simp] theorem Chip.updIdle_clock (z : ZoneId) (f : Idle → Idle) : (c.updIdle z f).clock = c.clock := rfl
@[simp] theorem Chip.updIdle_powerUpAt (z : ZoneId) (f : Idle → Idle) : (c.updIdle z f).powerUpAt = c.powerUpAt := rfl
@[simp] theorem Chip.updIdle_ev (z : ZoneId) (f : Idle → Idle) : (c.updIdle z f).ev = c.ev := rfl
@[simp] theorem Chip.updIdle_sbb (z : ZoneId) (f : Idle → Idle) :
    (c.updIdle z f).sbb = { c.sbb with idle := c.sbb.idle.set z (f c.sbb.idle[z]) } := rfl

@[simp] theorem Chip.updEv_win (f : Ev → Ev) : (c.updEv f).win = c.win := rfl
@[simp] theorem Chip.updEv_zones (f : Ev → Ev) : (c.updEv f).zones = c.zones := rfl
@[simp] theorem Chip.updEv_ctxs (f : Ev → Ev) : (c.updEv f).ctxs = c.ctxs := rfl
@[simp] theorem Chip.updEv_aligns (f : Ev → Ev) : (c.updEv f).aligns = c.aligns := rfl
@[simp] theorem Chip.updEv_sources (f : Ev → Ev) : (c.updEv f).sources = c.sources := rfl
@[simp] theorem Chip.updEv_streams (f : Ev → Ev) : (c.updEv f).streams = c.streams := rfl
@[simp] theorem Chip.updEv_engines (f : Ev → Ev) : (c.updEv f).engines = c.engines := rfl
@[simp] theorem Chip.updEv_waitQueue (f : Ev → Ev) : (c.updEv f).waitQueue = c.waitQueue := rfl
@[simp] theorem Chip.updEv_outlets (f : Ev → Ev) : (c.updEv f).outlets = c.outlets := rfl
@[simp] theorem Chip.updEv_groups (f : Ev → Ev) : (c.updEv f).groups = c.groups := rfl
@[simp] theorem Chip.updEv_triggers (f : Ev → Ev) : (c.updEv f).triggers = c.triggers := rfl
@[simp] theorem Chip.updEv_imu (f : Ev → Ev) : (c.updEv f).imu = c.imu := rfl
@[simp] theorem Chip.updEv_tuner (f : Ev → Ev) : (c.updEv f).tuner = c.tuner := rfl
@[simp] theorem Chip.updEv_test (f : Ev → Ev) : (c.updEv f).test = c.test := rfl
@[simp] theorem Chip.updEv_cal (f : Ev → Ev) : (c.updEv f).cal = c.cal := rfl
@[simp] theorem Chip.updEv_sbb (f : Ev → Ev) : (c.updEv f).sbb = c.sbb := rfl
@[simp] theorem Chip.updEv_pins (f : Ev → Ev) : (c.updEv f).pins = c.pins := rfl
@[simp] theorem Chip.updEv_clock (f : Ev → Ev) : (c.updEv f).clock = c.clock := rfl
@[simp] theorem Chip.updEv_powerUpAt (f : Ev → Ev) : (c.updEv f).powerUpAt = c.powerUpAt := rfl
@[simp] theorem Chip.updEv_ev (f : Ev → Ev) : (c.updEv f).ev = f c.ev := rfl

@[simp] theorem Chip.nameZone_win (z : ZoneId) : (c.nameZone z).win = c.win := rfl
@[simp] theorem Chip.nameZone_zones (z : ZoneId) : (c.nameZone z).zones = c.zones := rfl
@[simp] theorem Chip.nameZone_ctxs (z : ZoneId) : (c.nameZone z).ctxs = c.ctxs := rfl
@[simp] theorem Chip.nameZone_aligns (z : ZoneId) : (c.nameZone z).aligns = c.aligns := rfl
@[simp] theorem Chip.nameZone_sources (z : ZoneId) : (c.nameZone z).sources = c.sources := rfl
@[simp] theorem Chip.nameZone_streams (z : ZoneId) : (c.nameZone z).streams = c.streams := rfl
@[simp] theorem Chip.nameZone_engines (z : ZoneId) : (c.nameZone z).engines = c.engines := rfl
@[simp] theorem Chip.nameZone_waitQueue (z : ZoneId) : (c.nameZone z).waitQueue = c.waitQueue := rfl
@[simp] theorem Chip.nameZone_outlets (z : ZoneId) : (c.nameZone z).outlets = c.outlets := rfl
@[simp] theorem Chip.nameZone_groups (z : ZoneId) : (c.nameZone z).groups = c.groups := rfl
@[simp] theorem Chip.nameZone_triggers (z : ZoneId) : (c.nameZone z).triggers = c.triggers := rfl
@[simp] theorem Chip.nameZone_imu (z : ZoneId) : (c.nameZone z).imu = c.imu := rfl
@[simp] theorem Chip.nameZone_tuner (z : ZoneId) : (c.nameZone z).tuner = c.tuner := rfl
@[simp] theorem Chip.nameZone_test (z : ZoneId) : (c.nameZone z).test = c.test := rfl
@[simp] theorem Chip.nameZone_cal (z : ZoneId) : (c.nameZone z).cal = c.cal := rfl
@[simp] theorem Chip.nameZone_sbb (z : ZoneId) : (c.nameZone z).sbb = c.sbb := rfl
@[simp] theorem Chip.nameZone_pins (z : ZoneId) : (c.nameZone z).pins = c.pins := rfl
@[simp] theorem Chip.nameZone_clock (z : ZoneId) : (c.nameZone z).clock = c.clock := rfl
@[simp] theorem Chip.nameZone_powerUpAt (z : ZoneId) : (c.nameZone z).powerUpAt = c.powerUpAt := rfl

@[simp] theorem Chip.markPage_win (p : PageId) : (c.markPage p).win = c.win := rfl
@[simp] theorem Chip.markPage_zones (p : PageId) : (c.markPage p).zones = c.zones := rfl
@[simp] theorem Chip.markPage_ctxs (p : PageId) : (c.markPage p).ctxs = c.ctxs := rfl
@[simp] theorem Chip.markPage_aligns (p : PageId) : (c.markPage p).aligns = c.aligns := rfl
@[simp] theorem Chip.markPage_sources (p : PageId) : (c.markPage p).sources = c.sources := rfl
@[simp] theorem Chip.markPage_streams (p : PageId) : (c.markPage p).streams = c.streams := rfl
@[simp] theorem Chip.markPage_engines (p : PageId) : (c.markPage p).engines = c.engines := rfl
@[simp] theorem Chip.markPage_waitQueue (p : PageId) : (c.markPage p).waitQueue = c.waitQueue := rfl
@[simp] theorem Chip.markPage_outlets (p : PageId) : (c.markPage p).outlets = c.outlets := rfl
@[simp] theorem Chip.markPage_groups (p : PageId) : (c.markPage p).groups = c.groups := rfl
@[simp] theorem Chip.markPage_triggers (p : PageId) : (c.markPage p).triggers = c.triggers := rfl
@[simp] theorem Chip.markPage_imu (p : PageId) : (c.markPage p).imu = c.imu := rfl
@[simp] theorem Chip.markPage_tuner (p : PageId) : (c.markPage p).tuner = c.tuner := rfl
@[simp] theorem Chip.markPage_test (p : PageId) : (c.markPage p).test = c.test := rfl
@[simp] theorem Chip.markPage_cal (p : PageId) : (c.markPage p).cal = c.cal := rfl
@[simp] theorem Chip.markPage_sbb (p : PageId) : (c.markPage p).sbb = c.sbb := rfl
@[simp] theorem Chip.markPage_pins (p : PageId) : (c.markPage p).pins = c.pins := rfl
@[simp] theorem Chip.markPage_clock (p : PageId) : (c.markPage p).clock = c.clock := rfl
@[simp] theorem Chip.markPage_powerUpAt (p : PageId) : (c.markPage p).powerUpAt = c.powerUpAt := rfl

@[simp] theorem Chip.markAlign_win (z : ZoneId) : (c.markAlign z).win = c.win := rfl
@[simp] theorem Chip.markAlign_zones (z : ZoneId) : (c.markAlign z).zones = c.zones := rfl
@[simp] theorem Chip.markAlign_ctxs (z : ZoneId) : (c.markAlign z).ctxs = c.ctxs := rfl
@[simp] theorem Chip.markAlign_aligns (z : ZoneId) : (c.markAlign z).aligns = c.aligns := rfl
@[simp] theorem Chip.markAlign_sources (z : ZoneId) : (c.markAlign z).sources = c.sources := rfl
@[simp] theorem Chip.markAlign_streams (z : ZoneId) : (c.markAlign z).streams = c.streams := rfl
@[simp] theorem Chip.markAlign_engines (z : ZoneId) : (c.markAlign z).engines = c.engines := rfl
@[simp] theorem Chip.markAlign_waitQueue (z : ZoneId) : (c.markAlign z).waitQueue = c.waitQueue := rfl
@[simp] theorem Chip.markAlign_outlets (z : ZoneId) : (c.markAlign z).outlets = c.outlets := rfl
@[simp] theorem Chip.markAlign_groups (z : ZoneId) : (c.markAlign z).groups = c.groups := rfl
@[simp] theorem Chip.markAlign_triggers (z : ZoneId) : (c.markAlign z).triggers = c.triggers := rfl
@[simp] theorem Chip.markAlign_imu (z : ZoneId) : (c.markAlign z).imu = c.imu := rfl
@[simp] theorem Chip.markAlign_tuner (z : ZoneId) : (c.markAlign z).tuner = c.tuner := rfl
@[simp] theorem Chip.markAlign_test (z : ZoneId) : (c.markAlign z).test = c.test := rfl
@[simp] theorem Chip.markAlign_cal (z : ZoneId) : (c.markAlign z).cal = c.cal := rfl
@[simp] theorem Chip.markAlign_sbb (z : ZoneId) : (c.markAlign z).sbb = c.sbb := rfl
@[simp] theorem Chip.markAlign_pins (z : ZoneId) : (c.markAlign z).pins = c.pins := rfl
@[simp] theorem Chip.markAlign_clock (z : ZoneId) : (c.markAlign z).clock = c.clock := rfl
@[simp] theorem Chip.markAlign_powerUpAt (z : ZoneId) : (c.markAlign z).powerUpAt = c.powerUpAt := rfl

@[simp] theorem Chip.release_win (z : ZoneId) : (c.release z).win = c.win := rfl
@[simp] theorem Chip.release_zones (z : ZoneId) : (c.release z).zones = c.zones := rfl
@[simp] theorem Chip.release_ctxs (z : ZoneId) : (c.release z).ctxs = c.ctxs := rfl
@[simp] theorem Chip.release_aligns (z : ZoneId) : (c.release z).aligns = c.aligns := rfl
@[simp] theorem Chip.release_sources (z : ZoneId) : (c.release z).sources = c.sources := rfl
@[simp] theorem Chip.release_streams (z : ZoneId) : (c.release z).streams = c.streams := rfl
@[simp] theorem Chip.release_engines (z : ZoneId) : (c.release z).engines = c.engines := rfl
@[simp] theorem Chip.release_waitQueue (z : ZoneId) : (c.release z).waitQueue = c.waitQueue := rfl
@[simp] theorem Chip.release_outlets (z : ZoneId) : (c.release z).outlets = c.outlets := rfl
@[simp] theorem Chip.release_groups (z : ZoneId) : (c.release z).groups = c.groups := rfl
@[simp] theorem Chip.release_triggers (z : ZoneId) : (c.release z).triggers = c.triggers := rfl
@[simp] theorem Chip.release_imu (z : ZoneId) : (c.release z).imu = c.imu := rfl
@[simp] theorem Chip.release_tuner (z : ZoneId) : (c.release z).tuner = c.tuner := rfl
@[simp] theorem Chip.release_test (z : ZoneId) : (c.release z).test = c.test := rfl
@[simp] theorem Chip.release_cal (z : ZoneId) : (c.release z).cal = c.cal := rfl
@[simp] theorem Chip.release_sbb (z : ZoneId) : (c.release z).sbb = c.sbb := rfl
@[simp] theorem Chip.release_pins (z : ZoneId) : (c.release z).pins = c.pins := rfl
@[simp] theorem Chip.release_clock (z : ZoneId) : (c.release z).clock = c.clock := rfl
@[simp] theorem Chip.release_powerUpAt (z : ZoneId) : (c.release z).powerUpAt = c.powerUpAt := rfl

@[simp] theorem Chip.fresh_win : c.fresh.win = c.win := rfl
@[simp] theorem Chip.fresh_zones : c.fresh.zones = c.zones := rfl
@[simp] theorem Chip.fresh_ctxs : c.fresh.ctxs = c.ctxs := rfl
@[simp] theorem Chip.fresh_aligns : c.fresh.aligns = c.aligns := rfl
@[simp] theorem Chip.fresh_sources : c.fresh.sources = c.sources := rfl
@[simp] theorem Chip.fresh_streams : c.fresh.streams = c.streams := rfl
@[simp] theorem Chip.fresh_engines : c.fresh.engines = c.engines := rfl
@[simp] theorem Chip.fresh_waitQueue : c.fresh.waitQueue = c.waitQueue := rfl
@[simp] theorem Chip.fresh_outlets : c.fresh.outlets = c.outlets := rfl
@[simp] theorem Chip.fresh_groups : c.fresh.groups = c.groups := rfl
@[simp] theorem Chip.fresh_triggers : c.fresh.triggers = c.triggers := rfl
@[simp] theorem Chip.fresh_imu : c.fresh.imu = c.imu := rfl
@[simp] theorem Chip.fresh_tuner : c.fresh.tuner = c.tuner := rfl
@[simp] theorem Chip.fresh_test : c.fresh.test = c.test := rfl
@[simp] theorem Chip.fresh_cal : c.fresh.cal = c.cal := rfl
@[simp] theorem Chip.fresh_sbb : c.fresh.sbb = c.sbb := rfl
@[simp] theorem Chip.fresh_pins : c.fresh.pins = c.pins := rfl
@[simp] theorem Chip.fresh_clock : c.fresh.clock = c.clock := rfl
@[simp] theorem Chip.fresh_powerUpAt : c.fresh.powerUpAt = c.powerUpAt := rfl

end

end Sys2Proof.Machine
end

