-- ==== Sys2Proof/Laws/Steady.lean ====
section
/-! SUPPORT. Which operations leave every setting alone. `Chip.steady` is what remains of the part when routes, levels, grants,
engines, tests, meters, calibration runs and time are taken away; `Chip.hide` takes away the zones' power and bindings too.
One lemma for each operation that changes nothing of `steady`, then one for each that changes nothing behind `hide`. -/

namespace Sys2Proof.Machine

/-- A hold whose silent report changes a zone's binding (R12). -/
def switches (p : ZoneId × Hold) : Bool := p.2 == .sourceSwitch

/-- What an event may still do to the zones' power and bindings, and the marks that it is to write. -/
def Ev.steady (e : Ev) : Ev :=
  { Ev.initial with
    marks := e.marks, stopping := e.stopping, restarts := e.restarts, placed := e.placed.filter switches }

/-- `Chip.kept` with the zones' power and bindings, the power state, and the marks that the event is to write. -/
def Chip.steady (c : Chip) : Chip :=
  { c.settled with ev := c.ev.steady }

/-- Take away the zones' power and bindings. -/
def Chip.hide (c : Chip) : Chip :=
  { c with zones := c.zones.map Zone.kept, sbb := c.sbb.kept, ev := { c.ev with stopping := [], restarts := [], placed := [] } }

@[simp] theorem Zone.kept_steady (x : Zone) : x.steady.kept = x.kept := rfl
@[simp] theorem Idle.core_core (x : Idle) : x.core.core = x.core := rfl
@[simp] theorem Indicator.core_core (x : Indicator) : x.core.core = x.core := rfl
@[simp] theorem PowerState.kept_kept (p : PowerState) : p.kept.kept = p.kept := by cases p <;> rfl

@[simp] theorem Standby.kept_kept (x : Standby) : x.kept.kept = x.kept := by simp [Standby.kept]

@[simp] theorem Standby.kept_steady (x : Standby) : x.steady.kept = x.kept := by simp [Standby.kept, Standby.steady]

/-- `kept` is `steady` behind `hide`, without marks. -/
theorem Chip.kept_eq_hide (c : Chip) : c.kept = { c.steady.hide with ev := Ev.initial } := by
  simp only [Chip.steady, Chip.settled, Chip.hide, Chip.kept, Standby.kept_steady, Vector.map_map]
  congr 1

theorem Chip.kept_of_hide {c d : Chip} (h : c.steady.hide = d.steady.hide) : c.kept = d.kept := by
  rw [Chip.kept_eq_hide, Chip.kept_eq_hide, h]

theorem Chip.kept_of_steady {c d : Chip} (h : c.steady = d.steady) : c.kept = d.kept := Chip.kept_of_hide (by rw [h])

/-- `f` changes nothing of what `g` shows. -/
def Keeps {α β : Type} (g : α → β) (f : α → α) : Prop := ∀ x, g (f x) = g x

@[simp] theorem keeps_iff {α β : Type} (g : α → β) (f : α → α) : Keeps g f ↔ ∀ x, g (f x) = g x := ⟨id, id⟩

/-! ### Tables -/

theorem Vector.map_set_same {α β : Type} {n : Nat} (g : α → β) (v : Vector α n) (i : Fin n) (x : α)
    (h : g x = g v[i]) : (v.set i x).map g = v.map g := by
  ext j hj
  simp only [Vector.getElem_map, Vector.getElem_set]
  split
  · rename_i e; subst e; exact h
  · rfl

theorem Vector.map_map_same {α β : Type} {n : Nat} (g : α → β) (f : α → α) (v : Vector α n)
    (h : ∀ x, g (f x) = g x) : (v.map f).map g = v.map g := by
  rw [Vector.map_map]; congr 1; funext x; exact h x

theorem Vector.map_ofFn_same {α β : Type} {n : Nat} (g : α → β) (f : Fin n → α) (v : Vector α n)
    (h : ∀ i : Fin n, g (f i) = g v[i]) : (Vector.ofFn f).map g = v.map g := by
  ext j hj
  simp only [Vector.getElem_map, Vector.getElem_ofFn]
  exact h ⟨j, hj⟩

/-! ### Updates -/

section

variable (c : Chip)

@[simp] theorem Chip.steady_updZone (z : ZoneId) (f : Zone → Zone) (h : Keeps Zone.steady f) :
    (c.updZone z f).steady = c.steady := by
  simp only [Chip.steady, Chip.settled, Chip.kept, Chip.updZone]
  rw [Vector.map_set_same Zone.steady _ _ _ (h _)]

@[simp] theorem Chip.steady_updCtx (z : ZoneId) (f : Ctx → Ctx) (h : Keeps Ctx.kept f) :
    (c.updCtx z f).steady = c.steady := by
  simp only [Chip.steady, Chip.settled, Chip.kept, Chip.updCtx]
  rw [Vector.map_set_same Ctx.kept _ _ _ (h _)]

@[simp] theorem Chip.steady_updSource (s : SourceId) (f : Source → Source)
    (h : Keeps Source.kept f) : (c.updSource s f).steady = c.steady := by
  simp only [Chip.steady, Chip.settled, Chip.kept, Chip.updSource]
  rw [Vector.map_set_same Source.kept _ _ _ (h _)]

@[simp] theorem Chip.steady_updStream (m : StreamId) (f : Stream → Stream)
    (h : Keeps Stream.kept f) : (c.updStream m f).steady = c.steady := by
  simp only [Chip.steady, Chip.settled, Chip.kept, Chip.updStream]
  rw [Vector.map_set_same Stream.kept _ _ _ (h _)]

@[simp] theorem Chip.steady_updOutlet (o : OutletId) (f : Outlet → Outlet)
    (h : Keeps Outlet.kept f) : (c.updOutlet o f).steady = c.steady := by
  simp only [Chip.steady, Chip.settled, Chip.kept, Chip.updOutlet]
  rw [Vector.map_set_same Outlet.kept _ _ _ (h _)]

@[simp] theorem Chip.steady_updTrigger (t : Fin 4) (f : Trigger → Trigger)
    (h : Keeps Trigger.core f) : (c.updTrigger t f).steady = c.steady := by
  simp only [Chip.steady, Chip.settled, Chip.kept, Chip.updTrigger]
  rw [Vector.map_set_same Trigger.core _ _ _ (h _)]

@[simp] theorem Chip.steady_updWin (f : Win → Win) (h : Keeps Win.kept f) : (c.updWin f).steady = c.steady := by
  simp only [Chip.steady, Chip.settled, Chip.kept, Chip.updWin]; rw [h]

@[simp] theorem Chip.steady_updTuner (f : Tuner → Tuner) (h : Keeps Tuner.kept f) :
    (c.updTuner f).steady = c.steady := by
  simp only [Chip.steady, Chip.settled, Chip.kept, Chip.updTuner]; rw [h]

@[simp] theorem Chip.steady_updSbb (f : Standby → Standby) (h : Keeps Standby.steady f) :
    (c.updSbb f).steady = c.steady := by
  simp only [Chip.steady, Chip.settled, Chip.kept, Chip.updSbb]; rw [h]

@[simp] theorem Chip.steady_updIdle (z : ZoneId) (f : Idle → Idle) (h : Keeps Idle.core f) :
    (c.updIdle z f).steady = c.steady := by
  simp only [Chip.steady, Chip.settled, Chip.kept, Chip.updIdle, Chip.updSbb, Standby.steady, Standby.kept]
  rw [Vector.map_set_same Idle.core _ _ _ (h _)]

@[simp] theorem Chip.steady_updEv (f : Ev → Ev) (h : Keeps Ev.steady f) : (c.updEv f).steady = c.steady := by
  simp only [Chip.steady, Chip.settled, Chip.updEv]; rw [h]; rfl

@[simp] theorem Chip.steady_updAlign (z : ZoneId) (f : Align → Align) : (c.updAlign z f).steady = c.steady := rfl
@[simp] theorem Chip.steady_updEngine (e : EngineId) (f : Engine → Engine) : (c.updEngine e f).steady = c.steady := rfl
@[simp] theorem Chip.steady_updMeter (m : MeterId) (f : Meter → Meter) : (c.updMeter m f).steady = c.steady := rfl
@[simp] theorem Chip.steady_updTest (f : TestRec → TestRec) : (c.updTest f).steady = c.steady := rfl
@[simp] theorem Chip.steady_updCal (f : CalRec → CalRec) : (c.updCal f).steady = c.steady := rfl
@[simp] theorem Chip.steady_imu (v : Imu) : Chip.steady { c with imu := v } = c.steady := rfl
@[simp] theorem Chip.steady_waitQueue (v : List ZoneId) : Chip.steady { c with waitQueue := v } = c.steady := rfl
@[simp] theorem Chip.steady_nameZone (z : ZoneId) : (c.nameZone z).steady = c.steady := rfl
@[simp] theorem Chip.steady_markPage (p : PageId) : (c.markPage p).steady = c.steady := rfl
@[simp] theorem Chip.steady_markAlign (z : ZoneId) : (c.markAlign z).steady = c.steady := rfl
@[simp] theorem Chip.steady_release (z : ZoneId) : (c.release z).steady = c.steady := rfl
@[simp] theorem Chip.steady_setRun (f : CalRec → CalRec) : (c.setRun f).steady = c.steady := rfl

@[simp] theorem Chip.steady_setEngine (e : EngineId) (f : Engine → Engine) : (c.setEngine e f).steady = c.steady := by
  unfold Chip.setEngine; simp only []; split <;> rfl

@[simp] theorem Chip.steady_setQueue (q : List ZoneId) : (c.setQueue q).steady = c.steady := by
  unfold Chip.setQueue; split <;> rfl

end

theorem Chip.steady_foldl {α : Type} (f : Chip → α → Chip) (h : ∀ c a, (f c a).steady = c.steady) (l : List α) (c : Chip) :
    (l.foldl f c).steady = c.steady := by
  induction l generalizing c with
  | nil => rfl
  | cons a l ih => simp only [List.foldl_cons]; rw [ih, h]

theorem Chip.hide_foldl {α : Type} (f : Chip → α → Chip) (h : ∀ c a, (f c a).steady.hide = c.steady.hide) (l : List α)
    (c : Chip) : (l.foldl f c).steady.hide = c.steady.hide := by
  induction l generalizing c with
  | nil => rfl
  | cons a l ih => simp only [List.foldl_cons]; rw [ih, h]


/-! ### Ends of orders -/

@[simp] theorem Chip.steady_endOrder (c : Chip) (t : Word) (code : ResultCode) (r k f : Bool) (v : List ResultValue) :
    (c.endOrder t code r k f v).steady = c.steady := by
  unfold Chip.endOrder; split <;> rfl

@[simp] theorem Chip.steady_done (c : Chip) (t : Word) (k : Bool) (v : List ResultValue) :
    (c.done t k v).steady = c.steady := by
  simp [Chip.done]

@[simp] theorem Chip.steady_doneWith (c : Chip) (t : Word) (code : ResultCode) (v : List ResultValue) :
    (c.doneWith t code v).steady = c.steady := by
  simp [Chip.doneWith]

@[simp] theorem Chip.steady_refuse (c : Chip) (t : Word) (code : ResultCode) :
    (c.refuse t code).steady = c.steady := by
  simp [Chip.refuse]

/-! ### Levels -/

@[simp] theorem Chip.steady_relevelZone (c : Chip) (z : ZoneId) :
    (c.relevelZone z).steady = c.steady := by
  simp [Chip.relevelZone, Ctx.kept]

@[simp] theorem Chip.steady_evalLimited (c : Chip) (z : ZoneId) :
    (c.evalLimited z).steady = c.steady := by
  simp [Chip.evalLimited, Zone.steady, Zone.kept]

@[simp] theorem Chip.steady_relevel (c : Chip) :
    c.relevel.steady = c.steady := by
  unfold Chip.relevel; exact Chip.steady_foldl _ (by simp) _ _

@[simp] theorem Chip.steady_placeHold (c : Chip) (z : ZoneId) (h : Hold) (hs : h ≠ .sourceSwitch) :
    (c.placeHold z h).steady = c.steady := by
  unfold Chip.placeHold; split <;> simp [Ctx.kept, Ev.steady, switches, hs]

theorem Hold.filter_switches (l : List (ZoneId × Hold)) (z : ZoneId) (h : Hold) (hs : h ≠ .sourceSwitch) :
    (l.filter (· ≠ (z, h))).filter switches = l.filter switches := by
  rw [List.filter_filter]
  refine List.filter_congr fun p _ => ?_
  by_cases hp : switches p = true
  · have : p ≠ (z, h) := by rintro rfl; simp [switches] at hp; exact hs hp
    simp [hp, this]
  · simp at hp; simp [hp]

@[simp] theorem Chip.steady_liftHold (c : Chip) (z : ZoneId) (h : Hold) (hs : h ≠ .sourceSwitch) :
    (c.liftHold z h).steady = c.steady := by
  unfold Chip.liftHold
  rw [Chip.steady_updEv, Chip.steady_updCtx]
  · intro x; rfl
  · intro e; simp only [Ev.steady]; rw [Hold.filter_switches _ _ _ hs]


/-! ### Time -/

theorem Standby.steady_pass (c : Chip) (n : Nat) : (c.passSbb n).steady = c.sbb.steady := by
  simp only [Chip.passSbb, Standby.steady, Standby.kept]
  rw [Vector.map_ofFn_same Idle.core _ c.sbb.idle (by intro i; simp only [Idle.pass]; split <;> rfl),
    Vector.map_map_same Indicator.core (Indicator.pass n) _ (fun x => rfl)]

@[simp] theorem Chip.steady_pass (c : Chip) (dt n : Nat) : (c.pass dt n).steady = c.steady := by
  simp only [Chip.steady, Chip.settled, Chip.kept, Chip.pass, Standby.steady_pass]
  rw [Vector.map_map_same Zone.steady (Zone.pass n) _
      (fun x => by cases h : x.settleTimer <;> simp [Zone.steady, Zone.kept, Zone.pass, countDown, h]),
    Vector.map_map_same Ctx.kept (Ctx.pass n) _ (fun x => rfl),
    Vector.map_map_same Source.kept (Source.pass n) _ (fun x => rfl),
    Vector.map_map_same Outlet.kept (Outlet.pass n) _ (fun x => rfl),
    Vector.map_ofFn_same Stream.kept _ c.streams (by intro i; simp only [Chip.passStream]; split <;> rfl)]
  rfl


@[simp] theorem Chip.steady_passTicks (c : Chip) (dt : Nat) :
    (c.passTicks dt).steady = c.steady := by
  simp [Chip.passTicks]

@[simp] theorem Chip.steady_passSamples (c : Chip) (n : Nat) :
    (c.passSamples n).steady = c.steady := by
  simp [Chip.passSamples]

@[simp] theorem Chip.steady_passTimer (c : Chip) (t : Option Nat) :
    (c.passTimer t).steady = c.steady := by
  simp [Chip.passTimer]

/-! ### Routes -/

@[simp] theorem Chip.steady_resolveZone (c : Chip) (z : ZoneId) :
    (c.resolveZone z).steady = c.steady := by
  unfold Chip.resolveZone; split <;> simp [Ctx.kept, Zone.steady, Zone.kept]

@[simp] theorem Chip.steady_selectSet (c : Chip) (z : ZoneId) :
    (c.selectSet z).steady = c.steady := by
  unfold Chip.selectSet; split <;> simp [Ctx.kept]

/-! ### Meters -/

@[simp] theorem Chip.steady_armMeter (c : Chip) (m : MeterId) (a : Arming) :
    (c.armMeter m a).steady = c.steady := by
  unfold Chip.armMeter; simp only []; split <;> simp

@[simp] theorem Chip.steady_calGiven (c : Chip) (m : MeterId) :
    (c.calGiven m).steady = c.steady := by
  unfold Chip.calGiven; simp only []; split <;> simp

@[simp] theorem Chip.steady_giveMeter (c : Chip) (m : MeterId) (q : Claim) :
    (c.giveMeter m q).steady = c.steady := by
  unfold Chip.giveMeter; simp only []; split <;> simp

@[simp] theorem Chip.steady_claimMeter (c : Chip) (q : Claim) (w : Bool) :
    (c.claimMeter q w).steady = c.steady := by
  unfold Chip.claimMeter; (repeat' split) <;> simp

@[simp] theorem Chip.steady_releaseMeter (c : Chip) (m : MeterId) :
    (c.releaseMeter m).steady = c.steady := by
  unfold Chip.releaseMeter; simp only []; split <;> simp

@[simp] theorem Chip.steady_withdrawClaim (c : Chip) (h : Holder) :
    (c.withdrawClaim h).steady = c.steady := by
  simp [Chip.withdrawClaim]

@[simp] theorem Chip.steady_dropMeter (c : Chip) (h : Holder) :
    (c.dropMeter h).steady = c.steady := by
  unfold Chip.dropMeter; split <;> simp

@[simp] theorem Chip.steady_measureSignal (c : Chip) (m : MeterId) (t : Word) :
    (c.measureSignal m t).steady = c.steady := by
  unfold Chip.measureSignal; simp only []; split <;> simp

@[simp] theorem Chip.steady_abortMeasure (c : Chip) (t : Word) :
    (c.abortMeasure t).steady = c.steady := by
  simp [Chip.abortMeasure]

/-! ### Delay alignment -/

@[simp] theorem Chip.steady_computeZone (c : Chip) (z : ZoneId) :
    (c.computeZone z).steady = c.steady := by
  unfold Chip.computeZone
  try simp only []
  (repeat' split) <;> simp 

@[simp] theorem Chip.steady_roundFrom (c : Chip) (named : List ZoneId) (fuel : Nat) (left : List ZoneId) :
    (c.roundFrom named fuel left).steady = c.steady := by
  induction fuel generalizing c left with
  | zero => rfl
  | succ n ih => unfold Chip.roundFrom; split <;> simp [ih]


@[simp] theorem Chip.steady_runRound (c : Chip) :
    c.runRound.steady = c.steady := by
  simp [Chip.runRound, Ev.steady]

theorem Outlet.kept_rebuild (x : Outlet) (d : Nat) : (x.rebuild d).kept = x.kept := by
  unfold Outlet.rebuild; (repeat' split) <;> rfl


@[simp] theorem Chip.steady_switchGrant (c : Chip) (z : ZoneId) :
    (c.switchGrant z).steady = c.steady := by
  unfold Chip.switchGrant
  split
  · simp only []
    split <;> simp <;> exact Chip.steady_foldl _ (fun c e => by simp [Outlet.kept_rebuild]) _ _
  · rfl

@[simp] theorem Chip.steady_clearLine (c : Chip) (o : OutletId) :
    (c.clearLine o).steady = c.steady := by
  unfold Chip.clearLine
  split
  · rfl
  · simp only []
    cases c.outlets[o].zone with
    | none => simp [Outlet.kept]
    | some z => simp only []; split <;> simp [Outlet.kept]

@[simp] theorem Chip.steady_abandonGrant (c : Chip) (z : ZoneId) :
    (c.abandonGrant z).steady = c.steady := by
  unfold Chip.abandonGrant
  try simp only []
  (repeat' split) <;> simp 

@[simp] theorem Chip.steady_releaseDelay (c : Chip) (z : ZoneId) :
    (c.releaseDelay z).steady = c.steady := by
  simp only [Chip.releaseDelay, Chip.steady_updAlign]
  rw [Chip.steady_foldl _ (by simp) _ _]; split <;> rfl

@[simp] theorem Chip.steady_handOff (c : Chip) (z : ZoneId) :
    (c.handOff z).steady = c.steady := by
  unfold Chip.handOff; split <;> simp

@[simp] theorem Chip.steady_applyOne (c : Chip) (e : ApplyEntry) :
    (c.applyOne e).steady = c.steady := by
  unfold Chip.applyOne
  try simp only []
  (repeat' split) <;> simp [Outlet.kept]

@[simp] theorem Chip.steady_applyAll (c : Chip) (l : List ApplyEntry) :
    (c.applyAll l).steady = c.steady := by
  exact Chip.steady_foldl _ (by simp) _ _

/-! ### Engines -/

@[simp] theorem Chip.steady_dequeue (c : Chip) (z : ZoneId) :
    (c.dequeue z).steady = c.steady := by
  simp [Chip.dequeue]

@[simp] theorem Chip.steady_enqueue (c : Chip) (z : ZoneId) :
    (c.enqueue z).steady = c.steady := by
  unfold Chip.enqueue; split <;> simp

@[simp] theorem Chip.steady_setDecode (c : Chip) (s : SourceId) (d : Decode) :
    (c.setDecode s d).steady = c.steady := by
  unfold Chip.setDecode; simp only []; split <;> simp [Source.kept]

@[simp] theorem Chip.steady_takeEngine (c : Chip) (e : EngineId) (s : SourceId) (f : Format) (z : ZoneId) :
    (c.takeEngine e s f z).steady = c.steady := by
  simp [Chip.takeEngine]

@[simp] theorem Chip.steady_migrate (c : Chip) :
    c.migrate.steady = c.steady := by
  unfold Chip.migrate; simp only []; split <;> simp

@[simp] theorem Chip.steady_preempt (c : Chip) (s : SourceId) (f : Format) :
    (c.preempt s f).steady = c.steady := by
  unfold Chip.preempt
  simp only [Chip.steady_takeEngine, Chip.steady_setEngine]
  split
  · exact (Chip.steady_setDecode _ _ _).trans (Chip.steady_foldl _ (by simp) _ _)
  · exact Chip.steady_foldl _ (by simp) _ _

@[simp] theorem Chip.steady_request (c : Chip) (z : ZoneId) (s : SourceId) (f : Format) :
    (c.request z s f).steady = c.steady := by
  unfold Chip.request
  try simp only []
  (repeat' split) <;> simp 

@[simp] theorem Chip.steady_serveEntries (c : Chip) (e : EngineId) (l : List ZoneId) :
    (Chip.serveEntries e l c).steady = c.steady := by
  induction l generalizing c with
  | nil => rfl
  | cons z l ih => unfold Chip.serveEntries; (repeat' split) <;> simp [ih]


@[simp] theorem Chip.steady_serve (c : Chip) (e : EngineId) :
    (c.serve e).steady = c.steady := by
  unfold Chip.serve; split <;> simp

@[simp] theorem Chip.steady_freeEngine (c : Chip) (e : EngineId) :
    (c.freeEngine e).steady = c.steady := by
  unfold Chip.freeEngine; simp only []; split <;> simp [Source.kept]

@[simp] theorem Chip.steady_leaveEngine (c : Chip) (z : ZoneId) :
    (c.leaveEngine z).steady = c.steady := by
  unfold Chip.leaveEngine
  try simp only []
  (repeat' split) <;> simp 

@[simp] theorem Chip.steady_dropBitstream (c : Chip) (s : SourceId) :
    (c.dropBitstream s).steady = c.steady := by
  unfold Chip.dropBitstream
  simp only []
  split
  · exact Chip.steady_foldl _ (by simp) _ _
  · simp only [Chip.steady_serve, Chip.steady_freeEngine]; exact Chip.steady_foldl _ (by simp) _ _

@[simp] theorem Chip.steady_requestAll (c : Chip) (s : SourceId) (f : Format) (l : List ZoneId) :
    (c.requestAll s f l).steady = c.steady := by
  exact Chip.steady_foldl _ (by simp) _ _

@[simp] theorem Chip.steady_reformat (c : Chip) (s : SourceId) (f : Format) :
    (c.reformat s f).steady = c.steady := by
  unfold Chip.reformat
  try simp only []
  (repeat' split) <;> simp [Source.kept]

/-! ### Sources -/

@[simp] theorem Chip.steady_leaveState (c : Chip) (s : SourceId) :
    (c.leaveState s).steady = c.steady := by
  unfold Chip.leaveState; simp only []; split <;> simp [Source.kept]

@[simp] theorem Chip.steady_handOffAll (c : Chip) (s : SourceId) :
    (c.handOffAll s).steady = c.steady := by
  exact Chip.steady_foldl _ (by simp) _ _

@[simp] theorem Chip.steady_claimRate (c : Chip) (p : SourceId) :
    (c.claimRate p).steady = c.steady := by
  simp [Chip.claimRate, Source.kept]

@[simp] theorem Chip.steady_formatHolds (c : Chip) (s : SourceId) :
    (c.formatHolds s).steady = c.steady := by
  unfold Chip.formatHolds; exact Chip.steady_foldl _ (fun c z => by split <;> simp) _ _

@[simp] theorem Chip.steady_recomputeOffers (c : Chip) :
    c.recomputeOffers.steady = c.steady := by
  unfold Chip.recomputeOffers; exact Chip.steady_foldl _ (fun c s => by simp [Source.kept]) _ _

@[simp] theorem Chip.steady_recomputeOffer (c : Chip) (s : SourceId) :
    (c.recomputeOffer s).steady = c.steady := by
  unfold Chip.recomputeOffer; simp only []; split <;> simp [Source.kept]

@[simp] theorem Chip.steady_dropSignals (c : Chip) :
    c.dropSignals.steady = c.steady := by
  unfold Chip.dropSignals; exact Chip.steady_foldl _ (fun c s => by split <;> simp [Source.kept]) _ _

/-! ### Tuner -/

@[simp] theorem Chip.steady_clearData (c : Chip) :
    c.clearData.steady = c.steady := by
  unfold Chip.clearData; simp only []; split <;> simp [Tuner.kept]

@[simp] theorem Chip.steady_enterTuning (c : Chip) (o : Option TunerFlight) :
    (c.enterTuning o).steady = c.steady := by
  simp [Chip.enterTuning, Tuner.kept]

@[simp] theorem Chip.steady_enterIdle (c : Chip) :
    c.enterIdle.steady = c.steady := by
  simp [Chip.enterIdle, Tuner.kept]

@[simp] theorem Chip.steady_endFlight (c : Chip) (code : ResultCode) :
    (c.endFlight code).steady = c.steady := by
  unfold Chip.endFlight; split <;> simp [Tuner.kept]

@[simp] theorem Chip.steady_abortScan (c : Chip) :
    c.abortScan.steady = c.steady := by
  unfold Chip.abortScan; split <;> simp [Tuner.kept]

@[simp] theorem Chip.steady_dropFlight (c : Chip) :
    c.dropFlight.steady = c.steady := by
  unfold Chip.dropFlight; split <;> simp

@[simp] theorem Chip.steady_tunerBind (c : Chip) :
    c.tunerBind.steady = c.steady := by
  unfold Chip.tunerBind; split <;> simp

@[simp] theorem Chip.steady_tunerRelease (c : Chip) :
    c.tunerRelease.steady = c.steady := by
  unfold Chip.tunerRelease
  try simp only []
  (repeat' split) <;> simp 

/-! ### Test generator and calibration -/

@[simp] theorem Chip.steady_endTest (c : Chip) :
    c.endTest.steady = c.steady := by
  unfold Chip.endTest; split <;> simp

@[simp] theorem Chip.steady_endTestIn (c : Chip) (z : ZoneId) :
    (c.endTestIn z).steady = c.steady := by
  unfold Chip.endTestIn; split <;> simp

@[simp] theorem Chip.steady_walkStep (c : Chip) (z : ZoneId) :
    (c.walkStep z).steady = c.steady := by
  unfold Chip.walkStep; split <;> simp

@[simp] theorem Chip.steady_aimTest (c : Chip) (m : TestMode) (z : ZoneId) (o : Option OutletId) (l : Int) :
    (c.aimTest m z o l).steady = c.steady := by
  unfold Chip.aimTest; split <;> simp

@[simp] theorem Chip.steady_setTest (c : Chip) (m : TestMode) (z : ZoneId) (o : Option OutletId) (l : Int) :
    (c.setTest m z o l).steady = c.steady := by
  unfold Chip.setTest
  try simp only []
  (repeat' split) <;> simp 

@[simp] theorem Chip.steady_testSilent (c : Chip) :
    c.testSilent.steady = c.steady := by
  unfold Chip.testSilent; split <;> simp

@[simp] theorem Chip.steady_edgeAll (c : Chip) (e : Edge) :
    (c.edgeAll e).steady = c.steady := by
  simp [Chip.edgeAll]

@[simp] theorem Chip.steady_burstEdge (c : Chip) (o : OutletId) (r : Bool) :
    (c.burstEdge o r).steady = c.steady := by
  unfold Chip.burstEdge
  rw [Chip.steady_foldl _ (fun c p => by split <;> simp) _ _]
  simp

@[simp] theorem Chip.steady_stopBurst (c : Chip) : c.stopBurst.steady = c.steady := by
  unfold Chip.stopBurst; split <;> simp

@[simp] theorem Chip.steady_startBurst (c : Chip) (i : Nat) (o : OutletId) (k : Nat) :
    (c.startBurst i o k).steady = c.steady := by
  unfold Chip.startBurst; simp only []; split <;> simp

@[simp] theorem Chip.steady_leaveRun (c : Chip) :
    c.leaveRun.steady = c.steady := by
  unfold Chip.leaveRun; simp only []; split <;> simp

@[simp] theorem Chip.steady_completeRun (c : Chip) :
    c.completeRun.steady = c.steady := by
  unfold Chip.completeRun
  try simp only []
  (repeat' split) <;> simp 

@[simp] theorem Chip.steady_abortRun (c : Chip) :
    c.abortRun.steady = c.steady := by
  unfold Chip.abortRun
  try simp only []
  (repeat' split) <;> simp 

@[simp] theorem Chip.steady_abortRunIn (c : Chip) (z : ZoneId) :
    (c.abortRunIn z).steady = c.steady := by
  unfold Chip.abortRunIn; split <;> simp

@[simp] theorem Chip.steady_measureFrom (c : Chip) (l : List OutletId) (i : Nat) :
    (Chip.measureFrom l i c).steady = c.steady := by
  induction l generalizing c i with
  | nil => simp [Chip.measureFrom]
  | cons o l ih => unfold Chip.measureFrom; split <;> simp [ih]


@[simp] theorem Chip.steady_moveOn (c : Chip) (i : Nat) :
    (c.moveOn i).steady = c.steady := by
  simp [Chip.moveOn]

@[simp] theorem Chip.steady_calSilent (c : Chip) :
    c.calSilent.steady = c.steady := by
  unfold Chip.calSilent; split <;> simp

@[simp] theorem Chip.steady_calLoses (c : Chip) (o : OutletId) (s : CalStatus) :
    (c.calLoses o s).steady = c.steady := by
  unfold Chip.calLoses
  try simp only []
  (repeat' split) <;> simp 

@[simp] theorem Chip.steady_timingExpired (c : Chip) (p : CalPlace) (o : OutletId) :
    (c.timingExpired p o).steady = c.steady := by
  unfold Chip.timingExpired; split <;> simp

@[simp] theorem Chip.steady_levelExpired (c : Chip) (i : Nat) (l : Int) :
    (c.levelExpired i l).steady = c.steady := by
  simp [Chip.levelExpired]

/-! ### Outlets -/

@[simp] theorem Chip.steady_evalUnused (c : Chip) (o : OutletId) :
    (c.evalUnused o).steady = c.steady := by
  unfold Chip.evalUnused
  try simp only []
  (repeat' split) <;> simp [Outlet.kept]

@[simp] theorem Chip.steady_relend (c : Chip) (o : OutletId) (f : Outlet → Outlet) (h : Keeps Outlet.kept f) :
    (c.relend o f).steady = c.steady := by
  unfold Chip.relend
  rw [Chip.steady_foldl _ (fun d z => by split <;> simp) _ _, Chip.steady_markPage, Chip.steady_updOutlet _ _ _ h]

@[simp] theorem Chip.steady_setEngaged (c : Chip) (o : OutletId) (on : Bool) :
    (c.setEngaged o on).steady = c.steady := by
  unfold Chip.setEngaged; simp only []; split <;> simp [Outlet.kept]

@[simp] theorem Chip.steady_placeOutlet (c : Chip) (o : OutletId) (z : ZoneId) (p : Placement) :
    (c.placeOutlet o z p).steady = c.steady := by
  simp [Chip.placeOutlet, Outlet.kept]

@[simp] theorem Chip.steady_leaveZone (c : Chip) (o : OutletId) :
    (c.leaveZone o).steady = c.steady := by
  unfold Chip.leaveZone
  try simp only []
  (repeat' split) <;> simp [Outlet.kept]

@[simp] theorem Chip.steady_beginWithdraw (c : Chip) (o : OutletId) (p : Placement) :
    (c.beginWithdraw o p).steady = c.steady := by
  unfold Chip.beginWithdraw
  try simp only []
  (repeat' split) <;> simp [Outlet.kept, Ev.steady]

@[simp] theorem Chip.steady_cancelLending (c : Chip) (o : OutletId) :
    (c.cancelLending o).steady = c.steady := by
  simp [Chip.cancelLending, Outlet.kept, Ev.steady]

@[simp] theorem Chip.steady_placeAssigned (c : Chip) (o : OutletId) :
    (c.placeAssigned o).steady = c.steady := by
  unfold Chip.placeAssigned
  try simp only []
  (repeat' split) <;> simp 

@[simp] theorem Chip.steady_finishAssign (c : Chip) (o : OutletId) (t : Option Word) :
    (c.finishAssign o t).steady = c.steady := by
  unfold Chip.finishAssign
  try simp only []
  (repeat' split) <;> simp [Outlet.kept]

@[simp] theorem Chip.steady_endWithdraw (c : Chip) (o : OutletId) :
    (c.endWithdraw o).steady = c.steady := by
  unfold Chip.endWithdraw
  try simp only []
  (repeat' split) <;> simp [Ev.steady]

@[simp] theorem Chip.steady_borrow (c : Chip) (z : ZoneId) (o : OutletId) :
    (c.borrow z o).steady = c.steady := by
  unfold Chip.borrow
  try simp only []
  (repeat' split) <;> simp 

@[simp] theorem Chip.steady_engageHome (c : Chip) (z : ZoneId) (o : OutletId) :
    (c.engageHome z o).steady = c.steady := by
  unfold Chip.engageHome
  try simp only []
  (repeat' split) <;> simp

@[simp] theorem Chip.steady_lendTo (c : Chip) (z : ZoneId) :
    (c.lendTo z).steady = c.steady := by
  unfold Chip.lendTo
  rw [Chip.steady_foldl _ (by simp) _ _, Chip.steady_foldl _ (by simp) _ _]

@[simp] theorem Chip.steady_returnOutlet (c : Chip) (z : ZoneId) (o : OutletId) :
    (c.returnOutlet z o).steady = c.steady := by
  unfold Chip.returnOutlet
  try simp only []
  (repeat' split) <;> simp [Ev.steady]

@[simp] theorem Chip.steady_setTriggers (c : Chip) :
    c.setTriggers.steady = c.steady := by
  simp only [Chip.setTriggers, Chip.steady, Chip.settled, Chip.kept]
  rw [Vector.map_map_same Trigger.core (fun t => { t with asserted := c.triggerAsserted t.binding }) _ (fun x => rfl)]

@[simp] theorem Chip.steady_evalTriggers (c : Chip) :
    c.evalTriggers.steady = c.steady := by
  unfold Chip.evalTriggers; split <;> simp

@[simp] theorem Chip.steady_returnOutlets (c : Chip) (z : ZoneId) :
    (c.returnOutlets z).steady = c.steady := by
  unfold Chip.returnOutlets; exact Chip.steady_foldl _ (by simp) _ _

@[simp] theorem Chip.steady_evalUnusedIn (c : Chip) (z : ZoneId) :
    (c.evalUnusedIn z).steady = c.steady := by
  unfold Chip.evalUnusedIn; exact Chip.steady_foldl _ (by simp) _ _

@[simp] theorem Chip.steady_cutDrive (c : Chip) (o : OutletId) :
    (c.cutDrive o).steady = c.steady := by
  unfold Chip.cutDrive
  try simp only []
  (repeat' split) <;> simp [Outlet.kept, Ev.steady]

@[simp] theorem Chip.steady_reportFault (before c : Chip) (o : OutletId) :
    (Chip.reportFault before c o).steady = c.steady := by
  unfold Chip.reportFault; split <;> simp


/-! ### Standby Block -/

@[simp] theorem Chip.steady_stopIdle (c : Chip) (z : ZoneId) :
    (c.stopIdle z).steady = c.steady := by
  simp [Chip.stopIdle, Idle.core]

@[simp] theorem Chip.steady_startIdle (c : Chip) (z : ZoneId) :
    (c.startIdle z).steady = c.steady := by
  simp [Chip.startIdle, Idle.core]

@[simp] theorem Idle.core_restart (i : Idle) : i.restart.core = i.core := by unfold Idle.restart; split <;> rfl


@[simp] theorem Chip.steady_restartIdle (c : Chip) (z : ZoneId) :
    (c.restartIdle z).steady = c.steady := by
  simp [Chip.restartIdle]

theorem Standby.steady_idle (b : Standby) (v : Vector Idle 4) (h : v.map Idle.core = b.idle.map Idle.core) :
    Standby.steady { b with idle := v } = b.steady := by simp only [Standby.steady, Standby.kept]; rw [h]


@[simp] theorem Chip.steady_activity (c : Chip) :
    c.activity.steady = c.steady := by
  simp only [Chip.activity]
  exact Chip.steady_updSbb _ _ fun b => Standby.steady_idle _ _ (Vector.map_map_same Idle.core Idle.restart _ Idle.core_restart)

@[simp] theorem Chip.steady_touchIdle (c : Chip) (k : OrderKind) (h : OrderHead) :
    (c.touchIdle k h).steady = c.steady := by
  unfold Chip.touchIdle; split <;> simp

/-! ### What follows from the state -/

@[simp] theorem Chip.steady_deriveProgramme (c : Chip) (z : ZoneId) :
    (c.deriveProgramme z).steady = c.steady := by
  simp [Chip.deriveProgramme, Zone.steady, Zone.kept]

@[simp] theorem Chip.steady_evalAnnounce (c : Chip) (z : ZoneId) :
    (c.evalAnnounce z).steady = c.steady := by
  simp [Chip.evalAnnounce, Zone.announce, Zone.steady, Zone.kept]

@[simp] theorem Chip.steady_cutTest (c : Chip) :
    c.cutTest.steady = c.steady := by
  simp [Chip.cutTest]

@[simp] theorem Chip.steady_setRelays (c : Chip) :
    c.setRelays.steady = c.steady := by
  simp only [Chip.setRelays, Chip.steady, Chip.settled, Chip.kept]
  rw [Vector.map_ofFn_same Outlet.kept (fun o => { c.outlets[o] with relay := c.relayOf o }) c.outlets (fun i => rfl)]

@[simp] theorem Chip.steady_holdIdle (c : Chip) :
    c.holdIdle.steady = c.steady := by
  simp only [Chip.holdIdle]
  refine Chip.steady_updSbb _ _ fun b => Standby.steady_idle _ _ (Vector.map_ofFn_same _ _ _ ?_)
  intro z; split <;> simp

@[simp] theorem Chip.steady_deriveMain (c : Chip) :
    c.deriveMain.steady = c.steady := by
  unfold Chip.deriveMain
  simp only [Chip.steady_holdIdle, Chip.steady_setTriggers, Chip.steady_setRelays, Chip.steady_recomputeOffers,
    Chip.steady_dropSignals, Chip.steady_cutTest, Chip.steady_relevel]
  rw [Chip.steady_foldl _ (by simp) _ _, Chip.steady_foldl _ (by simp) _ _, Chip.steady_foldl _ (by simp) _ _,
    Chip.steady_foldl _ (by simp) _ _]

theorem Indicator.core_eval (c : Chip) (i : Indicator) : (c.evalIndicator i).core = i.core := by
  unfold Chip.evalIndicator; split <;> rfl


@[simp] theorem Chip.steady_setIndicators (c : Chip) :
    c.setIndicators.steady = c.steady := by
  simp only [Chip.setIndicators]
  refine Chip.steady_updSbb _ _ fun b => ?_
  simp only [Standby.steady, Standby.kept]
  rw [Vector.map_map_same Indicator.core c.evalIndicator _ (Indicator.core_eval c)]

@[simp] theorem Chip.steady_derive (c : Chip) :
    c.derive.steady = c.steady := by
  unfold Chip.derive; split <;> simp

/-! ### Zone transitions, behind `hide` -/

@[simp] theorem Chip.hide_updZone (c : Chip) (z : ZoneId) (f : Zone → Zone) (h : Keeps Zone.kept f) :
    (c.updZone z f).steady.hide = c.steady.hide := by
  simp only [Chip.steady, Chip.settled, Chip.kept, Chip.updZone, Chip.hide, Vector.map_map]
  congr 1
  exact Vector.map_set_same (Zone.kept ∘ Zone.steady) _ _ _ (by simpa using h _)

@[simp] theorem Chip.hide_updSbb (c : Chip) (f : Standby → Standby) (h : Keeps Standby.kept f) :
    (c.updSbb f).steady.hide = c.steady.hide := by
  simp only [Chip.steady, Chip.settled, Chip.kept, Chip.updSbb, Chip.hide, Standby.kept_steady]; rw [h]


@[simp] theorem Chip.hide_updEv (c : Chip) (f : Ev → Ev) (h : Keeps Ev.marks f) :
    (c.updEv f).steady.hide = c.steady.hide := by
  simp only [Chip.steady, Chip.settled, Chip.hide, Chip.updEv, Ev.steady]; rw [h]; rfl

theorem Chip.hide_updCtx (c : Chip) (z : ZoneId) (f : Ctx → Ctx) (h : Keeps Ctx.kept f) :
    (c.updCtx z f).steady.hide = c.steady.hide := by rw [Chip.steady_updCtx _ _ _ h]

@[simp] theorem Chip.hide_placeHold (c : Chip) (z : ZoneId) (h : Hold) :
    (c.placeHold z h).steady.hide = c.steady.hide := by
  unfold Chip.placeHold; split <;> simp [Ctx.kept]

@[simp] theorem Chip.hide_liftHold (c : Chip) (z : ZoneId) (h : Hold) :
    (c.liftHold z h).steady.hide = c.steady.hide := by
  simp [Chip.liftHold, Ctx.kept]

@[simp] theorem Chip.hide_clearHolds (c : Chip) (z : ZoneId) :
    (c.clearHolds z).steady.hide = c.steady.hide := by
  simp [Chip.clearHolds, Ctx.kept]


@[simp] theorem Chip.hide_bindZone (c : Chip) (z : ZoneId) (s : SourceId) :
    (c.bindZone z s).steady.hide = c.steady.hide := by
  unfold Chip.bindZone
  try simp only []
  (repeat' split) <;> simp [Zone.kept]

@[simp] theorem Chip.hide_releaseBinding (c : Chip) (z : ZoneId) :
    (c.releaseBinding z).steady.hide = c.steady.hide := by
  unfold Chip.releaseBinding
  try simp only []
  (repeat' split) <;> simp [Zone.kept]

@[simp] theorem Chip.hide_endOnOrders (c : Chip) (z : ZoneId) (code : ResultCode) :
    (c.endOnOrders z code).steady.hide = c.steady.hide := by
  unfold Chip.endOnOrders
  simp only []
  refine (Chip.hide_updZone _ _ _ ?_).trans (Chip.hide_foldl _ (by simp) _ _)
  intro x; rfl

@[simp] theorem Chip.hide_endOffOrders (c : Chip) (z : ZoneId) :
    (c.endOffOrders z).steady.hide = c.steady.hide := by
  unfold Chip.endOffOrders
  simp only []
  refine (Chip.hide_updZone _ _ _ ?_).trans (Chip.hide_foldl _ (by simp) _ _)
  intro x; rfl

@[simp] theorem Chip.hide_startZone (c : Chip) (z : ZoneId) :
    (c.startZone z).steady.hide = c.steady.hide := by
  simp [Zone.kept, Chip.startZone]

@[simp] theorem Chip.hide_settleZone (c : Chip) (z : ZoneId) :
    (c.settleZone z).steady.hide = c.steady.hide := by
  simp [Zone.kept, Chip.settleZone]

@[simp] theorem Chip.hide_endSwitch (c : Chip) (z : ZoneId) :
    (c.endSwitch z).steady.hide = c.steady.hide := by
  unfold Chip.endSwitch
  try simp only []
  (repeat' split) <;> simp [Zone.kept]

@[simp] theorem Chip.hide_beginStop (c : Chip) (z : ZoneId) (cause : StopCause) :
    (c.beginStop z cause).steady.hide = c.steady.hide := by
  simp [Zone.kept, Chip.beginStop]

@[simp] theorem Chip.hide_stopZone (c : Chip) (z : ZoneId) (cause : StopCause) :
    (c.stopZone z cause).steady.hide = c.steady.hide := by
  unfold Chip.stopZone
  try simp only []
  (repeat' split) <;> simp [Zone.kept]

@[simp] theorem Chip.hide_offZone (c : Chip) (z : ZoneId) :
    (c.offZone z).steady.hide = c.steady.hide := by
  simp [Zone.kept, Ctx.kept, Chip.offZone]

theorem Chip.hide_enterSleep (c : Chip) (h : c.sbb.power ≠ .standby) : c.enterSleep.steady.hide = c.steady.hide := by
  simp only [Chip.enterSleep, Chip.steady, Chip.settled, Chip.kept, Chip.updSbb, Chip.hide, Standby.kept_steady]
  congr 1
  simp only [Standby.kept]
  cases hp : c.sbb.power <;> simp_all [PowerState.kept]


@[simp] theorem Chip.hide_evalSleep (c : Chip) :
    c.evalSleep.steady.hide = c.steady.hide := by
  unfold Chip.evalSleep
  split
  · rename_i h; exact Chip.hide_enterSleep c (by rw [h.1]; simp)
  · rfl

@[simp] theorem Chip.hide_cancelSleep (c : Chip) :
    c.cancelSleep.steady.hide = c.steady.hide := by
  unfold Chip.cancelSleep
  split
  · rename_i h
    simp only [Chip.steady, Chip.settled, Chip.kept, Chip.updSbb, Chip.hide, Standby.kept_steady]
    congr 1
    simp only [Standby.kept, h, PowerState.kept]
  · rfl

@[simp] theorem Chip.hide_finishStop (c : Chip) (z : ZoneId) :
    (c.finishStop z).steady.hide = c.steady.hide := by
  unfold Chip.finishStop
  try simp only []
  (repeat' split) <;> simp 

@[simp] theorem Chip.hide_testFault (c : Chip) (z : ZoneId) :
    (c.testFault z).steady.hide = c.steady.hide := by
  unfold Chip.testFault; split <;> simp

@[simp] theorem Chip.hide_joinOn (c : Chip) (z : ZoneId) (t : Word) :
    (c.joinOn z t).steady.hide = c.steady.hide := by
  simp [Chip.joinOn, Zone.kept]

@[simp] theorem Chip.hide_joinOff (c : Chip) (z : ZoneId) (t : Word) :
    (c.joinOff z t).steady.hide = c.steady.hide := by
  simp [Chip.joinOff, Zone.kept]

@[simp] theorem Chip.hide_powerOn (c : Chip) (z : ZoneId) (t : Word) :
    (c.powerOn z t).steady.hide = c.steady.hide := by
  unfold Chip.powerOn
  try simp only []
  (repeat' split) <;> simp [Zone.kept]

@[simp] theorem Chip.hide_powerOff (c : Chip) (z : ZoneId) (t : Word) :
    (c.powerOff z t).steady.hide = c.steady.hide := by
  unfold Chip.powerOff
  try simp only []
  (repeat' split) <;> simp [Zone.kept]

@[simp] theorem Chip.hide_switchSource (c : Chip) (z : ZoneId) (t : Word) (s : SourceId) :
    (c.switchSource z t s).steady.hide = c.steady.hide := by
  unfold Chip.switchSource
  try simp only []
  (repeat' split) <;> simp [Zone.kept]

@[simp] theorem Chip.hide_switchSilent (c : Chip) (z : ZoneId) :
    (c.switchSilent z).steady.hide = c.steady.hide := by
  unfold Chip.switchSilent
  try simp only []
  (repeat' split) <;> simp

@[simp] theorem Chip.hide_holdReport (c : Chip) (z : ZoneId) (h : Hold) :
    (c.holdReport z h).steady.hide = c.steady.hide := by
  unfold Chip.holdReport
  try simp only []
  (repeat' split) <;> simp 

@[simp] theorem Chip.hide_restartZones (c : Chip) : c.restartZones.steady.hide = c.steady.hide := by
  unfold Chip.restartZones; rw [Chip.hide_foldl _ (by simp) _ _]; simp

theorem Chip.hide_workOnce (c d : Chip) (h : c.workOnce = some d) : d.steady.hide = c.steady.hide := by
  unfold Chip.workOnce at h
  (repeat' split at h) <;> first
    | (rw [← Option.some.inj h]; simp)
    | contradiction

theorem Chip.hide_workLoop (n : Nat) (c : Chip) : (Chip.workLoop n c).steady.hide = c.steady.hide := by
  induction n generalizing c with
  | zero => rfl
  | succ n ih =>
    unfold Chip.workLoop
    split
    · rfl
    · rename_i d h; rw [ih, Chip.hide_workOnce c d h]

@[simp] theorem Chip.hide_work (c : Chip) : c.work.steady.hide = c.steady.hide := by
  rw [Chip.work]; exact Chip.hide_workLoop workFuel c

/-- An event changes no more of the settings than its own effect does. -/
theorem Chip.hide_event (c : Chip) (f : Chip → Chip) : (c.event f).steady.hide = (f c.fresh).steady.hide := by
  simp only [Chip.event, Chip.steady_derive, Chip.hide_work]


end Sys2Proof.Machine
end

