-- ==== Sys2Proof/Laws/Event.lean ====
section
/-! SUPPORT. What an event leaves alone beside its own effect: `core` and `kept` through the end of an event, the queue, and
the bytes of memory outside the header, the slate and the pages. -/

namespace Sys2Proof.Machine

/-! ### Core through `derive` -/

section

variable (c : Chip)

theorem Chip.core_updZone (z : ZoneId) (f : Zone → Zone) (h : Keeps Zone.core f) : (c.updZone z f).core = c.core := by
  simp only [Chip.core, Chip.updZone]
  rw [Vector.map_set_same Zone.core _ _ _ (h _)]

theorem Chip.core_updCtx (z : ZoneId) (f : Ctx → Ctx) (h : Keeps Ctx.core f) : (c.updCtx z f).core = c.core := by
  simp only [Chip.core, Chip.updCtx]
  rw [Vector.map_set_same Ctx.core _ _ _ (h _)]

theorem Chip.core_updSource (s : SourceId) (f : Source → Source) (h : Keeps Source.core f) :
    (c.updSource s f).core = c.core := by
  simp only [Chip.core, Chip.updSource]
  rw [Vector.map_set_same Source.core _ _ _ (h _)]

theorem Chip.core_updTest (f : TestRec → TestRec) (h : Keeps TestRec.core f) : (c.updTest f).core = c.core := by
  simp only [Chip.core, Chip.updTest]; rw [h]

theorem Chip.core_updSbb (f : Standby → Standby) (h : Keeps Standby.core f) : (c.updSbb f).core = c.core := by
  simp only [Chip.core, Chip.updSbb]; rw [h]

theorem Chip.core_updWin (f : Win → Win) (h : Keeps Win.core f) : (c.updWin f).core = c.core := by
  simp only [Chip.core, Chip.updWin]; rw [h]

theorem Chip.core_updEv (f : Ev → Ev) : (c.updEv f).core = c.core := rfl

theorem Chip.core_fresh : c.fresh.core = c.core := rfl

end

theorem Chip.core_foldl {α : Type} (f : Chip → α → Chip) (h : ∀ c a, (f c a).core = c.core) (l : List α) (c : Chip) :
    (l.foldl f c).core = c.core := by
  induction l generalizing c with
  | nil => rfl
  | cons a l ih => simp only [List.foldl_cons]; rw [ih, h]

theorem Chip.core_selectSet (c : Chip) (z : ZoneId) : (c.selectSet z).core = c.core := by
  unfold Chip.selectSet; split
  · rfl
  · rw [Chip.core_updCtx]; intro x; rfl

theorem Chip.core_deriveProgramme (c : Chip) (z : ZoneId) : (c.deriveProgramme z).core = c.core := by
  rw [Chip.deriveProgramme, Chip.core_updZone]; intro x; rfl

theorem Chip.core_evalAnnounce (c : Chip) (z : ZoneId) : (c.evalAnnounce z).core = c.core := by
  rw [Chip.evalAnnounce, Chip.core_updZone]; intro x; rfl

theorem Chip.core_resolveZone (c : Chip) (z : ZoneId) : (c.resolveZone z).core = c.core := by
  unfold Chip.resolveZone
  split
  · rw [Chip.core_updZone, Chip.core_updCtx] <;> (intro x; rfl)
  · rw [Chip.core_updZone, Chip.core_updCtx] <;> (intro x; rfl)
  · rfl
  · rw [Chip.core_updCtx]; intro x; rfl

theorem Chip.core_relevel (c : Chip) : c.relevel.core = c.core := by
  unfold Chip.relevel
  refine Chip.core_foldl _ (fun c z => ?_) _ _
  rw [Chip.evalLimited, Chip.core_updZone, Chip.relevelZone, Chip.core_updCtx] <;> (intro x; rfl)

theorem Chip.core_cutTest (c : Chip) : c.cutTest.core = c.core := by
  rw [Chip.cutTest, Chip.core_updTest]
  intro x
  dsimp only
  split <;> rfl

theorem Chip.core_dropSignals (c : Chip) : c.dropSignals.core = c.core := by
  unfold Chip.dropSignals
  refine Chip.core_foldl _ (fun c s => ?_) _ _
  split
  · rfl
  · rw [Chip.core_updSource]; intro x; rfl

theorem Chip.core_recomputeOffers (c : Chip) : c.recomputeOffers.core = c.core := by
  unfold Chip.recomputeOffers
  refine Chip.core_foldl _ (fun c s => ?_) _ _
  rw [Chip.core_updSource]; intro x; rfl

theorem Chip.core_setRelays (c : Chip) : c.setRelays.core = c.core := by
  simp only [Chip.setRelays, Chip.core]
  rw [Vector.map_ofFn_same Outlet.core (fun o => { c.outlets[o] with relay := c.relayOf o }) c.outlets (fun i => rfl)]

theorem Chip.core_setTriggers (c : Chip) : c.setTriggers.core = c.core := by
  simp only [Chip.setTriggers, Chip.core]
  rw [Vector.map_map_same Trigger.core (fun t => { t with asserted := c.triggerAsserted t.binding }) _ (fun x => rfl)]

theorem Standby.core_idle (b : Standby) (v : Vector Idle 4) (h : v.map Idle.core = b.idle.map Idle.core) :
    Standby.core { b with idle := v } = b.core := by simp only [Standby.core]; rw [h]

theorem Standby.core_indicators (b : Standby) (v : Vector Indicator 4)
    (h : v.map Indicator.core = b.indicators.map Indicator.core) : Standby.core { b with indicators := v } = b.core := by
  simp only [Standby.core]; rw [h]

theorem Chip.core_holdIdle (c : Chip) : c.holdIdle.core = c.core :=
  Chip.core_updSbb _ _ fun b => Standby.core_idle _ _ (Vector.map_ofFn_same _ _ _ fun z => by
    split
    · exact Idle.core_restart _
    · rfl)

theorem Chip.core_setIndicators (c : Chip) : c.setIndicators.core = c.core :=
  Chip.core_updSbb _ _ fun _ =>
    Standby.core_indicators _ _ (Vector.map_map_same Indicator.core c.evalIndicator _ (Indicator.core_eval c))

theorem Chip.core_deriveMain (c : Chip) : c.deriveMain.core = c.core := by
  unfold Chip.deriveMain
  simp only [Chip.core_holdIdle, Chip.core_setTriggers, Chip.core_setRelays, Chip.core_recomputeOffers,
    Chip.core_dropSignals, Chip.core_cutTest, Chip.core_relevel]
  rw [Chip.core_foldl _ Chip.core_resolveZone, Chip.core_foldl _ Chip.core_evalAnnounce,
    Chip.core_foldl _ Chip.core_deriveProgramme, Chip.core_foldl _ Chip.core_selectSet]

/-- What an event works out at its end is not in `core`. -/
theorem Chip.core_derive (c : Chip) : c.derive.core = c.core := by
  unfold Chip.derive
  rw [Chip.core_setIndicators]
  split
  · exact Chip.core_deriveMain c
  · rfl

/-! ### Work -/

/-- Nothing is left to do in the event. -/
def Ev.quiet (e : Ev) : Prop := e.withdrawn = [] ∧ e.stopping = [] ∧ e.named = [] ∧ e.released = false ∧ e.placed = [] ∧
  e.restarts = []

theorem Chip.workOnce_quiet (c : Chip) (h : c.ev.quiet) : c.workOnce = none := by
  obtain ⟨h1, h2, h3, h4, h5, h6⟩ := h
  simp [Chip.workOnce, h1, h2, h3, h4, h5, h6]

theorem Chip.workLoop_quiet (n : Nat) (c : Chip) (h : c.workOnce = none) : Chip.workLoop n c = c := by
  cases n with
  | zero => rfl
  | succ n => simp only [Chip.workLoop, h]

/-- An event that leaves nothing to do is its own effect and what follows from it. -/
theorem Chip.work_quiet (c : Chip) (h : c.ev.quiet) : c.work = c := by
  rw [Chip.work]; exact Chip.workLoop_quiet workFuel c (Chip.workOnce_quiet c h)

theorem Ev.quiet_initial : Ev.initial.quiet := ⟨rfl, rfl, rfl, rfl, rfl, rfl⟩

/-! ### The end of an event -/

/-- The end of an event changes of the part only news, revisions, ORPHANED and acceptances. -/
def View.near (v : View) (c : Chip) : Prop := ∃ w : Win, v.1 = { c with win := w } ∧ w.core = c.win.core

theorem View.near_refl (c : Chip) (m : Mem) : View.near (c, m) c := ⟨c.win, rfl, rfl⟩

theorem View.near_updWin (v : View) (c : Chip) (f : Win → Win) (m : Mem) (hf : Keeps Win.core f) (h : View.near v c) :
    View.near (v.1.updWin f, m) c := by
  obtain ⟨w, hw, hc⟩ := h
  refine ⟨f w, ?_, ?_⟩
  · simp [Chip.updWin, hw]
  · rw [hf]; exact hc

theorem View.near_mem (v : View) (c : Chip) (m : Mem) (h : View.near v c) : View.near (v.1, m) c := h

theorem View.near_foldl {α : Type} (f : View → α → View) (c : Chip) (hf : ∀ v a, View.near v c → View.near (f v a) c)
    (l : List α) (v : View) (h : View.near v c) : View.near (l.foldl f v) c := by
  induction l generalizing v with
  | nil => exact h
  | cons a l ih => exact ih _ (hf _ _ h)

theorem Win.core_tell (p : PageId) : Keeps Win.core fun w => w.tell p := fun _ => rfl
theorem Win.core_orphan : Keeps Win.core Win.orphan := fun _ => rfl

theorem near_writeEnd (c : Chip) (v : View) (e : OrderEnd) (h : View.near v c) : View.near (writeEnd v e) c := by
  unfold writeEnd
  split
  · simp only []
    split
    · exact View.near_updWin _ _ _ _ (Win.core_tell 0) h
    · exact View.near_updWin _ _ _ _ Win.core_orphan h
  · exact View.near_updWin _ _ _ _ Win.core_orphan h

theorem near_acceptAll (c : Chip) (v : View) (h : View.near v c) : View.near (acceptAll v) c := by
  refine View.near_updWin _ _ _ _ (fun w => ?_) h
  simp only [Win.core, List.map_map]
  congr 1

theorem near_writeMark (c : Chip) (v : View) (p : Nat × Word) (h : View.near v c) : View.near (writeMark v p) c := by
  unfold writeMark
  split
  · exact View.near_mem _ _ _ h
  · exact h

theorem near_writeHeader (c : Chip) (v : View) (h : View.near v c) : View.near (writeHeader v) c := View.near_mem _ _ _ h

theorem near_publish (c : Chip) (v : View) (p : PageId) (h : View.near v c) : View.near (publish v p) c :=
  View.near_updWin _ _ _ _ (fun _ => rfl) h

theorem foldl_keeps {α β : Type} (P : β → Prop) (f : β → α → β) (l : List α) (hf : ∀ b a, a ∈ l → P b → P (f b a)) (b : β) (h : P b) :
    P (l.foldl f b) := by
  induction l generalizing b with
  | nil => exact h
  | cons a l ih =>
    exact ih (fun b x hx => hf b x (List.mem_cons_of_mem a hx)) _ (hf b a List.mem_cons_self h)

/-- What every end and every mark of an event keeps, they keep together. -/
theorem writeEnds_keeps (P : View → Prop) (e : Ev) (he : ∀ v x, x ∈ e.ends → P v → P (writeEnd v x))
    (hm : ∀ v x, x ∈ e.marks → P v → P (writeMark v x)) (v : View) (h : P v) : P (writeEnds e v) :=
  foldl_keeps P _ _ (fun v x hx => he v x (List.mem_of_mem_filter hx)) _
    (foldl_keeps P _ _ hm _ (foldl_keeps P _ _ (fun v x hx => he v x (List.mem_of_mem_filter hx)) _ h))

theorem near_writeEnds (c : Chip) (e : Ev) (v : View) (h : View.near v c) : View.near (writeEnds e v) c :=
  writeEnds_keeps (fun v => View.near v c) e (fun v x _ => near_writeEnd c v x) (fun v x _ => near_writeMark c v x) v h

theorem near_commit (before c : Chip) (m : Mem) : View.near (commit before (c, m)) c := by
  unfold commit
  have h := near_acceptAll c _ (near_writeEnds c c.ev _ (View.near_refl c m))
  simp only []
  split
  · split
    · exact View.near_foldl publish c (fun v e => near_publish c v e) _ _ h
    · exact View.near_foldl publish c (fun v e => near_publish c v e) _ _ (near_writeHeader c _ h)
  · exact h

theorem Win.kept_of_core {v w : Win} (h : v.core = w.core) : v.kept = w.kept := by
  have e : ∀ x : Win, x.kept = { x.core with inFlight := [] } := fun _ => rfl
  rw [e, e, h]

theorem View.near_core {v : View} {c : Chip} (h : View.near v c) : v.1.core = c.core := by
  obtain ⟨w, hw, hc⟩ := h
  simp only [hw, Chip.core, hc]

theorem View.near_kept {v : View} {c : Chip} (h : View.near v c) : v.1.kept = c.kept := by
  obtain ⟨w, hw, hc⟩ := h
  simp only [hw, Chip.kept, Win.kept_of_core hc]

/-! ### Memory at the end of an event -/

theorem View.near_base {v : View} {c : Chip} (h : View.near v c) : v.1.base = c.base := by
  obtain ⟨w, hw, hc⟩ := h
  have : w.windowBase = c.win.windowBase := by have := congrArg Win.windowBase hc; exact this
  simp [Chip.base, hw, this]

theorem View.near_windowUp {v : View} {c : Chip} (h : View.near v c) : v.1.windowUp = c.windowUp := by
  obtain ⟨w, hw, hc⟩ := h
  have : w.partState = c.win.partState := by have := congrArg Win.partState hc; exact this
  simp [Chip.windowUp, hw, this]

theorem View.near_ev {v : View} {c : Chip} (h : View.near v c) : v.1.ev = c.ev := by
  obtain ⟨w, hw, hc⟩ := h
  simp [hw]

/-- Memories that agree on a byte. -/
def View.sameAt (a : Nat) (b : Byte) (v : View) : Prop := v.2.read a = b

theorem Chip.slot_inside (c : Chip) (a : Nat) (h : c.outside a) (slot : Fin 32) (k n : Nat) (hk : k + n ≤ 128) :
    a < c.slotAt slot + k ∨ c.slotAt slot + k + n ≤ a := by
  have := slot.isLt
  unfold Chip.outside windowEnd at h
  unfold Chip.slotAt
  omega

theorem OrderEnd.area_length (e : OrderEnd) : e.area.length ≤ 64 := by
  simp only [OrderEnd.area, List.length_append, b1, le16, List.length_cons, List.length_nil]
  have := List.length_take_le 60 (e.values.flatMap ResultValue.bytes)
  omega

theorem read_writeEnd (c : Chip) (v : View) (e : OrderEnd) (a : Nat) (hv : View.near v c) (ha : c.windowUp = true → c.outside a) :
    (writeEnd v e).2.read a = v.2.read a := by
  unfold writeEnd
  rw [View.near_windowUp hv]
  split
  · rename_i up
    have ho := ha (by revert up; cases c.windowUp <;> simp)
    have hs : v.1.slotAt e.slot = c.slotAt e.slot := by simp [Chip.slotAt, View.near_base hv]
    have hl := OrderEnd.area_length e
    have r1 : (v.2.write (v.1.slotAt e.slot + 64) e.area).read a = v.2.read a := by
      apply Mem.read_write_outside
      rw [hs]
      have := Chip.slot_inside c a ho e.slot 64 e.area.length (by omega)
      omega
    simp only []
    split
    · rw [Mem.read_write_outside, r1]
      rw [hs]
      have := Chip.slot_inside c a ho e.slot 0 1 (by omega)
      simp only [List.length_singleton]
      omega
    · exact r1
  · rfl

theorem read_writeAccepted (c : Chip) (m : Mem) (e : InFlight) (a : Nat) (ha : c.windowUp = true → c.outside a) :
    (writeAccepted c m e).read a = m.read a := by
  unfold writeAccepted
  split
  · rename_i h
    have up : c.windowUp = true := by simp at h; exact h.1.2
    rw [Mem.read_write_outside]
    have := Chip.slot_inside c a (ha up) e.slot 0 1 (by omega)
    simp only [List.length_singleton]
    omega
  · rfl

theorem read_acceptAll (c : Chip) (v : View) (a : Nat) (hv : View.near v c) (ha : c.windowUp = true → c.outside a) :
    (acceptAll v).2.read a = v.2.read a := by
  unfold acceptAll
  simp only []
  have ha' : v.1.windowUp = true → v.1.outside a := by
    rw [View.near_windowUp hv]; intro up; have := ha up; simpa [Chip.outside, View.near_base hv] using this
  generalize v.1.win.inFlight = l
  generalize v.2 = m
  induction l generalizing m with
  | nil => rfl
  | cons e l ih => simp only [List.foldl_cons]; rw [ih, read_writeAccepted _ _ _ _ ha']

theorem Win.header_length (w : Win) : (w.header.flatMap le32Word).length = 20 := rfl

theorem pageImage_length (c : Chip) (p : PageId) : (c.pageImage p).length ≤ 1024 := by
  unfold Chip.pageImage
  simp only [List.length_append, List.length_take, le32Word, le32, le16, List.length_replicate,
    List.length_cons, List.length_nil]
  omega

theorem read_publish (c : Chip) (v : View) (p : PageId) (a : Nat) (hv : View.near v c) (ha : c.outside a) :
    (publish v p).2.read a = v.2.read a := by
  unfold publish
  simp only []
  have hp := p.isLt
  rw [Mem.read_write_outside]
  have hb := View.near_base hv
  have hl := pageImage_length (v.1.updWin fun w =>
    ({ w with revisions := w.revisions.set p (w.revisions[p] + 2) } : Win).tell p) p
  have e : (v.1.updWin fun w => ({ w with revisions := w.revisions.set p (w.revisions[p] + 2) } : Win).tell p).base = c.base := hb
  unfold Chip.outside windowEnd at ha
  unfold Chip.pageAt
  rw [e]
  omega

theorem read_foldl {α : Type} (f : View → α → View) (c : Chip) (a : Nat) (hn : ∀ v x, View.near v c → View.near (f v x) c)
    (hr : ∀ v x, View.near v c → (f v x).2.read a = v.2.read a) (l : List α) (v : View) (h : View.near v c) :
    (l.foldl f v).2.read a = v.2.read a := by
  induction l generalizing v with
  | nil => rfl
  | cons x l ih => simp only [List.foldl_cons]; rw [ih _ (hn _ _ h), hr _ _ h]

theorem read_writeEnds (c : Chip) (e : Ev) (a : Nat) (v : View) (hm : e.marks = []) (hv : View.near v c)
    (ha : c.windowUp = true → c.outside a) : (writeEnds e v).2.read a = v.2.read a :=
  (writeEnds_keeps (fun w => View.near w c ∧ w.2.read a = v.2.read a) e
    (fun w x _ h => ⟨near_writeEnd c w x h.1, (read_writeEnd c w x a h.1 ha).trans h.2⟩)
    (fun w x hx => by rw [hm] at hx; exact absurd hx List.not_mem_nil) v ⟨hv, rfl⟩).2

/-- Where no mark of a stream is written, the end of an event leaves every byte outside the header, the slate and the pages. -/
theorem read_commit (before c : Chip) (m : Mem) (a : Nat) (hm : c.ev.marks = []) (ha : c.windowUp = true → c.outside a) :
    (commit before (c, m)).2.read a = m.read a := by
  unfold commit
  have h0 := View.near_refl c m
  have h1 := near_writeEnds c c.ev _ h0
  have r1 := read_writeEnds c c.ev a _ hm h0 ha
  have h2 := near_acceptAll c _ h1
  have r2 := read_acceptAll c _ a h1 ha
  simp only []
  rw [View.near_windowUp h2]
  split
  · rename_i up
    have ho := ha up
    split
    · rw [read_foldl publish c a (fun v e => near_publish c v e) (fun v p hv => read_publish c v p a hv ho) _ _ h2, r2, r1]
    · rw [read_foldl publish c a (fun v e => near_publish c v e) (fun v p hv => read_publish c v p a hv ho) _ _
        (near_writeHeader c _ h2)]
      unfold writeHeader
      simp only []
      rw [Mem.read_write_outside, r2, r1]
      rw [View.near_base h2, Win.header_length]
      unfold Chip.outside windowEnd at ho
      omega
  · rw [r2, r1]

/-! ### Canonical form through the end of an event -/

theorem wf_writeEnd (v : View) (e : OrderEnd) (h : Mem.wf v.2) : Mem.wf (writeEnd v e).2 := by
  unfold writeEnd
  split
  · simp only []
    split
    · exact Mem.wf_write _ _ _ (Mem.wf_write _ _ _ h)
    · exact Mem.wf_write _ _ _ h
  · exact h

theorem wf_writeAccepted (c : Chip) (m : Mem) (e : InFlight) (h : Mem.wf m) : Mem.wf (writeAccepted c m e) := by
  unfold writeAccepted
  split
  · exact Mem.wf_write _ _ _ h
  · exact h

theorem wf_acceptAll (v : View) (h : Mem.wf v.2) : Mem.wf (acceptAll v).2 := by
  unfold acceptAll
  simp only []
  revert h
  generalize v.1.win.inFlight = l
  generalize v.2 = m
  intro h
  induction l generalizing m with
  | nil => exact h
  | cons e l ih => exact ih _ (wf_writeAccepted _ _ _ h)

theorem wf_foldl {α : Type} (f : View → α → View) (hf : ∀ v a, Mem.wf v.2 → Mem.wf (f v a).2) (l : List α) (v : View)
    (h : Mem.wf v.2) : Mem.wf (l.foldl f v).2 := by
  induction l generalizing v with
  | nil => exact h
  | cons a l ih => exact ih _ (hf _ _ h)

theorem wf_writeMark (v : View) (p : Nat × Word) (h : Mem.wf v.2) : Mem.wf (writeMark v p).2 := by
  unfold writeMark
  split
  · exact Mem.wf_write _ _ _ h
  · exact h

theorem wf_commit (before : Chip) (v : View) (h : Mem.wf v.2) : Mem.wf (commit before v).2 := by
  unfold commit
  simp only []
  have h3 := wf_acceptAll _ (writeEnds_keeps (fun v => Mem.wf v.2) v.1.ev (fun v x _ => wf_writeEnd v x)
    (fun v x _ => wf_writeMark v x) v h)
  split
  · split
    · exact wf_foldl publish (fun v p hv => Mem.wf_write _ _ _ hv) _ _ h3
    · exact wf_foldl publish (fun v p hv => Mem.wf_write _ _ _ hv) _ _ (Mem.wf_write _ _ _ h3)
  · exact h3

/-! ### One event of the machine -/

section

variable (s : State) (f : Chip → Chip)

@[simp] theorem State.run_pending : (s.run f).pending = s.pending := rfl

theorem State.run_ev : (s.run f).chip.ev = Ev.initial := rfl

theorem State.run_core : (s.run f).chip.core = (f s.chip.fresh).work.core := by
  have h := View.near_core (near_commit s.chip (s.chip.event f) s.dram)
  simp only [State.run, Chip.core_fresh]
  rw [h, Chip.event, Chip.core_derive]

theorem Chip.kept_fresh (c : Chip) : c.fresh.kept = c.kept := rfl

theorem State.run_kept : (s.run f).chip.kept = (f s.chip.fresh).kept := by
  have h := View.near_kept (near_commit s.chip (s.chip.event f) s.dram)
  simp only [State.run, Chip.kept_fresh]
  rw [h]
  exact Chip.kept_of_hide (Chip.hide_event s.chip f)

/-- An event that leaves nothing to do. -/
theorem State.run_core_quiet (h : (f s.chip.fresh).ev.quiet) : (s.run f).chip.core = (f s.chip.fresh).core := by
  rw [State.run_core, Chip.work_quiet _ h]

/-- Nothing is left to do in the event that stops a zone or changes a binding. -/
def Ev.calm (e : Ev) : Prop := e.stopping = [] ∧ e.restarts = [] ∧ e.placed.filter switches = []

theorem Chip.steady_holdReport (c : Chip) (z : ZoneId) (h : Hold) (hs : h ≠ .sourceSwitch)
    (hp : c.ev.placed.filter switches = []) : (c.holdReport z h).steady = c.steady := by
  have e : (c.updEv fun e => { e with placed := e.placed.filter (· ≠ (z, h)) }).steady = c.steady := by
    simp only [Chip.steady, Chip.updEv, Ev.steady]
    rw [Hold.filter_switches _ _ _ hs]; rfl
  unfold Chip.holdReport
  cases h <;> simp_all

theorem Chip.calm_of_steady {c d : Chip} (h : c.steady = d.steady) (hd : d.ev.calm) : c.ev.calm := by
  have s1 : ∀ x : Chip, x.ev.stopping = x.steady.ev.stopping := fun _ => rfl
  have s2 : ∀ x : Chip, x.ev.placed.filter switches = x.steady.ev.placed := fun _ => rfl
  have e1 : c.ev.stopping = d.ev.stopping := by rw [s1 c, h, ← s1 d]
  have e2 : c.ev.placed.filter switches = d.ev.placed.filter switches := by rw [s2 c, h, ← s2 d]
  have s3 : ∀ x : Chip, x.ev.restarts = x.steady.ev.restarts := fun _ => rfl
  have e3 : c.ev.restarts = d.ev.restarts := by rw [s3 c, h, ← s3 d]
  exact ⟨e1.trans hd.1, e3.trans hd.2.1, e2.trans hd.2.2⟩

theorem Chip.steady_workOnce (c d : Chip) (hc : c.ev.calm) (h : c.workOnce = some d) : d.steady = c.steady := by
  unfold Chip.workOnce at h
  split at h
  · obtain rfl := Option.some.inj h; simp
  · rw [hc.1] at h
    simp only [List.find?_nil] at h
    split at h
    · obtain rfl := Option.some.inj h; simp
    · rw [hc.2.1] at h
      simp only [List.isEmpty_nil, Bool.not_true, Bool.false_eq_true, if_false] at h
      split at h
      · rename_i p hp
        obtain rfl := Option.some.inj h
        refine Chip.steady_holdReport c p.1 p.2 ?_ hc.2.2
        intro hs
        have hm := List.mem_of_find?_eq_some hp
        have : p ∈ c.ev.placed.filter switches := List.mem_filter.mpr ⟨hm, by simp [switches, hs]⟩
        rw [hc.2.2] at this
        exact absurd this (List.not_mem_nil)
      · exact absurd h (by simp)

theorem Chip.steady_workLoop (n : Nat) (c : Chip) (hc : c.ev.calm) : (Chip.workLoop n c).steady = c.steady := by
  induction n generalizing c with
  | zero => rfl
  | succ n ih =>
    unfold Chip.workLoop
    split
    · rfl
    · rename_i d hd
      have e := Chip.steady_workOnce c d hc hd
      rw [ih d (Chip.calm_of_steady e hc), e]

theorem Chip.steady_work (c : Chip) (hc : c.ev.calm) : c.work.steady = c.steady := Chip.steady_workLoop workFuel c hc

theorem Chip.settled_eq_steady (c : Chip) : c.settled = { c.steady with ev := Ev.initial } := rfl

theorem Chip.settled_of_steady {c d : Chip} (h : c.steady = d.steady) : c.settled = d.settled := by
  rw [Chip.settled_eq_steady, Chip.settled_eq_steady, h]

theorem View.near_settled {v : View} {c : Chip} (h : View.near v c) : v.1.settled = c.settled := by
  obtain ⟨w, hw, hc⟩ := h
  simp only [hw, Chip.settled, Chip.kept, Win.kept_of_core hc]

/-- An event that stops no zone and reports no source switch. -/
theorem State.run_settled (h : (f s.chip.fresh).ev.calm) : (s.run f).chip.settled = (f s.chip.fresh).settled := by
  have n := View.near_settled (near_commit s.chip (s.chip.event f) s.dram)
  have e : ∀ x : Chip, x.fresh.settled = x.settled := fun _ => rfl
  simp only [State.run, e]
  rw [n, Chip.event, Chip.settled_of_steady (Chip.steady_derive _), Chip.settled_of_steady (Chip.steady_work _ h)]

theorem Chip.marks_of_hide {c d : Chip} (h : c.steady.hide = d.steady.hide) : c.ev.marks = d.ev.marks := by
  have e : ∀ x : Chip, x.steady.hide.ev.marks = x.ev.marks := fun _ => rfl
  rw [← e c, ← e d, h]

theorem Chip.win_of_kept {c d : Chip} (h : c.kept = d.kept) : c.win.kept = d.win.kept := congrArg Chip.win h

theorem Chip.base_of_kept {c d : Chip} (h : c.kept = d.kept) : c.base = d.base := by
  have := congrArg Win.windowBase (Chip.win_of_kept h)
  unfold Chip.base; exact congrArg BitVec.toNat this

theorem Chip.windowUp_of_kept {c d : Chip} (h : c.kept = d.kept) : c.windowUp = d.windowUp := by
  have := congrArg Win.partState (Chip.win_of_kept h)
  unfold Chip.windowUp; simp only [Win.kept] at this; rw [this]

theorem State.run_read (a : Nat) (hm : (f s.chip.fresh).ev.marks = [])
    (ha : (f s.chip.fresh).windowUp = true → (f s.chip.fresh).outside a) : (s.run f).dram.read a = s.dram.read a := by
  have e := Chip.hide_event s.chip f
  have k := Chip.kept_of_hide e
  refine read_commit s.chip (s.chip.event f) s.dram a ((Chip.marks_of_hide e).trans hm) ?_
  rw [Chip.windowUp_of_kept k]
  intro up
  have := ha up
  simpa [Chip.outside, Chip.base_of_kept k] using this

theorem State.run_wf (h : s.memoryWf) : (s.run f).memoryWf :=
  ⟨wf_commit s.chip (s.chip.event f, s.dram) h.1, fun _ hx => Option.some.inj hx ▸ h.1⟩

end

end Sys2Proof.Machine
end

