-- ==== Sys2Proof/Laws/Apart.lean ====
section
/-! SUPPORT. Events that leave no more than a round to do: the round, the switch of a grant and the report of a hold of kind
FORMAT_CHANGE change nothing but alignment records, delay lines and holds. -/

namespace Sys2Proof.Machine

/-! ### What a round leaves alone -/

/-- A hold whose silent report changes no more than alignment, lines and holds. -/
def light (p : ZoneId × Hold) : Bool := p.2 == .regrant || p.2 == .formatChange

def Ctx.bare (x : Ctx) : Ctx := { x with holds := [] }
def Outlet.bare (x : Outlet) : Outlet := { x with line := none }

/-- What an event has still to do, without its round and without light holds. -/
def Ev.bare (e : Ev) : Ev :=
  { Ev.initial with
    marks := e.marks, withdrawn := e.withdrawn, stopping := e.stopping, restarts := e.restarts, ends := e.ends,
    placed := e.placed.filter fun p => !light p }

/-- The part without alignment records, delay lines and holds. -/
def Chip.bare (c : Chip) : Chip :=
  { c with
    aligns := Vector.replicate 4 Align.initial
    ctxs := c.ctxs.map Ctx.bare
    outlets := c.outlets.map Outlet.bare
    ev := c.ev.bare }

section

variable (c : Chip)

@[simp] theorem Chip.bare_updAlign (z : ZoneId) (f : Align → Align) : (c.updAlign z f).bare = c.bare := rfl
@[simp] theorem Chip.bare_nameZone (z : ZoneId) : (c.nameZone z).bare = c.bare := rfl
@[simp] theorem Chip.bare_markPage (p : PageId) : (c.markPage p).bare = c.bare := rfl
@[simp] theorem Chip.bare_markAlign (z : ZoneId) : (c.markAlign z).bare = c.bare := rfl
@[simp] theorem Chip.bare_release (z : ZoneId) : (c.release z).bare = c.bare := rfl

theorem Chip.bare_updEv (f : Ev → Ev) (h : Keeps Ev.bare f) : (c.updEv f).bare = c.bare := by
  simp only [Chip.bare, Chip.updEv]; rw [h]

theorem Chip.bare_updCtx (z : ZoneId) (f : Ctx → Ctx) (h : Keeps Ctx.bare f) : (c.updCtx z f).bare = c.bare := by
  simp only [Chip.bare, Chip.updCtx]
  rw [Vector.map_set_same Ctx.bare _ _ _ (h _)]

theorem Chip.bare_updOutlet (o : OutletId) (f : Outlet → Outlet) (h : Keeps Outlet.bare f) :
    (c.updOutlet o f).bare = c.bare := by
  simp only [Chip.bare, Chip.updOutlet]
  rw [Vector.map_set_same Outlet.bare _ _ _ (h _)]

end

theorem Chip.bare_foldl {α : Type} (f : Chip → α → Chip) (h : ∀ c a, (f c a).bare = c.bare) (l : List α) (c : Chip) :
    (l.foldl f c).bare = c.bare := by
  induction l generalizing c with
  | nil => rfl
  | cons a l ih => simp only [List.foldl_cons]; rw [ih, h]

theorem filter_light_append (l : List (ZoneId × Hold)) (z : ZoneId) (h : Hold) (hl : light (z, h) = true) :
    (l ++ [(z, h)]).filter (fun p => !light p) = l.filter fun p => !light p := by
  simp [hl]

theorem filter_light_erase (l : List (ZoneId × Hold)) (z : ZoneId) (h : Hold) (hl : light (z, h) = true) :
    (l.filter (· ≠ (z, h))).filter (fun p => !light p) = l.filter fun p => !light p := by
  rw [List.filter_filter]
  refine List.filter_congr fun p _ => ?_
  by_cases hp : light p = true
  · simp [hp]
  · have : p ≠ (z, h) := by rintro rfl; exact hp hl
    simp [this]

theorem Chip.bare_placeHold (c : Chip) (z : ZoneId) (h : Hold) (hl : light (z, h) = true) :
    (c.placeHold z h).bare = c.bare := by
  unfold Chip.placeHold
  split
  · rfl
  · rw [Chip.bare_updEv, Chip.bare_updCtx]
    · intro x; rfl
    · intro e; simp only [Ev.bare]; rw [filter_light_append _ _ _ hl]

theorem Chip.bare_liftHold (c : Chip) (z : ZoneId) (h : Hold) (hl : light (z, h) = true) :
    (c.liftHold z h).bare = c.bare := by
  unfold Chip.liftHold
  rw [Chip.bare_updEv, Chip.bare_updCtx]
  · intro x; rfl
  · intro e; simp only [Ev.bare]; rw [filter_light_erase _ _ _ hl]

theorem Chip.bare_handOff (c : Chip) (z : ZoneId) : (c.handOff z).bare = c.bare := by
  unfold Chip.handOff; split <;> simp

theorem Chip.bare_handOffAll (c : Chip) (s : SourceId) : (c.handOffAll s).bare = c.bare :=
  Chip.bare_foldl _ Chip.bare_handOff _ _

theorem Chip.bare_formatHolds (c : Chip) (s : SourceId) : (c.formatHolds s).bare = c.bare := by
  unfold Chip.formatHolds
  refine Chip.bare_foldl _ (fun c z => ?_) _ _
  split
  · exact Chip.bare_placeHold _ _ _ rfl
  · rfl

theorem Chip.bare_clearLine (c : Chip) (o : OutletId) : (c.clearLine o).bare = c.bare := by
  unfold Chip.clearLine
  split
  · rfl
  · have e : (c.updOutlet o fun x => { x with line := none }).bare = c.bare := Chip.bare_updOutlet _ _ _ fun x => rfl
    simp only []
    cases c.outlets[o].zone with
    | none => exact e
    | some z => simp only []; split <;> simp only [Chip.bare_release, e]

theorem Chip.bare_computeZone (c : Chip) (z : ZoneId) : (c.computeZone z).bare = c.bare := by
  unfold Chip.computeZone
  simp only []
  (repeat' split) <;>
    simp only [Chip.bare_release, Chip.bare_liftHold _ z .regrant rfl, Chip.bare_placeHold _ z .regrant rfl,
      Chip.bare_updAlign, Chip.bare_markAlign]

theorem Chip.bare_roundFrom (c : Chip) (named : List ZoneId) (fuel : Nat) (left : List ZoneId) :
    (c.roundFrom named fuel left).bare = c.bare := by
  induction fuel generalizing c left with
  | zero => rfl
  | succ n ih =>
    unfold Chip.roundFrom
    split
    · rfl
    · rw [ih, Chip.bare_computeZone]

theorem Chip.bare_runRound (c : Chip) : c.runRound.bare = c.bare := by
  unfold Chip.runRound
  simp only []
  rw [Chip.bare_updEv, Chip.bare_roundFrom]
  intro e; rfl

theorem Outlet.bare_rebuild (x : Outlet) (d : Nat) : (x.rebuild d).bare = x.bare := by
  unfold Outlet.rebuild; (repeat' split) <;> rfl

theorem Chip.bare_switchGrant (c : Chip) (z : ZoneId) : (c.switchGrant z).bare = c.bare := by
  unfold Chip.switchGrant
  split
  · simp only []
    rw [Chip.bare_liftHold _ _ _ rfl]
    split
    · rw [Chip.bare_release, Chip.bare_markAlign, Chip.bare_updAlign]
      exact Chip.bare_foldl _ (fun c e => Chip.bare_updOutlet _ _ _ fun x => Outlet.bare_rebuild x _) _ _
    · rw [Chip.bare_markAlign, Chip.bare_updAlign]
      exact Chip.bare_foldl _ (fun c e => Chip.bare_updOutlet _ _ _ fun x => Outlet.bare_rebuild x _) _ _
  · rfl

theorem Chip.bare_holdReport (c : Chip) (z : ZoneId) (h : Hold) (hl : light (z, h) = true) :
    (c.holdReport z h).bare = c.bare := by
  have e : (c.updEv fun e => { e with placed := e.placed.filter (· ≠ (z, h)) }).bare = c.bare := by
    refine Chip.bare_updEv _ _ fun e => ?_
    simp only [Ev.bare]; rw [filter_light_erase _ _ _ hl]
  unfold Chip.holdReport
  cases h
  · simp [light] at hl
  · simp only []; rw [Chip.bare_liftHold _ _ _ rfl, e]
  · simp only []; rw [Chip.bare_switchGrant, e]
  · simp [light] at hl
  · simp [light] at hl

/-! ### Work that is light -/

/-- No withdrawal of the event may end, no stop of it is silent, no zone of it restarts, and no hold of it is silent but light ones. -/
def Chip.lightWork (c : Chip) : Prop :=
  (∀ o ∈ c.ev.withdrawn, c.withdrawDone o = false) ∧ (∀ z ∈ c.ev.stopping, c.zoneSilent z = false) ∧
    (∀ p ∈ c.ev.placed, light p = true ∨ c.holdSilent p.1 p.2 = false) ∧ c.ev.restarts = []

theorem Chip.zoneSilent_bare (c : Chip) (z : ZoneId) : c.bare.zoneSilent z = c.zoneSilent z := by
  simp [Chip.zoneSilent, Chip.bare, Ctx.bare, Ctx.silent]

theorem Chip.holdSilent_bare (c : Chip) (z : ZoneId) (h : Hold) : c.bare.holdSilent z h = c.holdSilent z h := by
  simp [Chip.holdSilent, Chip.bare, Ctx.bare, Ctx.silent]

theorem Chip.withdrawDone_bare (c : Chip) (o : OutletId) : c.bare.withdrawDone o = c.withdrawDone o := by
  simp [Chip.withdrawDone, Chip.outletSilent, Chip.testOn, Chip.bare, Ctx.bare, Outlet.bare]

theorem Chip.lightWork_of_bare {c d : Chip} (h : c.bare = d.bare) (hd : d.lightWork) : c.lightWork := by
  have s1 : ∀ x : Chip, x.ev.withdrawn = x.bare.ev.withdrawn := fun _ => rfl
  have s2 : ∀ x : Chip, x.ev.stopping = x.bare.ev.stopping := fun _ => rfl
  have s3 : ∀ x : Chip, x.ev.placed.filter (fun p => !light p) = x.bare.ev.placed := fun _ => rfl
  have s4 : ∀ x : Chip, x.ev.restarts = x.bare.ev.restarts := fun _ => rfl
  obtain ⟨h1, h2, h3, h4⟩ := hd
  refine ⟨fun o ho => ?_, fun z hz => ?_, fun p hp => ?_, by rw [s4 c, h, ← s4 d]; exact h4⟩
  · rw [← Chip.withdrawDone_bare, h, Chip.withdrawDone_bare]
    exact h1 o (by rw [s1 d, ← h, ← s1 c]; exact ho)
  · rw [← Chip.zoneSilent_bare, h, Chip.zoneSilent_bare]
    exact h2 z (by rw [s2 d, ← h, ← s2 c]; exact hz)
  · by_cases hl : light p = true
    · exact Or.inl hl
    · right
      have : p ∈ d.ev.placed.filter fun p => !light p := by
        rw [s3 d, ← h, ← s3 c]; exact List.mem_filter.mpr ⟨hp, by simpa using hl⟩
      rcases h3 p (List.mem_filter.mp this).1 with hh | hh
      · exact absurd hh hl
      · rw [← Chip.holdSilent_bare, h, Chip.holdSilent_bare]; exact hh

theorem Chip.bare_workOnce (c d : Chip) (hc : c.lightWork) (h : c.workOnce = some d) : d.bare = c.bare := by
  obtain ⟨h1, h2, h3, h4⟩ := hc
  unfold Chip.workOnce at h
  have hm : c.ev.withdrawn.find? c.withdrawDone = none := by
    rw [List.find?_eq_none]; intro o ho; simp [h1 o ho]
  have hn : c.ev.stopping.find? c.zoneSilent = none := by
    rw [List.find?_eq_none]; intro z hz; simp [h2 z hz]
  simp only [hm, hn, h4] at h
  split at h
  · obtain rfl := Option.some.inj h; exact Chip.bare_runRound c
  · simp only [List.isEmpty_nil, Bool.not_true, Bool.false_eq_true, if_false] at h
    split at h
    · rename_i p hp
      obtain rfl := Option.some.inj h
      refine Chip.bare_holdReport c p.1 p.2 ?_
      rcases h3 p (List.mem_of_find?_eq_some hp) with hl | hl
      · exact hl
      · have := List.find?_some hp
        simp [hl] at this
    · exact absurd h (by simp)

theorem Chip.bare_workLoop (n : Nat) (c : Chip) (hc : c.lightWork) : (Chip.workLoop n c).bare = c.bare := by
  induction n generalizing c with
  | zero => rfl
  | succ n ih =>
    unfold Chip.workLoop
    split
    · rfl
    · rename_i d hd
      have e := Chip.bare_workOnce c d hc hd
      rw [ih d (Chip.lightWork_of_bare e hc), e]

/-- Light work changes nothing but alignment, lines and holds. -/
theorem Chip.bare_work (c : Chip) (hc : c.lightWork) : c.work.bare = c.bare := Chip.bare_workLoop workFuel c hc

/-! ### Apart -/

theorem Chip.apart_eq_bare (c : Chip) : c.apart = { c.bare.core with ctxs := c.bare.ctxs.map Ctx.core, ev := Ev.initial } := by
  simp only [Chip.apart, Chip.core, Chip.bare, Vector.map_map]
  congr 1

theorem Chip.apart_of_bare {c d : Chip} (h : c.bare = d.bare) : c.apart = d.apart := by
  rw [Chip.apart_eq_bare, Chip.apart_eq_bare, h]

theorem Chip.apart_eq_core (c : Chip) :
    c.apart = { c.core with ctxs := c.core.ctxs.map Ctx.apart, aligns := Vector.replicate 4 Align.initial,
                            outlets := c.core.outlets.map Outlet.apart } := by
  simp only [Chip.apart, Chip.core, Vector.map_map]
  congr 1

theorem Chip.apart_of_core {c d : Chip} (h : c.core = d.core) : c.apart = d.apart := by
  rw [Chip.apart_eq_core, Chip.apart_eq_core, h]

theorem State.run_apart (s : State) (f : Chip → Chip) (h : (f s.chip.fresh).lightWork) :
    (s.run f).chip.apart = (f s.chip.fresh).apart := by
  have e : (s.run f).chip.core = (f s.chip.fresh).work.core := State.run_core s f
  rw [Chip.apart_of_core e, Chip.apart_of_bare (Chip.bare_work _ h)]

end Sys2Proof.Machine
end

