-- ==== Sys2Proof/Laws/Order.lean ====
section
/-! SUPPORT. Taking an order: what an order command does to `core`, `kept`, the queue and memory, and how a statement about
what a command does is shown. -/

namespace Sys2Proof.Machine

/-! ### The slot that the host fills -/

theorem Posting.bytes_length (p : Posting) (h : p.params.length ≤ 56) : p.bytes.length = 64 := by
  simp only [Posting.bytes, b1, le32Word, le32, List.length_append, List.length_cons, List.length_nil,
    List.length_replicate]
  omega

theorem State.fillSlot_chip (s : State) (p : Posting) : (s.fillSlot p).chip = s.chip := rfl
theorem State.fillSlot_pending (s : State) (p : Posting) : (s.fillSlot p).pending = s.pending := rfl

theorem State.fillSlot_read (s : State) (p : Posting) (hp : p.params.length ≤ 120) (a : Nat) (ha : s.chip.outside a) :
    (s.fillSlot p).dram.read a = s.dram.read a := by
  unfold State.fillSlot
  have hl : p.bytes.length ≤ 128 := by
    simp only [Posting.bytes, b1, le32Word, le32, List.length_append, List.length_cons, List.length_nil,
      List.length_replicate]
    omega
  apply Mem.read_write_outside
  have := Chip.slot_inside s.chip a ha p.head.slot 0 p.bytes.length (by omega)
  omega

/-! ### The order handed to its owner -/

/-- The part as the owner of an order finds it: the order stands in the list of orders in flight. -/
def Chip.handed (c : Chip) (k : OrderKind) (h : OrderHead) : Chip := (c.fresh.touchIdle k h).addInFlight k h

theorem State.accepts_posting {s : State} {i : Instr} {p : Posting} (hp : posting i = some p) :
    s.accepts i ↔ s.chip.takesOrder p.head.ticket = true ∧ p.head.ticket = s.chip.win.nextTicket ∧
      p.kind.targetOk p.head.target.toNat = true ∧ s.chip.ordersFull = false := by
  simp [State.accepts, hp]

/-- An accepted order is one event: its owner's effect on the part as handed, then NT moves on. -/
theorem State.order_accepted {s : State} {i : Instr} {p : Posting} (f : Chip → Chip) (hp : posting i = some p)
    (ha : s.accepts i) : s.order i f = (s.fillSlot p).run fun c => c.takeOrder p.kind p.head f := by
  have h := (State.accepts_posting hp).mp ha
  have e : (s.fillSlot p).skipTo p.head.ticket = s.fillSlot p := by
    unfold State.skipTo; rw [if_pos (by rw [h.2.1, State.fillSlot_chip])]
  simp only [State.order, hp, h.1, if_true, e]

theorem Chip.touchIdle_win (c : Chip) (k : OrderKind) (h : OrderHead) : (c.touchIdle k h).win = c.win := by
  unfold Chip.touchIdle; split <;> rfl

theorem Chip.takeOrder_accepted {c : Chip} (k : OrderKind) (h : OrderHead) (f : Chip → Chip)
    (ht : k.targetOk h.target.toNat = true) (hf : c.ordersFull = false) :
    c.fresh.takeOrder k h f = (f (c.handed k h)).advance h.ticket := by
  have hf' : (c.fresh.touchIdle k h).ordersFull = false := by
    simpa [Chip.ordersFull, Chip.touchIdle_win] using hf
  simp [Chip.takeOrder, Chip.handed, ht, hf']

@[simp] theorem Chip.hide_advance_idem (c : Chip) (t : Word) : (c.advance t).ev = c.ev := rfl

theorem State.order_event {s : State} {i : Instr} {p : Posting} (f : Chip → Chip) (hp : posting i = some p)
    (ha : s.accepts i) :
    (s.fillSlot p).chip.fresh.takeOrder p.kind p.head f
      = (f (s.chip.handed p.kind p.head)).advance p.head.ticket := by
  have h := (State.accepts_posting hp).mp ha
  exact Chip.takeOrder_accepted p.kind p.head f h.2.2.1 h.2.2.2

theorem State.order_kept {s : State} {i : Instr} {p : Posting} (f : Chip → Chip) (hp : posting i = some p)
    (ha : s.accepts i) : (s.order i f).chip.kept = ((f (s.chip.handed p.kind p.head)).advance p.head.ticket).kept := by
  rw [State.order_accepted f hp ha, State.run_kept, State.order_event f hp ha]

theorem State.order_core {s : State} {i : Instr} {p : Posting} (f : Chip → Chip) (hp : posting i = some p)
    (ha : s.accepts i) :
    (s.order i f).chip.core = ((f (s.chip.handed p.kind p.head)).advance p.head.ticket).work.core := by
  rw [State.order_accepted f hp ha, State.run_core, State.order_event f hp ha]

theorem State.order_core_quiet {s : State} {i : Instr} {p : Posting} (f : Chip → Chip) (hp : posting i = some p)
    (ha : s.accepts i) (hq : (f (s.chip.handed p.kind p.head)).ev.quiet) :
    (s.order i f).chip.core = ((f (s.chip.handed p.kind p.head)).advance p.head.ticket).core := by
  rw [State.order_core f hp ha, Chip.work_quiet]; exact hq

theorem State.skipTo_pending (s : State) (t : Word) : (s.skipTo t).pending = s.pending := by
  unfold State.skipTo; split <;> rfl

theorem State.order_pending {s : State} {i : Instr} {f : Chip → Chip} : (s.order i f).pending = s.pending := by
  unfold State.order
  split
  · rfl
  · rename_i p _
    split
    · exact State.skipTo_pending (s.fillSlot p) p.head.ticket
    · rfl

/-! ### The list of orders in flight -/

/-- No order in flight has the ticket. -/
def Chip.unused (c : Chip) (t : Word) : Prop := ∀ e ∈ c.win.inFlight, e.ticket ≠ t

theorem Chip.unused_of_takes {c : Chip} {t : Word} (h : c.takesOrder t = true) : c.unused t := by
  intro e he
  simp only [Chip.takesOrder, Bool.and_eq_true, Bool.not_eq_true', List.any_eq_false] at h
  simpa using h.2 e he

theorem Chip.handed_inFlight (c : Chip) (k : OrderKind) (h : OrderHead) :
    (c.handed k h).win = { c.win with
      inFlight := c.win.inFlight ++ [{ ticket := h.ticket, slot := h.slot, kind := k, accepted := false }] } := by
  simp [Chip.handed, Chip.addInFlight, Chip.updWin, Chip.touchIdle_win]

theorem List.find_last {l : List InFlight} {e : InFlight} {t : Word} (h : ∀ x ∈ l, x.ticket ≠ t) (he : e.ticket = t) :
    (l ++ [e]).find? (fun e => e.ticket == t) = some e := by
  induction l with
  | nil => simp [he]
  | cons x l ih =>
    have hx : (x.ticket == t) = false := by simpa using h x (by simp)
    simp only [List.cons_append, List.find?_cons, hx]
    exact ih fun y hy => h y (by simp [hy])

theorem List.erase_last {l : List InFlight} {e : InFlight} {t : Word} (h : ∀ x ∈ l, x.ticket ≠ t) (he : e.ticket = t) :
    (l ++ [e]).erase e = l := by
  have : e ∉ l := fun hm => h e hm he
  rw [List.erase_append_right _ this]
  simp

/-- An order that ends leaves the list of orders in flight as it stood before it was taken. -/
theorem Chip.endOrder_last {c : Chip} {l : List InFlight} {e : InFlight} {t : Word} (code : ResultCode) (r k f : Bool)
    (v : List ResultValue) (hl : c.win.inFlight = l ++ [e]) (h : ∀ x ∈ l, x.ticket ≠ t) (he : e.ticket = t) :
    c.endOrder t code r k f v =
      { c with
        win := { c.win with inFlight := l }
        ev := { c.ev with
          ends := c.ev.ends ++ [{ ticket := t, slot := e.slot, accepted := e.accepted, lost := e.lost, refused := r, code := code,
                                  clamped := k, listFull := f, values := v }]
          dirty := 0 :: c.ev.dirty } } := by
  unfold Chip.endOrder
  rw [hl, List.find_last h he]
  simp only []
  rw [List.erase_last h he]

/-- The first order of a ticket leaves the list. -/
theorem List.erase_found {l : List InFlight} {e : InFlight} {t : Word} (h : l.find? (fun e => e.ticket == t) = some e) :
    l.erase e = l.eraseP fun e => e.ticket == t := by
  induction l with
  | nil => rfl
  | cons x l ih =>
    by_cases hx : (x.ticket == t) = true
    · simp only [List.find?_cons, hx] at h
      obtain rfl := Option.some.inj h
      simp [hx]
    · simp only [List.find?_cons, Bool.eq_false_of_not_eq_true hx] at h
      have he := List.find?_some h
      have : x ≠ e := by rintro rfl; exact hx he
      rw [List.erase_cons_tail (by simpa using this), ih h]
      simp [Bool.eq_false_of_not_eq_true hx]

/-- The end of another order than the one just taken: it leaves the list of orders in flight, and WIN has its end to write. -/
theorem Chip.endOrder_other {c : Chip} {l : List InFlight} {e : InFlight} {t : Word} (code : ResultCode) (r k f : Bool)
    (v : List ResultValue) (hl : c.win.inFlight = l ++ [e]) (he : e.ticket ≠ t) :
    ∃ (ends : List OrderEnd) (dirty : List PageId), (∀ x ∈ ends, x.ticket = t) ∧
      c.endOrder t code r k f v =
        { c with
          win := { c.win with inFlight := (l.eraseP fun e => e.ticket == t) ++ [e] }
          ev := { c.ev with ends := c.ev.ends ++ ends, dirty := dirty } } := by
  have he' : (e.ticket == t) = false := by simpa using he
  unfold Chip.endOrder
  rw [hl, List.find?_append]
  cases hf : l.find? fun e => e.ticket == t with
  | none =>
    refine ⟨[], c.ev.dirty, by simp, ?_⟩
    have : l.eraseP (fun e => e.ticket == t) = l := List.eraseP_of_forall_not (by simpa using hf)
    simp [he', this, ← hl]
  | some x =>
    have hx : x ∈ l := List.mem_of_find?_eq_some hf
    refine ⟨[{ ticket := t, slot := x.slot, accepted := x.accepted, lost := x.lost, refused := r, code := code, clamped := k, listFull := f,
               values := v }], 0 :: c.ev.dirty, by simp, ?_⟩
    simp only [Option.some_or]
    rw [List.erase_append_left _ hx, List.erase_found hf]

theorem Chip.core_done {c : Chip} {l : List InFlight} {e : InFlight} {t : Word} (code : ResultCode) (r k f : Bool)
    (v : List ResultValue) (hl : c.win.inFlight = l ++ [e]) (h : ∀ x ∈ l, x.ticket ≠ t) (he : e.ticket = t) :
    (c.endOrder t code r k f v).core = ({ c with win := { c.win with inFlight := l } } : Chip).core := by
  rw [Chip.endOrder_last code r k f v hl h he]; rfl

theorem Chip.core_advance {c d : Chip} (t : Word) (h : c.core = d.core) : (c.advance t).core = (d.took t).core := by
  have e : ∀ x : Chip, (x.advance t).core = { x.core with win := { x.core.win with nextTicket := nextTicket t } } := fun _ => rfl
  rw [Chip.took, e, e, h]

/-- The part that an order is handed to: an idle timer may have restarted, and the order stands in the list. -/
theorem Chip.handed_eq (c : Chip) (k : OrderKind) (h : OrderHead) :
    ∃ b : Standby, b.core = c.sbb.core ∧ c.handed k h = { c with
      sbb := b
      ev := Ev.initial
      win := { c.win with
        inFlight := c.win.inFlight ++ [{ ticket := h.ticket, slot := h.slot, kind := k, accepted := false }] } } := by
  unfold Chip.handed Chip.touchIdle
  split
  · refine ⟨_, ?_, rfl⟩
    exact Standby.core_idle _ _ (Vector.map_set_same _ _ _ _ (Idle.core_restart _))
  · exact ⟨c.sbb, rfl, rfl⟩

/-! ### Statements about a command -/

/-- A command that is one event. -/
theorem does_run {i : Instr} {s : State} {f : Chip → Chip} {P : Chip → Prop} (he : exec i s = .next (s.run f))
    (hm : (f s.chip.fresh).ev.marks = [])
    (hb : (f s.chip.fresh).windowUp = true → (f s.chip.fresh).base = s.chip.base) (hP : P (s.run f).chip) : Does i s P := by
  refine ⟨_, he, rfl, fun a ha => ?_, hP⟩
  refine State.run_read s f a hm fun up => ?_
  unfold Chip.outside at *
  rw [hb up]; exact ha

/-- A command that is one event with nothing left to do. -/
theorem does_core {i : Instr} {s : State} {f : Chip → Chip} {X : Chip} (he : exec i s = .next (s.run f))
    (hq : (f s.chip.fresh).ev.quiet) (hm : (f s.chip.fresh).ev.marks = [])
    (hb : (f s.chip.fresh).windowUp = true → (f s.chip.fresh).base = s.chip.base)
    (hc : (f s.chip.fresh).core = X.core) : Does i s fun t => t.core = X.core :=
  does_run he hm hb (by rw [State.run_core_quiet s f hq, hc])

/-- A command that is one event which stops no zone and changes no binding after its own effect. -/
theorem does_settled {i : Instr} {s : State} {f : Chip → Chip} {X : Chip} (he : exec i s = .next (s.run f))
    (hq : (f s.chip.fresh).ev.calm) (hm : (f s.chip.fresh).ev.marks = [])
    (hb : (f s.chip.fresh).windowUp = true → (f s.chip.fresh).base = s.chip.base)
    (hc : (f s.chip.fresh).settled = X.settled) : Does i s fun t => t.settled = X.settled :=
  does_run he hm hb (by rw [State.run_settled s f hq, hc])

/-- A command's event, while the main domain is up. -/
theorem State.runMain_up {s : State} (h : s.chip.mainUp = true) (f : Chip → Chip) : s.runMain f = s.run f := by
  unfold State.runMain; rw [if_pos h]

/-- Every order's command hands the order to its owner. -/
theorem exec_order {i : Instr} {p : Posting} (h : posting i = some p) (s : State) :
    exec i s = .next (s.order i (orderEffect s.dram i)) := by
  cases i <;> first | (simp only [posting, reduceCtorEq] at h; done) | rfl

/-- An order's command that intake does not take changes nothing. -/
theorem exec_not_taken {i : Instr} {p : Posting} (h : posting i = some p) (s : State)
    (ht : s.chip.takesOrder p.head.ticket = false) : exec i s = .next s := by
  rw [exec_order h, State.order, h]; simp [ht]

/-- A command that is one event whose own effect changes nothing of the settings but what `kept` shows. -/
theorem does_run_of_hide {i : Instr} {s : State} {f g : Chip → Chip} {P : Chip → Prop} (he : exec i s = .next (s.run f))
    (hg : (f s.chip.fresh).steady.hide = (g s.chip.fresh).steady.hide) (hm : (g s.chip.fresh).ev.marks = [])
    (hb : (g s.chip.fresh).base = s.chip.base) (hP : P (s.run f).chip) : Does i s P :=
  does_run he ((Chip.marks_of_hide hg).trans hm) (fun _ => (Chip.base_of_kept (Chip.kept_of_hide hg)).trans hb) hP

/-- An order's command that its owner is handed. -/
theorem does_order {i : Instr} {s : State} {p : Posting} {f : Chip → Chip} {P : Chip → Prop}
    (he : exec i s = .next (s.order i f)) (hp : posting i = some p) (ha : s.accepts i) (hl : p.params.length ≤ 120)
    (hm : (f (s.chip.handed p.kind p.head)).ev.marks = [])
    (hb : (f (s.chip.handed p.kind p.head)).base = s.chip.base) (hP : P (s.order i f).chip) : Does i s P := by
  refine ⟨_, he, State.order_pending, fun a ha' => ?_, hP⟩
  rw [State.order_accepted f hp ha]
  have hev := State.order_event f hp ha
  rw [State.run_read, State.fillSlot_read s p hl a ha']
  · rw [hev]; exact hm
  · rw [hev]
    intro _
    have : ((f (s.chip.handed p.kind p.head)).advance p.head.ticket).base = s.chip.base := hb
    unfold Chip.outside at *
    rw [this]; exact ha'

theorem Chip.hide_handed (c : Chip) (k : OrderKind) (h : OrderHead) :
    (c.handed k h).steady.hide = c.fresh.steady.hide := by
  simp [Chip.handed, Chip.addInFlight, Win.kept]

/-- An order's command whose owner leaves the settings alone. -/
theorem does_order_of_hide {i : Instr} {s : State} {p : Posting} {f : Chip → Chip} {P : Chip → Prop}
    (he : exec i s = .next (s.order i f)) (hp : posting i = some p) (ha : s.accepts i) (hl : p.params.length ≤ 120)
    (hf : ∀ c, (f c).steady.hide = c.steady.hide) (hP : P (s.order i f).chip) : Does i s P := by
  have h : (f (s.chip.handed p.kind p.head)).steady.hide = s.chip.fresh.steady.hide :=
    (hf _).trans (Chip.hide_handed _ _ _)
  have hb : (f (s.chip.handed p.kind p.head)).base = s.chip.fresh.base := Chip.base_of_kept (Chip.kept_of_hide h)
  exact does_order he hp ha hl (Chip.marks_of_hide h) hb hP

end Sys2Proof.Machine
end

