-- ==== Sys2Proof/Laws/Slots.lean ====
section
/-! SUPPORT. What stands in the slot of an order after the event that takes it. -/

namespace Sys2Proof.Machine

/-! ### Bytes -/

theorem Mem.bytes_congr (m n : Mem) (a k : Nat) (h : ∀ i, i < k → m.read (a + i) = n.read (a + i)) :
    m.bytes a k = n.bytes a k := by
  induction k generalizing a with
  | zero => rfl
  | succ k ih =>
    simp only [Mem.bytes]
    have h0 := h 0 (by omega)
    simp only [Nat.add_zero] at h0
    rw [h0, ih (a + 1) fun i hi => ?_]
    have := h (i + 1) (by omega)
    rwa [show a + 1 + i = a + (i + 1) by omega]

theorem Mem.bytes_of_reads (m : Mem) (a : Nat) (l : List Byte) (h : ∀ i (hi : i < l.length), m.read (a + i) = l[i]) :
    m.bytes a l.length = l := by
  induction l generalizing a with
  | nil => rfl
  | cons b l ih =>
    simp only [List.length_cons, Mem.bytes]
    have h0 := h 0 (by simp)
    simp only [Nat.add_zero, List.getElem_cons_zero] at h0
    rw [h0, ih (a + 1) fun i hi => ?_]
    have := h (i + 1) (by simp; omega)
    rw [show a + 1 + i = a + (i + 1) by omega, this]
    simp

theorem Mem.bytes_write_same (m : Mem) (a : Nat) (l : List Byte) : (m.write a l).bytes a l.length = l :=
  Mem.bytes_of_reads _ _ _ fun i hi => Mem.read_write_at m a l i hi

theorem Mem.word_congr (m n : Mem) (a : Nat) (h : ∀ i, i < 4 → m.read (a + i) = n.read (a + i)) : m.word a = n.word a := by
  unfold Mem.word; rw [Mem.bytes_congr m n a 4 h]

/-! ### The slot that the host has filled -/

theorem leNat_le32Word (t : Word) : BitVec.ofNat 32 (leNat (le32Word t)) = t := by
  apply BitVec.eq_of_toNat_eq
  simp only [le32Word, le32, leNat, byteOf, BitVec.toNat_ofNat, BitVec.toNat_ofInt]
  have := t.isLt
  omega

/-- The slot of an order as its host has filled it. -/
def State.postedSlot (m : Mem) (a : Nat) (t : Word) : Prop := m.read a = slotPosted ∧ m.word (a + 4) = t

theorem State.fillSlot_posted (s : State) (p : Posting) :
    State.postedSlot (s.fillSlot p).dram (s.chip.slotAt p.head.slot) p.head.ticket := by
  have hl : 8 ≤ p.bytes.length := by
    simp only [Posting.bytes, b1, le32Word, le32, List.length_append, List.length_cons, List.length_nil,
      List.length_replicate]
    omega
  unfold State.postedSlot State.fillSlot
  simp only []
  constructor
  · have := Mem.read_write_at s.dram (s.chip.slotAt p.head.slot) p.bytes 0 (by omega)
    simp only [Nat.add_zero] at this
    rw [this]; rfl
  · have h : (s.dram.write (s.chip.slotAt p.head.slot) p.bytes).bytes (s.chip.slotAt p.head.slot + 4) 4
        = le32Word p.head.ticket := by
      refine Mem.bytes_of_reads _ _ (le32Word p.head.ticket) fun i hi => ?_
      have hi' : i < 4 := hi
      rw [Nat.add_assoc, Mem.read_write_at _ _ _ (4 + i) (by omega)]
      have : i = 0 ∨ i = 1 ∨ i = 2 ∨ i = 3 := by omega
      rcases this with h | h | h | h <;> subst h <;> rfl
    unfold Mem.word
    rw [h, leNat_le32Word]

/-! ### The end of an event, slot by slot -/

/-- Two slots are the same or lie apart. -/
theorem Chip.slotAt_apart (c : Chip) (a b : Fin 32) (h : a ≠ b) :
    c.slotAt a + 128 ≤ c.slotAt b ∨ c.slotAt b + 128 ≤ c.slotAt a := by
  unfold Chip.slotAt
  have : a.val ≠ b.val := fun e => h (Fin.ext e)
  omega

/-- A write elsewhere leaves a slot as it is. -/
theorem Mem.read_write_slot (c : Chip) (m : Mem) (x y : Fin 32) (k : Nat) (l : List Byte) (hl : k + l.length ≤ 128)
    (h : x ≠ y) (i : Nat) (hi : i < 128) : (m.write (c.slotAt y + k) l).read (c.slotAt x + i) = m.read (c.slotAt x + i) := by
  apply Mem.read_write_outside
  have := Chip.slotAt_apart c x y h
  omega

theorem slotHolds_iff (m : Mem) (a : Nat) (b : Byte) (t : Word) :
    slotHolds m a b t = true ↔ m.read a = b ∧ m.word (a + 4) = t := by simp [slotHolds]

/-- The end of another order leaves a posted slot posted. -/
theorem writeEnd_posted (v : View) (e : OrderEnd) (x : Fin 32) (t : Word) (ht : e.ticket ≠ t)
    (h : State.postedSlot v.2 (v.1.slotAt x) t) : State.postedSlot (writeEnd v e).2 (v.1.slotAt x) t := by
  obtain ⟨h1, h2⟩ := h
  have hl := OrderEnd.area_length e
  unfold writeEnd
  split
  · simp only []
    have key : State.postedSlot (v.2.write (v.1.slotAt e.slot + 64) e.area) (v.1.slotAt x) t := by
      have r : ∀ i, i < 8 → (v.2.write (v.1.slotAt e.slot + 64) e.area).read (v.1.slotAt x + i) = v.2.read (v.1.slotAt x + i) := by
        intro i hi
        by_cases hx : x = e.slot
        · subst hx; apply Mem.read_write_outside; omega
        · exact Mem.read_write_slot v.1 v.2 x e.slot 64 e.area (by omega) hx i (by omega)
      refine ⟨?_, ?_⟩
      · have := r 0 (by omega); simp only [Nat.add_zero] at this; rw [this]; exact h1
      · rw [← h2]; refine Mem.word_congr _ _ _ fun i hi => ?_
        have := r (4 + i) (by omega)
        rwa [← Nat.add_assoc] at this
    by_cases hx : x = e.slot
    · have hn : slotHolds (v.2.write (v.1.slotAt e.slot + 64) e.area) (v.1.slotAt e.slot) e.expects e.ticket = false := by
        rw [Bool.eq_false_iff]
        intro hh
        have := (slotHolds_iff _ _ _ _).mp hh
        rw [← hx] at this
        rw [hx] at key
        exact ht (by rw [← this.2, hx]; exact key.2)
      rw [hn]
      exact key
    · split
      · obtain ⟨k1, k2⟩ := key
        have r : ∀ i, i < 8 → ((v.2.write (v.1.slotAt e.slot + 64) e.area).write (v.1.slotAt e.slot)
            [if e.refused then slotRefused else slotDone]).read (v.1.slotAt x + i)
            = (v.2.write (v.1.slotAt e.slot + 64) e.area).read (v.1.slotAt x + i) := by
          intro i hi
          exact Mem.read_write_slot v.1 _ x e.slot 0 _ (by simp) hx i (by omega)
        refine ⟨?_, ?_⟩
        · have := r 0 (by omega); simp only [Nat.add_zero] at this; rw [this]; exact k1
        · rw [← k2]; refine Mem.word_congr _ _ _ fun i hi => ?_
          have := r (4 + i) (by omega)
          rwa [← Nat.add_assoc] at this
      · exact key
  · exact ⟨h1, h2⟩

theorem writeEnd_near_slot (v : View) (c : Chip) (h : View.near v c) (x : Fin 32) : v.1.slotAt x = c.slotAt x := by
  unfold Chip.slotAt; rw [View.near_base h]

/-- The end of the order in a posted slot is written there. -/
theorem writeEnd_own (v : View) (e : OrderEnd) (up : v.1.windowUp = true) (ha : e.accepted = false ∧ e.lost = false)
    (h : State.postedSlot v.2 (v.1.slotAt e.slot) e.ticket) :
    (writeEnd v e).2.bytes (v.1.slotAt e.slot + 64) e.area.length = e.area ∧
      (writeEnd v e).2.read (v.1.slotAt e.slot) = (if e.refused then slotRefused else slotDone) := by
  obtain ⟨h1, h2⟩ := h
  unfold writeEnd
  rw [if_pos (by rw [up, ha.2]; rfl)]
  simp only []
  have r : ∀ i, i < 8 → (v.2.write (v.1.slotAt e.slot + 64) e.area).read (v.1.slotAt e.slot + i)
      = v.2.read (v.1.slotAt e.slot + i) := fun i hi => Mem.read_write_outside _ _ _ _ (by omega)
  have hs : slotHolds (v.2.write (v.1.slotAt e.slot + 64) e.area) (v.1.slotAt e.slot) e.expects e.ticket = true := by
    rw [slotHolds_iff]
    refine ⟨?_, ?_⟩
    · have := r 0 (by omega); simp only [Nat.add_zero] at this; rw [this, h1]; simp [OrderEnd.expects, ha.1]
    · rw [← h2]; refine Mem.word_congr _ _ _ fun i hi => ?_
      have := r (4 + i) (by omega)
      rwa [← Nat.add_assoc] at this
  rw [if_pos hs]
  simp only []
  refine ⟨?_, ?_⟩
  · refine Eq.trans (Mem.bytes_congr _ (v.2.write (v.1.slotAt e.slot + 64) e.area) _ _ fun i hi => ?_)
      (Mem.bytes_write_same v.2 _ e.area)
    apply Mem.read_write_outside
    simp only [List.length_singleton]; omega
  · have := Mem.read_write_at (v.2.write (v.1.slotAt e.slot + 64) e.area) (v.1.slotAt e.slot)
      [if e.refused then slotRefused else slotDone] 0 (by simp)
    simpa using this

/-- Acceptances leave the bytes of a slot that does not stand POSTED. -/
theorem writeAccepted_other (c : Chip) (m : Mem) (e : InFlight) (x : Fin 32) (h : m.read (c.slotAt x) ≠ slotPosted) (i : Nat)
    (hi : i < 128) : (writeAccepted c m e).read (c.slotAt x + i) = m.read (c.slotAt x + i) := by
  unfold writeAccepted
  split
  · rename_i hh
    simp only [Bool.and_eq_true] at hh
    have hs := (slotHolds_iff _ _ _ _).mp hh.2
    have hx : x ≠ e.slot := by rintro rfl; exact h hs.1
    have := Mem.read_write_slot c m x e.slot 0 [slotAccepted] (by simp) hx i hi
    simpa using this
  · rfl

theorem acceptAll_other (v : View) (x : Fin 32) (h : v.2.read (v.1.slotAt x) ≠ slotPosted) (i : Nat) (hi : i < 128) :
    (acceptAll v).2.read (v.1.slotAt x + i) = v.2.read (v.1.slotAt x + i) := by
  unfold acceptAll
  simp only []
  revert h
  generalize v.1.win.inFlight = l
  generalize v.2 = m
  intro h
  induction l generalizing m with
  | nil => rfl
  | cons e l ih =>
    simp only [List.foldl_cons]
    have r := fun i hi => writeAccepted_other v.1 m e x h i hi
    rw [ih _ (by have := r 0 (by omega); simp only [Nat.add_zero] at this; rw [this]; exact h), r i hi]

/-- The header and the pages lie apart from the slate. -/
theorem writeHeader_slot (v : View) (x : Fin 32) (i : Nat) (hi : i < 128) :
    (writeHeader v).2.read (v.1.slotAt x + i) = v.2.read (v.1.slotAt x + i) := by
  unfold writeHeader
  apply Mem.read_write_outside
  rw [Win.header_length]
  unfold Chip.slotAt; omega

theorem publish_slot (c : Chip) (v : View) (p : PageId) (hv : View.near v c) (x : Fin 32) (i : Nat) (hi : i < 128) :
    (publish v p).2.read (c.slotAt x + i) = v.2.read (c.slotAt x + i) := by
  unfold publish
  simp only []
  apply Mem.read_write_outside
  have hb := View.near_base hv
  have e : (v.1.updWin fun w => ({ w with revisions := w.revisions.set p (w.revisions[p] + 2) } : Win).tell p).base = c.base := hb
  unfold Chip.pageAt Chip.slotAt
  rw [e]
  have := x.isLt
  omega

/-- Marks that lie behind the pages. -/
def Ev.marksOut (e : Ev) : Prop := ∀ p ∈ e.marks, windowEnd ≤ p.1

theorem Ev.marksOut_nil {e : Ev} (h : e.marks = []) : e.marksOut := by unfold Ev.marksOut; rw [h]; simp

theorem writeMark_slot (c : Chip) (v : View) (p : Nat × Word) (hv : View.near v c) (hp : windowEnd ≤ p.1) (x : Fin 32)
    (i : Nat) (hi : i < 128) : (writeMark v p).2.read (c.slotAt x + i) = v.2.read (c.slotAt x + i) := by
  unfold writeMark
  split
  · apply Mem.read_write_outside
    rw [View.near_base hv]
    unfold windowEnd at hp
    unfold Chip.slotAt
    have := x.isLt
    omega
  · rfl

/-- The ends of other orders and the marks of an event leave a posted slot posted. -/
theorem writeEnds_posted (c : Chip) (e : Ev) (v : View) (hv : View.near v c) (x : Fin 32) (t : Word)
    (ht : ∀ a ∈ e.ends, a.ticket ≠ t) (hm : e.marksOut) (h : State.postedSlot v.2 (c.slotAt x) t) :
    State.postedSlot (writeEnds e v).2 (c.slotAt x) t := by
  refine (writeEnds_keeps (fun w => View.near w c ∧ State.postedSlot w.2 (c.slotAt x) t) e (fun w a ha p => ?_)
    (fun w a ha p => ?_) v ⟨hv, h⟩).2
  · refine ⟨near_writeEnd c w a p.1, ?_⟩
    rw [← writeEnd_near_slot w c p.1 x]
    exact writeEnd_posted w a x t (ht a ha) (by rw [writeEnd_near_slot w c p.1 x]; exact p.2)
  · refine ⟨near_writeMark c w a p.1, ?_, ?_⟩
    · have := writeMark_slot c w a p.1 (hm a ha) x 0 (by omega)
      simp only [Nat.add_zero] at this
      rw [this]; exact p.2.1
    · rw [← p.2.2]
      refine Mem.word_congr _ _ _ fun i hi => ?_
      rw [Nat.add_assoc]; exact writeMark_slot c w a p.1 (hm a ha) x (4 + i) (by omega)

/-- A result that an event ends last is written behind its marks and its other ends. -/
theorem writeEnds_last (e : Ev) (l : List OrderEnd) (x : OrderEnd) (he : e.ends = l ++ [x]) (hx : x.code ≠ .duplicateTicket)
    (v : View) : writeEnds e v = writeEnd (writeEnds { e with ends := l } v) x := by
  have h1 : duplicatesOf (l ++ [x]) = duplicatesOf l := by simp [duplicatesOf, hx]
  have h2 : resultsOf (l ++ [x]) = resultsOf l ++ [x] := by simp [resultsOf, hx]
  simp only [writeEnds, he, h1, h2, List.foldl_append, List.foldl_cons, List.foldl_nil]

/-- Behind the acceptances of an event the bytes of the slate stay. -/
theorem commit_slot (before c : Chip) (m : Mem) (x : Fin 32) (i : Nat) (hi : i < 128) :
    (commit before (c, m)).2.read (c.slotAt x + i) = (acceptAll (writeEnds c.ev (c, m))).2.read (c.slotAt x + i) := by
  have h := near_acceptAll c _ (near_writeEnds c c.ev _ (View.near_refl c m))
  unfold commit
  simp only []
  split
  · split
    · rw [read_foldl publish c _ (fun v e => near_publish c v e) (fun v p hv => publish_slot c v p hv x i hi) _ _ h]
    · rw [read_foldl publish c _ (fun v e => near_publish c v e) (fun v p hv => publish_slot c v p hv x i hi) _ _
        (near_writeHeader c _ h), ← writeEnd_near_slot _ c h x]
      exact writeHeader_slot _ x i hi
  · rfl

/-- The order of a posted slot that ends last in an event. -/
theorem commit_end (before c : Chip) (m : Mem) (l : List OrderEnd) (e : OrderEnd) (up : c.windowUp = true)
    (hm : c.ev.marksOut) (he : c.ev.ends = l ++ [e]) (hc : e.code ≠ .duplicateTicket) (hl : ∀ x ∈ l, x.ticket ≠ e.ticket)
    (ha : e.accepted = false ∧ e.lost = false) (hp : State.postedSlot m (c.slotAt e.slot) e.ticket) :
    (commit before (c, m)).2.bytes (c.slotAt e.slot + 64) e.area.length = e.area ∧
      (commit before (c, m)).2.read (c.slotAt e.slot) = if e.refused then slotRefused else slotDone := by
  have n := near_writeEnds c { c.ev with ends := l } _ (View.near_refl c m)
  have p := writeEnds_posted c { c.ev with ends := l } (c, m) (View.near_refl c m) e.slot e.ticket hl hm hp
  have k := writeEnds_last c.ev l e he hc (c, m)
  generalize writeEnds { c.ev with ends := l } (c, m) = w at *
  have o := writeEnd_own w e (by rw [View.near_windowUp n]; exact up) ha (by rw [writeEnd_near_slot _ c n]; exact p)
  rw [writeEnd_near_slot _ c n] at o
  have n' := near_writeEnd c _ e n
  have r : ∀ i, i < 128 → (commit before (c, m)).2.read (c.slotAt e.slot + i) = (writeEnd w e).2.read (c.slotAt e.slot + i) := by
    intro i hi
    rw [commit_slot before c m e.slot i hi, k]
    have := acceptAll_other (writeEnd w e) e.slot (by
      rw [writeEnd_near_slot _ c n', o.2]; split <;> decide) i hi
    rw [writeEnd_near_slot _ c n'] at this
    exact this
  have hl := OrderEnd.area_length e
  refine ⟨?_, ?_⟩
  · refine Eq.trans (Mem.bytes_congr _ _ _ _ fun i hi => ?_) o.1
    rw [Nat.add_assoc]; exact r (64 + i) (by omega)
  · have := r 0 (by omega)
    simp only [Nat.add_zero] at this
    rw [this]; exact o.2

/-- Acceptances of other orders leave a posted slot posted. -/
theorem writeAccepted_posted (c : Chip) (m : Mem) (e : InFlight) (x : Fin 32) (t : Word) (ht : e.ticket ≠ t)
    (h : State.postedSlot m (c.slotAt x) t) : State.postedSlot (writeAccepted c m e) (c.slotAt x) t := by
  unfold writeAccepted
  split
  · rename_i hh
    simp only [Bool.and_eq_true] at hh
    have hs := (slotHolds_iff _ _ _ _).mp hh.2
    have hx : x ≠ e.slot := by rintro rfl; exact ht (hs.2.symm.trans h.2)
    have r : ∀ i, i < 8 → (m.write (c.slotAt e.slot) [slotAccepted]).read (c.slotAt x + i) = m.read (c.slotAt x + i) := by
      intro i hi
      have := Mem.read_write_slot c m x e.slot 0 [slotAccepted] (by simp) hx i (by omega)
      simpa using this
    refine ⟨?_, ?_⟩
    · have := r 0 (by omega); simp only [Nat.add_zero] at this; rw [this]; exact h.1
    · rw [← h.2]; refine Mem.word_congr _ _ _ fun i hi => ?_
      have := r (4 + i) (by omega)
      rwa [← Nat.add_assoc] at this
  · exact h

theorem foldl_accepted_posted (c : Chip) (l : List InFlight) (m : Mem) (x : Fin 32) (t : Word)
    (ht : ∀ e ∈ l, e.ticket ≠ t) (h : State.postedSlot m (c.slotAt x) t) :
    State.postedSlot (l.foldl (writeAccepted c) m) (c.slotAt x) t := by
  induction l generalizing m with
  | nil => exact h
  | cons e l ih =>
    simp only [List.foldl_cons]
    exact ih _ (fun e he => ht e (by simp [he])) (writeAccepted_posted c m e x t (ht e (by simp)) h)

theorem writeEnd_inFlight (v : View) (e : OrderEnd) : (writeEnd v e).1.win.inFlight = v.1.win.inFlight := by
  unfold writeEnd
  split
  · simp only []; split <;> rfl
  · rfl

theorem writeMark_inFlight (v : View) (p : Nat × Word) : (writeMark v p).1.win.inFlight = v.1.win.inFlight := by
  unfold writeMark; split <;> rfl

/-- The orders in flight after the ends of orders and the marks. -/
theorem writeEnds_inFlight (e : Ev) (v : View) : (writeEnds e v).1.win.inFlight = v.1.win.inFlight :=
  writeEnds_keeps (fun w => w.1.win.inFlight = v.1.win.inFlight) e (fun w x _ h => (writeEnd_inFlight w x).trans h)
    (fun w x _ h => (writeMark_inFlight w x).trans h) v rfl

/-- The order of a posted slot that an event leaves in flight. -/
theorem commit_accepted (before c : Chip) (m : Mem) (l : List InFlight) (e : InFlight) (up : c.windowUp = true)
    (hm : c.ev.marksOut) (he : ∀ x ∈ c.ev.ends, x.ticket ≠ e.ticket) (hf : c.win.inFlight = l ++ [e])
    (hl : ∀ x ∈ l, x.ticket ≠ e.ticket) (ha : e.accepted = false)
    (hp : State.postedSlot m (c.slotAt e.slot) e.ticket) :
    (commit before (c, m)).2.read (c.slotAt e.slot) = slotAccepted ∧
      (commit before (c, m)).2.word (c.slotAt e.slot + 4) = e.ticket := by
  have n := near_writeEnds c c.ev _ (View.near_refl c m)
  have p := writeEnds_posted c c.ev (c, m) (View.near_refl c m) e.slot e.ticket he hm hp
  have hin : (writeEnds c.ev (c, m)).1.win.inFlight = l ++ [e] := by rw [writeEnds_inFlight]; exact hf
  have hw : (writeEnds c.ev (c, m)).1.windowUp = true := by rw [View.near_windowUp n]; exact up
  have hsl : ∀ x, (writeEnds c.ev (c, m)).1.slotAt x = c.slotAt x := fun x => writeEnd_near_slot _ c n x
  generalize hv : writeEnds c.ev (c, m) = v at *
  have q := foldl_accepted_posted v.1 l v.2 e.slot e.ticket hl (by rw [hsl]; exact p)
  have a : (acceptAll v).2 = (l.foldl (writeAccepted v.1) v.2).write (c.slotAt e.slot) [slotAccepted] := by
    unfold acceptAll
    simp only [hin, List.foldl_append, List.foldl_cons, List.foldl_nil]
    generalize hmm : l.foldl (writeAccepted v.1) v.2 = mm at *
    unfold writeAccepted
    have : slotHolds mm (v.1.slotAt e.slot) slotPosted e.ticket = true := (slotHolds_iff _ _ _ _).mpr q
    rw [if_pos (by simp [ha, hw, this]), hsl]
  have r : ∀ i, i < 8 → (commit before (c, m)).2.read (c.slotAt e.slot + i) = (acceptAll v).2.read (c.slotAt e.slot + i) := by
    intro i hi; rw [← hv]; exact commit_slot before c m e.slot i (by omega)
  rw [hsl] at q
  refine ⟨?_, ?_⟩
  · have := r 0 (by omega)
    simp only [Nat.add_zero] at this
    rw [this, a]
    have := Mem.read_write_at (l.foldl (writeAccepted v.1) v.2) (c.slotAt e.slot) [slotAccepted] 0 (by simp)
    simpa using this
  · rw [← q.2]
    refine Mem.word_congr _ _ _ fun i hi => ?_
    rw [Nat.add_assoc, r (4 + i) (by omega), a]
    apply Mem.read_write_outside
    simp only [List.length_singleton]; omega

/-! ### What follows from the state leaves the event's work alone -/

theorem Chip.ev_foldl {α : Type} (f : Chip → α → Chip) (h : ∀ c a, (f c a).ev = c.ev) (l : List α) (c : Chip) :
    (l.foldl f c).ev = c.ev := by
  induction l generalizing c with
  | nil => rfl
  | cons a l ih => simp only [List.foldl_cons]; rw [ih, h]

theorem Chip.ev_resolveZone (c : Chip) (z : ZoneId) : (c.resolveZone z).ev = c.ev := by
  unfold Chip.resolveZone; split <;> rfl

theorem Chip.ev_selectSet (c : Chip) (z : ZoneId) : (c.selectSet z).ev = c.ev := by
  unfold Chip.selectSet; split <;> rfl

theorem Chip.ev_deriveProgramme (c : Chip) (z : ZoneId) : (c.deriveProgramme z).ev = c.ev := rfl
theorem Chip.ev_evalAnnounce (c : Chip) (z : ZoneId) : (c.evalAnnounce z).ev = c.ev := rfl
theorem Chip.ev_relevel (c : Chip) : c.relevel.ev = c.ev := by
  unfold Chip.relevel; refine Chip.ev_foldl _ (fun c z => ?_) _ _; rfl
theorem Chip.ev_cutTest (c : Chip) : c.cutTest.ev = c.ev := by unfold Chip.cutTest; rfl
theorem Chip.ev_dropSignals (c : Chip) : c.dropSignals.ev = c.ev := Chip.ev_foldl _ (fun c s => by split <;> rfl) _ _
theorem Chip.ev_recomputeOffers (c : Chip) : c.recomputeOffers.ev = c.ev := by
  unfold Chip.recomputeOffers; refine Chip.ev_foldl _ (fun c s => ?_) _ _; rfl
theorem Chip.ev_setRelays (c : Chip) : c.setRelays.ev = c.ev := by unfold Chip.setRelays; rfl
theorem Chip.ev_setTriggers (c : Chip) : c.setTriggers.ev = c.ev := by unfold Chip.setTriggers; rfl
theorem Chip.ev_holdIdle (c : Chip) : c.holdIdle.ev = c.ev := by unfold Chip.holdIdle; rfl
theorem Chip.ev_setIndicators (c : Chip) : c.setIndicators.ev = c.ev := by unfold Chip.setIndicators; rfl

theorem Chip.ev_deriveMain (c : Chip) : c.deriveMain.ev = c.ev := by
  unfold Chip.deriveMain
  simp only [Chip.ev_holdIdle, Chip.ev_setTriggers, Chip.ev_setRelays, Chip.ev_recomputeOffers, Chip.ev_dropSignals,
    Chip.ev_cutTest, Chip.ev_relevel]
  rw [Chip.ev_foldl _ Chip.ev_resolveZone, Chip.ev_foldl _ Chip.ev_evalAnnounce, Chip.ev_foldl _ Chip.ev_deriveProgramme,
    Chip.ev_foldl _ Chip.ev_selectSet]

theorem Chip.ev_derive (c : Chip) : c.derive.ev = c.ev := by
  unfold Chip.derive
  rw [Chip.ev_setIndicators]
  split
  · exact Chip.ev_deriveMain c
  · rfl

/-! Nor does it touch the window's registers. -/

theorem Chip.win_foldl {α : Type} (f : Chip → α → Chip) (h : ∀ c a, (f c a).win = c.win) (l : List α) (c : Chip) :
    (l.foldl f c).win = c.win := by
  induction l generalizing c with
  | nil => rfl
  | cons a l ih => simp only [List.foldl_cons]; rw [ih, h]

theorem Chip.win_resolveZone (c : Chip) (z : ZoneId) : (c.resolveZone z).win = c.win := by
  unfold Chip.resolveZone; split <;> rfl
theorem Chip.win_selectSet (c : Chip) (z : ZoneId) : (c.selectSet z).win = c.win := by
  unfold Chip.selectSet; split <;> rfl
theorem Chip.win_deriveProgramme (c : Chip) (z : ZoneId) : (c.deriveProgramme z).win = c.win := rfl
theorem Chip.win_evalAnnounce (c : Chip) (z : ZoneId) : (c.evalAnnounce z).win = c.win := rfl
theorem Chip.win_relevel (c : Chip) : c.relevel.win = c.win := by
  unfold Chip.relevel; refine Chip.win_foldl _ (fun c z => ?_) _ _; rfl
theorem Chip.win_cutTest (c : Chip) : c.cutTest.win = c.win := by unfold Chip.cutTest; rfl
theorem Chip.win_dropSignals (c : Chip) : c.dropSignals.win = c.win := by
  unfold Chip.dropSignals; exact Chip.win_foldl _ (fun c s => by split <;> rfl) _ _
theorem Chip.win_recomputeOffers (c : Chip) : c.recomputeOffers.win = c.win := by
  unfold Chip.recomputeOffers; refine Chip.win_foldl _ (fun c s => ?_) _ _; rfl
theorem Chip.win_setRelays (c : Chip) : c.setRelays.win = c.win := by unfold Chip.setRelays; rfl
theorem Chip.win_setTriggers (c : Chip) : c.setTriggers.win = c.win := by unfold Chip.setTriggers; rfl
theorem Chip.win_holdIdle (c : Chip) : c.holdIdle.win = c.win := by unfold Chip.holdIdle; rfl
theorem Chip.win_setIndicators (c : Chip) : c.setIndicators.win = c.win := by unfold Chip.setIndicators; rfl

theorem Chip.win_deriveMain (c : Chip) : c.deriveMain.win = c.win := by
  unfold Chip.deriveMain
  simp only [Chip.win_holdIdle, Chip.win_setTriggers, Chip.win_setRelays, Chip.win_recomputeOffers, Chip.win_dropSignals,
    Chip.win_cutTest, Chip.win_relevel]
  rw [Chip.win_foldl _ Chip.win_resolveZone, Chip.win_foldl _ Chip.win_evalAnnounce,
    Chip.win_foldl _ Chip.win_deriveProgramme, Chip.win_foldl _ Chip.win_selectSet]

theorem Chip.win_derive (c : Chip) : c.derive.win = c.win := by
  unfold Chip.derive
  rw [Chip.win_setIndicators]
  split
  · exact Chip.win_deriveMain c
  · rfl

/-! ### An order that its owner answers -/

theorem Chip.inFlight_of_near {v : View} {c : Chip} (h : View.near v c) : v.1.win.core = c.win.core := by
  obtain ⟨w, hw, hc⟩ := h
  rw [hw]; exact hc

/-- What the end of a light event finds: its ends of orders, its marks, the window, the base, and the list of orders in
flight. -/
theorem Chip.event_facts (c : Chip) (f : Chip → Chip) (h : (f c.fresh).lightWork) :
    (c.event f).ev.ends = (f c.fresh).ev.ends ∧ (c.event f).ev.marks = (f c.fresh).ev.marks ∧
      (c.event f).windowUp = (f c.fresh).windowUp ∧ (c.event f).base = (f c.fresh).base := by
  have b := Chip.bare_work (f c.fresh) h
  have e : (c.event f).ev = (f c.fresh).work.ev := Chip.ev_derive _
  have k := Chip.kept_of_hide (Chip.hide_event c f)
  have s1 : ∀ x : Chip, x.ev.ends = x.bare.ev.ends := fun _ => rfl
  have s2 : ∀ x : Chip, x.ev.marks = x.bare.ev.marks := fun _ => rfl
  refine ⟨?_, ?_, Chip.windowUp_of_kept k, Chip.base_of_kept k⟩
  · rw [e, s1 (f c.fresh).work, b, ← s1]
  · rw [e, s2 (f c.fresh).work, b, ← s2]

theorem Chip.takesOrder_windowUp {c : Chip} {t : Word} (h : c.takesOrder t = true) : c.windowUp = true := by
  simp only [Chip.takesOrder, Chip.intakeOpen, Bool.and_eq_true] at h
  simp [Chip.windowUp, h.1.1.1.1.2]

/-- An order that its owner ends within a light event. -/
theorem answers_order {i : Instr} {s : State} {p : Posting} {f : Chip → Chip} {e : OrderEnd} {l : List OrderEnd}
    {P : Chip → Prop} (hx : exec i s = .next (s.order i f)) (hp : posting i = some p) (ha : s.accepts i)
    (hl : p.params.length ≤ 120) (hw : (f (s.chip.handed p.kind p.head)).lightWork)
    (hm : (f (s.chip.handed p.kind p.head)).ev.marks = [])
    (hb : (f (s.chip.handed p.kind p.head)).base = s.chip.base)
    (hu : (f (s.chip.handed p.kind p.head)).windowUp = s.chip.windowUp)
    (he : (f (s.chip.handed p.kind p.head)).ev.ends = l ++ [e]) (hc : e.code ≠ .duplicateTicket)
    (ht : ∀ x ∈ l, x.ticket ≠ e.ticket)
    (e1 : e.ticket = p.head.ticket) (e2 : e.slot = p.head.slot) (e3 : e.accepted = false ∧ e.lost = false)
    (hP : P (s.order i f).chip) : Answers i s e P := by
  refine ⟨_, hx, State.order_pending, ?_, ?_, hP⟩
  · obtain ⟨t, ht, _, h, _⟩ := does_order (P := fun _ => True) hx hp ha hl hm hb trivial
    rw [hx] at ht
    obtain rfl := Host.Outcome.next.inj ht
    exact h
  · have hev := State.order_event f hp ha
    have hk := State.accepts_posting hp |>.mp ha
    rw [State.order_accepted f hp ha]
    have facts := Chip.event_facts (s.fillSlot p).chip (fun c => c.takeOrder p.kind p.head f) (by rw [hev]; exact hw)
    rw [hev] at facts
    obtain ⟨f1, f2, f3, f4⟩ := facts
    have up : s.chip.windowUp = true := Chip.takesOrder_windowUp hk.1
    have base : ((s.fillSlot p).chip.event fun c => c.takeOrder p.kind p.head f).slotAt e.slot = s.chip.slotAt e.slot := by
      unfold Chip.slotAt; rw [f4]
      have : ((f (s.chip.handed p.kind p.head)).advance p.head.ticket).base = (f (s.chip.handed p.kind p.head)).base := rfl
      rw [this, hb]
    have r := commit_end (s.fillSlot p).chip ((s.fillSlot p).chip.event fun c => c.takeOrder p.kind p.head f)
      (s.fillSlot p).dram l e (by rw [f3]; exact hu.trans up) (Ev.marksOut_nil (by rw [f2]; exact hm)) (by rw [f1]; exact he) hc ht e3
      (by rw [base, e1, e2]; exact State.fillSlot_posted s p)
    rw [base] at r
    exact r

theorem Chip.lightWork_of_quiet {c : Chip} (h : c.ev.quiet) : c.lightWork := by
  obtain ⟨h1, h2, h3, h4, h5, h6⟩ := h
  refine ⟨?_, ?_, ?_, h6⟩
  · rw [h1]; simp
  · rw [h2]; simp
  · rw [h5]; simp

/-- The list entry of an order that its owner is handed. -/
def entryOf (k : OrderKind) (h : OrderHead) : InFlight := { ticket := h.ticket, slot := h.slot, kind := k, accepted := false }

section

variable {i : Instr} {s : State} {k : OrderKind} {h : OrderHead} {fl : Byte} {pr : List Byte} {f : Chip → Chip} {d X : Chip}
  {l : List InFlight} {code : ResultCode} {r kf ff : Bool} {v : List ResultValue}

/-- An order whose owner ends it as the last thing of its own effect; `d` is the part before that end. -/
theorem answers_end (hx : exec i s = .next (s.order i f)) (hp : posting i = some ⟨k, h, fl, pr⟩) (ha : s.accepts i)
    (hpr : pr.length ≤ 120) (key : f (s.chip.handed k h) = d.endOrder h.ticket code r kf ff v)
    (hin : d.win.inFlight = l ++ [entryOf k h]) (hu : ∀ x ∈ l, x.ticket ≠ h.ticket) (hw : d.lightWork)
    (hm : d.ev.marks = []) (he : ∀ x ∈ d.ev.ends, x.ticket ≠ h.ticket) (hb : d.win.windowBase = s.chip.win.windowBase)
    (hs : d.win.partState = s.chip.win.partState) {P : Chip → Prop} (hP : P (s.order i f).chip)
    (hn : code ≠ .duplicateTicket := by decide) :
    Answers i s { doneEnd h kf v with refused := r, code := code, listFull := ff } P := by
  have key' := key.trans (Chip.endOrder_last code r kf ff v hin hu rfl)
  refine answers_order (l := d.ev.ends) hx hp ha hpr ?_ ?_ ?_ ?_ ?_ hn he rfl rfl ⟨rfl, rfl⟩ hP
  · simp only []; rw [key']; exact hw
  · simp only []; rw [key']; exact hm
  · simp only []; rw [key']; unfold Chip.base; simp [hb]
  · simp only []; rw [key']; unfold Chip.windowUp; simp [hs]
  · simp only []; rw [key']; rfl

/-- A quiet order: the part is `X` with NT moved on. -/
theorem answers_core (hx : exec i s = .next (s.order i f)) (hp : posting i = some ⟨k, h, fl, pr⟩) (ha : s.accepts i)
    (hpr : pr.length ≤ 120) (key : f (s.chip.handed k h) = d.endOrder h.ticket code r kf ff v)
    (hin : d.win.inFlight = l ++ [entryOf k h]) (hu : ∀ x ∈ l, x.ticket ≠ h.ticket) (hq : d.ev.quiet)
    (hm : d.ev.marks = []) (he : ∀ x ∈ d.ev.ends, x.ticket ≠ h.ticket) (hb : d.win.windowBase = s.chip.win.windowBase)
    (hs : d.win.partState = s.chip.win.partState)
    (hc : ({ d with win := { d.win with inFlight := l } } : Chip).core = X.core)
    (hn : code ≠ .duplicateTicket := by decide) :
    Answers i s { doneEnd h kf v with refused := r, code := code, listFull := ff } fun t => t.core = (X.took h.ticket).core := by
  refine answers_end hx hp ha hpr key hin hu (Chip.lightWork_of_quiet hq) hm he hb hs ?_ hn
  rw [State.order_core_quiet f hp ha]
  · apply Chip.core_advance
    simp only []
    rw [key, Chip.core_done code r kf ff v hin hu rfl, hc]
  · simp only []
    rw [key, Chip.endOrder_last code r kf ff v hin hu rfl]; exact hq

/-- A light order: the part is `X` with NT moved on, but for alignment records, lines and holds. -/
theorem answers_apart (hx : exec i s = .next (s.order i f)) (hp : posting i = some ⟨k, h, fl, pr⟩) (ha : s.accepts i)
    (hpr : pr.length ≤ 120) (key : f (s.chip.handed k h) = d.endOrder h.ticket code r kf ff v)
    (hin : d.win.inFlight = l ++ [entryOf k h]) (hu : ∀ x ∈ l, x.ticket ≠ h.ticket) (hw : d.lightWork)
    (hm : d.ev.marks = []) (he : ∀ x ∈ d.ev.ends, x.ticket ≠ h.ticket) (hb : d.win.windowBase = s.chip.win.windowBase)
    (hs : d.win.partState = s.chip.win.partState)
    (hc : ({ d with win := { d.win with inFlight := l } } : Chip).apart = X.apart)
    (hn : code ≠ .duplicateTicket := by decide) :
    Answers i s { doneEnd h kf v with refused := r, code := code, listFull := ff }
      fun t => t.apart = (X.took h.ticket).apart := by
  refine answers_end hx hp ha hpr key hin hu hw hm he hb hs ?_ hn
  have e : (f (s.chip.handed k h)).lightWork := by
    rw [key, Chip.endOrder_last code r kf ff v hin hu rfl]; exact hw
  rw [State.order_accepted f hp ha]
  have hev := State.order_event f hp ha
  rw [State.run_apart _ _ (by rw [hev]; exact e), hev]
  simp only []
  rw [key, Chip.endOrder_last code r kf ff v hin hu rfl]
  have a : ∀ x : Chip, (x.advance h.ticket).apart
      = { x.apart with win := { x.apart.win with nextTicket := nextTicket h.ticket } } := fun _ => rfl
  rw [Chip.took, a, a, ← hc]
  rfl

/-- An order that its owner leaves in flight. -/
theorem accepts_end (hx : exec i s = .next (s.order i f)) (hp : posting i = some ⟨k, h, fl, pr⟩) (ha : s.accepts i)
    (hpr : pr.length ≤ 120) (key : f (s.chip.handed k h) = d)
    (hin : d.win.inFlight = l ++ [entryOf k h]) (hu : ∀ x ∈ l, x.ticket ≠ h.ticket) (hw : d.lightWork)
    (hm : d.ev.marks = []) (he : ∀ x ∈ d.ev.ends, x.ticket ≠ h.ticket) (hb : d.win.windowBase = s.chip.win.windowBase)
    (hs : d.win.partState = s.chip.win.partState) {P : Chip → Prop} (hP : P (s.order i f).chip) : Accepts i s h P := by
  refine ⟨_, hx, State.order_pending, ?_, ?_⟩
  · have hb' : d.base = s.chip.base := by unfold Chip.base; rw [hb]
    obtain ⟨t, ht, _, hr, _⟩ := does_order (P := fun _ => True) hx hp ha hpr (by rw [key]; exact hm) (by rw [key]; exact hb')
      trivial
    rw [hx] at ht
    obtain rfl := Host.Outcome.next.inj ht
    exact hr
  · have hev := State.order_event f hp ha
    simp only [] at hev
    rw [key] at hev
    have hk := State.accepts_posting hp |>.mp ha
    rw [← and_assoc]
    refine ⟨?_, hP⟩
    rw [State.order_accepted f hp ha]
    have facts := Chip.event_facts (s.fillSlot ⟨k, h, fl, pr⟩).chip (fun c => c.takeOrder k h f) (by rw [hev]; exact hw)
    rw [hev] at facts
    obtain ⟨f1, f2, f3, f4⟩ := facts
    have up : s.chip.windowUp = true := Chip.takesOrder_windowUp hk.1
    have up' : (d.advance h.ticket).windowUp = true := by
      have : (d.advance h.ticket).windowUp = s.chip.windowUp := by unfold Chip.windowUp; simp [Chip.advance, Chip.updWin, hs]
      rw [this, up]
    have base : ((s.fillSlot ⟨k, h, fl, pr⟩).chip.event fun c => c.takeOrder k h f).slotAt h.slot = s.chip.slotAt h.slot := by
      unfold Chip.slotAt; rw [f4]
      have : (d.advance h.ticket).base = s.chip.base := by unfold Chip.base; simp [Chip.advance, Chip.updWin, hb]
      rw [this]
    have hfl : ((s.fillSlot ⟨k, h, fl, pr⟩).chip.event fun c => c.takeOrder k h f).win.inFlight = l ++ [entryOf k h] := by
      have b := Chip.bare_work ((s.fillSlot ⟨k, h, fl, pr⟩).chip.fresh.takeOrder k h f) (by rw [hev]; exact hw)
      have w1 : ∀ x : Chip, x.win = x.bare.win := fun _ => rfl
      have w2 : (((s.fillSlot ⟨k, h, fl, pr⟩).chip.event fun c => c.takeOrder k h f)).win
          = ((s.fillSlot ⟨k, h, fl, pr⟩).chip.fresh.takeOrder k h f).work.win := Chip.win_derive _
      rw [w2, w1, b, ← w1, hev]
      exact hin
    have r := commit_accepted (s.fillSlot ⟨k, h, fl, pr⟩).chip
      ((s.fillSlot ⟨k, h, fl, pr⟩).chip.event fun c => c.takeOrder k h f) (s.fillSlot ⟨k, h, fl, pr⟩).dram l (entryOf k h)
      (by rw [f3]; exact up') (Ev.marksOut_nil (by rw [f2]; exact hm)) (by rw [f1]; exact he) hfl hu rfl
      (by
        have : (entryOf k h).slot = h.slot := rfl
        rw [this, base]; exact State.fillSlot_posted s ⟨k, h, fl, pr⟩)
    have e : (entryOf k h).slot = h.slot := rfl
    rw [e, base] at r
    exact r

/-- A quiet order that its owner leaves in flight: the part is `X` with the order in the list of orders in flight and NT
moved on. -/
theorem accepts_core (hx : exec i s = .next (s.order i f)) (hp : posting i = some ⟨k, h, fl, pr⟩) (ha : s.accepts i)
    (hpr : pr.length ≤ 120) (key : f (s.chip.handed k h) = d)
    (hin : d.win.inFlight = l ++ [entryOf k h]) (hu : ∀ x ∈ l, x.ticket ≠ h.ticket) (hq : d.ev.quiet)
    (hm : d.ev.marks = []) (he : ∀ x ∈ d.ev.ends, x.ticket ≠ h.ticket) (hb : d.win.windowBase = s.chip.win.windowBase)
    (hs : d.win.partState = s.chip.win.partState)
    (hc : ({ d with win := { d.win with inFlight := l } } : Chip).core = X.core) :
    Accepts i s h fun t => t.core = ((X.withFlight k h).took h.ticket).core := by
  refine accepts_end hx hp ha hpr key hin hu (Chip.lightWork_of_quiet hq) hm he hb hs ?_
  rw [State.order_core_quiet f hp ha (by rw [key]; exact hq)]
  apply Chip.core_advance
  simp only []
  rw [key]
  have e1 : d.core = { ({ d with win := { d.win with inFlight := l } } : Chip).core with
      win := { ({ d with win := { d.win with inFlight := l } } : Chip).core.win with
        inFlight := ({ d with win := { d.win with inFlight := l } } : Chip).core.win.inFlight ++ [(entryOf k h).core] } } := by
    simp only [Chip.core, Win.core, hin, List.map_append, List.map_cons, List.map_nil]
  have e2 : (X.withFlight k h).core = { X.core with win := { X.core.win with
        inFlight := X.core.win.inFlight ++ [(entryOf k h).core] } } := by
    simp only [Chip.withFlight, Chip.core, Win.core, List.map_append, List.map_cons, List.map_nil, entryOf, InFlight.core]
  rw [e1, e2, hc]

/-- The list of orders in flight that an owner finds. -/
theorem Chip.handed_list (c : Chip) (k : OrderKind) (h : OrderHead) :
    (c.handed k h).win.inFlight = c.win.inFlight ++ [entryOf k h] := by rw [Chip.handed_inFlight]; rfl

/-- An order that its owner answers with no work left: the part before the end is `d`, the rest of its state is `X`. -/
theorem completes_order (hx : exec i s = .next (s.order i f)) (hp : posting i = some ⟨k, h, fl, pr⟩) (ha : s.accepts i)
    (hpr : pr.length ≤ 120) (key : f (s.chip.handed k h) = d.done h.ticket kf v)
    (hw : d.win = (s.chip.handed k h).win) (hq : d.ev.quiet) (hm : d.ev.marks = []) (he : d.ev.ends = [])
    (hc : ({ d with win := s.chip.win } : Chip).core = X.core) : Completes i s h kf v X := by
  have hu := Chip.unused_of_takes ((State.accepts_posting hp).mp ha).1
  refine answers_core (l := s.chip.win.inFlight) hx hp ha hpr key ?_ hu hq hm (by rw [he]; simp) ?_ ?_ ?_
  · rw [hw, Chip.handed_list]
  · rw [hw, Chip.handed_inFlight]
  · rw [hw, Chip.handed_inFlight]
  · rw [hw, Chip.handed_inFlight]; exact hc

/-- An order that its owner refuses. -/
theorem refuses_order (hx : exec i s = .next (s.order i f)) (hp : posting i = some ⟨k, h, fl, pr⟩) (ha : s.accepts i)
    (hpr : pr.length ≤ 120) (key : f (s.chip.handed k h) = (s.chip.handed k h).refuse h.ticket code)
    (hn : code ≠ .duplicateTicket := by decide) :
    Refuses i s h code := by
  have hu := Chip.unused_of_takes ((State.accepts_posting hp).mp ha).1
  obtain ⟨b, hb, e⟩ := Chip.handed_eq s.chip k h
  refine answers_core (l := s.chip.win.inFlight) (d := s.chip.handed k h) hx hp ha hpr key ?_ hu ?_ ?_ ?_ ?_ ?_ ?_ hn
  · exact Chip.handed_list _ _ _
  · rw [e]; exact Ev.quiet_initial
  · rw [e]; rfl
  · rw [e]; intro x hx; exact absurd hx List.not_mem_nil
  · rw [e]
  · rw [e]
  · rw [e]; simp only [Chip.core, hb]

end

end Sys2Proof.Machine
end

