-- ==== Sys2Proof/Laws/Tuner.lean ====
section
/-! SUPPORT. The tuner's operations: what clearing the data service, ending the order in flight and a scan's last dwell do to the part. -/

namespace Sys2Proof.Machine

theorem Chip.clearData_eq (c : Chip) : ∃ dirty, c.clearData =
    { c with tuner := { c.tuner with ds := DataService.initial }, ev := { c.ev with dirty := dirty } } := by
  unfold Chip.clearData
  simp only []
  split
  · exact ⟨c.ev.dirty, rfl⟩
  · exact ⟨_, rfl⟩

theorem Chip.dropTunerOrder_eq (c : Chip) :
    c.dropTunerOrder = { c with win := { c.win with inFlight := c.dropTunerOrder.win.inFlight } } := by
  unfold Chip.dropTunerOrder; split <;> rfl

/-- The tuner's order in flight ends while another order is taken: it leaves the list of orders in flight, and nothing is left
to do but to write its end. -/
theorem Chip.endFlight_handed (c : Chip) (k : OrderKind) (h : OrderHead) (code : ResultCode) (hu : c.unused h.ticket)
    (ho : c.tunerOrderOther h.ticket) :
    ∃ (b : Standby) (ev : Ev), b.core = c.sbb.core ∧ ev.quiet ∧ ev.marks = [] ∧ (∀ x ∈ ev.ends, x.ticket ≠ h.ticket) ∧
      (∀ x ∈ c.dropTunerOrder.win.inFlight, x.ticket ≠ h.ticket) ∧
      (c.handed k h).endFlight code =
        { c with
          sbb := b, ev := ev, tuner := { c.tuner with order := none }
          win := { c.win with inFlight := c.dropTunerOrder.win.inFlight ++ [entryOf k h] } } := by
  obtain ⟨b, hb, e⟩ := Chip.handed_eq c k h
  unfold Chip.endFlight Chip.dropTunerOrder
  have ht : (c.handed k h).tuner = c.tuner := by rw [e]
  rw [ht]
  cases hh : c.tuner.order with
  | none =>
    refine ⟨b, Ev.initial, hb, Ev.quiet_initial, rfl, by intro x hx; exact absurd hx List.not_mem_nil, hu, ?_⟩
    have : ({ c.tuner with order := none } : Tuner) = c.tuner := by cases hc : c.tuner; simp_all
    rw [this]
    simp only [e]; rfl
  | some o =>
    obtain ⟨ends, dirty, h1, h2⟩ := Chip.endOrder_other (c := c.handed k h) (l := c.win.inFlight) (e := entryOf k h)
      (t := o.ticket) code false false false [] (Chip.handed_list _ _ _) (fun hh' => ho o hh hh'.symm)
    refine ⟨b, { Ev.initial with ends := ends, dirty := dirty }, hb, ⟨rfl, rfl, rfl, rfl, rfl, rfl⟩, rfl, ?_, ?_, ?_⟩
    · intro x hx; rw [h1 x hx]; exact ho o hh
    · intro x hx; exact hu x (List.mem_of_mem_eraseP hx)
    · simp only [Chip.doneWith, h2]; rw [e]; rfl

/-- A scan that another order ends does so as any order in flight does. -/
theorem Chip.abortScan_handed (c : Chip) (k : OrderKind) (h : OrderHead) (hu : c.unused h.ticket)
    (ho : c.tunerOrderOther h.ticket) :
    ∃ (b : Standby) (ev : Ev), b.core = c.sbb.core ∧ ev.quiet ∧ ev.marks = [] ∧ (∀ x ∈ ev.ends, x.ticket ≠ h.ticket) ∧
      (∀ x ∈ c.dropTunerOrder.win.inFlight, x.ticket ≠ h.ticket) ∧
      (c.handed k h).abortScan =
        { c with
          sbb := b, ev := ev, tuner := { c.tuner with order := none }
          win := { c.win with inFlight := c.dropTunerOrder.win.inFlight ++ [entryOf k h] } } := by
  obtain ⟨b, hb, e⟩ := Chip.handed_eq c k h
  unfold Chip.abortScan Chip.dropTunerOrder
  have ht : (c.handed k h).tuner = c.tuner := by rw [e]
  rw [ht]
  cases hh : c.tuner.order with
  | none =>
    refine ⟨b, Ev.initial, hb, Ev.quiet_initial, rfl, by intro x hx; exact absurd hx List.not_mem_nil, hu, ?_⟩
    have : ({ c.tuner with order := none } : Tuner) = c.tuner := by cases hc : c.tuner; simp_all
    rw [this]
    simp only [e]; rfl
  | some o =>
    obtain ⟨ends, dirty, h1, h2⟩ := Chip.endOrder_other (c := c.handed k h) (l := c.win.inFlight) (e := entryOf k h)
      (t := o.ticket) .aborted false false false c.tuner.scanValues (Chip.handed_list _ _ _)
      (fun hh' => ho o hh hh'.symm)
    refine ⟨b, { Ev.initial with ends := ends, dirty := dirty }, hb, ⟨rfl, rfl, rfl, rfl, rfl, rfl⟩, rfl, ?_, ?_, ?_⟩
    · intro x hx; rw [h1 x hx]; exact ho o hh
    · intro x hx; exact hu x (List.mem_of_mem_eraseP hx)
    · simp only [Chip.doneWith, h2]; rw [e]; rfl

/-- A measured dwell changes nothing but the station list and the previous entry. -/
theorem Tuner.enterPassing_eq (x : Tuner) (f : Nat) :
    x.enterPassing f = { x with stations := (x.enterPassing f).stations, prevEntry := (x.enterPassing f).prevEntry } := by
  unfold Tuner.enterPassing Tuner.enter
  (repeat' split) <;> rfl

/-- What an order that meets a scan does before it ends the scan: nothing, or the entry of the last dwell, measured as the free value
says. -/
theorem Chip.takeLastDwell_eq (c : Chip) :
    c.takeLastDwell = c ∨ ∃ f, c.tuner.step = some f ∧ c.tuner.sweepOver f = true ∧
      c.takeLastDwell = c.updTuner fun x => (x.measure (sweepReception c.clock)).enterPassing f := by
  unfold Chip.takeLastDwell
  cases h : c.tuner.step with
  | none => exact .inl rfl
  | some f =>
    simp only []
    split
    · rename_i hf; exact .inr ⟨f, rfl, hf, rfl⟩
    · exact .inl rfl

end Sys2Proof.Machine
end

