-- ==== Sys2Proof/Tests/Slice0.lean ====
section
/-! SUPPORT. Tests: ill-formed commands that the check refuses, slots written out byte by byte, small steps, and for
every statement with hypotheses a state and operands that meet them. -/

open Sys2Proof Sys2Proof.Machine

namespace Sys2Proof.Tests

set_option maxRecDepth 100000
set_option Elab.async false

/-! ### Helpers -/

/-- The state with its part changed. -/
def onChip (s : State) (f : Chip → Chip) : State := { s with chip := f s.chip }

/-- A part that takes orders: RUNNING with a window of 64 KiB at 0, ACTIVE, MAIN_GOOD high. -/
def running : State := onChip State.reset fun c =>
  { c with
    win := { c.win with partState := .running, windowKiB := 64, news := 5 }
    sbb := { c.sbb with power := .active }
    pins := { c.pins with mainGood := true } }

/-- An order in slot 0 with the ticket NT. -/
def hd (target : Byte) : OrderHead := { slot := 0, ticket := 1, target := target }

/-- `State.accepts` as a Bool. -/
def acceptsB (s : State) (i : Instr) : Bool :=
  match posting i with
  | none => false
  | some p => s.chip.takesOrder p.head.ticket && p.head.ticket == s.chip.win.nextTicket &&
      p.kind.targetOk p.head.target.toNat && !s.chip.ordersFull

theorem accepts_of_acceptsB {s : State} {i : Instr} (h : acceptsB s i = true) : s.accepts i := by
  unfold acceptsB at h
  unfold State.accepts
  cases hp : posting i with
  | none => simp [hp] at h
  | some p => simpa [hp, and_assoc] using h

theorem accepts_of_all {s : State} {l : List Instr} (h : l.all (acceptsB s) = true) : ∀ i ∈ l, s.accepts i :=
  fun i hi => accepts_of_acceptsB (List.all_eq_true.mp h i hi)

theorem tunerOrderOther_of {c : Chip} {t : Word} (h : c.tuner.order.all (fun o => o.ticket != t) = true) :
    c.tunerOrderOther t := by
  intro o ho
  rw [ho] at h
  simpa using h

/-- The part after a command, as `p` finds it. -/
def after (i : Instr) (s : State) (p : State → Bool) : Bool :=
  match exec i s with
  | .next t => p t
  | _ => false

/-! ### States -/

/-- A path of the front left channel to outlet 1 at full applied gain. -/
def frontLeft : Path :=
  { id := { kind := .channel, origin := .pos .fl, outlet := 0, split := none }, coeff := .hdb 0, filter := .none,
    target := .gain (-80), applied := -3840, fast := false, fastHold := false, leaving := false, clamped := false }

/-- Zone ZM is ON with A1 bound, and its front left plays on outlet 1, whose relay is closed; no outlet holds its front right. -/
def playing : State := onChip running fun c =>
  ((c.updZone 0 fun x => { x with power := .on, binding := some 8, programme := .playing, dropped := true }).updCtx 0 fun x =>
    { x with paths := [frontLeft], resolution := 1 }).updOutlet 0 fun x =>
    { x with primary := some { zone := 0, position := .fl }, zone := some 0, engaged := true, relay := true }

/-- ZM in a power state, with restart-pending as given. -/
def zoneIn (p : Power) (restart : Bool) : State := onChip playing fun c =>
  c.updZone 0 fun x => { x with power := p, restart := restart, settleTimer := if p = .starting then some 5 else none,
                                onOrders := if p = .starting ∨ restart then [9] else [] }

/-- The tuner in a state, with a seek or a scan under way where the state is one, and a TUNE with ticket 7 in flight outside IDLE. -/
def tunerIn (st : TunerState) (band : Band) : State := onChip running fun c => c.updTuner fun x =>
  { x with
    state := st, station := { x.station with band := band }, step := some 87600, timer := some 10,
    seek := if st = .seeking then some (true, 87500) else none,
    ret := if st = .scanning then some x.station else none,
    order := if st = .idle then none else some { kind := .tune, ticket := 7, clamped := false } }

/-- Meter 1 is held by the MEASURE with ticket 9, in a state. -/
def metering (st : MeterState) (h : Holder) : State := onChip running fun c =>
  let x : Meter :=
    { c.imu.meters[0] with state := st, holder := some h, firstA := some true, aSeen := decide (st = .opened), limit := 10 }
  { c with imu := { c.imu with meters := c.imu.meters.set 0 x } }

/-- A calibration run in ZM with the outlet 1, in a run state and step. -/
def calibrating (r : RunState) (p : Option CalPlace) : State := onChip playing fun c =>
  { c with cal := { c.cal with run := r, ticket := some 9, zone := some 0, outlets := [0], meter := some 0, place := p,
                               results := [{ outlet := 0, status := .pending, valid := 0, level := none, distance := none, trim := none }] } }

/-! ### The check of commands refuses -/

theorem test_illFormed_ticket_zero : (Instr.zonePower { hd 0 with ticket := 0 } 0).wellFormed = false := by decide
theorem test_illFormed_parameter_above_field : (Instr.volume (hd 0) 0 2147483648).wellFormed = false := by decide
theorem test_illFormed_parameter_below_field : (Instr.tune (hd 0) 0 (-2147483649) 0).wellFormed = false := by decide
theorem test_illFormed_outlet_list : (Instr.calibrate (hd 0) (List.replicate 41 1) 1 0 0 false).wellFormed = false := by decide
theorem test_illFormed_register : (Instr.registerWrite 24 0).wellFormed = false := by decide
theorem test_illFormed_irFrame : (Instr.irFrame [4800]).wellFormed = false := by decide
theorem test_illFormed_controlLineFrame : (Instr.controlLineFrame []).wellFormed = false := by decide
theorem test_illFormed_port : (Instr.clockLoss 8).wellFormed = false := by decide
theorem test_illFormed_preamble_source : (Instr.preamble 14 1).wellFormed = false := by decide
theorem test_illFormed_link_port : (Instr.portFrameStatusChange 6 1 0).wellFormed = false := by decide
theorem test_illFormed_lanes : (Instr.portFrameStatusChange 0 5 0).wellFormed = false := by decide
theorem test_illFormed_frame_layout : (Instr.portFrameStatusChange 0 4 8).wellFormed = false := by decide
theorem test_illFormed_objects :
    (Instr.bitstreamFrame 0 true (List.replicate 17 { number := 0, azimuth := 0, elevation := 0, level := 0 })).wellFormed =
      false := by decide
theorem test_illFormed_own_edge : (Instr.meterEdge 0 { source := .order, rising := true }).wellFormed = false := by decide
theorem test_illFormed_burst_edge : (Instr.meterEdge 0 { source := .outBurst 3, rising := true }).wellFormed = false := by decide
theorem test_illFormed_edge_port : (Instr.meterEdge 0 { source := .portWclk 9, rising := true }).wellFormed = false := by decide
theorem test_illFormed_turns : (Instr.busError (.intakeRead .run 66)).wellFormed = false := by decide
theorem test_illFormed_turns_write : (Instr.busError (.intakeWrite (.post 1) 66 .header)).wellFormed = false := by decide
theorem test_illFormed_turns_duplicate : (Instr.busError (.duplicateWrite .run 66 0)).wellFormed = false := by decide
theorem test_illFormed_turns_block : (Instr.busError (.blockRead .run 66)).wellFormed = false := by decide
theorem test_illFormed_level : (Instr.seekDwellEnd { level := 101, multipath := 0, pilot := false }).wellFormed = false := by decide
theorem test_illFormed_multipath : (Instr.scanDwellEnd { level := 0, multipath := 16, pilot := false }).wellFormed = false := by decide

/-! ### Orders: every statement about an order has operands that are accepted, at the bounds of every clause -/

theorem test_hyp_LevelOrders : ∀ i ∈ [
    Instr.volume (hd 0) 0 (-161), .volume (hd 3) 0 (-160), .volume (hd 0) 0 30, .volume (hd 0) 1 31, .volume (hd 0) 2 0,
    .mute (hd 0) 0, .mute (hd 3) 1, .mute (hd 0) 2, .dialogueLift (hd 0) (-1), .dialogueLift (hd 0) 0,
    .dialogueLift (hd 0) 12, .dialogueLift (hd 3) 13, .positionMute (hd 0) 0 0, .positionMute (hd 3) 19 1,
    .positionMute (hd 0) 20 0, .positionMute (hd 0) (-1) 0, .positionMute (hd 0) 0 2], playing.accepts i :=
  accepts_of_all (by decide +kernel)

theorem test_hyp_AnnounceOrder : ∀ i ∈ [
    Instr.announce (hd 0) true 0 (-40) (-160) 0, .announce (hd 3) false 1 0 0 2, .announce (hd 0) true 0 (-41) 1 1,
    .announce (hd 0) true 2 0 0 0, .announce (hd 0) true 0 0 0 3], playing.accepts i :=
  accepts_of_all (by decide +kernel)

theorem test_hyp_SourceProfileOrder : ∀ i ∈ [
    Instr.sourceProfile (hd 0) true 31 0 true 1, .sourceProfile (hd 5) true 0 4 true 4, .sourceProfile (hd 0) false 1 255 true 5,
    .sourceProfile (hd 0) true 1 5 false 1, .sourceProfile (hd 0) true 1 255 false 0], running.accepts i :=
  accepts_of_all (by decide +kernel)

theorem test_hyp_TriggerSetOrder : ∀ i ∈ [
    Instr.triggerSet (hd 0) 0 0 0 0, .triggerSet (hd 3) 1 0 1 1, .triggerSet (hd 0) 1 3 0 0, .triggerSet (hd 0) 1 4 0 0,
    .triggerSet (hd 0) 2 15 0 0, .triggerSet (hd 0) 2 16 0 0, .triggerSet (hd 0) 3 0 0 0, .triggerSet (hd 0) 0 0 2 0,
    .triggerSet (hd 0) 0 0 0 2], playing.accepts i :=
  accepts_of_all (by decide +kernel)

theorem test_hyp_StandbySettingOrders : (∀ i ∈ [
    Instr.resumeSet (hd 0) (-1), .resumeSet (hd 0) 0, .resumeSet (hd 0) 8, .resumeSet (hd 0) 9, .indicatorSet (hd 0) 0 0,
    .indicatorSet (hd 3) 4 3, .indicatorSet (hd 0) 5 0, .indicatorSet (hd 0) 0 4, .indicatorSet (hd 0) (-1) 0,
    .wakeLock (hd 0), .idleSet (hd 0) (-1) 0, .idleSet (hd 0) 0 1, .idleSet (hd 0) 255 0, .idleSet (hd 3) 256 1,
    .idleSet (hd 0) 1 2], playing.accepts i) ∧ playing.chip.zones[(0 : ZoneId)].power = .on :=
  ⟨accepts_of_all (by decide +kernel), by decide +kernel⟩

theorem test_hyp_TunerSetupOrder : ∀ st ∈ [TunerState.idle, .tuning, .listening, .seeking, .scanning],
    (∀ i ∈ [Instr.tunerSetup (hd 0) 0 10 20, .tunerSetup (hd 0) 1 60 70, .tunerSetup (hd 0) 1 9 71, .tunerSetup (hd 0) 2 28 36],
      (tunerIn st .fm).accepts i) ∧ (tunerIn st .fm).chip.tunerOrderOther 1 ∧
    ((tunerIn st .fm).chip.tuner.state = .idle → (tunerIn st .fm).chip.tuner.order = none) ∧
    (onChip (tunerIn st .fm) fun c => c.updZone 1 fun x => { x with power := .on, binding := some 12 }).chip.tunerBound = true := by
  intro st h
  simp only [List.mem_cons, List.not_mem_nil, or_false] at h
  rcases h with h | h | h | h | h <;> subst h <;>
    exact ⟨accepts_of_all (by decide +kernel), tunerOrderOther_of (by decide +kernel), by decide +kernel, by decide +kernel⟩

theorem test_hyp_TuneAndRecallOrders : ∀ st ∈ [TunerState.idle, .tuning, .listening, .seeking, .scanning],
    (∀ i ∈ [Instr.tune (hd 0) 0 87500 0, .tune (hd 0) 1 1710 1, .tune (hd 0) 2 0 0, .tune (hd 0) 0 0 2,
      .presetRecall (hd 0), .presetRecall (hd 39)], (tunerIn st .am).accepts i) ∧ (tunerIn st .am).chip.tunerOrderOther 1 := by
  intro st h
  simp only [List.mem_cons, List.not_mem_nil, or_false] at h
  rcases h with h | h | h | h | h <;> subst h <;>
    exact ⟨accepts_of_all (by decide +kernel), tunerOrderOther_of (by decide +kernel)⟩

theorem test_hyp_SeekAndScanOrders : ∀ st ∈ [TunerState.idle, .tuning, .listening, .seeking, .scanning],
    (∀ i ∈ [Instr.seek (hd 0) 0, .seek (hd 0) 1, .seek (hd 0) 2, .scan (hd 0) 0, .scan (hd 0) 1, .scan (hd 0) 2],
      (tunerIn st .fm).accepts i) ∧ (tunerIn st .fm).chip.tunerOrderOther 1 ∧ 0 < (tunerIn st .fm).chip.tuner.station.freq ∧
      0 < (tunerIn st .fm).chip.tuner.step.getD 0 := by
  intro st h
  simp only [List.mem_cons, List.not_mem_nil, or_false] at h
  rcases h with h | h | h | h | h <;> subst h <;>
    exact ⟨accepts_of_all (by decide +kernel), tunerOrderOther_of (by decide +kernel), by decide +kernel, by decide +kernel⟩

theorem test_hyp_PresetOrders : ∀ st ∈ [TunerState.idle, .listening, .seeking, .scanning],
    ∀ i ∈ [Instr.presetStore (hd 0) 0 0 0 0 (Vector.replicate 8 0), .presetStore (hd 39) 1 0 87500 0 (Vector.replicate 8 0x20),
      .presetStore (hd 0) 1 1 0 1 (Vector.replicate 8 0x7E), .presetStore (hd 0) 1 0 0 0 (Vector.replicate 8 0x7F),
      .presetStore (hd 0) 1 0 0 0 (Vector.replicate 8 0x1F), .presetStore (hd 0) 1 2 0 0 (Vector.replicate 8 0x41),
      .presetStore (hd 0) 2 0 0 0 (Vector.replicate 8 0x41), .presetClear (hd 0), .presetClear (hd 39)],
      (tunerIn st .fm).accepts i := by
  intro st h
  simp only [List.mem_cons, List.not_mem_nil, or_false] at h
  rcases h with h | h | h | h <;> subst h <;> exact accepts_of_all (by decide +kernel)

/-- A claim of a holder. -/
def claim9 (h : Holder) : Claim :=
  let a : Edge := { source := .edgeIn1, rising := true }
  let q : Arming := { edgeA := a, edgeB := a, bCount := 1, ordered := true, limit := 1, threshold := -40 }
  { holder := h, clamped := false, arming := q }

/-- Claims wait at the unit. -/
def queued (s : State) (l : List Claim) : State := onChip s fun c => { c with imu := { c.imu with queue := l } }

/-- Every meter is held, and claims wait. -/
def crowded (n : Nat) : State := onChip (queued running (List.replicate n (claim9 (.win 9)))) fun c =>
  let m := c.imu.meters.map fun x => { x with state := .armed, holder := some (.win 8) }
  { c with imu := { c.imu with meters := m } }

theorem test_hyp_MeasureOrder : (∀ i ∈ [
    Instr.measure (hd 0) 0 1 0 1 255 0 1 true 1 (-60), .measure (hd 0) 0 24 1 2 0 0 4096 false 1000 (-20),
    .measure (hd 0) 2 7 0 3 15 0 0 false 0 (-61), .measure (hd 0) 4 255 0 5 255 1 4097 true 1001 (-19),
    .measure (hd 0) 6 255 0 4 255 0 1 true 100 (-40), .measure (hd 0) 4 255 0 6 255 0 1 false 100 (-40),
    .measure (hd 0) 4 255 0 6 255 0 1 true 100 (-40), .measure (hd 0) 0 25 0 4 0 0 1 true 1 0,
    .measure (hd 0) 3 8 0 4 0 0 1 true 1 0, .measure (hd 0) 7 0 0 4 0 0 1 true 1 0, .measure (hd 0) 4 0 2 4 0 0 1 true 1 0],
      running.accepts i) ∧
    (calibrating .measuring none).accepts (.measure (hd 0) 1 0 0 4 0 0 1 true 1 0) ∧
    ∀ n ∈ [0, 7, 8], (crowded n).chip.refusesClaim (.win 1) true = decide (n = 8) :=
  ⟨accepts_of_all (by decide +kernel), accepts_of_acceptsB (by decide +kernel), by decide +kernel⟩

theorem test_hyp_MeasureCancelOrder : (metering .armed (.win 9)).accepts (.measureCancel (hd 0) 9) ∧
    (metering .armed (.win 9)).chip.meterOf (.win 9) = some 0 ∧
    (queued (metering .armed (.win 9)) [claim9 .cal]).accepts (.measureCancel (hd 0) 9) ∧
    (queued running [claim9 (.win 9)]).accepts (.measureCancel (hd 0) 9) ∧
    (queued running [claim9 (.win 9)]).chip.meterOf (.win 9) = none ∧
    (queued running [claim9 (.win 9)]).chip.claimQueued (.win 9) = true ∧
    running.accepts (.measureCancel (hd 0) 9) ∧ (9 : Word) ≠ (hd 0).ticket :=
  ⟨accepts_of_acceptsB (by decide +kernel), by decide +kernel, accepts_of_acceptsB (by decide +kernel),
    accepts_of_acceptsB (by decide +kernel), by decide +kernel, by decide +kernel, accepts_of_acceptsB (by decide +kernel),
    by decide⟩

/-- A state with bytes written into the free area of the window. -/
def withBlock (s : State) (a : Nat) (l : List Byte) : State := { s with dram := s.dram.write a l }

/-- The state with an order in flight, accepted in a slot. -/
def flying (s : State) (k : OrderKind) (ticket : Nat) (slot : Fin 32) : State :=
  withBlock (onChip s fun c => c.updWin fun w => { w with
    inFlight := w.inFlight ++ [{ ticket := BitVec.ofNat 32 ticket, slot := slot, kind := k, accepted := true }] })
    (256 + 128 * slot.val) ([2, 0, 0, 0] ++ le32 ticket)

/-- The premises of `State.ended` hold of the order with a ticket, and no order in flight has slot 0. -/
def endable (s : State) (ticket : Word) : Bool :=
  s.chip.windowUp && s.chip.win.inFlight.all (fun e => e.slot != 0) &&
    (s.chip.win.inFlight.find? fun e => e.ticket == ticket).any fun e =>
      e.accepted && !e.lost && s.dram.read (s.chip.slotAt e.slot) == slotAccepted && s.dram.word (s.chip.slotAt e.slot + 4) == ticket &&
        (s.chip.win.inFlight.eraseP fun e => e.ticket == ticket).all fun x => x.slot != e.slot

/-- Behind the command a slot shows DONE with a result code and values, without flags. -/
def endsIn (i : Instr) (s : State) (slot : Fin 32) (code : ResultCode) (values : List ResultValue) : Bool :=
  let d : OrderEnd := { doneEnd (hd 0) false values with code := code }
  after i s fun t => t.dram.bytes (s.chip.slotAt slot + 64) d.area.length == d.area && t.dram.read (s.chip.slotAt slot) == slotDone

/-- A calibration run in ZM, with its paths as given, waits for the meter of the MEASURE with ticket 9. -/
def claimed (paths : List Path) : State := onChip (flying (queued (metering .armed (.win 9)) [claim9 .cal]) .measure 9 9) fun c =>
  { c with
    zones := playing.chip.zones, ctxs := playing.chip.ctxs.set 0 { playing.chip.ctxs[0] with paths := paths }
    outlets := playing.chip.outlets, cal := { (calibrating .claiming none).chip.cal with ticket := some 8, meter := none } }

theorem test_hyp_MeasureCancelOrder_run : ∀ l ∈ [[frontLeft], []], (claimed l).accepts (.measureCancel (hd 0) 9) ∧
    (claimed l).chip.meterOf (.win 9) = some 0 ∧ (claimed l).chip.imu.queue.head?.map Claim.holder = some .cal ∧
    ((claimed l).chip.win.inFlight.map InFlight.ticket).Nodup ∧ (claimed l).chip.holdSilent 0 .calibration = l.isEmpty ∧
    Hold.calibration ∉ (claimed l).chip.ctxs[(0 : ZoneId)].holds ∧ (claimed l).chip.cal.outlets = 0 :: [] ∧
    (claimed l).chip.outlets[(0 : OutletId)].protection.serving = true ∧ (claimed l).chip.outlets[(0 : OutletId)].zone = some 0 ∧
    (claimed l).chip.outlets[(0 : OutletId)].engaged = true ∧ (claimed l).chip.imu.queue.tail = [] ∧ endable (claimed l) 9 = true ∧
    after (.measureCancel (hd 0) 9) (claimed l) (fun t => t.chip.win.inFlight.isEmpty && t.chip.cal.meter == some 0 &&
      t.dram.read 256 == slotDone && t.chip.imu.meters[(0 : MeterId)].holder == some .cal &&
      t.chip.cal.run == (if l.isEmpty then .measuring else .muting)) = true := by
  intro l h
  simp only [List.mem_cons, List.not_mem_nil, or_false] at h
  rcases h with h | h <;> subst h <;> exact ⟨accepts_of_acceptsB (by decide +kernel), by decide +kernel⟩

/-- The tuner in a state, with its order of a kind in flight in slot 7. -/
def tunerFlying (st : TunerState) (k : TunerOrder) : State := flying (onChip (tunerIn st .fm) fun c => c.updTuner fun x =>
  { x with order := some { kind := k, ticket := 7, clamped := false }, scanBand := some .fm }) .tune 7 7

theorem test_hyp_tuner_ends : (∀ st ∈ [TunerState.tuning, .listening, .seeking, .scanning], ∀ k ∈ [TunerOrder.seek, .scan, .tune],
      endable (tunerFlying st k) 7 = true ∧ (tunerFlying st k).chip.tuner.order = some { kind := k, ticket := 7, clamped := false }) ∧
    endsIn (.tunerSetup (hd 0) 1 30 40) (tunerFlying .seeking .seek) 7 .aborted [] = true ∧
    endsIn (.tunerSettleExpiry { level := 60, multipath := 0, pilot := true }) (tunerFlying .tuning .seek) 7 .notFound
      [.num 0, .num 87500, .num 0, .num 60, .num 0, .num 1, .num 16] = true := by
  decide +kernel

theorem test_hyp_LayoutLoadOrder : (∀ i ∈ [
    Instr.layoutLoad (hd 0) 32767 11, .layoutLoad (hd 3) 32768 11, .layoutLoad (hd 0) 65525 11, .layoutLoad (hd 0) 65526 11,
    .layoutLoad (hd 0) 32768 (-1), .layoutLoad (hd 0) 32768 0], playing.accepts i) ∧
    layoutOf 0 ((withBlock playing 32768 [2, 80, 120, 1, 80, 120, 1, 0, 0, 1, 0]).dram.bytes 32768 11) =
      some [(.fl, .large), (.fr, .large)] :=
  ⟨accepts_of_all (by decide +kernel), by decide +kernel⟩

theorem test_hyp_LipsyncAndOutletSetOrders : (∀ i ∈ [
    Instr.lipsync (hd 0) (-1) (-101), .lipsync (hd 3) 0 (-100), .lipsync (hd 0) 500 400, .lipsync (hd 0) 501 401,
    .outletSet (hd 0) true true (-24) 0, .outletSet (hd 23) true true 24 1800, .outletSet (hd 0) true false (-25) 1801,
    .outletSet (hd 0) false true 25 (-1)], playing.accepts i) ∧
    (onChip playing fun c => c.updTest fun x => { x with mode := .fixed, outlet := some 0, zone := some 0 }).accepts
      (.outletSet (hd 0) true false 3 0) ∧
    playing.chip.started 0 = true ∧ Hold.regrant ∉ playing.chip.ctxs[(0 : ZoneId)].holds ∧
    (∀ lip ∈ [0, 24000], blocksOf lip ≤ playing.chip.available 0) ∧
    (playing.chip.holdSilent 0 .regrant = false ∧ (onChip playing fun c => c.updCtx 0 fun x =>
      { x with paths := [] }).chip.holdSilent 0 .regrant = true) :=
  ⟨accepts_of_all (by decide +kernel), accepts_of_acceptsB (by decide +kernel), by decide +kernel, by decide +kernel,
    by decide +kernel, by decide +kernel⟩

/-- Outlet 2 of zone Z2 holds all blocks of the pool but one, and outlet 3 is in ZM, at a distance. -/
def crammed (distance : Nat) : State := onChip playing fun c =>
  (c.updOutlet 1 fun x => { x with zone := some 1, line := some { delay := 131008, age := 0 } }).updOutlet 2 fun x =>
    { x with zone := some 0, distance := distance }

theorem test_hyp_LipsyncAndOutletSetOrders_short : (∀ d ∈ [0, 1800], (crammed d).accepts (.lipsync (hd 0) 500 0) ∧
      (crammed d).chip.available 0 = 1 ∧ 1 < blocksOf 23744 ∧ (crammed d).chip.started 0 = true ∧
      ∀ y : ZoneId, y ≠ 0 → (crammed d).chip.started y = true → (crammed d).chip.aligns[y].short = false) ∧
    blocksOf 0 + blocksOf 0 ≤ 1 ∧ 1 < blocksOf 2519 + blocksOf 0 ∧
    after (.lipsync (hd 0) 500 0) (crammed 0) (fun t => t.chip.aligns[(0 : ZoneId)].lipsyncShort &&
      !t.chip.aligns[(0 : ZoneId)].alignDropped && t.chip.aligns[(0 : ZoneId)].granted == 0) = true ∧
    after (.lipsync (hd 0) 500 0) (crammed 1800) (fun t => t.chip.aligns[(0 : ZoneId)].alignDropped) = true := by
  refine ⟨?_, by decide +kernel, by decide +kernel, by decide +kernel, by decide +kernel⟩
  intro d h
  simp only [List.mem_cons, List.not_mem_nil, or_false] at h
  rcases h with h | h <;> subst h <;> exact ⟨accepts_of_acceptsB (by decide +kernel), by decide +kernel⟩

theorem test_hyp_OutletAssignOrder : (∀ i ∈ [
    Instr.outletAssign (hd 0) 0 0 255 0, .outletAssign (hd 0) 255 0 255 0, .outletAssign (hd 23) 3 19 2 0,
    .outletAssign (hd 1) 0 0 255 0, .outletAssign (hd 0) 4 0 255 0, .outletAssign (hd 0) 0 20 255 0,
    .outletAssign (hd 0) 255 0 1 0, .outletAssign (hd 0) 0 1 0 2, .outletAssign (hd 0) 0 1 1 0], playing.accepts i) ∧
    (let o := playing.chip.outlets[(0 : OutletId)]
     o.zone = some 0 ∧ playing.chip.zones[(0 : ZoneId)].power ≠ .off ∧ playing.chip.test.outlet ≠ some 0 ∧
      o.protection.serving = true ∧ frontLeft ∈ playing.chip.ctxs[(0 : ZoneId)].paths ∧ -9600 < frontLeft.applied ∧
      playing.chip.cal.run ≠ .measuring ∧ o.pendingAssign = none ∧ o.primary ≠ none) ∧
    (onChip playing fun c => c.updOutlet 0 fun x => { x with pendingAssign := some 9 }).accepts (.outletAssign (hd 0) 1 0 255 0) ∧
    (zoneIn .off false).accepts (.outletAssign (hd 0) 1 0 255 0) :=
  ⟨accepts_of_all (by decide +kernel), by decide +kernel, accepts_of_acceptsB (by decide +kernel),
    accepts_of_acceptsB (by decide +kernel)⟩

/-- Outlet 1 is heard nowhere; Z2 is ON where `on` says. -/
def unheard (on : Bool) : State := onChip playing fun c =>
  (c.updCtx 0 fun x => { x with paths := [] }).updZone 1 fun x => { x with power := if on then .on else .off }

theorem test_hyp_OutletAssignOrder_unheard : (∀ on : Bool,
    (unheard on).accepts (.outletAssign (hd 0) 0 1 1 0) ∧ (unheard on).chip.outlets[(0 : OutletId)].zone = some 0 ∧
    (unheard on).chip.zones[(0 : ZoneId)].power = .on ∧ (unheard on).chip.cal.run ≠ .measuring ∧
    (unheard on).chip.test.outlet ≠ some 0 ∧ ∀ z : ZoneId, (unheard on).chip.ctxs[z].paths = []) ∧
    endsIn (.outletAssign (hd 0) 0 1 1 0) (unheard true) 0 .ok [.num 0, .num 1, .num 1, .num 0, .num 1, .num 2] = true := by
  refine ⟨fun on => ⟨accepts_of_acceptsB ?_, ?_⟩, by decide +kernel⟩ <;> revert on <;> decide +kernel

/-- Outlet 1 is LATCHED, its group's lines as given. -/
def latched (oc dcf tsd : Bool) (w : Fin 4) : State := onChip playing fun c =>
  let d : Chip := { c with pins := { c.pins with oc := c.pins.oc.set 0 oc } }
  let d := d.updOutlet 0 fun x => { x with protection := .latched, cause := some .dc, history := [7], relay := false }
  d.updGroup 0 fun _ => { w := w, tsd := tsd, dcf := dcf }

theorem test_hyp_OutletClearOrder : ∀ oc dcf tsd : Bool, ∀ w : Fin 4, (latched oc dcf tsd w).accepts (.outletClear (hd 0)) ∧
    (latched oc dcf tsd w).accepts (.outletClear (hd 23)) ∧ groupOf 0 = some 0 ∧
    (latched oc dcf tsd w).chip.outlets[(0 : OutletId)].placement = .home ∧ groupOf 23 = none ∧
    (onChip (latched oc dcf tsd w) fun c => c.updOutlet 23 fun x => { x with protection := .latched }).chip.outlets[(23 : OutletId)].placement =
      .home := by
  intro oc dcf tsd w
  refine ⟨accepts_of_acceptsB ?_, accepts_of_acceptsB ?_, by decide, ?_, by decide, ?_⟩ <;> revert w tsd dcf oc <;> decide +kernel

/-- A stream set up at the start of the free area. -/
def streaming (m : StreamId) (st : SrcState) : State := onChip running fun c =>
  (c.updStream m fun x => { x with stopped := false, offset := 33024, size := 4096, format := .bitstream }).updSource
    (streamSource m) fun x => { x with state := st, format := some .hrs }

theorem test_hyp_SourcePolicyAndStreamStopOrders : (∀ i ∈ [
    Instr.sourcePolicy (hd 0) true true, .sourcePolicy (hd 7) false false, .sourcePolicy (hd 8) true false,
    .sourcePolicy (hd 11) false true, .sourcePolicy (hd 12) true true, .sourcePolicy (hd 15) false false,
    .streamStop (hd 13), .streamStop (hd 14)], (streaming 0 .locked).accepts i) ∧
    (streaming 0 .locked).chip.streams[(0 : StreamId)].stopped = false ∧
    (streaming 0 .locked).chip.streams[(1 : StreamId)].stopped = true ∧ (streaming 0 .locked).chip.claimQueued .cal = false ∧
    (let s := onChip (streaming 0 .locked) fun c => c.updZone 0 fun x => { x with power := .on, binding := some 13 }
     s.accepts (.sourcePolicy (hd 13) true true) ∧ s.chip.sources[(13 : SourceId)].lockedIn Format.compressed = true ∧
     s.chip.unserved 13 = [0] ∧ s.chip.zones[(0 : ZoneId)].binding = some 13) :=
  ⟨accepts_of_all (by decide +kernel), by decide +kernel, by decide +kernel, by decide +kernel,
    accepts_of_acceptsB (by decide +kernel), by decide +kernel, by decide +kernel, by decide +kernel⟩

theorem test_hyp_StreamSetupOrder : (∀ i ∈ [
    Instr.streamSetup (hd 13) 33024 4096 0 0, .streamSetup (hd 13) 33024 32512 2 1, .streamSetup (hd 14) 33024 4096 0 1,
    .streamSetup (hd 13) 32768 4096 0 0, .streamSetup (hd 13) 33024 32768 0 0, .streamSetup (hd 13) 33024 3840 0 0,
    .streamSetup (hd 13) 33024 1048832 0 0, .streamSetup (hd 13) 33025 4096 0 0, .streamSetup (hd 13) 33024 4097 0 0,
    .streamSetup (hd 13) 33024 4096 3 0, .streamSetup (hd 13) 33024 4096 0 2, .streamSetup (hd 14) 33024 4096 2 1,
    .streamSetup (hd 14) 33024 4096 0 0], running.accepts i) ∧
    (∀ i ∈ [Instr.streamSetup (hd 13) 33024 4096 0 0, .streamSetup (hd 14) 33024 4096 0 1, .streamSetup (hd 14) 37376 4096 0 1,
      .streamSetup (hd 14) 37120 4096 0 1], (streaming 0 .stalled).accepts i) :=
  ⟨accepts_of_all (by decide +kernel), accepts_of_all (by decide +kernel)⟩

/-- A test signal in ZM. -/
def testing (m : TestMode) (started : Bool) (p : Option WalkPhase) : State := onChip playing fun c =>
  (c.updTest fun x => { x with mode := m, zone := some 0, outlet := some 0, started := started, phase := p,
                               timer := p.map fun _ => 5 }).updCtx 0 fun x => { x with holds := [.test] }

theorem test_hyp_TestSignalOrder : ∀ s ∈ [playing, testing .fixed true none, testing .walk true (some .sounding),
      calibrating .muting none], ∀ i ∈ [
    Instr.testSignal (hd 0) 0 0 0 (-81), .testSignal (hd 0) 1 0 0 0, .testSignal (hd 0) 1 1 0 0, .testSignal (hd 0) 1 24 0 1,
    .testSignal (hd 0) 1 25 0 0, .testSignal (hd 0) 2 0 (-1) 0, .testSignal (hd 0) 2 0 0 (-80), .testSignal (hd 0) 2 0 3 0,
    .testSignal (hd 0) 2 0 4 0, .testSignal (hd 0) 3 0 0 0], s.accepts i := by
  intro s h
  simp only [List.mem_cons, List.not_mem_nil, or_false] at h
  rcases h with h | h | h | h <;> subst h <;> exact accepts_of_all (by decide +kernel)

theorem test_hyp_CalibrationOrders : (∀ i ∈ [
    Instr.calibrate (hd 0) [] 1 (-40) (-30) true, .calibrate (hd 0) [1] 0 (-61) (-51) true, .calibrate (hd 0) [1] 1 (-60) (-50) true,
    .calibrate (hd 0) [1] 8 (-20) (-10) false, .calibrate (hd 0) [1] 9 (-19) (-9) false, .calibrate (hd 0) [0] 1 (-40) (-30) true,
    .calibrate (hd 0) [25] 1 (-40) (-30) true, .calibrate (hd 0) [1, 1] 1 (-40) (-30) true,
    .calibrate (hd 0) (List.replicate 25 1) 1 (-40) (-30) true, .calibrate (hd 0) (List.replicate 40 1) 1 (-40) (-30) true,
    .calibrate (hd 0) [2] 1 (-40) (-30) true, .calibrate (hd 1) [1] 1 (-40) (-30) true, .calAbort (hd 0)], playing.accepts i) ∧
    playing.chip.holdSilent 0 .calibration = false ∧ playing.chip.meterOf (.win 1) = none ∧
    playing.chip.claimQueued (.win 1) = false ∧ playing.chip.refusesClaim .cal true = false ∧
    playing.chip.freeMeter.isSome = true ∧ (playing.chip.test.mode = .off ↔ playing.chip.test.zone = none) ∧
    (calibrating .muting none).accepts (.calibrate (hd 0) [1] 1 (-40) (-30) true) ∧
    (calibrating .muting none).accepts (.calAbort (hd 0)) ∧ (calibrating .muting none).chip.cal.ticket = some 9 ∧
    (9 : Word) ≠ (hd 0).ticket ∧ (calibrating .muting none).chip.cal.run ≠ .idle ∧ (calibrating .muting none).chip.calNotNext := by
  refine ⟨accepts_of_all (by decide +kernel), by decide +kernel, by decide +kernel, by decide +kernel, by decide +kernel,
    by decide +kernel, by decide +kernel, accepts_of_acceptsB (by decide +kernel), accepts_of_acceptsB (by decide +kernel),
    by decide +kernel, by decide, by decide +kernel, ?_⟩
  unfold Chip.calNotNext
  decide +kernel

/-- A wake table block: an IR pattern of one byte with action 0, and the window and WAKE_IN settings at the end. -/
def tableBlock : List Byte := [1, 1, 0x33, 0, 0, 0, 0, 0x80, 2, 4, 1, 2, 3, 4, 1, 15] ++ List.replicate 48 0 ++ [63, 1, 0, 0]

theorem test_hyp_WakeTableOrder : (∀ i ∈ [
    Instr.wakeTable (hd 0) 32767 68, .wakeTable (hd 0) 32768 68, .wakeTable (hd 0) 65468 68, .wakeTable (hd 0) 65469 68,
    .wakeTable (hd 0) 32768 67, .wakeTable (hd 0) 32768 (-1)], (withBlock running 32768 tableBlock).accepts i) ∧
    (withBlock running 32768 tableBlock).chip.sbb.wakeLock = false ∧
    (onChip running fun c => c.updSbb fun x => { x with wakeLock := true }).accepts (.wakeTable (hd 0) 32768 68) :=
  ⟨accepts_of_all (by decide +kernel), by decide +kernel, accepts_of_acceptsB (by decide +kernel)⟩

/-- Tables and times of the Standby Block, with a power state. -/
def standbyIn (p : PowerState) : State := onChip playing fun c =>
  c.updSbb fun x => { x with power := p, sleepTimer := if p = .sleepPending then some 9 else none, historyTimer := some 9 }

theorem test_hyp_IdleExpireAndStandbyOrders : (∀ i ∈ [Instr.idleExpire (hd 0), .idleExpire (hd 3), .standbyNow (hd 0)],
      playing.accepts i) ∧ playing.chip.zones[(0 : ZoneId)].power = .on ∧ playing.chip.zones[(3 : ZoneId)].power = .off ∧
    playing.chip.zoneSilent 0 = false ∧ playing.chip.sbb.power = .active ∧ playing.chip.calNotNext ∧
    (∀ z : ZoneId, playing.chip.zones[z].power.started = true → playing.chip.zones[z].restart = false) ∧
    (standbyIn .sleepPending).accepts (.standbyNow (hd 0)) := by
  refine ⟨accepts_of_all (by decide +kernel), by decide +kernel, by decide +kernel, by decide +kernel, by decide +kernel,
    ?_, by decide +kernel, accepts_of_acceptsB (by decide +kernel)⟩
  unfold Chip.calNotNext
  decide +kernel

theorem test_hyp_ZonePowerOrders : ∀ s ∈ [zoneIn .off false, zoneIn .starting false, zoneIn .on false, zoneIn .stopping false,
      zoneIn .stopping true, standbyIn .sleepPending],
    (∀ i ∈ [Instr.zonePower (hd 0) 0, .zonePower (hd 0) 1, .zonePower (hd 3) 0, .zonePower (hd 0) 2, .zonePower (hd 0) (-1)],
      s.accepts i) ∧ (hd 0).ticket ∉ s.chip.zones[(0 : ZoneId)].onOrders ∧ s.chip.zoneSilent 0 = false := by
  intro s h
  simp only [List.mem_cons, List.not_mem_nil, or_false] at h
  rcases h with h | h | h | h | h | h <;> subst h <;>
    exact ⟨accepts_of_all (by decide +kernel), by decide +kernel, by decide +kernel⟩

theorem test_hyp_ZonePowerOff_silent :
    (onChip playing fun c => c.updCtx 0 fun x => { x with paths := [] }).chip.zoneSilent 0 = true ∧
    (onChip playing fun c => c.updCtx 0 fun x => { x with paths := [] }).accepts (.zonePower (hd 0) 1) :=
  ⟨by decide +kernel, accepts_of_acceptsB (by decide +kernel)⟩

/-- An order with ticket 7 waits on ZM for its power, or for its source change. -/
def waits (p : Power) (on off switch : Bool) (paths : List Path) : State :=
  onChip (flying (zoneIn p (decide (p = .stopping ∧ on = true))) .zonePower 7 7) fun c => (c.updZone 0 fun x => { x with
    onOrders := if on then [7] else [], offOrders := if off then [7] else [],
    switchOrder := if switch then some 7 else none }).updCtx 0 fun x => { x with paths := paths }

theorem test_hyp_zone_ends : ∀ l ∈ [[frontLeft], []],
    (∀ p ∈ [Power.starting, .stopping, .on], ∀ on off switch, endable (waits p on off switch l) 7 = true ∧
      (waits p on off switch l).chip.cal.zone = none ∧ (waits p on off switch l).chip.zoneSilent 0 = l.isEmpty ∧
      (waits p on off switch l).chip.tuner.order = none) ∧
    (waits .stopping true false false l).chip.zones[(0 : ZoneId)].restart = true := by
  decide +kernel

theorem test_zone_ends : endsIn (.zonePower (hd 0) 1) (waits .starting true false false [frontLeft]) 7 .superseded
      [.num 3, .num 4, .num 0] = true ∧
    endsIn (.zonePower (hd 0) 1) (waits .on false false false []) 0 .ok [.num 0, .num 0, .num 0] = true := by decide +kernel

theorem test_hyp_ZoneSourceOrder : (∀ s ∈ [zoneIn .off false, zoneIn .starting false, zoneIn .on false, zoneIn .stopping true,
      onChip playing fun c => c.updZone 0 fun x => { x with switchOrder := some 9 }],
    (∀ i ∈ [Instr.zoneSource (hd 0) (-1), .zoneSource (hd 0) 0, .zoneSource (hd 0) 8, .zoneSource (hd 3) 15, .zoneSource (hd 0) 16],
      s.accepts i) ∧ s.chip.noRunIn 0) ∧ (9 : Word) ≠ (hd 0).ticket ∧ Hold.sourceSwitch ∉ playing.chip.ctxs[(0 : ZoneId)].holds ∧
    playing.chip.holdSilent 0 .sourceSwitch = false ∧
    (onChip playing fun c => c.updCtx 0 fun x => { x with paths := [] }).chip.holdSilent 0 .sourceSwitch = true := by
  refine ⟨?_, by decide, by decide +kernel, by decide +kernel, by decide +kernel⟩
  intro s h
  simp only [List.mem_cons, List.not_mem_nil, or_false] at h
  rcases h with h | h | h | h | h <;> subst h <;>
    exact ⟨accepts_of_all (by decide +kernel), by unfold Chip.noRunIn; decide +kernel⟩

theorem test_hyp_IntakeOfOrders : (posting (.zonePower (hd 0) 0)).isSome = true ∧
    State.reset.chip.takesOrder 1 = false ∧ running.chip.takesOrder 0 = false ∧ running.chip.takesOrder 1 = true ∧
    running.chip.takesOrder 2 = true ∧ running.chip.takesOrder 2147483648 = true ∧ running.chip.takesOrder 2147483649 = false ∧
    OrderKind.zonePower.targetOk 4 = false ∧ OrderKind.zonePower.targetOk 3 = true ∧
    (let e : InFlight := { ticket := 9, slot := 1, kind := .measure, accepted := true }
     (onChip running fun c => c.updWin fun w => { w with inFlight := List.replicate 32 e }).chip.ordersFull = true) := by
  decide +kernel

/-! ### The machine, registers, intake and resets -/

theorem test_hyp_Steps : ({ running with pending := [.wakeInAssertion, .historySample] } : State).pending =
      Instr.wakeInAssertion :: [.historySample] ∧ running.pending = [] ∧
    (zoneIn .starting false).chip.zones[(0 : ZoneId)].settleTimer = some 5 := by decide +kernel

theorem test_hyp_HeldMainDomainIgnores : State.reset.chip.mainUp = false ∧
    (onChip running fun c => c.updSbb fun x => { x with power := .standby }).chip.mainUp = false := by decide +kernel

theorem test_hyp_SlotReadsBack : (Instr.presetStore (hd 39) 0 (-1) 2147483647 (-2147483648) (Vector.replicate 8 0x41)).wellFormed =
      true ∧ (posting (.presetStore (hd 39) 0 (-1) 2147483647 (-2147483648) (Vector.replicate 8 0x41))).isSome = true ∧
    (Instr.calibrate (hd 0) (List.replicate 40 255) 0 0 0 true).wellFormed = true ∧ (Instr.standbyNow (hd 255)).wellFormed = true := by
  decide +kernel

/-- A step that answers a next state, for the invariants: an idle step of a state. -/
theorem idle_steps (s : State) (h : s.pending = []) : ∃ t, step s = .next t := by
  unfold step
  rw [h]
  exact ⟨_, rfl⟩

theorem test_hyp_MemoryStaysCanonical : (withBlock running 32768 tableBlock).memoryWf ∧
    ∃ t, step (withBlock running 32768 tableBlock) = .next t :=
  ⟨by unfold State.memoryWf; decide +kernel, idle_steps _ rfl⟩

theorem test_hyp_WindowStaysSane : running.chip.windowSane ∧
    (onChip running fun c => c.updWin fun w => { w with windowBase := 0xFFFF0000, windowKiB := 4096 }).chip.windowSane ∧
    ∃ t, step running = .next t :=
  ⟨by unfold Chip.windowSane; decide +kernel, by unfold Chip.windowSane; decide +kernel, idle_steps _ rfl⟩

theorem test_hyp_WakeLockHolds :
    let s := onChip running fun c => c.updSbb fun x => { x with wakeLock := true }
    s.chip.sbb.wakeLock = true ∧ (∀ rest, s.pending ≠ .coldStart :: rest ∧ s.pending ≠ .backupStart :: rest) ∧
      ∃ t, step s = .next t :=
  ⟨by decide +kernel, fun _ => ⟨nofun, nofun⟩, idle_steps _ rfl⟩

theorem heldWhenDown_running (s : State) (h : s.chip.mainUp = true) : s.chip.heldWhenDown := fun n => by rw [h] at n; exact nomatch n

/-- Both engines decode, and two zones wait for one. -/
def waiting : State := onChip playing fun c =>
  let bind (z : ZoneId) (n : SourceId) (c : Chip) : Chip := c.updZone z fun x => { x with power := .on, binding := some n }
  { bind 0 0 (bind 1 1 (bind 2 2 (bind 3 3 c))) with
    engines := #v[Engine.starting 3 .sur [3], Engine.starting 0 .hrs [0]]
    waitQueue := [1, 2] }

theorem test_hyp_MainDomainStaysHeld : State.reset.chip.heldWhenDown ∧ State.reset.chip.mainUp = false ∧ running.chip.heldWhenDown ∧
    (∀ st ∈ [TunerState.idle, .seeking], (tunerIn st .fm).chip.recordsAgree) ∧ (testing .walk true none).chip.recordsAgree ∧
    waiting.chip.recordsAgree ∧ waiting.chip.waitQueue = [1, 2] ∧ ∃ t, step State.reset = .next t :=
  ⟨by unfold Chip.heldWhenDown; decide +kernel, by decide +kernel, heldWhenDown_running _ (by decide +kernel),
    by unfold Chip.recordsAgree Chip.enginesAgree; decide +kernel, by unfold Chip.recordsAgree Chip.enginesAgree; decide +kernel,
    by unfold Chip.recordsAgree Chip.enginesAgree; decide +kernel, by decide +kernel, idle_steps _ rfl⟩

/-- ZM has a pending grant of all the pool's blocks but one, which a line of it holds now. -/
def granted : State := onChip playing fun c =>
  { c.updOutlet 0 fun x => { x with line := some { delay := 64, age := 0 } } with
    aligns := c.aligns.set 0 { c.aligns[0] with
      pending := true, demand := 2048, grant := [{ outlet := 0, distance := 0, delay := 131072 }] } }

theorem test_hyp_RelaysStaySafe_pool : granted.chip.heldWhenDown ∧ granted.chip.poolFits ∧
    granted.chip.claim 0 + granted.chip.claim 1 + granted.chip.claim 2 + granted.chip.claim 3 = 2048 ∧ ∃ t, step granted = .next t := by
  refine ⟨heldWhenDown_running _ (by decide +kernel), ⟨by decide +kernel, by decide +kernel, ?_⟩, by decide +kernel, idle_steps _ rfl⟩
  intro o ho
  have h : ∀ o : OutletId, granted.chip.outlets[o].line.isSome = true → o = 0 := by decide +kernel
  rw [h o ho]
  exact ⟨by decide +kernel, 0, by decide +kernel, by decide +kernel⟩

theorem test_hyp_RelaysStaySafe : playing.chip.heldWhenDown ∧ playing.chip.relaysSafe ∧
    playing.chip.outlets[(0 : OutletId)].relay = true ∧ ∃ t, step playing = .next t := by
  refine ⟨heldWhenDown_running _ (by decide +kernel), ?_, by decide +kernel, idle_steps _ rfl⟩
  intro o ho
  have h : ∀ o : OutletId, playing.chip.outlets[o].relay = true → o = 0 := by decide +kernel
  rw [h o ho]
  exact ⟨by decide +kernel, 0, by decide +kernel, by decide +kernel⟩

theorem routed_playing : playing.chip.routed := by
  intro z
  have h : z = 0 ∨ playing.chip.zones[z].power = .off ∧ playing.chip.ctxs[z].paths = [] := by revert z; decide +kernel
  rcases h with rfl | ⟨h, hp⟩
  · rw [show playing.chip.zones[(0 : ZoneId)].power = .on from by decide +kernel]
    exact (by decide +kernel)
  · rw [h]
    exact hp

theorem followed_playing : playing.chip.followed :=
  ⟨by decide +kernel, by decide +kernel, by decide +kernel, by decide +kernel, by decide +kernel, routed_playing⟩

theorem test_hyp_FollowingStateFollows : playing.chip.heldWhenDown ∧ playing.chip.followed ∧ ∃ t, step playing = .next t :=
  ⟨heldWhenDown_running _ (by decide +kernel), followed_playing, idle_steps _ rfl⟩

/-- ZM takes the announcements of D1, which is locked to stereo. -/
def announcing (st : AnnState) : State := onChip playing fun c =>
  (c.updZone 0 fun x => { x with annState := st, ann := { x.ann with enable := true },
                                 annHoldTimer := if st = .hold then some 9 else none }).updSource 13 fun x =>
    { x with state := .locked, format := some .pcm2 }

theorem test_hyp_FollowingStateFollows_signs : playing.chip.signsFollow ∧ (announcing .active).chip.signsFollow ∧
    ∃ t, step (announcing .active) = .next t :=
  ⟨by unfold Chip.signsFollow; decide +kernel, by unfold Chip.signsFollow; decide +kernel, idle_steps _ rfl⟩

theorem test_announcement_holds : ∀ st ∈ [AnnState.active, .ready, .hold],
    let t := ((announcing st).run fun c => c.updSource 13 fun x => { x with state := .stalled }).chip.zones[(0 : ZoneId)]
    t.annState = (if st = .ready then .ready else .hold) ∧
      t.annHoldTimer = (if st = .active then some 24000 else if st = .hold then some 9 else none) := by decide +kernel

theorem test_indicator_lights : let i : Indicator := { function := .protect, manual := .off, shown := .off, level := false, timer := none }
    ((latched false false false 0).run fun c => { c with sbb := { c.sbb with indicators := c.sbb.indicators.set 0 i } }).chip.sbb.indicators[
      (0 : Fin 4)] = { i with shown := .blinkFast, level := true, timer := some 24000 } := by decide +kernel

theorem test_hyp_GainsStayUnderCeilings : playing.chip.heldWhenDown ∧ playing.chip.followed ∧ playing.chip.underCeilings ∧
    playing.chip.ctxs[(0 : ZoneId)].paths ≠ [] ∧ ∃ t, step playing = .next t :=
  ⟨heldWhenDown_running _ (by decide +kernel), followed_playing,
    by unfold Chip.underCeilings; decide +kernel, by decide +kernel, idle_steps _ rfl⟩

/-- A part state, with POST and NT as given. -/
def partIn (p : PartState) (post nt : Word) : State := onChip running fun c =>
  c.updWin fun w => { w with partState := p, post := post, nextTicket := nt, windowKiB := 64 }

theorem test_hyp_RegisterWrites : (∀ p ∈ [PartState.ready, .running, .halted, .windowFault], (partIn p 0 1).chip.mainUp = true) ∧
    (partIn .halted 0 1).chip.intakeOpen = false ∧ (partIn .running 0 1).chip.irq = false ∧
    (onChip running fun c => c.updWin fun w => { w with irqEn := true }).chip.irq = true := by decide +kernel

theorem test_hyp_RunWrites : (∀ p ∈ [PartState.ready, .running, .halted, .windowFault],
      (partIn p 0 1).chip.mainUp = true ∧ (partIn p 0 1).chip.win.softReset = false ∧
      2147483648 ≤ ((partIn p 0 1).chip.win.post - (partIn p 0 1).chip.win.nextTicket).toNat) ∧
    2147483648 ≤ ((partIn .ready 2147483649 1).chip.win.post - (partIn .ready 2147483649 1).chip.win.nextTicket).toNat ∧
    (∀ n ∈ [63, 64, 4096, 4097], ((withBlock (partIn .ready 0 1) 0 (le32 (n : Nat))).dram.word 0).toNat = n) := by decide +kernel

theorem test_hyp_RunWrites_pages : (playing.chip.event id).windowUp = true ∧ (playing.chip.event id).base = playing.chip.base ∧
    (playing.chip.event id).ev.marks = [] ∧ (∀ z : ZoneId, playing.chip.ctxs[z].layout.length ≤ 16) ∧
    after (.mute (hd 0) 0) playing (fun t => t.chip.win.news.getLsbD 0 && t.chip.win.news.getLsbD 1 &&
      t.chip.win.revisions[(1 : PageId)] == 2 && t.dram.bytes 9216 4 == [2, 0, 0, 0] && t.dram.read 9234 == 1 &&
      t.chip.win.revisions[(2 : PageId)] == 0) = true := by decide +kernel

/-- The order MUTE(on) with the ticket 1, posted in slot 0. -/
def muteOrder : Posting := { kind := .mute, head := hd 0, flags := 0, params := fields [0] }

theorem test_hyp_IntakeTurns :
    running.chip.intakeOpen = true ∧ 2147483648 ≤ (0 - running.chip.win.nextTicket).toNat ∧
    ((partIn .running 1 1).chip.win.post - (partIn .running 1 1).chip.win.nextTicket).toNat = 0 ∧
    ((partIn .running 2147483648 1).chip.win.post - (partIn .running 2147483648 1).chip.win.nextTicket).toNat = 2147483647 ∧
    (partIn .running 1 1).chip.intakeOpen = true ∧
    (∀ n : Fin 32, (partIn .running 1 1).dram.read ((partIn .running 1 1).chip.slotAt n) ≠ slotPosted) ∧
    posting (.mute (hd 0) 0) = some muteOrder ∧ (Instr.mute (hd 0) 0).wellFormed = true ∧
    (let s := withBlock (partIn .running 1 1) 256 muteOrder.bytes
     s.chip.takesOrder 1 = true ∧ s.dram.bytes (s.chip.slotAt 0) muteOrder.bytes.length = muteOrder.bytes ∧ s.candidates = [0]) ∧
    Mem.wf (withBlock (partIn .running 1 1) 256 muteOrder.bytes).dram ∧
    (partIn .halted 1 1).chip.mainUp = true ∧ (partIn .halted 1 1).chip.win.softReset = false ∧
    (∀ p ∈ [PartState.ready, .windowFault], ∀ n ∈ [64, 4096], let s := withBlock (partIn p 1 1) 0 (le32 (n : Nat))
      s.chip.win.partState = p ∧ 64 ≤ (s.dram.word s.chip.base).toNat ∧ (s.dram.word s.chip.base).toNat ≤ 4096) ∧
    (let s := withBlock (withBlock (partIn .running 1 1) 256 muteOrder.bytes) 512 muteOrder.bytes
     s.candidates = [0, 2] ∧ s.chip.win.inFlight = []) := by decide +kernel

theorem test_hyp_IntakeTurns_kind : ∀ k ∈ [0, 37, 255], let s := withBlock (partIn .running 1 1) 256 [1, k, 0, 0, 1, 0, 0, 0]
    s.chip.intakeOpen = true ∧ (s.chip.win.post - s.chip.win.nextTicket).toNat = 0 ∧ s.candidates = [0] ∧
      s.dram.read (s.chip.slotAt 0 + 1) = k := by decide +kernel

theorem test_hyp_SoftReset : running.chip.mainUp = true ∧ (testing .fixed true none).chip.mainUp = true ∧
    (testing .fixed true none).chip.test.zone = some 0 ∧
    (onChip running fun c => c.updWin fun w => { w with softReset := true }).chip.win.softReset = true ∧
    (onChip running fun c => c.updWin fun w => { w with softReset := true }).chip.mainUp = true := by decide +kernel

theorem test_hyp_BusErrors : (partIn .ready 0 1).chip.windowUp = false ∧ (partIn .windowFault 0 1).chip.windowUp = false ∧
    (partIn .ready 0 1).chip.mainUp = true ∧ (streaming 0 .locked).chip.windowUp = true ∧
    (streaming 0 .locked).chip.streams[(0 : StreamId)].stopped = false ∧ (streaming 1 .locked).chip.streams[(1 : StreamId)].stopped = false ∧
    (streaming 0 .locked).chip.streams[(0 : StreamId)].frozen = false ∧ (streaming 1 .locked).chip.streams[(1 : StreamId)].frozen = false ∧
    (streaming 0 .locked).chip.mainUp = true ∧ (streaming 0 .locked).chip.intakeOpen = true ∧ (partIn .halted 0 1).chip.windowUp = true := by
  decide +kernel

/-- A LAYOUT_LOAD with ticket 1, posted in slot 0. -/
def layoutOrder : Posting := { kind := .layoutLoad, head := hd 0, flags := 0, params := fields [32768, 11] }

/-- Both starts of an intake whose first turn is due, on slots as written into the window. -/
def opened (l : List (Nat × Posting)) : IntakeStart → State
  | .post _ => l.foldl (fun s p => withBlock s p.1 p.2.bytes) (partIn .running 0 1)
  | .run => l.foldl (fun s p => withBlock s p.1 p.2.bytes) (partIn .halted 1 1)

/-- The state that `f` gives of a state, as `p` finds it. -/
def found (o : Option State) (p : State → Bool) : Bool :=
  match o with
  | some s => p s
  | none => false

/-- `State.turnDue` as a Bool. -/
def dueB (s : State) : Bool := s.chip.intakeOpen && decide ((s.chip.win.post - s.chip.win.nextTicket).toNat < 2147483648)

theorem test_hyp_BusErrors_order : ∀ start ∈ [IntakeStart.post 1, .run],
    found ((opened [(256, muteOrder), (384, muteOrder), (512, muteOrder)] start).beginIntake start) (fun v =>
      dueB v && v.candidates == [0, 1, 2] && v.chip.win.inFlight.isEmpty) = true ∧
    found ((opened [(256, layoutOrder)] start).beginIntake start) (fun v => dueB v && v.candidates == [0] && v.chip.win.inFlight.isEmpty &&
      v.chip.win.nextTicket == 1 && decide (Mem.wf v.dram) && v.last.all (fun x => decide (Mem.wf x.dram)) &&
      v.dram.bytes (v.chip.slotAt 0) layoutOrder.bytes.length == layoutOrder.bytes) = true := by decide +kernel

theorem test_hyp_BusErrors_layout : posting (.layoutLoad (hd 0) 32768 11) = some layoutOrder ∧
    (Instr.layoutLoad (hd 0) 32768 11).wellFormed = true ∧ layoutOrder.kind.targetOk layoutOrder.head.target.toNat = true := by decide

/-- What the last event wrote. -/
def wrote (s : State) (p : Written → Bool) : Bool := s.chip.mainUp && s.chip.windowUp && s.last.any p

theorem test_hyp_BusErrors_writes : ∀ start ∈ [IntakeStart.post 1, .run],
    found ((opened [(256, muteOrder)] start).beginIntake start) (fun u => wrote u (fun x => x.pages.contains 0) &&
      found u.intakeTurn fun r => wrote r fun x => x.ends.any (fun e => e.ticket == 1 && e.code != .duplicateTicket) && x.header &&
        x.pages.contains 0) = true := by decide +kernel

/-- A scan with ticket 7 in slot 7, accepted, in a tuner that a zone is bound to. -/
def scanned : State := withBlock (onChip (tunerIn .scanning .fm) fun c =>
    { c.updZone 0 fun x => { x with power := .on, binding := some 12 } with win := { c.win with
      inFlight := [{ ticket := 7, slot := 7, kind := .scan, accepted := true }] } }) (256 + 128 * 7) [2, 33, 0, 0, 7, 0, 0, 0]

/-- A TUNE that ends the scan: the scan's result and the TUNE's ACCEPTED are two writes of one event. -/
def tuned : State := match exec (.tune (hd 0) 0 87500 0) scanned with
  | .next t => t
  | _ => scanned

theorem test_hyp_BusErrors_accepted : wrote tuned (fun x => x.ends.length == 1 && x.fresh.length == 1 && x.marks.isEmpty &&
    (x.ends.zip x.fresh).all fun p => p.1.slot == 7 && p.2.slot == 0 && p.2.ticket == 1 && !p.1.lost &&
      x.dram.read (tuned.chip.slotAt 7) == p.1.expects && x.dram.word (tuned.chip.slotAt 7 + 4) == p.1.ticket) = true ∧
    after (.busError (.written (.accepted 1))) tuned (fun t => t.dram.read (t.chip.slotAt 7) == slotDone &&
      t.dram.read (t.chip.slotAt 0) == slotPosted && t.chip.win.orphaned == 0 && t.chip.win.inFlight.map InFlight.ticket == [1]) = true ∧
    after (.busError (.written (.result 7))) tuned (fun t => t.dram.read (t.chip.slotAt 7) == slotAccepted &&
      t.chip.win.orphaned == 1) = true := by decide +kernel

/-- A part that is running up, with two orders for it waiting on one zone, in slots 7 and 8. -/
def startingWith : State := withBlock (withBlock (onChip (zoneIn .starting false) fun c =>
    { c.updZone 0 fun x => { x with onOrders := [7, 8] } with win := { c.win with
      inFlight := [{ ticket := 7, slot := 7, kind := .zonePower, accepted := true },
                   { ticket := 8, slot := 8, kind := .zonePower, accepted := true }] } })
    (256 + 128 * 7) [2, 1, 0, 0, 7, 0, 0, 0]) (256 + 128 * 8) [2, 1, 0, 0, 8, 0, 0, 0]

theorem test_hyp_BusErrors_results : after (.zoneSettleExpiry 0) startingWith (fun s => wrote s (fun x => x.ends.length == 2 &&
      (x.ends.map OrderEnd.ticket) == [7, 8] && x.marks.isEmpty && !x.pages.isEmpty && x.ends.all fun d => !d.lost &&
      x.dram.read (s.chip.slotAt d.slot) == d.expects && x.dram.word (s.chip.slotAt d.slot + 4) == d.ticket) &&
    s.chip.win.inFlight.isEmpty && after (.busError (.written (.result 8))) s fun t => t.dram.read (t.chip.slotAt 7) == slotDone &&
      t.dram.read (t.chip.slotAt 8) == slotAccepted && t.chip.win.orphaned == 1) = true := by decide +kernel

/-- Behind a STREAM_SETUP: the drain mark and the order's result are two writes of one event. -/
def setUp : State := match exec (.streamSetup (hd 13) 33024 4096 0 0) running with
  | .next t => t
  | _ => running

theorem test_hyp_BusErrors_mark : wrote setUp (fun x => x.marks == [(33020, 0)] && x.ends.length == 1 &&
      x.ends.all fun e => e.code != .duplicateTicket) = true ∧ setUp.chip.streams[(0 : StreamId)].offset - 4 = 33020 ∧
    setUp.chip.streams[(0 : StreamId)].stopped = false ∧ setUp.chip.win.inFlight = [] ∧
    after (.busError (.written (.mark 0))) setUp (fun t => some t.dram == setUp.last.map Written.dram && t.chip.win.orphaned == 1) = true ∧
    after (.busError (.written (.result 1))) setUp (fun t => t.dram.read 256 == slotPosted && t.chip.win.orphaned == 1) = true := by
  decide +kernel

theorem test_hyp_BusErrors_alone :
    after (.measure (hd 0) 4 0 0 5 0 1 1 true 100 (-40)) running (fun s => wrote s fun x => x.ends.isEmpty && x.fresh.length == 1) = true ∧
    found ((partIn .halted 0 1).beginIntake .run) (fun s => !wrote s fun x => x.header) = true ∧
    found ((withBlock (partIn .ready 0 1) 0 (le32 64)).beginIntake .run) (fun s => wrote s fun x => x.ends.isEmpty && x.fresh.isEmpty &&
      x.marks.isEmpty && x.header && x.pages.length == 14) = true := by decide +kernel

/-! ### Supplies and the Standby Block -/

/-- A held main domain, in STANDBY or with a wake whose supplies are awaited. -/
def asleep (p : PowerState) (mainGood : Bool) : State := onChip State.reset fun c =>
  let d : Chip := { c with pins := { c.pins with mainGood := mainGood } }
  d.updSbb fun x => { x with power := p, supplyTimer := if p = .active then some 9 else none, wakeSource := some 3 }

/-- The Standby Block holds a valid history of eight ON, and the resume selection names its last entry. -/
def resumable (s : State) : State := onChip s fun c => c.updSbb fun x =>
  { x with historyValid := true, resume := some 7, history := Vector.replicate 8 true }

theorem test_hyp_Starts : ∀ mainGood : Bool,
    (resumable (asleep .standby mainGood)).chip.sbb.historyValid = true ∧
    (resumable (asleep .standby mainGood)).chip.sbb.resume = some 7 ∧
    (resumable (asleep .standby mainGood)).chip.sbb.history[(7 : Fin 8)] = true ∧
    (resumable (asleep .standby mainGood)).chip.pins.mainGood = mainGood := by
  decide +kernel

theorem test_hyp_MainSupplies : running.chip.pins.mainGood = true ∧ running.chip.sbb.power ≠ .standby ∧
    (asleep .active false).chip.pins.mainGood = false ∧ (asleep .active false).chip.heldWhenDown ∧
    (asleep .standby false).chip.heldWhenDown ∧ (asleep .active false).chip.sbb.supplyTimer.isSome = true ∧
    (standbyIn .sleepPending).chip.sbb.sleepTimer.isSome = true := by
  refine ⟨by decide +kernel, by decide +kernel, by decide +kernel, ?_, ?_, by decide +kernel, by decide +kernel⟩ <;>
    (unfold Chip.heldWhenDown; decide +kernel)

/-- A wake table with single and double entries of every action and both lines. -/
def withTable (s : State) : State := onChip s fun c => c.updSbb fun x => { x with
  table := #v[some { line := .ir, bytes := [1], double := false, action := .wake, armed := none },
    some { line := .ir, bytes := [0, 2], double := true, action := .wakeWithSource 15, armed := some 0 },
    some { line := .control, bytes := [1, 2, 3, 4], double := false, action := .report, armed := none },
    some { line := .ir, bytes := [5], double := true, action := .wake, armed := none }, none, none, none, none] }

/-- The IR frame of one byte with only its lowest bit set. -/
def irOne : List Nat := [4800, 2400] ++ (List.range 8).flatMap (fun k => [600, if k = 0 then 1800 else 600]) ++ [600, 6000]

theorem test_hyp_WakeFrames : (withTable (asleep .standby false)).chip.heldWhenDown ∧ (withTable (asleep .standby true)).chip.heldWhenDown ∧
    irDecode irOne = some ([1], irOne) ∧ irDecode [4800, 1200, 600, 6000] = some ([], [4800, 1200, 600, 6000]) ∧
    irDecode ([4800, 2400, 900, 600] ++ irOne) = some ([1], irOne) ∧ irDecode [4800, 2400, 600, 6000] = none ∧
    (withTable running).chip.sbb.power = .active ∧ (withTable (standbyIn .sleepPending)).chip.sbb.power = .sleepPending ∧
    (let l : List ControlByte := [1, 2, 3, 4].map fun b => { value := b, stop := true, gap := 2999 }
     l ≠ [] ∧ l.length ≤ 4 ∧ ∀ b ∈ l, b.stop = true) ∧
    ((withTable running).chip.sbb.table[(2 : Fin 8)].map WakeEntry.bytes) = some [1, 2, 3, 4] := by
  refine ⟨?_, ?_, by decide +kernel, by decide +kernel, by decide +kernel, by decide +kernel, by decide +kernel, by decide +kernel,
    by decide +kernel, by decide +kernel⟩ <;> (unfold Chip.heldWhenDown; decide +kernel)

/-- The idle timer of ZM runs. -/
def idling (s : State) : State := onChip s fun c => c.updIdle 0 fun x => { x with count := 1, seconds := true, timer := some 9 }

/-- Indicator 1 blinks by hand. -/
def blinking (m : IndMode) (level : Bool) : State := onChip running fun c => c.updSbb fun x => { x with
  indicators := x.indicators.set 0 { function := .manual, manual := m, shown := m, level := level, timer := some 9 } }

theorem test_hyp_StandbyEvents : running.chip.sbb.wakeInEnable = true ∧ (asleep .standby false).chip.heldWhenDown ∧
    (asleep .standby true).chip.heldWhenDown ∧ (standbyIn .active).chip.sbb.historyTimer.isSome = true ∧
    (idling playing).chip.mainUp = true ∧ (idling playing).chip.sbb.idle[(0 : ZoneId)].timer.isSome = true ∧
    (idling playing).chip.idleHeld 0 = false ∧ (idling playing).chip.zones[(0 : ZoneId)].power = .on ∧
    ((idling playing).chip.passTimer (idling playing).chip.sbb.idle[(0 : ZoneId)].timer).zoneSilent 0 = false ∧
    (∀ m ∈ [IndMode.blinkFast, .blinkSlow], ∀ b, (blinking m b).chip.sbb.indicators[(0 : Fin 4)].timer.isSome = true ∧
      (blinking m b).chip.sbb.indicators[(0 : Fin 4)].shown = (blinking m b).chip.sbb.indicators[(0 : Fin 4)].manual) := by
  refine ⟨by decide +kernel, ?_, ?_, by decide +kernel, by decide +kernel, by decide +kernel, by decide +kernel, by decide +kernel,
    by decide +kernel, by decide +kernel⟩ <;> (unfold Chip.heldWhenDown; decide +kernel)

theorem test_hyp_StandbyEvents_restarts : (idling playing).chip.sbb.wakeInEnable = true ∧ (idling playing).chip.sbb.power ≠ .standby ∧
    (idling playing).chip.claimQueued .cal = false ∧ (∀ i ∈ [Instr.volume (hd 0) 1 0, .idleSet (hd 0) 9 0, .mute (hd 0) 7],
      acceptsB (idling playing) i = true) ∧
    after (.mute (hd 0) 7) (idling playing) (fun t => t.chip.zones[(0 : ZoneId)].power == .on &&
      t.chip.sbb.idle[(0 : ZoneId)].timer == some 48000) = true := by decide +kernel

/-! ### Events of zones, sources, streams and engines -/

/-- ZM with a hold, and its announcement and signal timers running. -/
def holding (h : Hold) : State := onChip playing fun c =>
  (c.updCtx 0 fun x => { x with holds := [h] }).updZone 0 fun x => { x with annHoldTimer := some 9, signalWindow := some 9 }

theorem test_hyp_ZoneEvents : playing.chip.mainUp = true ∧
    (zoneIn .starting false).chip.zones[(0 : ZoneId)].settleTimer.isSome = true ∧
    (∀ b, (zoneIn .stopping b).chip.zones[(0 : ZoneId)].power = .stopping ∧ (zoneIn .stopping b).chip.zones[(0 : ZoneId)].restart = b) ∧
    Hold.sourceSwitch ∈ (holding .sourceSwitch).chip.ctxs[(0 : ZoneId)].holds ∧
    (holding .test).chip.zones[(0 : ZoneId)].annHoldTimer.isSome = true ∧
    playing.chip.zones[(0 : ZoneId)].binding.isSome = true ∧ playing.chip.zones[(0 : ZoneId)].programme = .playing ∧
    playing.chip.programmeOf 0 = .playing ∧ (holding .test).chip.zones[(0 : ZoneId)].signalWindow.isSome = true ∧
    (zoneIn .stopping false).chip.sbb.power = .active ∧
    (∀ y : ZoneId, y ≠ 0 → (zoneIn .stopping false).chip.zones[y].power = .off) := by
  decide +kernel

/-- A source in a state, with every timer of a source running. -/
def sourceIn (n : SourceId) (st : SrcState) (ph : Option Phase) (f : Option Format) : State := onChip playing fun c =>
  c.updSource n fun x => { x with
    state := st, phase := if st = .acquiring then ph else none, reason := if st = .unsupported then ph else none, format := f,
    rate := some .r48, signalWindow := some 9, claimRetry := some 9, checkTimer := some 9, retryTimer := some 9 }

theorem test_hyp_SourceEvents : playing.chip.mainUp = true ∧ playing.chip.sourceSounds 8 = true ∧
    (∀ n ∈ [(0 : SourceId), 7, 15],
      (sourceIn n .acquiring (some .rate) none).chip.sources[n].signalWindow.isSome = true ∧
      (sourceIn n .acquiring (some .rate) none).chip.sources[n].claimRetry.isSome = true ∧
      (sourceIn n .locked none (some .pcm2)).chip.sources[n].checkTimer.isSome = true ∧
      (sourceIn n .locked none (some .hrs)).chip.sources[n].retryTimer.isSome = true ∧
      (sourceIn n .locked none (some .pcm2)).chip.sources[n].state ≠ .noSignal ∧
      playing.chip.sources[n].state = .noSignal) ∧
    Hold.formatChange ∈ (holding .formatChange).chip.ctxs[(0 : ZoneId)].holds ∧
    (crowded 8).chip.refusesClaim (.sfeRate 0) true = true ∧ playing.chip.refusesClaim (.sfeRate 0) true = false ∧
    playing.chip.freeMeter = some 0 ∧ (crowded 0).chip.freeMeter = none ∧ (crowded 0).chip.refusesClaim (.sfeRate 0) true = false ∧
    (crowded 0).chip.refusesClaim (.sfeCheck 0) false = true ∧ playing.chip.refusesClaim (.sfeCheck 0) false = false ∧
    (let s := onChip (sourceIn 0 .locked none (some .hrs)) fun c => c.updZone 0 fun x => { x with binding := some 0 }
     s.chip.sources[(0 : SourceId)].carries = some .hrs ∧ s.chip.engineOf 0 = none ∧ s.chip.zones[(0 : ZoneId)].binding = some 0) ∧
    (sourceIn 0 .locked none (some .pcm2)).chip.sources[(0 : SourceId)].carries = none := by
  decide +kernel

theorem test_hyp_FormatEvents : (∀ n ∈ [(0 : SourceId), 7, 15], playing.chip.watched n = true) ∧
    (streaming 0 .acquiring).chip.watched 13 = true ∧ playing.chip.mainUp = true ∧ (streaming 0 .acquiring).chip.mainUp = true ∧
    (sourceIn 5 .acquiring (some .format) none).chip.sources[(5 : SourceId)].phase = some .format ∧
    (sourceIn 0 .unsupported (some .format) none).chip.sources[(0 : SourceId)].reason = some .format ∧
    (sourceIn 0 .locked none (some .obj)).chip.sources[(0 : SourceId)].state = .locked ∧
    (sourceIn 5 .locked none (some .pcm2)).chip.sources[(5 : SourceId)].state ≠ .noSignal ∧
    (Format.ofPreamble 1).isSome = true ∧ Format.ofPreamble 0 = none ∧ Format.ofPreamble 3 ≠ none ∧ Format.ofPreamble 4 = none := by
  decide +kernel

/-- The stream's fill mark in the window stands at a value. -/
def filled (s : State) (n : Nat) : State := withBlock s 33016 (le32 n)

theorem test_hyp_StreamEvents : (∀ m : StreamId, ∀ st ∈ [SrcState.stalled, .locked],
    (streaming m st).chip.mainUp = true ∧ (streaming m st).chip.windowUp = true ∧ (streaming m st).chip.streams[m].stopped = false ∧
    (streaming m st).chip.streams[m].frozen = false ∧ 32776 ≤ (streaming m st).chip.streams[m].offset) ∧
    (∀ n ∈ [0, 1023, 1024, 4096, 4097], ((filled (streaming 0 .stalled) n).dram.word 33016).toNat = n) ∧
    (streaming 0 .locked).chip.streamDrains 0 = true ∧ (streaming 1 .locked).chip.streamDrains 1 = true ∧
    (streaming 0 .stalled).chip.sources[(13 : SourceId)].format.isSome = true ∧
    (∀ n ∈ [511, 512], ∀ st ∈ [SrcState.stalled, .locked, .acquiring, .unsupported],
      let s := onChip (streaming 0 st) fun c => c.updStream 0 fun x => { x with fifo := List.replicate n 0 }
      (s.chip.passTimer s.chip.streams[(0 : StreamId)].readTimer).streams[(0 : StreamId)].fifo.length = n ∧
      s.chip.sources[(13 : SourceId)].state = st) := by
  decide +kernel

/-- Engine 0 decodes source L1 for ZM. -/
def engaged (st : EngineState) (f : Format) (good bad : Nat) : State := onChip (sourceIn 0 .locked none (some f)) fun c =>
  (c.updSource 0 fun x => { x with decode := .engaged, failCount := 3 }).updEngine 0 fun x => { x with
    state := st, source := some 0, format := some f, consumers := [0], goodRun := good, badRun := bad, phaseTimer := some 9 }

theorem test_hyp_EngineEvents : (∀ st ∈ [EngineState.starting, .decoding, .resync], ∀ g ∈ [0, 1], ∀ b ∈ [0, 7, 254],
    (engaged st .obj g b).chip.mainUp = true ∧ (engaged st .obj g b).chip.engines[(0 : EngineId)].state ≠ .free ∧
    (engaged st .obj g b).chip.sourceStalled (engaged st .obj g b).chip.engines[(0 : EngineId)].source = false ∧
    (engaged st .obj g b).chip.engines[(0 : EngineId)].source = some 0 ∧
    (engaged st .obj g b).chip.engines[(0 : EngineId)].phaseTimer.isSome = true) := by
  decide +kernel

/-- S-PDIF 1 detects its format, bound by one zone, with the engines in the given states and formats. -/
def requesting (z : ZoneId) (e0 e1 : EngineState) (f : Format) : State :=
  onChip (sourceIn 6 .acquiring (some .format) none) fun c =>
    let x (st : EngineState) (n : SourceId) : Engine :=
      if st = .free then Engine.initial else { Engine.initial with state := st, source := some n, format := some f, consumers := [2] }
    { ((c.updZone 0 fun x => { x with binding := none }).updZone z fun x => { x with power := .on, binding := some 6 }) with
      engines := #v[x e0 0, x e1 1] }

theorem test_hyp_EngineEvents_requests : ∀ z ∈ [(0 : ZoneId), 1], ∀ e0 ∈ [EngineState.free, .decoding], 
    ∀ e1 ∈ [EngineState.free, .decoding], ∀ f ∈ [Format.obj, .hrs], let s := requesting z e0 e1 f
    s.chip.mainUp = true ∧ s.chip.watched 6 = true ∧ s.chip.sources[(6 : SourceId)].detecting = true ∧
    s.chip.boundZones 6 = [z] ∧ s.chip.sources[(6 : SourceId)].decode = .none ∧ s.chip.engineOf 6 = none ∧
    Format.ofPreamble 1 = some .sur ∧ acceptsFormat 6 .sur = true := by decide +kernel

theorem test_hyp_EngineEvents_queue :
    let s := onChip (engaged .starting .obj 0 0) fun c =>
      { ((c.updZone 1 fun x => { x with power := .on, binding := some 1 }).updSource 1 fun x =>
        { x with state := .locked, format := some .hrs }) with waitQueue := [1] }
    s.chip.waitQueue = 1 :: [] ∧ s.chip.zones[(1 : ZoneId)].binding = some 1 ∧ (1 : SourceId) ≠ 0 ∧
    s.chip.sources[(1 : SourceId)].carries = some .hrs ∧ s.chip.sources[(1 : SourceId)].decode ≠ .failed ∧
    Format.hrs.eligible 0 = true := by decide +kernel

/-! ### Events of levels, outlets, meters, the tuner, tests and calibration -/

/-- Outlet 1 in a placement, with a retry timer. -/
def placed (p : Placement) (serving : Bool) : State := onChip playing fun c => c.updOutlet 0 fun x => { x with
  placement := p, alternate := some { zone := 1, position := .fl }, pendingAssign := if p = .reassigning then some 9 else none,
  protection := if serving then .normal else .tripped, retryTimer := some 9 }

theorem test_hyp_RampAndWithdrawalEvents :
    playing.chip.mainUp = true ∧ playing.chip.ctxs[(0 : ZoneId)].paths.find? (fun q => q.id == frontLeft.id) = some frontLeft ∧
    Hold.regrant ∈ (holding .regrant).chip.ctxs[(0 : ZoneId)].holds ∧
    (∀ p ∈ [Placement.home, .lending, .lent, .reassigning],
      (placed p false).chip.outlets[(0 : OutletId)].protection.serving = false ∧
      (placed p true).chip.outletSilent 1 = true ∧ (placed p false).chip.outlets[(0 : OutletId)].placement = p) ∧
    (let s := onChip (holding .regrant) fun c => { c with aligns := c.aligns.set 0 { c.aligns[0] with
       pending := true, grant := [{ outlet := 0, distance := 4, delay := 7 }] } }
     Hold.regrant ∈ s.chip.ctxs[(0 : ZoneId)].holds ∧ s.chip.aligns[(0 : ZoneId)].pending = true ∧
     (s.chip.aligns[(0 : ZoneId)].grant.map GrantEntry.outlet).Nodup ∧ ∀ y : ZoneId, s.chip.aligns[y].short = false) ∧
    (∀ p ∈ playing.chip.ctxs[(0 : ZoneId)].paths, p.id = frontLeft.id → p = frontLeft) ∧
    (placed .lending false).chip.started 1 = false ∧ (onChip (placed .lending false) fun c =>
      c.updZone 1 fun x => { x with power := .on }).chip.started 1 = true := by
  decide +kernel

theorem test_hyp_RampAndWithdrawalEvents_assignment : ∀ on : Bool,
    let s := onChip (flying (placed .reassigning false) .outletAssign 9 9) fun c => c.updZone 1 fun x =>
      { x with power := if on then .on else .off }
    endable s 9 = true ∧ s.chip.started 1 = on ∧ s.chip.outlets[(0 : OutletId)].pendingAssign = some 9 ∧
    endsIn (.withdrawalEnd 0) s 9 .ok
      [.num 0, .num 0, .num 1, .num 0, .num (if on then 1 else 0), .num (if on then 2 else 0)] = true := by decide +kernel

/-- Outlet 1 with a trip history, in a protection state. -/
def tripped (p : Protection) (n : Nat) (oc : Bool) : State := onChip playing fun c =>
  let d : Chip := { c with pins := { c.pins with oc := c.pins.oc.set 0 oc } }
  d.updOutlet 0 fun x => { x with protection := p, history := List.replicate n 5, retryTimer := some 9, relay := false }

theorem test_hyp_OutletProtectionEvents : (∀ p ∈ [Protection.normal, .derated, .tripped, .latched], ∀ n ∈ [1, 2], ∀ oc : Bool,
    (tripped p n oc).chip.mainUp = true ∧ (tripped p n oc).chip.cal.run = .idle ∧
    (tripped p n oc).chip.outlets[(0 : OutletId)].retryTimer = some 9) ∧ groupOf 0 = some 0 ∧ groupOf 15 = some 3 ∧ groupOf 16 = none := by
  decide +kernel

theorem test_hyp_GroupLineEvents : (asleep .standby true).chip.mainUp = false ∧ (asleep .standby true).chip.heldWhenDown ∧
    playing.chip.mainUp = true ∧ groupOf 0 = some 0 ∧ groupOf 4 ≠ some 0 ∧
    (let s := onChip playing fun c => (c.updOutlet 0 fun x => { x with protection := .tripped, cause := some .thermal }).updGroup 0
      fun x => { x with w := 1, tsd := true }
     s.chip.groups[(0 : GroupId)].dcf = false ∧ s.chip.overcurrentLine 0 = false ∧
     s.chip.outlets[(0 : OutletId)].protection = .tripped ∧ s.chip.outlets[(0 : OutletId)].cause = some .thermal ∧
     s.chip.mainUp = true) ∧
    playing.chip.outlets[(0 : OutletId)].protection.serving = true := by
  refine ⟨by decide +kernel, by unfold Chip.heldWhenDown; decide +kernel, by decide +kernel⟩

theorem test_hyp_MeterEvents :
    (let e : Edge := { source := .edgeIn1, rising := true }
     let s := metering .opened (.win 9)
     e.fromOutside = true ∧ s.chip.mainUp = true ∧ s.chip.imu.meters[(0 : MeterId)].state = .opened ∧
     s.chip.imu.meters[(0 : MeterId)].edgeB = e ∧ s.chip.imu.meters[(0 : MeterId)].bCount ≤ s.chip.imu.meters[(0 : MeterId)].bEdges + 1 ∧
     s.chip.imu.meters[(0 : MeterId)].holder = some (.win 9) ∧ s.chip.imu.queue = [] ∧
     (∀ k : MeterId, k ≠ 0 → s.chip.imu.meters[k].state = .free) ∧ (s.chip.win.inFlight.map InFlight.ticket).Nodup) ∧
    (∀ st ∈ [MeterState.armed, .opened], ∀ h ∈ [Holder.win 9, .sfeRate 0, .sfeCheck 0, .cal],
      (metering st h).chip.imu.meters[(0 : MeterId)].state = st ∧ (metering st h).chip.meterOf h = some 0 ∧
      (metering st h).chip.mainUp = true ∧ (metering st h).chip.imu.queue = []) ∧
    (metering .armed (.win 9)).chip.imu.meters[(1 : MeterId)].state = .free ∧
    (∀ h ∈ [Holder.sfeRate 0, .sfeCheck 0, .cal], let x := (metering .opened h).chip.imu.meters[(0 : MeterId)]
      x.holder = some h ∧ x.firstA = some true ∧ x.edgeB = { source := .edgeIn1, rising := true } ∧ x.bCount ≤ x.bEdges + 1) ∧
    (onChip (metering .opened .cal) fun c => c.updCal fun x => { x with run := .measuring }).chip.cal.run = .measuring := by
  decide +kernel

theorem test_hyp_MeterEvents_ends : (∀ st ∈ [MeterState.armed, .opened], endable (flying (metering st (.win 9)) .measure 9 9) 9 = true) ∧
    endsIn (.meterEdge 5 { source := .edgeIn1, rising := true }) (flying (metering .opened (.win 9)) .measure 9 9) 9 .ok
      [.num 0, .num 5, .num 0] = true ∧
    endsIn (.meterLimitExpiry 0) (flying (metering .opened (.win 9)) .measure 9 9) 9 .timingFail
      [.num 0, .num 1, .num 0, .num 0, .num 245760] = true := by decide +kernel

theorem test_hyp_TunerEvents : ∀ b ∈ [Band.fm, .am],
    (∀ r ∈ [({ level := 0, multipath := 0, pilot := false } : Reception), { level := 100, multipath := 15, pilot := true },
      { level := 28, multipath := 8, pilot := true }, { level := 27, multipath := 9, pilot := true }], r.wellFormed = true) ∧
    (∀ st ∈ [TunerState.tuning, .listening, .seeking, .scanning], (tunerIn st b).chip.mainUp = true ∧ (tunerIn st b).chip.tuner.state = st) ∧
    (tunerIn .seeking b).chip.tuner.seek = some (true, 87500) ∧ (tunerIn .seeking b).chip.tuner.step = some 87600 ∧
    (let s := onChip (tunerIn .scanning b) fun c => c.updTuner fun x => { x with
       prevEntry := some 87590, stations := [{ band := b, freq := 87590, level := 50, multipath := 0, pilot := false, name := none }] }
     s.chip.tuner.state = .scanning ∧ s.chip.tuner.stations.any (fun e => e.band == b && some e.freq == s.chip.tuner.prevEntry) = true) ∧
    (tunerIn .scanning b).chip.tuner.step = some 87600 ∧ (tunerIn .scanning b).chip.tuner.stations.length < 64 := by
  decide +kernel

theorem test_hyp_DataGroups : (tunerIn .listening .fm).chip.mainUp = true ∧ (tunerIn .listening .fm).chip.tuner.state = .listening ∧
    (tunerIn .listening .fm).chip.tuner.station.band = .fm ∧ (tunerIn .listening .am).chip.tuner.station.band ≠ .fm ∧
    (tunerIn .tuning .fm).chip.tuner.state ≠ .listening ∧
    (let s := onChip (tunerIn .listening .fm) fun c => c.updTuner fun x => { x with ds := { x.ds with
      nameSegs := Vector.replicate 4 (some (Vector.replicate 2 0x41)), lastReading := some (Vector.replicate 8 0x41),
      textSegs := Vector.replicate 16 (some (Vector.replicate 4 0x41)), flip := some true, identity := some 1 } }
     s.chip.mainUp = true ∧ (∀ k : Fin 4, s.chip.tuner.ds.nameSegs[k] ≠ none) ∧
     ∀ k : Fin 16, s.chip.tuner.ds.textSegs[k].any (fun v => !v.toList.contains 0x0D) = true) := by
  decide +kernel

/-- A text of sixteen segments without a marker but in the segments `l`, and without the segments `a`. -/
def texting (l a : List Nat) : State := onChip (tunerIn .listening .fm) fun c => c.updTuner fun x => { x with ds := { x.ds with
  textSegs := Vector.ofFn fun k => if k.val ∈ a then none else some #v[0x41, if k.val ∈ l then 0x0D else 0x42, 0x43, 0x44], flip := some true } }

theorem test_text_ends : (∀ k ∈ [1, 15], after (.textGroup 0 true (some (Vector.replicate 4 0x41))) (texting [k] []) (fun t =>
      t.chip.tuner.ds.textComplete && t.chip.tuner.ds.textLength == 4 * k + 1) = true) ∧
    after (.textGroup 0 true (some (Vector.replicate 4 0x41))) (texting [] []) (fun t => t.chip.tuner.ds.textLength == 64) = true ∧
    after (.textGroup 0 true (some (Vector.replicate 4 0x41))) (texting [3] [2]) (fun t => !t.chip.tuner.ds.textComplete) = true ∧
    after (.textGroup 0 true (some (Vector.replicate 4 0x41))) (texting [] [15]) (fun t => !t.chip.tuner.ds.textComplete) = true := by
  decide +kernel

theorem test_hyp_TestAndCalibrationEvents :
    (∀ st : Bool, (testing .walk st (some .sounding)).chip.mainUp = true ∧ (testing .walk st (some .gap)).chip.test.zone = some 0 ∧
      (testing .walk st (some .sounding)).chip.test.timer.isSome = true ∧ (testing .walk st (some .gap)).chip.test.timer.isSome = true) ∧
    (testing .walk false (some .sounding)).chip.test.started = false ∧ Hold.test ∈ (testing .walk false none).chip.ctxs[(0 : ZoneId)].holds ∧
    (let s := onChip (calibrating .muting none) fun c => c.updCtx 0 fun x => { x with holds := [.calibration] }
     s.chip.mainUp = true ∧ s.chip.claimQueued .cal = false ∧ s.chip.cal.zone = some 0 ∧ s.chip.cal.run = .muting ∧
     Hold.calibration ∈ s.chip.ctxs[(0 : ZoneId)].holds ∧ s.chip.cal.outlets = 0 :: [] ∧
     s.chip.outlets[(0 : OutletId)].protection.serving = true ∧ s.chip.outlets[(0 : OutletId)].zone = some 0 ∧
     s.chip.outlets[(0 : OutletId)].engaged = true) ∧
    (onChip (calibrating .measuring (some { index := 0, step := .timing, burst := 1 })) fun c =>
      { c with cal := { c.cal with burst := some 0 } }).chip.cal.burst = some 0 ∧
    ∀ st ∈ [CalStep.timing, .level],
      (let s := calibrating .measuring (some { index := 0, step := st, burst := 1 })
       s.chip.cal.run = .measuring ∧ s.chip.cal.place = some { index := 0, step := st, burst := 1 } ∧
       s.chip.cal.outlets[0]? = some 0 ∧ (s.chip.cal.results[0]?).isSome = true ∧ s.chip.claimQueued .cal = false) := by
  decide +kernel

/-- The run's only outlet is in the level step; the order stands in slot 9, accepted, and the run holds meter 1. -/
def lastLevel : State := withBlock (onChip (calibrating .measuring (some { index := 0, step := .level, burst := 1 })) fun c =>
    { c with
      cal := { c.cal with apply := true, bursts := 1, valid := 1, tickSum := 60000, target := -30 }
      imu := { c.imu with meters := c.imu.meters.set 0 { c.imu.meters[0] with state := .done, holder := some .cal } }
      win := { c.win with inFlight := [{ ticket := 9, slot := 9, kind := .calibrate, accepted := true }] } })
    (256 + 128 * 9) [2, 28, 0, 0, 9, 0, 0, 0]

theorem test_hyp_TestAndCalibrationEvents_complete :
    lastLevel.chip.cal.outlets.length = 0 + 1 ∧ (∀ n : MeterId, lastLevel.chip.imu.meters[n].holder = some .cal ↔ n = 0) ∧
    lastLevel.chip.imu.queue = [] ∧ lastLevel.chip.cal.ticket = some 9 ∧ lastLevel.chip.windowUp = true ∧
    lastLevel.chip.win.inFlight.find? (fun e => e.ticket == 9) = some { ticket := 9, slot := 9, kind := .calibrate, accepted := true } ∧
    lastLevel.dram.read (lastLevel.chip.slotAt 9) = slotAccepted ∧ lastLevel.dram.word (lastLevel.chip.slotAt 9 + 4) = 9 ∧
    after (.calLevelStepExpiry (-300)) lastLevel (fun t => t.dram.read (t.chip.slotAt 9) == slotDone && t.chip.cal.run == .idle &&
      t.chip.imu.meters[(0 : MeterId)].state == .free && t.chip.outlets[(0 : OutletId)].distance == 58) = true := by decide +kernel

/-- A run over the outlets 1 and 2 of ZM, in the first one's step; the second one's protection and engaged flag as given, its order in
flight in slot 9. -/
def twoOutlets (st : CalStep) (serving eng : Bool) : State :=
  let entry (o : OutletId) : CalEntry := { outlet := o, status := .pending, valid := 0, level := none, distance := none, trim := none }
  flying (onChip (calibrating .measuring (some { index := 0, step := st, burst := 1 })) fun c =>
    { c.updOutlet 1 fun x => { x with primary := some { zone := 0, position := .fr }, zone := some 0, engaged := eng,
                                      protection := if serving then .normal else .tripped } with
      cal := { c.cal with outlets := [0, 1], results := [entry 0, entry 1], bursts := 1, valid := 1, tickSum := 60000, target := -30,
                          burst := if st = .timing then some 0 else none, burstTimer := if st = .timing then some 7 else none,
                          stepTimer := some 7000 }
      imu := { c.imu with meters := c.imu.meters.set 0 { c.imu.meters[0] with state := .done, holder := some .cal } } }) .calibrate 9 9

theorem test_hyp_TestAndCalibrationEvents_next : (∀ st ∈ [CalStep.timing, .level], ∀ serving eng,
      let s := twoOutlets st serving eng
      s.chip.mainUp = true ∧ s.chip.cal.run = .measuring ∧ s.chip.claimQueued .cal = false ∧ s.chip.cal.outlets[1]? = some 1 ∧
      (s.chip.cal.results[1]?).isSome = true ∧ s.chip.cal.outlets[0]? = some (speakerOutlet 0) ∧ groupOf 0 = some 0 ∧
      s.chip.outlets[(0 : OutletId)].protection.serving = true ∧ s.chip.outlets[(0 : OutletId)].history.length < 2 ∧
      s.chip.outlets[(0 : OutletId)].zone = s.chip.cal.zone ∧ s.chip.outlets[(1 : OutletId)].protection ≠ .latched ∧
      s.chip.outlets[(1 : OutletId)].zone = s.chip.cal.zone ∧ s.chip.outlets[(1 : OutletId)].protection.serving = serving ∧
      s.chip.outlets[(1 : OutletId)].engaged = eng ∧ acceptsB s (.outletAssign (hd 0) 1 3 255 0) = true ∧
      s.chip.assignRefusal 0 (some { zone := 1, position := .lfe1 }) none = none ∧ s.chip.meterOf (.win 9) = none ∧
      endable s 9 = true) ∧
    after (.calLevelStepExpiry (-300)) (twoOutlets .level true true) (fun t => t.chip.cal.burst == some 1 && t.chip.cal.valid == 0 &&
      t.chip.cal.place == some { index := 1, step := .timing, burst := 1 }) = true ∧
    after (.overcurrentAsserted 0) (twoOutlets .timing true true) (fun t => t.chip.cal.burst == some 1 &&
      (t.chip.cal.results[0]?.map CalEntry.status) == some .fault) = true := by decide +kernel

theorem test_hyp_TestAndCalibrationEvents_aborts : (∀ i ∈ [Instr.zonePower (hd 0) 1, .idleExpire (hd 0), .zoneSource (hd 0) 9,
      .standbyNow (hd 0)], acceptsB (twoOutlets .timing true true) i = true) ∧
    (twoOutlets .timing true true).chip.zones[(0 : ZoneId)].binding ≠ some 9 ∧ (twoOutlets .timing true true).chip.sbb.power = .active ∧
    (let s := onChip (twoOutlets .timing true true) fun c => (c.updOutlet 0 fun x => { x with history := [1, 2] }).updOutlet 1 fun x =>
       { x with protection := .latched }
     s.chip.started 0 = true ∧ s.chip.outlets[(0 : OutletId)].history.length = 2 ∧
     ∀ k : OutletId, k ≠ 0 → s.chip.outlets[k].zone = some 0 → s.chip.outlets[k].protection = .latched) ∧
    (onChip (twoOutlets .timing true true) fun c => { c with sbb := (standbyIn .sleepPending).chip.sbb }).chip.sbb.sleepTimer.isSome = true ∧
    (∃ k : OutletId, k ≠ 0 ∧ groupOf k ≠ some 0 ∧ (onChip (twoOutlets .timing true true) fun c => c.updOutlet 5 fun x =>
      { x with zone := some 0 }).chip.outlets[k].zone = some 0) ∧
    ∀ i ∈ [Instr.zoneSource (hd 0) 9, .mainGoodFall], endsIn i (twoOutlets .timing true true) 9 .aborted
      [.num 0, .num 0, .num 0, .num 0, .num 0, .num 0, .num 2] = true := by decide +kernel

theorem test_hyp_TestAndCalibrationEvents_walk : ∀ p ∈ [none, some Position.fl, some .fr, some .c],
    let s := onChip (testing .walk true (some .gap)) fun c => c.updTest fun x => { x with last := p }
    s.chip.test.phase = some .gap ∧ s.chip.activeAt 0 .fl = some 0 ∧ s.chip.activeAt 0 .fr = none ∧
      after .walkGapEnd s (fun t => t.chip.test.last == some .fl) = true := by decide +kernel

/-- The sweep's dwell on the top of its band is over, or stands one sample before its end. -/
def topEdge (gone : Bool) : State := onChip (tunerIn .scanning .am) fun c => c.updTuner fun x =>
  { x with step := some 1710, timer := some (if gone then 0 else 1) }

theorem test_hyp_TuneAndRecallOrders_swept : ∀ gone : Bool, (∀ i ∈ [Instr.tune (hd 0) 0 87500 0, .presetRecall (hd 0)],
      (topEdge gone).accepts i) ∧ (topEdge gone).chip.mainUp = true ∧ (topEdge gone).chip.tunerOrderOther 1 ∧
    (topEdge gone).chip.tuner.state = .scanning ∧ (topEdge gone).chip.tuner.step = some 1710 ∧
    (bandGrid (topEdge gone).chip.tuner.region .am).2.1 = 1710 := by
  intro gone
  refine ⟨accepts_of_all ?_, ?_, tunerOrderOther_of ?_, ?_⟩ <;> revert gone <;> decide +kernel

/-- Claims of the MEASURE with ticket 8 behind a MEASURE with ticket 9 that holds meter 1: the next one's edge A is its own order. -/
def nextClaim (st : MeterState) : State :=
  let q := claim9 (.win 8)
  queued (flying (metering st (.win 9)) .measure 9 9)
    [{ q with arming := { q.arming with edgeA := { source := .order, rising := true }, ordered := false } }]

theorem test_hyp_released : ∀ st ∈ [MeterState.armed, .opened], acceptsB (nextClaim st) (.measureCancel (hd 0) 9) = true ∧
    (nextClaim st).chip.meterOf (.win 9) = some 0 ∧ (nextClaim st).chip.imu.queue.head?.map Claim.holder = some (.win 8) ∧
    endable (nextClaim st) 9 = true ∧
    ∀ i ∈ [Instr.measureCancel (hd 0) 9, .meterLimitExpiry 0, .meterEdge 5 { source := .edgeIn1, rising := true }],
      after i (nextClaim st) (fun t => t.chip.imu.meters[(0 : MeterId)].state == .opened &&
        t.chip.imu.meters[(0 : MeterId)].holder == some (if st = .armed ∧ i = .meterEdge 5 { source := .edgeIn1, rising := true }
          then .win 9 else .win 8)) = true := by decide +kernel

/-- The calibration run in ZM, which is not silent, waits for the meter of an open MEASURE with ticket 9. -/
def runWaits : State := onChip (claimed [frontLeft]) fun c => { c with imu := { c.imu with
  meters := c.imu.meters.set 0 (metering .opened (.win 9)).chip.imu.meters[0] } }

theorem test_hyp_MeterEvents_run : runWaits.chip.mainUp = true ∧ runWaits.chip.imu.meters[(0 : MeterId)].holder = some (.win 9) ∧
    runWaits.chip.imu.queue.head?.map Claim.holder = some .cal ∧ (runWaits.chip.win.inFlight.map InFlight.ticket).Nodup ∧
    runWaits.chip.cal.zone = some 0 ∧ (∀ dt ∈ [5, 245760], (runWaits.chip.passTicks dt).holdSilent 0 .calibration = false) ∧
    ∀ i ∈ [Instr.meterLimitExpiry 0, .meterEdge 5 { source := .edgeIn1, rising := true }], after i runWaits (fun t =>
      t.chip.cal.run == .muting && t.chip.cal.meter == some 0 && t.chip.imu.meters[(0 : MeterId)].holder == some .cal) = true := by
  decide +kernel

/-- A MEASURE with ticket 9 selects MIC_CROSS: it holds meter 1, or waits. -/
def listening (held : Bool) : State := onChip (flying playing .measure 9 9) fun c =>
  let e : Edge := { source := .micCross, rising := true }
  let q := claim9 (.win 9)
  let imu : Imu := if held then
      { c.imu with meters := c.imu.meters.set 0 { (metering .armed (.win 9)).chip.imu.meters[0] with edgeA := e } }
    else { c.imu with queue := [{ q with arming := { q.arming with edgeB := e } }] }
  { c with imu := imu }

theorem test_hyp_CalibrationOrders_ends : (∀ b : Bool, acceptsB (listening b) (.calibrate (hd 0) [1] 1 (-40) (-30) true) = true ∧
      (listening b).chip.refusesClaim .cal true = false ∧ ((listening b).chip.test.mode = .off ↔ (listening b).chip.test.zone = none) ∧
      ((listening b).chip.win.inFlight.map InFlight.ticket).Nodup ∧ endable (listening b) 9 = true ∧
      endsIn (.calibrate (hd 0) [1] 1 (-40) (-30) true) (listening b) 9 .aborted [] = true) ∧
    acceptsB (twoOutlets .timing true true) (.calAbort (hd 0)) = true ∧
    (twoOutlets .timing true true).chip.meterOf (.win 9) = none ∧
    endsIn (.calAbort (hd 0)) (twoOutlets .timing true true) 9 .aborted
      [.num 0, .num 0, .num 0, .num 0, .num 0, .num 0, .num 2] = true := by
  decide +kernel

theorem test_calAbort_next : (twoOutlets .timing true true).chip.calNotNext := by
  unfold Chip.calNotNext
  decide +kernel

/-- The zone ZM has another outlet, LATCHED or not. -/
def besides (s : State) (p : Protection) : State := onChip s fun c => c.updOutlet 5 fun x => { x with zone := some 0, protection := p }

theorem test_hyp_faultStop : (∀ p ∈ [Protection.latched, .normal], let s := besides (tripped .normal 2 false) p
      s.chip.mainUp = true ∧ s.chip.cal.run = .idle ∧ s.chip.zoneSilent 0 = false ∧
      (∀ k : OutletId, k ≠ 0 → s.chip.outlets[k].zone = some 0 → s.chip.outlets[k].protection = p) ∧
      ∀ i ∈ [Instr.overcurrentAsserted 0, .dcfAsserted 0], after i s (fun t => t.chip.zones[(0 : ZoneId)].power ==
        (if p = .latched then .stopping else .on) && t.chip.zones[(0 : ZoneId)].stopCause ==
        (if p = .latched then some .fault else s.chip.zones[(0 : ZoneId)].stopCause)) = true) ∧
    (∀ d : Bool, let s := onChip (besides (tripped .tripped 2 (!d)) .latched) fun c => c.updGroup 0 fun g => { g with dcf := d }
      s.chip.outlets[(0 : OutletId)].retryTimer = some 9 ∧ s.chip.groups[(0 : GroupId)].dcf = d ∧ s.chip.overcurrentLine 0 = !d ∧
      after (.tripRetryExpiry 0) s (fun t => t.chip.zones[(0 : ZoneId)].stopCause == some .fault) = true) := by decide +kernel

theorem test_hyp_FollowingStateFollows_formulas : playing.chip.enginesAgree ∧ waiting.chip.enginesAgree :=
  ⟨by unfold Chip.enginesAgree; decide +kernel, by unfold Chip.enginesAgree; decide +kernel⟩

/-- ZM is STARTING on the link port L1, whose OBJ it would have the engines for that other zones' sources hold. -/
def rebinding : State := onChip (zoneIn .starting false) fun c =>
  { (c.updZone 0 fun x => { x with binding := some 0, selected := 0 }).updSource 0 fun x => { x with
      offer := .obj, offerReason := .none
      profile := { formatsValid := true, supported := 31, active := none, carriageValid := true, carriageClass := 4 } } with
    engines := #v[Engine.starting 1 .obj [1], Engine.starting 2 .hrs [2]] }

theorem test_offer_changes_within_event : after (.zoneSource (hd 0) 0) rebinding (fun t =>
    t.chip.pageContent false 5 == rebinding.chip.pageContent false 5 && t.chip.sources[(0 : SourceId)].offer == .obj &&
      t.chip.win.revisions[(5 : PageId)] == 2) = true := by decide +kernel

theorem test_am_carries_one_programme (left right : ℚ) : (tunerIn .listening .am).chip.tuner.stereo left right = (left, left) := rfl

theorem test_uncorrectable_groups : ∀ i ∈ [Instr.idGroup none, .nameGroup 0 none, .textGroup 0 true none],
    after i (tunerIn .listening .fm) (fun t => t.chip.tuner == (tunerIn .listening .fm).chip.tuner) = true := by decide +kernel

/-- A room with loudspeakers at some positions. -/
def roomOf (l : List Position) : Room :=
  { outlets := Position.all.map fun p => if p ∈ l then some (Fin.ofNat 24 (posBit p)) else none
    layout := Position.all.map fun p => (p, if p = .fl then .small else .large)
    noLfe := false
    set := playing.chip.ctxs[(0 : ZoneId)].full }

theorem test_hyp_LayoutLoadOrder_rooms : (roomOf []).objectRoutes { number := 0, azimuth := 0, elevation := 1, level := 0 } = [] ∧
    ((roomOf [.fl]).objectRoutes { number := 0, azimuth := 359, elevation := 1, level := -3 }).map Route.coeff = [.hdb (-3)] ∧
    ((roomOf [.fl, .fr]).objectRoutes { number := 0, azimuth := 0, elevation := 0, level := 0 }).map Route.coeff = [.hdb (-6), .hdb (-6)] ∧
    ((roomOf [.tfl, .tfr]).objectRoutes { number := 0, azimuth := 45, elevation := 1, level := 0 }).map Route.coeff = [.hdb 0] ∧
    (roomOf [.lfe1, .fl]).small .fl = true ∧ (roomOf [.fl]).small .fl = false ∧
    ((roomOf [.lfe1, .lfe2, .fl]).split .channel (.pos .c) .fl (-195)).map Route.coeff = [.hdb (-195), .off, .off] := by
  decide +kernel

theorem test_hyp_Formulas : ∀ a ∈ [(-9599 : Int), 0, 2311], -9600 < a ∧ a ≤ 2311 := by decide

/-! ### Slots written out byte by byte (section 12.6) -/

theorem test_slot_volume : (posting (.volume { slot := 31, ticket := 0x01020304, target := 2 } 0 (-80))).map Posting.bytes =
    some ([1, 10, 2, 0, 4, 3, 2, 1, 0, 0, 0, 0, 0xB0, 0xFF, 0xFF, 0xFF] ++ List.replicate 48 0) := by decide +kernel
theorem test_slot_read_zonePower : readSlot 0 ([1, 1, 0, 0, 1, 0, 0, 0, 1, 0, 0, 0] ++ List.replicate 116 0) =
    some (.zonePower (hd 0) 1) := by decide +kernel
theorem test_slot_read_unknown_kind : readSlot 0 ([1, 37, 0, 0, 1, 0, 0, 0] ++ List.replicate 120 0) = none := by decide +kernel

/-! ### Small steps -/

theorem test_volume : after (.volume (hd 0) 1 120) running (fun t => t.chip.zones[(0 : ZoneId)].volume == 30 &&
    t.dram.read 256 == 3 && t.chip.win.nextTicket == 2) = true := by decide +kernel
theorem test_zonePower_on : after (.zonePower (hd 0) 0) running (fun t => t.chip.zones[(0 : ZoneId)].power == .starting &&
    t.chip.zones[(0 : ZoneId)].binding == some 8 && t.chip.zones[(0 : ZoneId)].settleTimer == some 96000 &&
    t.dram.read 256 == 2) = true := by decide +kernel
theorem test_zonePower_off_ramps : after (.zonePower (hd 0) 1) playing (fun t => t.chip.zones[(0 : ZoneId)].power == .stopping &&
    t.chip.zones[(0 : ZoneId)].stopCause == some .order) = true := by decide +kernel
theorem test_zoneSource_ramps : after (.zoneSource (hd 0) 9) playing (fun t => t.chip.zones[(0 : ZoneId)].selected == 9 &&
    t.chip.zones[(0 : ZoneId)].binding == some 8 && t.chip.ctxs[(0 : ZoneId)].holds == [.sourceSwitch]) = true := by decide +kernel
theorem test_badTarget : after (.mute (hd 4) 0) running (fun t => t.dram.read 256 == 4 && t.chip.win.nextTicket == 2) = true := by
  decide +kernel
theorem test_outletAssign : after (.outletAssign (hd 0) 0 0 255 0) running (fun t =>
    t.chip.outlets[(0 : OutletId)].primary == some { zone := 0, position := .fl } &&
    t.chip.outlets[(0 : OutletId)].zone == some 0) = true := by decide +kernel
theorem test_layoutLoad : after (.layoutLoad (hd 0) 32768 11) (withBlock running 32768 [2, 80, 120, 1, 80, 120, 1, 0, 1, 1, 1])
    (fun t => t.chip.ctxs[(0 : ZoneId)].layout == [(.fl, .small), (.fr, .small)]) = true := by decide +kernel
theorem test_measure : after (.measure (hd 0) 4 0 0 5 0 1 1 true 100 (-40)) running (fun t =>
    t.chip.imu.meters[(0 : MeterId)].state == .armed && t.dram.read 256 == 2) = true := by decide +kernel
theorem test_tune : after (.tune (hd 0) 0 87549 0) running (fun t => t.chip.tuner.station.freq == 87500 &&
    t.chip.tuner.state == .idle) = true := by decide +kernel
theorem test_streamSetup : after (.streamSetup (hd 13) 33024 4096 2 1) running (fun t =>
    t.chip.streams[(0 : StreamId)].stopped == false && t.chip.sources[(13 : SourceId)].state == .stalled) = true := by decide +kernel
theorem test_wakeTable : after (.wakeTable (hd 0) 32768 68) (withBlock running 32768 tableBlock) (fun t =>
    t.chip.sbb.window == 63 && t.chip.sbb.wakeInEnable &&
    (t.chip.sbb.table[(1 : Fin 8)].map WakeEntry.bytes) == some [1, 2, 3, 4]) = true := by decide +kernel
theorem test_testSignal : after (.testSignal (hd 0) 1 1 0 (-90)) playing (fun t => t.chip.test.mode == .fixed &&
    t.chip.test.level == -80 && t.chip.ctxs[(0 : ZoneId)].holds == [.test]) = true := by decide +kernel
theorem test_standbyNow : after (.standbyNow (hd 0)) playing (fun t => t.chip.sbb.power == .sleepPending &&
    t.chip.zones[(0 : ZoneId)].power == .stopping) = true := by decide +kernel
theorem test_locked_by_preamble : after (.preamble 7 1) (onChip running fun c => c.updSource 7 fun x =>
    { x with state := .acquiring, phase := some .format, rate := some .r48 }) (fun t =>
    t.chip.sources[(7 : SourceId)].state == .locked) = true := by decide +kernel
theorem test_overcurrent : after (.overcurrentAsserted 0) playing (fun t =>
    t.chip.outlets[(0 : OutletId)].protection == .tripped && t.chip.outlets[(0 : OutletId)].relay == false &&
    t.chip.outlets[(0 : OutletId)].retryTimer == some 96000) = true := by decide +kernel
theorem test_dcf : after (.dcfAsserted 0) playing (fun t => t.chip.outlets[(3 : OutletId)].protection == .latched &&
    t.chip.outlets[(4 : OutletId)].protection == .normal) = true := by decide +kernel
theorem test_meter_closes : after (.meterEdge 5 { source := .edgeIn1, rising := true }) (metering .opened (.win 9)) (fun t =>
    t.chip.imu.meters[(0 : MeterId)].state == .free) = true := by decide +kernel
theorem test_wake_by_pattern : after (.irFrame irOne) (withTable (asleep .standby false)) (fun t =>
    t.chip.sbb.power == .active && t.chip.sbb.wakeCause == some (.pattern 0) && t.chip.sbb.supplyTimer == some 48000 &&
    t.chip.pwrReq) = true := by decide +kernel
theorem test_mainGoodRise : after .mainGoodRise (asleep .active false) (fun t => t.chip.mainUp &&
    t.chip.zones[(0 : ZoneId)].selected == 3 && t.chip.sbb.wakeSource == none) = true := by decide +kernel
theorem test_held_commands : after (.zonePower (hd 0) 0) State.reset (fun t => t == State.reset) = true := by decide +kernel
theorem test_run_window_fault : after .controlRunSet (withBlock (partIn .ready 0 1) 0 (le32 63)) (fun t =>
    t.chip.win.partState == .windowFault) = true := by decide +kernel
theorem test_run_starts : after .controlRunSet (withBlock (partIn .ready 0 1) 0 (le32 64)) (fun t =>
    t.chip.win.partState == .running && t.chip.win.news == 0x3FFF) = true := by decide +kernel
theorem test_post_duplicate : after (.post 1) (withBlock (withBlock running 256 muteOrder.bytes) 512 muteOrder.bytes) (fun t =>
    t.dram.read 256 == slotDone && t.dram.read 512 == slotRefused && t.chip.win.duplicate == 1) = true := by decide +kernel
theorem test_post_takes : after (.post 1) (withBlock running 256 muteOrder.bytes) (fun t =>
    t.chip.zones[(0 : ZoneId)].muted && t.dram.read 256 == 3 && t.chip.win.nextTicket == 2) = true := by decide +kernel
theorem test_post_gap : after (.post 2) (withBlock (partIn .running 0 1) 256
    { muteOrder with head := { hd 0 with ticket := 2 } }.bytes) (fun t => t.chip.win.orderGap == 1 && t.chip.win.nextTicket == 3) = true := by
  decide +kernel
theorem test_soft_reset : after .softResetTakesEffect (onChip playing fun c => c.updWin fun w => { w with softReset := true }) (fun t =>
    t.chip.win.partState == .ready && t.chip.win.softResetCount == 1 && t.chip.zones[(0 : ZoneId)].power == .off) = true := by
  decide +kernel
theorem test_idle_step : (match step running with
    | .next t => t.chip.clock == 512
    | _ => false) = true := by decide +kernel
theorem test_multiplier : multiplier (48 * -50) = 943452 := by decide +kernel
theorem test_decodeTableWord : decodeTableWord 0 0 = none := rfl

end Sys2Proof.Tests
end

section
/-! The pan table against the cosine law (R74). The squares cos²(k·π/32) are enclosed between multiples of 10^−5 by the half-angle
formula and the complement cos² + sin² = 1, both from cos²(π/4) = 1/2. A gain of −n hdB is the rounded 40·log10 of a cosine when
its 80th power, the 40th power of that square, lies from 10^(−2n−1) to 10^(−2n+1), a comparison of whole numbers at the enclosure's
ends. -/

namespace Sys2Proof.Machine

/-! ### The squares of the pan factors -/

/-- The square of the factor that p1 has for k. -/
noncomputable def panCosSq (k : ℕ) : ℝ := Real.cos (k * (Real.pi / 32)) ^ 2

/-- A square lies between the bounds, which count in 10^−5. -/
def Encloses (b : ℕ × ℕ) (x : ℝ) : Prop := b.1 ≤ 10 ^ 5 * x ∧ 10 ^ 5 * x ≤ b.2

/-- Bounds of the squares of the factors for k from 0 to 15. -/
def panCosSqBounds (k : ℕ) : ℕ × ℕ :=
  [(100000, 100000), (99039, 99040), (96193, 96195), (91573, 91574), (85355, 85356), (77778, 77780), (69133, 69135), (59753, 59756),
    (50000, 50000), (40244, 40247), (30865, 30867), (22220, 22222), (14644, 14645), (8426, 8427), (3805, 3807), (960, 961)][k]?.getD
    (0, 100000)

/-- The bounds `b` of a square of at least 1/2 follow from the bounds `d` of the square at the double angle. -/
def HalvesTo (d b : ℕ × ℕ) : Prop :=
  10 ^ 5 ≤ 2 * b.1 ∧ 10 ^ 5 ≤ 2 * b.2 ∧ (2 * b.1 - 10 ^ 5) ^ 2 ≤ 10 ^ 5 * d.1 ∧ 10 ^ 5 * d.2 ≤ (2 * b.2 - 10 ^ 5) ^ 2

/-- The table encloses the square of the factor for k. -/
def PanEnclosed (k : ℕ) : Prop := Encloses (panCosSqBounds k) (panCosSq k)

theorem panCosSqBounds_halves : ∀ k < 8, 0 < k → HalvesTo (panCosSqBounds (2 * k)) (panCosSqBounds k) := by
  unfold HalvesTo
  decide

theorem panCosSqBounds_complement : ∀ k < 8, 0 < k → (panCosSqBounds (16 - k)).1 + (panCosSqBounds k).2 = 10 ^ 5 ∧
    (panCosSqBounds (16 - k)).2 + (panCosSqBounds k).1 = 10 ^ 5 := by decide

theorem panCos_complement {k : ℕ} (hk : k ≤ 16) :
    Real.cos ((16 - k : ℕ) * (Real.pi / 32)) = Real.sin (k * (Real.pi / 32)) := by
  rw [← Real.cos_pi_div_two_sub]
  congr 1
  push_cast [hk]
  ring

theorem panCosSq_complement {k : ℕ} (hk : k ≤ 16) : panCosSq (16 - k) = 1 - panCosSq k := by
  rw [panCosSq, panCosSq, panCos_complement hk, Real.sin_sq]

theorem panCosSq_double (k : ℕ) : panCosSq (2 * k) = (2 * panCosSq k - 1) ^ 2 := by
  have hangle : ((2 * k : ℕ) : ℝ) * (Real.pi / 32) = 2 * (k * (Real.pi / 32)) := by push_cast; ring
  rw [panCosSq, panCosSq, hangle, Real.cos_two_mul]

theorem panCos_pos {k : ℕ} (hk : k < 16) : 0 < Real.cos (k * (Real.pi / 32)) := by
  have hk' : (k : ℝ) < 16 := by exact_mod_cast hk
  refine Real.cos_pos_of_mem_Ioo ⟨?_, ?_⟩ <;> nlinarith [Real.pi_pos, Nat.cast_nonneg (α := ℝ) k]

theorem half_le_panCosSq {k : ℕ} (hk : k ≤ 8) : 1 / 2 ≤ panCosSq k := by
  have hk' : (k : ℝ) ≤ 8 := by exact_mod_cast hk
  have hcos : 0 ≤ Real.cos (2 * (k * (Real.pi / 32))) := by
    refine Real.cos_nonneg_of_mem_Icc ⟨?_, ?_⟩ <;> nlinarith [Real.pi_pos, Nat.cast_nonneg (α := ℝ) k]
  rw [Real.cos_two_mul] at hcos
  unfold panCosSq
  linarith

/-! ### The enclosures -/

theorem encloses_of_halvesTo {d b : ℕ × ℕ} {x : ℝ} (hx : 1 / 2 ≤ x) (hd : Encloses d ((2 * x - 1) ^ 2)) (h : HalvesTo d b) :
    Encloses b x := by
  obtain ⟨hlow, hhigh⟩ := hd
  obtain ⟨hb1, hb2, hsq1, hsq2⟩ := h
  have hsq1' : (2 * b.1 - 10 ^ 5 : ℝ) ^ 2 ≤ 10 ^ 5 * d.1 := by exact_mod_cast hsq1
  have hsq2' : (10 ^ 5 * d.2 : ℝ) ≤ (2 * b.2 - 10 ^ 5) ^ 2 := by exact_mod_cast hsq2
  have hb2' : (10 ^ 5 : ℝ) ≤ 2 * b.2 := by exact_mod_cast hb2
  constructor
  · have hroot : (2 * b.1 - 10 ^ 5 : ℝ) ≤ 10 ^ 5 * (2 * x - 1) := (abs_le_of_sq_le_sq' (by linarith) (by linarith)).2
    linarith
  · have hroot : 10 ^ 5 * (2 * x - 1) ≤ (2 * b.2 - 10 ^ 5 : ℝ) := (abs_le_of_sq_le_sq' (by linarith) (by linarith)).2
    linarith

theorem panEnclosed_of_double {k : ℕ} (h : PanEnclosed (2 * k)) (hk : k < 8) (h0 : 0 < k) : PanEnclosed k := by
  refine encloses_of_halvesTo (half_le_panCosSq hk.le) ?_ (panCosSqBounds_halves k hk h0)
  rw [← panCosSq_double]
  exact h

theorem panEnclosed_complement {k : ℕ} (h : PanEnclosed k) (hk : k < 8) (h0 : 0 < k) : PanEnclosed (16 - k) := by
  obtain ⟨hlow, hhigh⟩ := h
  obtain ⟨hsum1, hsum2⟩ := panCosSqBounds_complement k hk h0
  have hsum1' : ((panCosSqBounds (16 - k)).1 + (panCosSqBounds k).2 : ℝ) = 10 ^ 5 := by exact_mod_cast hsum1
  have hsum2' : ((panCosSqBounds (16 - k)).2 + (panCosSqBounds k).1 : ℝ) = 10 ^ 5 := by exact_mod_cast hsum2
  rw [PanEnclosed, panCosSq_complement (by omega)]
  constructor <;> linarith

theorem panEnclosed_zero : PanEnclosed 0 := by
  constructor <;> norm_num [panCosSqBounds, panCosSq]

theorem panEnclosed_eight : PanEnclosed 8 := by
  have hhalf : panCosSq 8 = 1 / 2 := by linarith [panCosSq_complement (k := 8) (by omega)]
  constructor <;> norm_num [panCosSqBounds, hhalf]

/-- If the table encloses every multiple of 2d, it encloses every multiple of d. -/
theorem panEnclosed_refine {d : ℕ} (hd : d ∣ 8) (h : ∀ k < 16, 2 * d ∣ k → PanEnclosed k) : ∀ k < 16, d ∣ k → PanEnclosed k := by
  have hlow : ∀ k < 8, 0 < k → d ∣ k → PanEnclosed k := fun k hk h0 hdk =>
    panEnclosed_of_double (h (2 * k) (by omega) (Nat.mul_dvd_mul_left 2 hdk)) hk h0
  intro k hk hdk
  obtain rfl | h0 := Nat.eq_zero_or_pos k
  · exact panEnclosed_zero
  obtain hlt | rfl | hgt := Nat.lt_trichotomy k 8
  · exact hlow k hlt h0 hdk
  · exact panEnclosed_eight
  · have hdk' : d ∣ 16 - k := Nat.dvd_sub (hd.mul_left 2) hdk
    have := panEnclosed_complement (hlow (16 - k) (by omega) (by omega) hdk') (by omega) (by omega)
    rwa [Nat.sub_sub_self hk.le] at this

theorem panEnclosed_of_lt {k : ℕ} (hk : k < 16) : PanEnclosed k := by
  have h16 : ∀ k < 16, 2 * 8 ∣ k → PanEnclosed k := fun k hk hdvd =>
    Nat.eq_zero_of_dvd_of_lt hdvd hk ▸ panEnclosed_zero
  have h8 := panEnclosed_refine (d := 8) (by decide) h16
  have h4 := panEnclosed_refine (d := 4) (by decide) h8
  have h2 := panEnclosed_refine (d := 2) (by decide) h4
  exact panEnclosed_refine (d := 1) (by decide) h2 k hk (one_dvd k)

/-! ### The rounded gains -/

/-- Every factor whose square lies between the bounds `b` has −n as its gain in hdB, rounded to the nearest. -/
def RoundsTo (n : ℕ) (b : ℕ × ℕ) : Prop :=
  (10 ^ 5) ^ 40 ≤ 10 ^ (2 * n + 1) * b.1 ^ 40 ∧ 10 ^ (2 * n) * b.2 ^ 40 ≤ 10 * (10 ^ 5) ^ 40

theorem abs_forty_mul_logb_add_le {c : ℝ} (hc : 0 < c) {n : ℕ} (hlow : 1 ≤ 10 ^ (2 * n + 1) * (c ^ 2) ^ 40)
    (hhigh : 10 ^ (2 * n) * (c ^ 2) ^ 40 ≤ 10) : |40 * Real.logb 10 c + n| ≤ 1 / 2 := by
  have hlog (m : ℕ) : Real.logb 10 (10 ^ m * (c ^ 2) ^ 40) = m + 80 * Real.logb 10 c := by
    rw [Real.logb_mul (by positivity) (by positivity), ← pow_mul, Real.logb_pow, Real.logb_pow,
      Real.logb_self_eq_one (by norm_num)]
    norm_num
  have hge := Real.logb_nonneg (b := 10) (by norm_num) hlow
  have hle := Real.logb_le_logb_of_le (b := 10) (by norm_num) (by positivity) hhigh
  rw [hlog] at hge hle
  rw [Real.logb_self_eq_one (by norm_num)] at hle
  push_cast at hge hle
  exact abs_le.mpr ⟨by linarith, by linarith⟩

theorem abs_forty_mul_logb_add_le_of_roundsTo {c : ℝ} (hc : 0 < c) {n : ℕ} {b : ℕ × ℕ} (hb : Encloses b (c ^ 2))
    (h : RoundsTo n b) : |40 * Real.logb 10 c + n| ≤ 1 / 2 := by
  obtain ⟨hlow, hhigh⟩ := hb
  obtain ⟨hfit1, hfit2⟩ := h
  have hfit1' : ((10 ^ 5) ^ 40 : ℝ) ≤ 10 ^ (2 * n + 1) * (b.1 : ℝ) ^ 40 := by exact_mod_cast hfit1
  have hfit2' : (10 ^ (2 * n) * (b.2 : ℝ) ^ 40 : ℝ) ≤ 10 * (10 ^ 5) ^ 40 := by exact_mod_cast hfit2
  have hscale : (0 : ℝ) < (10 ^ 5) ^ 40 := by positivity
  refine abs_forty_mul_logb_add_le hc (le_of_mul_le_mul_left ?_ hscale) (le_of_mul_le_mul_left ?_ hscale)
  · calc (10 ^ 5) ^ 40 * 1 ≤ 10 ^ (2 * n + 1) * (b.1 : ℝ) ^ 40 := by rwa [mul_one]
      _ ≤ 10 ^ (2 * n + 1) * (10 ^ 5 * c ^ 2) ^ 40 := by gcongr
      _ = (10 ^ 5) ^ 40 * (10 ^ (2 * n + 1) * (c ^ 2) ^ 40) := by rw [mul_pow]; ring
  · calc (10 ^ 5) ^ 40 * (10 ^ (2 * n) * (c ^ 2) ^ 40) = 10 ^ (2 * n) * (10 ^ 5 * c ^ 2) ^ 40 := by rw [mul_pow]; ring
      _ ≤ 10 ^ (2 * n) * (b.2 : ℝ) ^ 40 := by gcongr
      _ ≤ (10 ^ 5) ^ 40 * 10 := by rwa [mul_comm (_ ^ 40)]

/-- Every entry of the model's table is the rounded gain of its enclosure; the bound on n makes the search finite. -/
theorem panGain_roundsTo : ∀ k < 16, ∃ n : ℕ, n ≤ 40 ∧ panGain k = some (-(n : ℤ)) ∧ RoundsTo n (panCosSqBounds k) := by
  unfold RoundsTo
  decide

/-- The cosine law: the gain of p1. -/
theorem panGain_near_logb_cos {k : ℕ} (hk : k < 16) :
    ∃ g : ℤ, panGain k = some g ∧ |40 * Real.logb 10 (Real.cos (k * (Real.pi / 32))) - g| ≤ 1 / 2 := by
  obtain ⟨n, -, hgain, hround⟩ := panGain_roundsTo k hk
  have hnear := abs_forty_mul_logb_add_le_of_roundsTo (panCos_pos hk) (panEnclosed_of_lt hk) hround
  exact ⟨-n, hgain, by simpa using hnear⟩

/-- The sine law: the gain of p2 is that of p1 for the complement. -/
theorem panGain_near_logb_sin {k : ℕ} (h0 : 0 < k) (hk : k ≤ 16) :
    ∃ g : ℤ, panGain (16 - k) = some g ∧ |40 * Real.logb 10 (Real.sin (k * (Real.pi / 32))) - g| ≤ 1 / 2 := by
  rw [← panCos_complement hk]
  exact panGain_near_logb_cos (by omega)

/-- Settles O60: the 17 rows by evaluation, the two laws by `panGain_near_logb_cos` and `panGain_near_logb_sin`. -/
theorem panTable : Obligations.PanTable :=
  ⟨by decide, fun _ hk => panGain_near_logb_cos hk, fun _ h0 hk => panGain_near_logb_sin h0 hk⟩

end Sys2Proof.Machine
end

section
/-! The multiplier of a gain against the power of ten (R89). The model's test `roundsTo` compares 1920th powers of whole numbers; it
says that a number does not lie above 2^24 · 10^(a/1920) + 1/2. The search `largest` then finds the floor of that value, held below
16 · 2^24, and every clause follows from this one equation. -/

namespace Sys2Proof.Machine

/-! ### The search -/

/-- One bit of the search: the bit is set where the number with it fits. -/
theorem largest_succ (fits : ℕ → Bool) (top b n : ℕ) :
    largest fits top (b + 1) n =
      if n + 2 ^ b ≤ top ∧ fits (n + 2 ^ b) then largest fits top b (n + 2 ^ b) else largest fits top b n := rfl

/-- The search from n finds the greatest number that fits, where what fits is closed downwards and what fits up to
`top` lies below n + 2^bits. -/
theorem isGreatest_largest {fits : ℕ → Bool} {top : ℕ} (hdown : ∀ j k, j ≤ k → fits k → fits j) (bits : ℕ) :
    ∀ n, n ≤ top → fits n → (∀ k ≤ top, fits k → k < n + 2 ^ bits) →
      IsGreatest {k | k ≤ top ∧ fits k} (largest fits top bits n) := by
  induction bits with
  | zero => exact fun n hn hfit hbound => ⟨⟨hn, hfit⟩, fun k ⟨hk, hkfit⟩ => Nat.lt_succ_iff.mp (hbound k hk hkfit)⟩
  | succ b ih =>
    intro n hn hfit hbound
    rw [largest_succ]
    split
    next hset =>
      obtain ⟨hle, hsetfit⟩ := hset
      refine ih _ hle hsetfit fun k hk hkfit => ?_
      have := hbound k hk hkfit
      omega
    next hclear =>
      refine ih n hn hfit fun k hk hkfit => ?_
      by_contra! hge
      exact hclear ⟨hge.trans hk, hdown _ _ hge hkfit⟩

/-! ### The test -/

/-- What the multiplier is the floor of, times 2^24. -/
noncomputable def halfUp (a : ℤ) : ℝ := 2 ^ 24 * 10 ^ ((a : ℝ) / 1920) + 1 / 2

theorem halfUp_pos (a : ℤ) : 0 < halfUp a := by
  unfold halfUp
  positivity

theorem halfUp_mono : Monotone halfUp := by
  intro a b hab
  unfold halfUp
  gcongr
  norm_num

/-- The 1920th power of a gain's factor is a whole power of ten. -/
theorem ten_rpow_div_pow (a : ℤ) : ((10 : ℝ) ^ ((a : ℝ) / 1920)) ^ 1920 = 10 ^ a := by
  rw [← Real.rpow_natCast, ← Real.rpow_mul (by norm_num), ← Real.rpow_intCast]
  congr 1
  push_cast
  ring

/-- The test's comparison of whole numbers, at both signs of the gain. -/
theorem roundsTo_iff_pow (a : ℤ) (k : ℕ) :
    roundsTo a k ↔ ((2 * k - 1 : ℕ) : ℝ) ^ 1920 ≤ (2 ^ 25) ^ 1920 * 10 ^ a := by
  have htop : ((2 ^ 48000 : ℕ) : ℝ) = (2 ^ 25) ^ 1920 := by rw [Nat.cast_pow, Nat.cast_ofNat, ← pow_mul]
  rw [← htop, roundsTo]
  generalize 2 ^ 48000 = top
  split
  next hpos =>
    lift a to ℕ using hpos
    rw [decide_eq_true_iff, ← Nat.cast_le (α := ℝ)]
    simp
  next hneg =>
    obtain ⟨n, rfl⟩ : ∃ n : ℕ, a = -n := ⟨(-a).toNat, by omega⟩
    rw [decide_eq_true_iff, ← Nat.cast_le (α := ℝ), zpow_neg, ← div_eq_mul_inv, le_div_iff₀ (by positivity)]
    simp

theorem roundsTo_iff (a : ℤ) (k : ℕ) : roundsTo a k ↔ (k : ℝ) ≤ halfUp a := by
  have hfactor : (0 : ℝ) ≤ 2 ^ 25 * 10 ^ ((a : ℝ) / 1920) := by positivity
  rw [roundsTo_iff_pow, ← ten_rpow_div_pow, ← mul_pow, pow_le_pow_iff_left₀ (Nat.cast_nonneg _) hfactor (by norm_num)]
  cases k with
  | zero => simpa [(halfUp_pos a).le] using hfactor
  | succ j =>
    have hodd : 2 * (j + 1) - 1 = 2 * j + 1 := by omega
    rw [hodd, halfUp]
    push_cast
    constructor <;> intro h <;> linarith

/-! ### The multiplier -/

theorem multiplier_of_silent {a : ℤ} (ha : a ≤ Config.silence) : multiplier a = 0 := if_pos ha

/-- The multiplier of a gain above silence: the floor, held below 16. -/
theorem multiplier_eq {a : ℤ} (ha : Config.silence < a) : multiplier a = min (2 ^ 28 - 1) ⌊halfUp a⌋₊ := by
  have hfits (k : ℕ) : roundsTo a k ↔ k ≤ ⌊halfUp a⌋₊ := by rw [roundsTo_iff, Nat.le_floor_iff (halfUp_pos a).le]
  have hfound : IsGreatest {k | k ≤ 2 ^ 28 - 1 ∧ roundsTo a k} (multiplier a) := by
    rw [multiplier, if_neg ha.not_ge]
    refine isGreatest_largest (fun j k hjk hk => ?_) 28 0 (Nat.zero_le _) ((hfits 0).2 (Nat.zero_le _)) fun k hk _ => by omega
    exact (hfits j).2 (hjk.trans ((hfits k).1 hk))
  have hset : {k | k ≤ 2 ^ 28 - 1 ∧ roundsTo a k} = Set.Iic (min (2 ^ 28 - 1) ⌊halfUp a⌋₊) := by
    ext k
    simp [hfits]
  rw [hset] at hfound
  exact hfound.unique isGreatest_Iic

theorem multiplier_lt (a : ℤ) : multiplier a < 2 ^ 28 := by
  obtain ha | ha := le_or_gt a Config.silence
  · simp [multiplier_of_silent ha]
  · rw [multiplier_eq ha]
    omega

theorem multiplier_mono : Monotone multiplier := by
  intro a b hab
  obtain ha | ha := le_or_gt a Config.silence
  · simp [multiplier_of_silent ha]
  · rw [multiplier_eq ha, multiplier_eq (ha.trans_le hab)]
    exact min_le_min_left _ (Nat.floor_mono (halfUp_mono hab))

/-- Up to 2311, the last gain with a factor below 16, the multiplier is not held. -/
theorem halfUp_lt {a : ℤ} (ha : a ≤ 2311) : halfUp a < 2 ^ 28 := by
  have hlast : ¬ roundsTo 2311 (2 ^ 28) := by decide +kernel
  rw [roundsTo_iff, not_le] at hlast
  calc halfUp a ≤ halfUp 2311 := halfUp_mono ha
    _ < 2 ^ 28 := by exact_mod_cast hlast

theorem multiplier_eq_floor {a : ℤ} (hlow : Config.silence < a) (hhigh : a ≤ 2311) : (multiplier a : ℤ) = ⌊halfUp a⌋ := by
  have hheld : ⌊halfUp a⌋₊ < 2 ^ 28 := by
    rw [Nat.floor_lt (halfUp_pos a).le]
    exact_mod_cast halfUp_lt hhigh
  rw [multiplier_eq hlow, min_eq_right (by omega), Int.natCast_floor_eq_floor (halfUp_pos a).le]

/-- The multiplier at +30 hdB, the greatest gain in use. -/
theorem multiplier_thirty : multiplier (48 * 30) = 94345219 := by decide +kernel

theorem sumInto_of_single {y : Ctx} {q : Path} (x : PathId → ℚ) (hy : y.paths = [q]) :
    y.sumInto q.id.outlet x = x q.id * (multiplier q.applied : ℚ) / 2 ^ 24 := by
  simp [Ctx.sumInto, hy]

/-- Settles O59: the floor by `multiplier_eq_floor`, the bound at +30 hdB by `multiplier_mono`, the table by evaluation. -/
theorem multipliers : Obligations.Multipliers :=
  ⟨fun _ hlow hhigh => multiplier_eq_floor hlow hhigh, multiplier_lt, fun _ ha => multiplier_of_silent ha,
    fun _ ha => (multiplier_mono ha).trans multiplier_thirty.le, fun _ _ x hy => sumInto_of_single x hy,
    multiplier_thirty, by decide +kernel⟩

end Sys2Proof.Machine
end
